-- ==== Sys2Proof/Word.lean ====
section
/-! DEFINITION. The word types of the machine and the store of keyed values (a list in one canonical form) that
memories and register files are made of. -/

namespace Sys2Proof

/-- A 64-bit word: a scalar register, an address, an instruction word (R20, R151). -/
abbrev Word := BitVec 64

/-- One 32-bit lane of a vector register (R151). -/
abbrev Lane := BitVec 32

/-- A lane mask: bit i belongs to lane i (R5). -/
abbrev Mask := BitVec 32

/-- One byte of a memory. -/
abbrev Byte := BitVec 8

/-- A sparse store of `w`-bit values by key. Canonical form: keys strictly rising, no entry zero; a key that is
not listed reads as zero. A memory of bytes is `Cells 8`, which is a list of `Host.Cell`. -/
abbrev Cells (w : Nat) := List (Nat × BitVec w)

namespace Cells

variable {w : Nat}

/-- The value at a key; zero where the key is not listed. -/
def get : Cells w → Nat → BitVec w
  | [], _ => 0
  | (k, v) :: r, a => if k = a then v else get r a

/-- Insert an entry in key order. -/
def insert : Cells w → Nat → BitVec w → Cells w
  | [], a, v => [(a, v)]
  | (k, x) :: r, a, v => if a < k then (a, v) :: (k, x) :: r else (k, x) :: insert r a v

/-- Remove a key. -/
def erase (c : Cells w) (a : Nat) : Cells w := c.filter (fun e => e.1 != a)

/-- Write a value at a key, keeping the canonical form: writing zero removes the entry. -/
def set (c : Cells w) (a : Nat) (v : BitVec w) : Cells w :=
  if v = 0 then erase c a else insert (erase c a) a v

/-- The canonical form: keys strictly rising and no zero entry. -/
def wf : Cells w → Bool
  | [] => true
  | (_, v) :: [] => v != 0
  | (k, v) :: (k', v') :: r => v != 0 && decide (k < k') && wf ((k', v') :: r)

end Cells

end Sys2Proof
end

