-- ==== Sys2Proof/Syntax.lean ====
section
/-! DEFINITION. The instruction words by format (R31, R38), the messages of a Dalcor Link, and Instr: one
constructor for every row of the opcode table, the core instructions with the fields of their format and the other
steps of the machine with what names them. -/

namespace Sys2Proof

/-- The fields every instruction word has beside its opcode (R31): PN, PG and FE. -/
structure Guard where
  pn : Bool
  pg : BitVec 4
  fe : BitVec 3
  deriving DecidableEq, Repr

/-- Format R (R38): d, a, b, c and m. -/
structure RWord where
  g : Guard
  d : BitVec 10
  a : BitVec 10
  b : BitVec 10
  c : BitVec 10
  m : BitVec 8
  deriving DecidableEq, Repr

/-- Format I (R38, R40): d, a, m4 and the 64-bit immediate; `pair` says that a prefix word supplied its high bits. -/
structure IWord where
  g : Guard
  d : BitVec 10
  a : BitVec 10
  m4 : BitVec 4
  imm : BitVec 64
  pair : Bool
  deriving DecidableEq, Repr

/-- Format M (R38, R41): d or data, base, index, scope, size, sub and the signed 9-bit offset. -/
structure MWord where
  g : Guard
  d : BitVec 10
  a : BitVec 10
  b : BitVec 10
  scope : BitVec 2
  size : BitVec 3
  sub : BitVec 4
  off : BitVec 9
  deriving DecidableEq, Repr

/-- Format X (R38, R42): rec (rcd), crd, ctr, aux and code. -/
structure XWord where
  g : Guard
  rcd : BitVec 10
  crd : BitVec 10
  ctr : BitVec 10
  aux : BitVec 10
  code : BitVec 8
  deriving DecidableEq, Repr

/-- Format Q (R38): a, b, c, s and m. -/
structure QWord where
  g : Guard
  a : BitVec 10
  b : BitVec 10
  c : BitVec 10
  s : BitVec 10
  m : BitVec 8
  deriving DecidableEq, Repr

/-- Format B (R38, R43): u, the reserved bits 46:40, a and the signed word offset. -/
structure BWord where
  g : Guard
  u : Bool
  rsv : BitVec 7
  a : BitVec 10
  off : BitVec 30
  deriving DecidableEq, Repr

/-- The sixteen element types, in the order of their codes (R52). -/
inductive Ty where
  | i8 | i16 | i32 | i64 | n8 | n16 | n32 | n64
  | f64 | f32 | bf16 | f16 | e4m3 | e5m2 | e2m1 | ix4
  deriving DecidableEq, Repr

/-- A write that a batch carries to its receiver (R316): bytes at an address, or a `red` with its operation and the requester
id of a canonical one (R284, R285), whose operand the bytes are. -/
structure PeerOp where
  addr : Nat
  data : List Byte
  red : Option (Nat × Option Nat) := none
  deriving DecidableEq, Repr

/-- A message of a Dalcor Link (R518 to R521): peer reads and their replies, atomics and their replies, batches and
the reports of batches applied, and management messages, whose content is not stated. How messages are packed into a flit's payload is not stated. -/
inductive Msg where
  | readReq (src tag addr len asid : Nat) (clock : List (BitVec 32)) (need : Nat) (failover : Bool)
  | readReply (src tag : Nat) (data : List Byte) (clock : List (BitVec 32))
  | atomReq (src tag addr op size asid : Nat) (operand comparand : List Byte) (failover : Bool)
  | atomReply (src tag : Nat) (old : List Byte)
  | batch (src asid : Nat) (stamp : List (BitVec 32)) (writes : List PeerOp) (keys : List Nat) (incr : Option Nat)
  | applied (src count : Nat)
  | management (data : List Byte)
  deriving DecidableEq, Repr

/-- A flit as the receiver sees it (R518, R519): sequence number, acknowledgement, kind, messages, and whether its
CRC is good. -/
structure Flit where
  seq : BitVec 16
  ack : BitVec 16
  kind : Nat
  msgs : List Msg
  crcOk : Bool
  deriving DecidableEq, Repr

/-- One constructor per row of the opcode table. -/
inductive Instr where
  /-- NOP (R130): No operation; permitted in every clause class -/
  | nop (w : RWord)
  /-- BRA (R131): Branches the executing lanes to a label, dividing the split under R115 when paths differ -/
  | bra (w : BWord)
  /-- SKIP (R133): Predicates the next n words of the clause at decode -/
  | skip (w : IWord)
  /-- BRX (R134): Branches each executing lane to a target held in a register -/
  | brx (w : RWord)
  /-- CALL (R135): Pushes a return link in each taken lane and then branches as bra does -/
  | call (w : BWord)
  /-- RET (R136): Pops each executing lane's link and branches to it -/
  | ret (w : RWord)
  /-- LOOP (R137): Decrements a counter and branches while the result is nonzero -/
  | loop (w : BWord)
  /-- EXIT (R138): Ends the executing lanes when its chunk commits, and ends the group when no lane is left -/
  | exit (w : RWord)
  /-- YIELD (R139): Closes the chunk and, at commit, restamps the split and takes any pending pre-emption -/
  | yield (w : RWord)
  /-- SPAWN (R140): Reserves a bin place at issue, and places the thread in the bin when its chunk commits -/
  | spawn (w : XWord)
  /-- LAUNCH (R142): Reserves a dispatcher queue entry, then reads the launch record at commit and queues the grid -/
  | launch (w : XWord)
  /-- BAR (R144): Arrives at a group, team, cluster or grid barrier and waits for its release -/
  | bar (w : IWord)
  /-- BARW (R145): Arrives at a wire-tree tag in service mode and waits for its release -/
  | barw (w : IWord)
  /-- TRAP (R481): Raises a software trap SWTRAP when any lane executes -/
  | trap (w : IWord)
  /-- RTE (R482): Returns from a trap handler, retrying the trapping instruction or continuing after it -/
  | rte (w : IWord)
  /-- SYSRD (R146): Reads a system register into a scalar or vector register -/
  | sysrd (w : IWord)
  /-- SYSWR (R147): Writes a system register, governing later instructions of the split -/
  | syswr (w : IWord)
  /-- CHUNK (R322): Places a chunk boundary, optionally waiting for the ended chunk to commit -/
  | chunk (w : RWord)
  /-- FENCE (R323): Acts between chunks to order memory at a scope as acquire, release or full fence -/
  | fence (w : RWord)
  /-- IFENCE (R325): Discards the core's fetched instruction words so later fetches see visible code -/
  | ifence (w : RWord)
  /-- ELECT (R148): Sets a predicate true only in the lowest executing lane -/
  | elect (w : RWord)
  /-- VOTE (R149): Combines a predicate across the split's executing lanes by or, and, same, mask or odd -/
  | vote (w : RWord)
  /-- ACQX (R168): Requests extended register blocks, waiting, trying or posting -/
  | acqx (w : IWord)
  /-- RELX (R170): Releases held extended register blocks after the earlier chunk commits -/
  | relx (w : IWord)
  /-- WAITC (R238): Waits until a completion counter satisfies a target, or reads it once with .try -/
  | waitc (w : RWord)
  /-- CLOCK (R150): Writes CLOCK or TIME, as read at issue, into a scalar register -/
  | clock (w : RWord)
  /-- KREPL (R499): Compares the version of a kernel table entry and swaps in a new image, returning a status -/
  | krepl (w : RWord)
  /-- BRK (R481): Raises a breakpoint trap BRK when any lane executes -/
  | brk (w : IWord)
  /-- IADD (R192): Integer add, optionally saturating -/
  | iadd (w : RWord)
  /-- ISUB (R192): Integer subtract, optionally saturating -/
  | isub (w : RWord)
  /-- IMUL (R192): Integer multiply, optionally saturating -/
  | imul (w : RWord)
  /-- IMULH (R192): High W bits of the integer product -/
  | imulh (w : RWord)
  /-- IMAD (R193): Integer multiply-add modulo 2^W -/
  | imad (w : RWord)
  /-- IDIV (R194): Integer division or remainder, with defined results for zero and overflow -/
  | idiv (w : RWord)
  /-- IMIN (R195): Integer minimum -/
  | imin (w : RWord)
  /-- IMAX (R195): Integer maximum -/
  | imax (w : RWord)
  /-- ISAT (R196): Clamps an integer to a narrower integer type and sets SAT when it clamps -/
  | isat (w : RWord)
  /-- AND (R197): Bitwise and -/
  | and (w : RWord)
  /-- OR (R197): Bitwise or -/
  | or (w : RWord)
  /-- XOR (R197): Bitwise exclusive or -/
  | xor (w : RWord)
  /-- ANDN (R197): Bitwise a and not b -/
  | andn (w : RWord)
  /-- SHL (R198): Shift left -/
  | shl (w : RWord)
  /-- SHR (R198): Logical or arithmetic shift right -/
  | shr (w : RWord)
  /-- FSHF (R199): Funnel shift of two concatenated words -/
  | fshf (w : RWord)
  /-- BFX (R200): Extracts a bit field -/
  | bfx (w : RWord)
  /-- BFI (R201): Inserts a bit field -/
  | bfi (w : RWord)
  /-- POPC (R202): Counts one bits -/
  | popc (w : RWord)
  /-- CLZ (R202): Counts leading zero bits -/
  | clz (w : RWord)
  /-- BREV (R202): Reverses bit order -/
  | brev (w : RWord)
  /-- ICMP (R203): Integer compare into a predicate -/
  | icmp (w : RWord)
  /-- SEL (R171): Selects one of two sources by a predicate -/
  | sel (w : RWord)
  /-- MOV (R172): Moves an immediate or a register -/
  | mov (w : IWord)
  /-- LEA (R204): Shifts a register and adds an immediate -/
  | lea (w : IWord)
  /-- IADDC (R205): Adds or subtracts with carry through a predicate -/
  | iaddc (w : RWord)
  /-- MERGE (R206): Ordered merge of two lane-sorted sequences across the executing lanes -/
  | merge (w : RWord)
  /-- FADD (R208): Floating-point add -/
  | fadd (w : RWord)
  /-- FSUB (R208): Floating-point subtract -/
  | fsub (w : RWord)
  /-- FMUL (R208): Floating-point multiply -/
  | fmul (w : RWord)
  /-- FFMA (R209): Fused multiply-add with one rounding -/
  | ffma (w : RWord)
  /-- FMIN (R210): Floating-point minimum -/
  | fmin (w : RWord)
  /-- FMAX (R210): Floating-point maximum -/
  | fmax (w : RWord)
  /-- FRCP (R211): Correctly rounded reciprocal -/
  | frcp (w : RWord)
  /-- FRSQ (R211): Correctly rounded reciprocal square root -/
  | frsq (w : RWord)
  /-- FSQRT (R211): Correctly rounded square root -/
  | fsqrt (w : RWord)
  /-- FEXP2 (R212): Base-2 exponential rounded to nearest even -/
  | fexp2 (w : RWord)
  /-- FLOG2 (R212): Base-2 logarithm rounded to nearest even -/
  | flog2 (w : RWord)
  /-- FCMP (R213): Floating-point compare into a predicate -/
  | fcmp (w : RWord)
  /-- FCLASS (R214): Classifies a floating-point code as a one-hot value -/
  | fclass (w : RWord)
  /-- FSGN (R215): Copies, negates, xors or clears the sign bit -/
  | fsgn (w : RWord)
  /-- CVT (R88): Converts between any two of the sixteen element types -/
  | cvt (w : RWord)
  /-- QNT (R90): Quantises a 32-lane block into narrow codes and an E8M0 scale -/
  | qnt (w : RWord)
  /-- DQNT (R92): Dequantises codes with an E8M0 scale to f32 -/
  | dqnt (w : RWord)
  /-- FDOT2 (R216): Two-element dot product accumulated into f32 -/
  | fdot2 (w : RWord)
  /-- FRND (R217): Rounds to an integral value -/
  | frnd (w : RWord)
  /-- FSCALE (R218): Multiplies by a power of two -/
  | fscale (w : RWord)
  /-- FREDU (R219): Reduces the executing lanes by a fixed pairwise tree into a scalar -/
  | fredu (w : RWord)
  /-- SHFL (R173): Shuffles values across lanes by index, up, down or xor -/
  | shfl (w : RWord)
  /-- PERM (R175): Permutes bytes of two sources under a selector -/
  | perm (w : RWord)
  /-- PLOG (R176): Applies an 8-bit truth table to three predicates -/
  | plog (w : RWord)
  /-- PCNT (R177): Counts or ranks predicate bits across lanes -/
  | pcnt (w : RWord)
  /-- SCAN (R178): Prefix add, min or max across the executing lanes -/
  | scan (w : RWord)
  /-- VTOS (R180): Copies one vector lane into a scalar register -/
  | vtos (w : RWord)
  /-- STOV (R181): Writes a scalar into one vector lane -/
  | stov (w : RWord)
  /-- COMPACT (R182): Packs the values of predicate-selected lanes into the lowest lanes -/
  | compact (w : RWord)
  /-- REBAL (R389): Spreads the items of uneven rows across lanes -/
  | rebal (w : RWord)
  /-- NZSCAN (R390): Engine command that lists the nonzero elements or blocks of an A-buffer range -/
  | nzscan (w : XWord)
  /-- ALSET (R342): Loads an alphabet register from a scalar, refusing illegal images -/
  | alset (w : RWord)
  /-- ALGET (R343): Reads an alphabet register or its map table -/
  | alget (w : RWord)
  /-- SUNPK (R344): Unpacks symbols from packed words -/
  | sunpk (w : RWord)
  /-- SPACK (R346): Packs symbols into words -/
  | spack (w : RWord)
  /-- SLD (R348): Loads one symbol from packed words in memory -/
  | sld (w : MWord)
  /-- SST (R349): Stores one symbol into a packed word in memory, atomically against other writers -/
  | sst (w : MWord)
  /-- SDOT (R350): Exact dot product of the digits of two packed words -/
  | sdot (w : RWord)
  /-- SMAP (R351): Loads an alphabet register's map table from lanes 0 to 15 -/
  | smap (w : RWord)
  /-- SCHK (R352): Tests packed words for validity into a predicate -/
  | schk (w : RWord)
  /-- SCVT (R353): Re-radixes a packed word from one alphabet to another -/
  | scvt (w : RWord)
  /-- SMADD (R354): Digit-wise modular multiply-add of packed words -/
  | smadd (w : RWord)
  /-- SCNT (R355): Counts symbols of a word equal or unequal to a value -/
  | scnt (w : RWord)
  /-- LDS (R240): Plain scratchpad load -/
  | lds (w : MWord)
  /-- STS (R240): Plain scratchpad store that marks its words full -/
  | sts (w : MWord)
  /-- LDSF (R242): Waits for full words, reads them and marks them empty -/
  | ldsf (w : MWord)
  /-- STSE (R242): Waits for empty words, writes them and marks them full -/
  | stse (w : MWord)
  /-- LDSP (R242): Waits for full words and reads them, leaving them full -/
  | ldsp (w : MWord)
  /-- FESET (R244): Sets or clears the full/empty bits of a scratchpad range -/
  | feset (w : MWord)
  /-- ATOMS (R246): Team atomic on a G word -/
  | atoms (w : MWord)
  /-- LDC (R249): Cluster SRAM load -/
  | ldc (w : MWord)
  /-- STC (R249): Cluster SRAM store -/
  | stc (w : MWord)
  /-- ATOMC (R250): Cluster atomic at the die's cluster atomic unit -/
  | atomc (w : MWord)
  /-- LDSX (R251): Contiguous block load from a scratchpad buffer -/
  | ldsx (w : MWord)
  /-- STSX (R251): Contiguous block store to a scratchpad buffer -/
  | stsx (w : MWord)
  /-- LDG (R278): Global load, optionally acquiring -/
  | ldg (w : MWord)
  /-- STG (R278): Global store, optionally releasing -/
  | stg (w : MWord)
  /-- ATOMG (R279): Device or system atomic applied at the home slice -/
  | atomg (w : MWord)
  /-- CASG (R280): Compare and swap of 32, 64 or 128 bits in device memory -/
  | casg (w : MWord)
  /-- PREF (R281): Prefetches blocks into the L1 or the home L2 without visible effect -/
  | pref (w : MWord)
  /-- LDGC (R282): Loads from a compressed ZM or D64 image of slots -/
  | ldgc (w : MWord)
  /-- STGS (R283): Streaming store that allocates no cache line -/
  | stgs (w : MWord)
  /-- RED (R284): Reduction without return, applied at the home when its chunk commits -/
  | red (w : MWord)
  /-- PROBE (R286): Returns the translation status of an address without parking -/
  | probe (w : MWord)
  /-- MIGR (R287): Starts migration of copy-only pages and returns each page's status -/
  | migr (w : MWord)
  /-- XCOPY (R392): Engine copy described by a shape record -/
  | xcopy (w : XWord)
  /-- XFORM (R393): Engine transform selected by a transform code -/
  | xform (w : XWord)
  /-- XGATH (R394): Gathers table rows by an index list into dense rows -/
  | xgath (w : XWord)
  /-- XSCAT (R394): Scatters or adds dense rows into table rows by an index list -/
  | xscat (w : XWord)
  /-- GNODE (R396): Arms graph nodes through the die's graph walker -/
  | gnode (w : XWord)
  /-- GRUN (R397): Starts a walk of a dependence graph at a root node -/
  | grun (w : XWord)
  /-- EVMAP_MAP (R398): Sets a ROUTE row of the event matrix when its chunk commits -/
  | evmapMap (w : XWord)
  /-- EVMAP_PULSE (R398): Raises software event source 8 to 15 when its chunk commits -/
  | evmapPulse (w : XWord)
  /-- EVMAP_CLEAR (R398): Clears the team's credits of the named gates when its chunk commits -/
  | evmapClear (w : XWord)
  /-- XFILL (R399): Fills a described destination with a value -/
  | xfill (w : XWord)
  /-- XPEER (R400): One-sided put or get to or from a peer package -/
  | xpeer (w : XWord)
  /-- XCANCEL (R401): Cancels the team's unfinished commands and walks that name a counter -/
  | xcancel (w : XWord)
  /-- EBB (R460): Sends an evict-and-compact command for a sequence to the die's Ebb engine -/
  | ebb (w : XWord)
  /-- KVMAP (R461): Maps a logical token index to its slot location, position or mass -/
  | kvmap (w : RWord)
  /-- MMA (R423): Matrix multiply of one step into C tiles -/
  | mma (w : QWord)
  /-- MLOOP (R423): Matrix multiply over STEPS K steps -/
  | mloop (w : QWord)
  /-- MSPARSE (R423): Matrix multiply over a list of live K positions -/
  | msparse (w : QWord)
  /-- MZERO (R426): Clears a range of C to +0 -/
  | mzero (w : XWord)
  /-- MRD (R427): Reads C words, checksums or residues into a vector register -/
  | mrd (w : RWord)
  /-- MWR (R428): Writes a vector register into C through the store buffer -/
  | mwr (w : RWord)
  /-- MSCALE (R429): Binds or unbinds the team's A or B scale tile -/
  | mscale (w : XWord)
  /-- OPRDY (R430): Gives the group's operand credit for joint matrix commands -/
  | oprdy (w : RWord)
  /-- MCHK (R425): Computes checksum residues of a checksummed C tile -/
  | mchk (w : QWord)
  /-- ATTN (R459): Attention over a KV sequence, optionally causal, rotated and accumulating mass -/
  | attn (w : XWord)
  /-- MCONV (R431): Converts or quantises C into a narrow type in W, A or G -/
  | mconv (w : XWord)
  /-- MREL (R433): Marks the group's operand latch for release -/
  | mrel (w : RWord)
  /-- SAFE_POINT_MARKER (R495): Portable safe-point marker word, executing as nop -/
  | safePointMarker
  /-- PORTABLE_INSTRUCTION (R495): A Corsis portable word forms and executes its native instruction -/
  | portableInstruction (w : Word)
  /-- SRSEED_WRITE (R78): A write of SRSEED sets the stochastic-rounding count to 0 -/
  | srseedWrite (v : Word)
  /-- FLAGS_REGISTER_WRITE (R191): A write of FPFLAGS, MXFLAGS or XFLAGS is held with its chunk and merged at commit -/
  | flagsRegisterWrite (n : BitVec 12) (v : Word)
  /-- FAULTINJ_ARM (R421): A write with ARM = 1 arms one C bit flip for the team -/
  | faultinjArm (v : Word)
  /-- FAULTINJ_DISARM (R421): A write with ARM = 0 disarms the flip -/
  | faultinjDisarm (v : Word)
  /-- TRAPPC_WRITE (R472): A write of TRAPPC voids the set-aside resume state -/
  | trappcWrite (v : Word)
  /-- TRAPCAUSE_WRITE (R472): A write of TRAPCAUSE, voiding the resume state when it sets INTRAP from 0 -/
  | trapcauseWrite (v : Word)
  /-- CLAUSE_HEADER_FETCH (R26): Fetches and checks a clause header and applies reconvergence and merging -/
  | clauseHeaderFetch
  /-- CANDIDATE_PROMOTION (R112): A candidate passed over for 256 cycles is promoted -/
  | candidatePromotion (gid sp : Nat)
  /-- CHUNK_COMMIT (R301): A ready chunk is granted a key and takes effect at its place in the global order -/
  | chunkCommit (gid sp : Nat)
  /-- COMMIT_ROUND_CLOSE (R300): Every 64 cycles all commit sequencers close a round in step -/
  | commitRoundClose
  /-- PHASE_TWO (R300): A multi-die chunk takes its key once every sequencer has reported -/
  | phaseTwo (gid sp : Nat)
  /-- LONG_LATENCY_WRITEBACK (R160): A long-latency result is written and its destination marked full -/
  | longLatencyWriteback (gid idx : Nat)
  /-- MISS_QUEUE_RETRY (R260): A request returned by a full miss queue is sent again after a time -/
  | missQueueRetry (idx : Nat)
  /-- MISS_LOG_RECORD (R261): A 32-byte miss record is written to the die's miss log ring -/
  | missLogRecord (idx : Nat)
  /-- TABLE_WALK_COMPLETE (R259): A walk finds a valid leaf, installs it and serves the parked requests -/
  | tableWalkComplete (idx : Nat)
  /-- NOTICE (R507): A write of a die's translation notice register starts R263's removal of TLB entries -/
  | notice (fn die : Nat) (v : Word)
  /-- NOTICE_COMPLETE (R263): After in-flight accesses are performed the notice completes and parked requests walk again -/
  | noticeComplete (die : Nat)
  /-- MIGRATION_COMPLETE (R267): The copy ends, the leaf is rewritten and parked requests are served in order -/
  | migrationComplete (idx : Nat) (data : List Byte)
  /-- FREE_FRAME_TAIL (R507): Software adds a free-frame entry, letting a waiting migration take it -/
  | freeFrameTail (fn off : Nat) (v : Word)
  /-- RED_FOLD (R285): A slice folds a canonical reduction sum into its word when it has no other work -/
  | redFold (idx : Nat)
  /-- BATCH_APPLY (R317): A package applies a received batch once its clock conditions hold -/
  | batchApply (idx : Nat)
  /-- PEER_READ_SERVE (R319): A home package serves a peer read once its clock covers the carried clock -/
  | peerReadServe (idx : Nat)
  /-- PEER_READ_DELIVERY (R319): The requester delivers a peer reply once its clock reaches the reply's clock -/
  | peerReadDelivery (idx : Nat)
  /-- XBLOCK_GRANT (R156): The head request of the extended pool queue is granted whole -/
  | xblockGrant (core : Nat)
  /-- BIN_TIMER_EXPIRY (R106): A spawn bin's timer expires after BINTIMER cycles -/
  | binTimerExpiry (core bin : Nat)
  /-- BIN_LAUNCH (R106): A bin launches a group once its condition holds and resources are free -/
  | binLaunch (core bin : Nat)
  /-- CLUSTER_PLACEMENT (R102): The dispatcher places a grid's next cluster on the least-loaded fitting core or rectangle -/
  | clusterPlacement
  /-- LEVEL_HEAD_STARVATION (R98): A head unable to place for 2^20 cycles blocks lower levels -/
  | levelHeadStarvation (level : Nat)
  /-- PREEMPT_STARVATION (R476): A head unable to place for 2^16 cycles triggers pre-emption of lower levels -/
  | preemptStarvation (level : Nat)
  /-- TEAM_ALLOTMENT_RELEASE (R388): A team's allotment is released once its groups, bins and commands are done -/
  | teamAllotmentRelease (tid : Nat)
  /-- GRID_COMPLETION (R104): A grid completes when its last cluster has released and its completion is reported -/
  | gridCompletion (grid : Nat)
  /-- BARRIER_RELEASE (R123): A completed barrier releases its waiting splits -/
  | barrierRelease (scope obj id : Nat)
  /-- BARW_INSTANCE_RELEASE (R125): A wire-tree instance releases its waiters 96 cycles after its last counted arrival -/
  | barwInstanceRelease (tag : Nat)
  /-- COMMAND_ACCEPTANCE (R368): A committed command passes from the port to its unit queue or the held pool -/
  | commandAcceptance (core : Nat)
  /-- GATE_RELEASE (R384): A held command on a credited gate takes a credit and goes to its unit queue -/
  | gateRelease (tid gate : Nat)
  /-- ENGINE_CHUNK_COMMIT (R306): An engine chunk of 4 KiB of destination takes a key and commits -/
  | engineChunkCommit (kid : Nat)
  /-- COMMAND_FINISH (R236): A finished command updates its completion counter and pulses its event source -/
  | commandFinish (kid : Nat)
  /-- MATRIX_COMMAND_START (R411): A matrix command at the head of its team's order starts once its contributors' credits exist -/
  | matrixCommandStart (kid : Nat)
  /-- OPERAND_LATCH_RELEASE (R433): The operand latch is released once earlier commands have read their A operands -/
  | operandLatchRelease (gid : Nat)
  /-- ATTN_SNAPSHOT (R452): An attn takes one engine chunk reading the entry and headers and raising READERS -/
  | attnSnapshot (kid : Nat)
  /-- ATTN_RELEASE (R452): A release chunk updates masses, lowers READERS and returns a retired page -/
  | attnRelease (kid : Nat)
  /-- EBB_CLAIM (R456): The Ebb engine selects kept tokens, takes pool pages and sets BUSY -/
  | ebbClaim (kid : Nat)
  /-- EBB_COPY (R456): Kept tokens are copied into new pages and the new list is written -/
  | ebbCopy (kid : Nat)
  /-- EBB_SWAP (R456): One engine chunk carries masses, retires old pages and swaps the entry -/
  | ebbSwap (kid : Nat)
  /-- GRAPH_NODE_FINISH (R386): A finished node updates its successors and launches those that become ready -/
  | graphNodeFinish (kid : Nat)
  /-- TRAP_DELIVERY (R468): After the prefix commits, the trap registers are written and the handler starts -/
  | trapDelivery (gid sp : Nat)
  /-- CLUSTER_SAVE (R477): A chosen cluster's splits stop and the cluster is saved to the save region -/
  | clusterSave (cid : Nat)
  /-- CLUSTER_RESUME (R479): A saved cluster is placed again and its groups restored -/
  | clusterResume (cid : Nat)
  /-- TRANSLATION_COMPLETE (R497): The translator unit writes NATIVE and SPMAP if DESC and VERSION are unchanged -/
  | translationComplete (idx : Nat) (native spmap : Word) (image : List Byte)
  /-- HOST_CXL_MEM_REQUEST (R502): A CXL.mem request forms one engine chunk on device memory -/
  | hostCxlMemRequest (fn addr len : Nat) (data : Option (List Byte)) (failed : Bool)
  /-- HOST_ATOMICOP_REQUEST (R501): A received PCI Express AtomicOp is completed with Unsupported Request -/
  | hostAtomicopRequest (fn : Nat)
  /-- LAUNCH_PORT_WRITE (R514): A 64-byte record written to the launch port is accepted or discarded -/
  | launchPortWrite (fn addr : Nat) (data : List Byte)
  /-- LAUNCH_RECORD_READ (R516): The dispatcher reads the record at the port head and queues or refuses it -/
  | launchRecordRead
  /-- RING_HEAD_WRITE (R505): Software advances a ring's HEAD, letting waiting entries be written -/
  | ringHeadWrite (fn off : Nat) (v : Word)
  /-- OWNCLAIM (R513): A claim or hand-over of control ownership by expected epoch -/
  | ownclaim (fn : Nat) (v : Word)
  /-- HEARTBEAT (R503): An owner's write restarts the lapse timer -/
  | heartbeat (fn : Nat)
  /-- WARM_RESET (R527): RESETCTL = 1 or PERST# resets registers, queues and slots and restarts from step 2 -/
  | warmReset (fn : Option Nat)
  /-- CONTEXT_SLOT_REMOVE (R527): RESETCTL = 2 + 256c ends the slot's grids and clears the slot -/
  | contextSlotRemove (fn slot : Nat)
  /-- COLD_RESET (R527): Power applied starts the whole start-up sequence -/
  | coldReset
  /-- STARTUP_READY (R526): Start-up ends and READY is set -/
  | startupReady
  /-- FUNCTION_LEVEL_RESET (R527): Clears the function's completion ring and releases ownership if it is the owner -/
  | functionLevelReset (fn : Nat)
  /-- PREEMPT_CONTEXT (R510): PREEMPT kind 1 saves every resident cluster of a context -/
  | preemptContext (fn : Nat) (v : Word)
  /-- PREEMPT_GRID (R510): PREEMPT kind 2 saves every resident cluster of one grid -/
  | preemptGrid (fn : Nat) (v : Word)
  /-- PREEMPT_CORE (R510): PREEMPT kind 3 saves every cluster with a team on a core -/
  | preemptCore (fn : Nat) (v : Word)
  /-- CONTEXT_SLOT_CTL (R506): A write of a context slot's CTL sets ASID, VALID and launch permissions -/
  | contextSlotCtl (fn slot : Nat) (v : Word)
  /-- MANAGEMENT_REGISTER_WRITE (R504): A write to a management register with no row of its own, effective from the owner -/
  | managementRegisterWrite (fn off : Nat) (v : Word)
  /-- THROTTLE_LEVEL_CHANGE (R529): The throttle level rises over limits and falls after 1 ms below them -/
  | throttleLevelChange (level : Nat)
  /-- THERMAL_SHUTDOWN (R529): At 110 °C every context is ended and the package powers down -/
  | thermalShutdown
  /-- MACHINE_ERROR (R525): An uncorrectable error is logged and the affected contexts' grids are ended -/
  | machineError (store unit : Nat) (addr ctxs : Word)
  /-- CORRECTED_SOFT_ERROR (R524): A corrected soft error is counted and changes no result -/
  | correctedSoftError (die : Nat)
  /-- D3HOT_ENTRY (R528): In D3hot the dispatcher stops placing and pre-empts resident clusters -/
  | d3hotEntry
  /-- D0_ENTRY (R528): Return to D0 resumes placement -/
  | d0Entry
  /-- FLIT_RECEIVE (R519): A link flit is accepted in sequence with a good CRC or discarded -/
  | flitReceive (port : Nat) (flit : Flit)
  /-- FLIT_REPLAY (R519): An unacknowledged flit for 2 µs resends every held flit from it -/
  | flitReplay (port : Nat)
  /-- LINK_PORT_DOWN (R521): A port failing to retrain in 10 ms is marked down and its requests fail over -/
  | linkPortDown (port : Nat)
  /-- UNASSIGNED_OPCODE (R48): A word at an instruction position that forms no instruction (an unassigned opcode, a 0xC5 word inside a clause, or a stray prefix) traps at decode -/
  | unassignedOpcode (w : Word)
  /-- STORE_PERFORMED (R310): In relaxed mode a store, red or sst lane reaches its home, or is acknowledged by the host or peer, and is then performed -/
  | storePerformed (gid sp idx : Nat)
  /-- LINK_PORT_UP (R521): A Dalcor Link port completes training after a warm reset of the package at either end, sets UP, and returns the clock entry of a reset peer to 0 -/
  | linkPortUp (port pkg : Nat) (peerReset : Bool)
  /-- CONFIGURATION_REQUEST (R526): A host PCI Express configuration request is answered, with Request Retry Status until READY is set -/
  | configurationRequest (fn : Nat)
  deriving DecidableEq, Repr

end Sys2Proof
end

