-- ==== Sys2Proof/Config.lean ====
section
/-! DEFINITION. The values the manual leaves open (R9): free values, which nothing in the model can evaluate. -/

namespace Sys2Proof

/-- Free values: the n-th value that the manual leaves undefined (R9). State.free counts the draws (log 3). -/
opaque Config.freeValue : Nat → BitVec 64

end Sys2Proof
end

