-- ==== Sys2Proof/Machine/Num.lean ====
section
/-! DEFINITION. Exact numbers, the sixteen element formats, rounding and conversion (03_number_formats.md). A
finite value is (-1)^neg * mag * 2^e with a natural magnitude; nothing is rounded but where a rounding function
stands (R8). -/

namespace Sys2Proof

namespace Machine

/-- The slice x<hi:lo> (R4). -/
def slice (x hi lo : Nat) : Nat := (x >>> lo) % 2 ^ (hi + 1 - lo)

/-- Bit n of x. -/
def bitAt (x n : Nat) : Bool := (x >>> n) % 2 == 1

/-- x<w-1:0> read as two's complement. -/
def toSigned (w x : Nat) : Int := if x % 2 ^ w < 2 ^ (w - 1) then (x % 2 ^ w : Nat) else (x % 2 ^ w : Nat) - (2 ^ w : Nat)

/-- An integer reduced modulo 2^w. -/
def wrap (w : Nat) (x : Int) : Nat := (x % (2 ^ w : Nat)).toNat

/-- 2^k for an integer k read as 0 below 0: a shift amount. -/
def pow2 (k : Int) : Nat := 2 ^ k.toNat

/-! ### Sticky flags (R71) -/

abbrev Flags := BitVec 7
def fNV : Flags := 1
def fDZ : Flags := 2
def fOF : Flags := 4
def fUF : Flags := 8
def fNX : Flags := 16
def fSAT : Flags := 32
def fICW : Flags := 64

/-! ### Dyadic numbers -/

/-- The exact number m * 2^e. -/
structure Dy where
  m : Int
  e : Int
  deriving DecidableEq, Repr

namespace Dy
def zero : Dy := ⟨0, 0⟩
def ofInt (x : Int) : Dy := ⟨x, 0⟩
def add (x y : Dy) : Dy :=
  if x.m = 0 then y else if y.m = 0 then x else
  let e := min x.e y.e
  ⟨x.m * pow2 (x.e - e) + y.m * pow2 (y.e - e), e⟩
def neg (x : Dy) : Dy := ⟨-x.m, x.e⟩
def mul (x y : Dy) : Dy := ⟨x.m * y.m, x.e + y.e⟩
def sub (x y : Dy) : Dy := x.add y.neg
/-- x < y. -/
def lt (x y : Dy) : Bool := decide ((x.sub y).m < 0)
def eq (x y : Dy) : Bool := (x.sub y).m == 0
end Dy

/-! ### Floating-point formats (R63 to R65) -/

/-- How a format spends its all-ones exponent: as IEEE 754, as e4m3 (only S.1111.111 is a NaN), or not at all. -/
inductive Special where
  | ieee | e4m3 | none
  deriving DecidableEq, Repr

/-- A floating-point format: exponent bits, fraction bits, bias, and what all-ones exponents mean (R63, R64). -/
structure FFmt where
  eb : Nat
  fb : Nat
  bias : Nat
  sp : Special
  deriving DecidableEq, Repr

/-- A floating-point value as it is read. -/
inductive FV where
  | nan (signalling : Bool)
  | inf (neg : Bool)
  | fin (neg : Bool) (mag : Nat) (e : Int)
  deriving DecidableEq, Repr

namespace FFmt

def width (f : FFmt) : Nat := 1 + f.eb + f.fb
/-- Exponent of the smallest normal. -/
def emin (f : FFmt) : Int := 1 - (f.bias : Int)
/-- Largest finite magnitude. -/
def maxMag (f : FFmt) : Nat := match f.sp with | .e4m3 => 2 ^ (f.fb + 1) - 2 | _ => 2 ^ (f.fb + 1) - 1
/-- Weight of its last digit, as an exponent. -/
def maxExp (f : FFmt) : Int :=
  (match f.sp with | .ieee => (2 ^ f.eb : Nat) - 2 | _ => (2 ^ f.eb : Nat) - 1 : Int) - f.bias - f.fb
def signBit (f : FFmt) (neg : Bool) : Nat := if neg then 2 ^ (f.eb + f.fb) else 0
/-- The default NaN (R65); 0 where the format has none. -/
def defNan (f : FFmt) : Nat :=
  match f.sp with
  | .ieee => (2 ^ f.eb - 1) * 2 ^ f.fb + 2 ^ (f.fb - 1)
  | .e4m3 => 2 ^ (f.eb + f.fb) - 1
  | .none => 0
def hasNan (f : FFmt) : Bool := f.sp != .none
def hasInf (f : FFmt) : Bool := f.sp == .ieee
def infCode (f : FFmt) (neg : Bool) : Nat := f.signBit neg + (2 ^ f.eb - 1) * 2 ^ f.fb
def maxCode (f : FFmt) (neg : Bool) : Nat :=
  f.signBit neg + (match f.sp with
    | .ieee => (2 ^ f.eb - 1) * 2 ^ f.fb - 1
    | .e4m3 => 2 ^ (f.eb + f.fb) - 2
    | .none => 2 ^ (f.eb + f.fb) - 1)

/-- The value of a code (R63, R64). -/
def decode (f : FFmt) (x : Nat) : FV :=
  let s := bitAt x (f.eb + f.fb)
  let ex := (x >>> f.fb) % 2 ^ f.eb
  let fr := x % 2 ^ f.fb
  let top := ex + 1 == 2 ^ f.eb
  if f.sp == .ieee && top then (if fr = 0 then .inf s else .nan (fr < 2 ^ (f.fb - 1)))
  else if f.sp == .e4m3 && top && fr + 1 == 2 ^ f.fb then .nan false
  else if ex = 0 then .fin s fr (f.emin - f.fb)
  else .fin s (fr + 2 ^ f.fb) ((ex : Int) - f.bias - f.fb)

/-- A nonzero magnitude smaller than the smallest normal. -/
def subnormal (f : FFmt) (mag : Nat) (e : Int) : Bool := mag != 0 && decide (e + Nat.log2 mag < f.emin)

/-- The code of a representable magnitude n * 2^q. -/
def encode (f : FFmt) (neg : Bool) (n : Nat) (q : Int) : Nat :=
  if n = 0 then f.signBit neg
  else
    let top : Int := q + Nat.log2 n
    if top < f.emin then f.signBit neg + n * pow2 (q - (f.emin - f.fb))
    else
      let l := Nat.log2 n
      let fr := if l ≤ f.fb then n * 2 ^ (f.fb - l) else n >>> (l - f.fb)
      f.signBit neg + ((top + f.bias).toNat * 2 ^ f.fb) + (fr - 2 ^ f.fb)

end FFmt

/-! ### Rounding (R53, R75) -/

/-- Round mag / 2^k to an integer by a mode (0 rne, 1 rtz, 2 rdn, 3 rup, 4 rna, 5 sr with the 16-bit t); the Bool
says that it was inexact. -/
def roundInt (mode t : Nat) (neg : Bool) (mag k : Nat) : Nat × Bool :=
  let q := mag >>> k
  let r := mag % 2 ^ k
  if r = 0 then (q, false)
  else
    let up := match mode with
      | 0 => decide (2 ^ k < 2 * r) || (2 * r == 2 ^ k && q % 2 == 1)
      | 1 => false
      | 2 => neg
      | 3 => !neg
      | 4 => decide (2 ^ k ≤ 2 * r)
      | _ => decide (2 ^ k * 65536 ≤ r * 65536 + t * 2 ^ k)
    (if up then q + 1 else q, true)

/-- Round mag * 2^e to a multiple of 2^q. -/
def roundAt (mode t : Nat) (neg : Bool) (mag : Nat) (e q : Int) : Nat × Bool :=
  if q ≤ e then (mag * pow2 (e - q), false) else roundInt mode t neg mag (q - e).toNat

/-- A rounded magnitude n * 2^q, whether it is inexact, tiny (R72, UF) and beyond the largest finite value (R72, OF). -/
structure Rounded where
  n : Nat
  q : Int
  inexact : Bool
  tiny : Bool
  ovf : Bool
  deriving DecidableEq, Repr

/-- Round a magnitude to a format (R75). -/
def FFmt.round (f : FFmt) (mode t : Nat) (neg : Bool) (mag : Nat) (e : Int) : Rounded :=
  if mag = 0 then ⟨0, 0, false, false, false⟩
  else
    let qn : Int := e + Nat.log2 mag - f.fb
    let q := max qn (f.emin - f.fb)
    let r := roundAt mode t neg mag e q
    let u := roundAt mode t neg mag e qn
    ⟨r.1, q, r.2, Dy.lt ⟨(u.1 : Int), qn⟩ ⟨1, f.emin⟩, Dy.lt ⟨f.maxMag, f.maxExp⟩ ⟨r.1, q⟩⟩

/-- What an arithmetic or converting instruction reads of FPMODE (R70), with its rounding mode and t. -/
structure FpEnv where
  mode : Nat := 0
  t : Nat := 0
  ftzi : Bool := false
  ftzo : Bool := false
  ftzn : Bool := false
  deriving DecidableEq, Repr

/-- A result code with the flags it raises. -/
structure FRes where
  code : Nat
  fl : Flags
  deriving DecidableEq, Repr

def flagIf (b : Bool) (f : Flags) : Flags := if b then f else 0

/-- The wide formats are flushed by FTZI and FTZO, the narrow ones by FTZN (R79). -/
def FFmt.narrow (f : FFmt) : Bool := decide (f.width ≤ 8)

/-- Input flushing (R79). -/
def FFmt.flushIn (f : FFmt) (env : FpEnv) : FV → FV
  | .fin s mag e => if (if f.narrow then env.ftzn else env.ftzi) && f.subnormal mag e then .fin s 0 e else .fin s mag e
  | v => v

/-- Deliver a finite exact result: rounding, overflow, output flushing and flags. `satur` chooses the conversions'
saturation of R76 (with the flags of its first row, or of `qnt`), otherwise R189's overflow. -/
inductive OverRule where
  | arith | convert | quant
  deriving DecidableEq, Repr

def FFmt.deliver (f : FFmt) (env : FpEnv) (rule : OverRule) (neg : Bool) (mag : Nat) (e : Int) : FRes :=
  let r := f.round env.mode env.t neg mag e
  if r.ovf then
    match rule with
    | .convert => ⟨f.maxCode neg, fSAT ||| fOF ||| fNX⟩
    | .quant => ⟨f.maxCode neg, fSAT ||| fNX⟩
    | .arith =>
      let toMax := match env.mode with | 1 => true | 2 => !neg | 3 => neg | _ => false
      ⟨if toMax then f.maxCode neg else f.infCode neg, fOF ||| fNX⟩
  else if (if f.narrow then env.ftzn else env.ftzo) && f.subnormal r.n r.q then ⟨f.signBit neg, fUF ||| fNX⟩
  else ⟨f.encode neg r.n r.q, flagIf r.inexact fNX ||| flagIf (r.inexact && r.tiny) fUF⟩

/-- Deliver an exact dyadic result; an exact zero takes the sign `zneg`. -/
def FFmt.deliverDy (f : FFmt) (env : FpEnv) (rule : OverRule) (x : Dy) (zneg : Bool) : FRes :=
  if x.m = 0 then ⟨f.signBit zneg, 0⟩ else f.deliver env rule (x.m < 0) x.m.natAbs x.e

/-! ### The sixteen types (R52, R63, R66 to R69) -/

end Machine

namespace Ty

open Machine

/-- The type of a code (R52). -/
def ofCode (c : Nat) : Ty :=
  match c % 16 with
  | 0 => .i8 | 1 => .i16 | 2 => .i32 | 3 => .i64 | 4 => .n8 | 5 => .n16 | 6 => .n32 | 7 => .n64
  | 8 => .f64 | 9 => .f32 | 10 => .bf16 | 11 => .f16 | 12 => .e4m3 | 13 => .e5m2 | 14 => .e2m1 | _ => .ix4

/-- Width in bits. -/
def width : Ty → Nat
  | .i8 | .n8 | .e4m3 | .e5m2 => 8
  | .i16 | .n16 | .bf16 | .f16 => 16
  | .i32 | .n32 | .f32 => 32
  | .i64 | .n64 | .f64 => 64
  | .e2m1 | .ix4 => 4

def isInt : Ty → Bool
  | .i8 | .i16 | .i32 | .i64 | .n8 | .n16 | .n32 | .n64 => true
  | _ => false

def signed : Ty → Bool
  | .i8 | .i16 | .i32 | .i64 => true
  | _ => false

/-- The format of a float type (R63); that of f32 for the others, where it is not used. -/
def fmt : Ty → FFmt
  | .f64 => ⟨11, 52, 1023, .ieee⟩
  | .f16 => ⟨5, 10, 15, .ieee⟩
  | .bf16 => ⟨8, 7, 127, .ieee⟩
  | .e4m3 => ⟨4, 3, 7, .e4m3⟩
  | .e5m2 => ⟨5, 2, 15, .ieee⟩
  | .e2m1 => ⟨2, 1, 1, .none⟩
  | _ => ⟨8, 23, 127, .ieee⟩

/-- f64, f32, bf16 and f16. -/
def wideFloat : Ty → Bool
  | .f64 | .f32 | .bf16 | .f16 => true
  | _ => false

/-- Largest integer of an integer type; 7 for ix4 (R67). -/
def maxInt (t : Ty) : Int :=
  if t = .ix4 then 7 else if t.signed then (2 ^ (t.width - 1) : Nat) - 1 else (2 ^ t.width : Nat) - 1

/-- Smallest integer of an integer type; -7 for ix4. -/
def minInt (t : Ty) : Int := if t = .ix4 then -7 else if t.signed then -((2 ^ (t.width - 1) : Nat) : Int) else 0

/-- value(t, x) of R186 for an integer type. -/
def ival (t : Ty) (x : Nat) : Int := if t.signed then toSigned t.width x else (x % 2 ^ t.width : Nat)

end Ty

namespace Machine

/-- An integer as a value. -/
def FV.ofInt (x : Int) : FV := .fin (x < 0) x.natAbs 0

/-- The exact number of a finite value; zero for the others, where it is not used. -/
def FV.dy : FV → Dy
  | .fin s mag e => ⟨if s then -(mag : Int) else mag, e⟩
  | _ => Dy.zero

def FV.isNan : FV → Bool
  | .nan _ => true
  | _ => false
def FV.isSnan : FV → Bool
  | .nan s => s
  | _ => false
def FV.isInf : FV → Bool
  | .inf _ => true
  | _ => false
def FV.isZero : FV → Bool
  | .fin _ mag _ => mag == 0
  | _ => false
def FV.sign : FV → Bool
  | .nan _ => false
  | .inf s => s
  | .fin s _ _ => s

/-- The value of a code of any type, with no partner slot for ix4 (R63, R66, R89). -/
def tyValue (t : Ty) (x : Nat) : FV :=
  if t.isInt then .ofInt (t.ival x)
  else if t = .ix4 then (if x % 16 = 8 then .ofInt 0 else .ofInt (toSigned 4 x))
  else t.fmt.decode (x % 2 ^ t.width)

/-- Input flushing by type (R79); integers and ix4 are never flushed. -/
def tyFlushIn (t : Ty) (env : FpEnv) (v : FV) : FV := if t.isInt || t = .ix4 then v else t.fmt.flushIn env v

/-- The conversions of R76: a value converted to a type, its code and flags. -/
def convert (dt : Ty) (env : FpEnv) (rule : OverRule) (v : FV) : FRes :=
  if dt.isInt || dt = .ix4 then
    let code (x : Int) : Nat := wrap dt.width x
    match v with
    | .nan _ => ⟨0, fNV⟩
    | .inf s => ⟨code (if s then dt.minInt else dt.maxInt), fSAT⟩
    | .fin s mag e =>
      let r := roundAt env.mode env.t s mag e 0
      let x : Int := if s then -(r.1 : Int) else r.1
      if x < dt.minInt then ⟨code dt.minInt, fSAT ||| fNX⟩
      else if dt.maxInt < x then ⟨code dt.maxInt, fSAT ||| fNX⟩
      else ⟨code x, flagIf r.2 fNX⟩
  else
    let f := dt.fmt
    match v with
    | .nan sg => if f.hasNan then ⟨f.defNan, flagIf sg fNV⟩ else ⟨0, fNV⟩
    | .inf s => if f.hasInf then ⟨f.infCode s, 0⟩ else ⟨f.maxCode s, fSAT⟩
    | .fin s mag e => if mag = 0 then ⟨f.signBit s, 0⟩ else f.deliver env rule s mag e

/-! ### Stochastic rounding (R78) -/

/-- t of R78 for a lane and a count. -/
def srT (seed : Nat) (lane count : Nat) : Nat :=
  let x := (seed ^^^ (lane * 2 ^ 56) ^^^ count) % 2 ^ 64
  let x := x ^^^ (x >>> 31)
  let x := (x * 0x9E3779B97F4A7C15) % 2 ^ 64
  let x := x ^^^ (x >>> 29)
  slice x 63 48

/-! ### ix4 bytes and E8M0 scales (R67, R68) -/

/-- The two elements of an ix4 byte, and whether element 2k + 1 is an invalid code (R67). -/
def ix4Byte (b : Nat) : FV × FV × Bool :=
  if b % 16 = 8 then (tyValue .e4m3 b, .ofInt 0, false)
  else if b / 16 % 16 = 8 then (.ofInt (toSigned 4 b), .ofInt 0, true)
  else (.ofInt (toSigned 4 b), .ofInt (toSigned 4 (b / 16)), false)

/-- A value times 2^k. -/
def FV.scale (k : Int) : FV → FV
  | .fin s mag e => .fin s mag (e + k)
  | v => v

/-! ### The block quantiser (R80) -/

/-- floor(log2 of a magnitude). -/
def log2Floor (mag : Nat) (e : Int) : Int := e + Nat.log2 mag

/-- emax of R80. -/
def qEmax : Ty → Int
  | .e4m3 => 8
  | .e5m2 => 15
  | _ => 2

/-- The greatest magnitude of the included values, by exact comparison. -/
def maxMagOf : List (Option FV) → Dy
  | [] => Dy.zero
  | some (.fin _ m e) :: r => let d := maxMagOf r; if Dy.lt d ⟨m, e⟩ then ⟨m, e⟩ else d
  | _ :: r => maxMagOf r

/-- The outlier exponent j of R80 step 4: 2j - 6 nearest to log2 of the magnitude, ties to the larger j. The test
compares squares: log2 m >= 2j - 7 exactly when m >= 2^(2j - 7). -/
def outlierJ (mag : Nat) (e : Int) : Nat → Nat
  | 0 => 0
  | j + 1 => if Dy.lt ⟨mag, e⟩ ⟨1, 2 * ((j : Int) + 1) - 7⟩ then outlierJ mag e j else j + 1

/-- Quantise one block: the scale byte, the codes (none for an excluded element) and the flags (R80). `ts` gives
each element's t. -/
def quantise (t : Ty) (env : FpEnv) (outlier : Bool) (ts : List Nat) (xs : List (Option FV)) : Nat × List (Option Nat) × Flags :=
  if xs.any (fun x => match x with | some v => v.isNan || v.isInf | none => false) then
    (0xFF, xs.map (fun x => x.map (fun _ => 0)), fNV)
  else
    let m := maxMagOf xs
    let ex : Int := if m.m = 0 then 0 else max (-127) (min 127 (log2Floor m.m.natAbs m.e - qEmax t))
    let one (i : Nat) (x : Option FV) : Option FRes :=
      x.map (fun v => convert t { env with t := ts.getD i 0 } .quant (v.scale (-ex)))
    -- the rounded magnitude before saturation, for the outlier test
    let big (i : Nat) (x : Option FV) : Bool :=
      match x with
      | some (.fin s mag e) => decide (7 < (roundAt env.mode (ts.getD i 0) s mag (e - ex) 0).1)
      | _ => false
    let isOut (i : Nat) : Bool :=
      outlier && i % 2 == 0 && big i (xs.getD i none) && (xs.getD (i + 1) none).isSome
    let outl (i : Nat) : Nat × Bool :=
      match xs.getD i none with
      | some (.fin s mag e) =>
        let j := outlierJ mag (e - ex) 7
        ((if s then 8 else 0) + j, !Dy.eq ⟨mag, e - ex⟩ ⟨1, 2 * (j : Int) - 6⟩)
      | _ => (0, false)
    let elem (i : Nat) : Option Nat × Flags :=
      if isOut i then (some 8, flagIf (outl i).2 fNX)
      else if i % 2 == 1 && isOut (i - 1) then
        (some (outl (i - 1)).1, flagIf (match xs.getD i none with | some v => !v.isZero | none => false) fNX)
      else match one i (xs.getD i none) with
        | some r => (some r.code, r.fl)
        | none => (none, 0)
    let es := (List.range xs.length).map elem
    ((if m.m = 0 then 0x7F else (ex + 127).toNat), es.map (·.1), es.foldl (fun a x => a ||| x.2) 0)

end Machine

end Sys2Proof
end

