-- ==== Sys2Proof/Machine/AlphArith.lean ====
section
/-! DEFINITION. Alphabets (R326 to R334): images and their legality, digits, values, encodings, packed words and the
invalid-code-word policy. -/

namespace Sys2Proof.Machine

open Sys2Proof

/-- An alphabet with its map table (R326, R328): `w` is the word width in bits. -/
structure Alpha where
  r : Nat
  n : Nat
  w : Nat
  icw : Nat
  map : Nat
  bias : Int
  tab : List Int
  deriving DecidableEq, Repr

/-- The alphabet of a 64-bit image. -/
def alphaOf (img : Nat) (tab : List Int) : Alpha :=
  ⟨slice img 63 48, slice img 47 42, 8 * 2 ^ slice img 41 40, slice img 39 38, slice img 37 36,
    toSigned 16 (slice img 35 20), tab⟩

/-- `alset` accepts the image (R327). -/
def imgOk (img : Nat) : Bool :=
  let a := alphaOf img []
  2 ≤ a.r && 1 ≤ a.n && a.r ^ a.n ≤ 2 ^ a.w && a.icw < 2 && a.map < 3 && (a.map != 2 || a.r ≤ 16)
    && (a.bias == 0 || a.map == 1) && slice img 19 0 == 0

namespace Alpha

/-- digit(x, j) (R330). -/
def digit (a : Alpha) (x j : Nat) : Nat := x / a.r ^ j % a.r
/-- R331: not an invalid code word. -/
def valid (a : Alpha) (x : Nat) : Bool := x < a.r ^ a.n
/-- The value of a digit (R332). -/
def val (a : Alpha) (g : Nat) : Int :=
  match a.map with
  | 0 => g
  | 1 => g - a.bias
  | _ => a.tab.getD g 0
/-- The digit that encodes a value (R333). -/
def enc (a : Alpha) (v : Int) : Option Nat :=
  match a.map with
  | 0 => if 0 ≤ v && v < a.r then some v.toNat else none
  | 1 => if 0 ≤ v + a.bias && v + a.bias < a.r then some (v + a.bias).toNat else none
  | _ => (List.range a.r).find? (fun g => a.tab.getD g 0 == v)
/-- A digit given directly (R333). -/
def encRaw (a : Alpha) (g : Nat) : Option Nat := if g < a.r then some g else none
/-- The neutral symbol (R332). -/
def neutral (a : Alpha) : Nat := (a.enc 0).getD 0
/-- The word of a list of digits, digit 0 first. -/
def pack (a : Alpha) (ds : List Nat) : Nat := ds.foldr (fun d x => d + a.r * x) 0
/-- The neutral word (R332). -/
def neutralWord (a : Alpha) : Nat := a.pack (List.replicate a.n a.neutral)

end Alpha

/-- What the policy of R334 yields: a word or digit, whether the instruction traps, whether the sticky flag is set. -/
structure Chk where
  x : Nat
  trap : Bool := false
  flag : Bool := false
  deriving DecidableEq, Repr

namespace Alpha

/-- check(x, A): a word as R334 reads it. -/
def check (a : Alpha) (x : Nat) : Chk :=
  if a.valid x then { x := x } else { x := a.neutralWord, trap := a.icw == 0, flag := a.icw == 1 }
/-- An encoded digit, or the neutral symbol (R334). -/
def orNeutral (a : Alpha) (g : Option Nat) : Chk :=
  match g with
  | some g => { x := g }
  | none => { x := a.neutral, trap := a.icw == 0, flag := a.icw == 1 }
/-- A word with digit j replaced. -/
def replace (a : Alpha) (x j g : Nat) : Nat := x - a.digit x j * a.r ^ j + g * a.r ^ j

end Alpha

/-- Combine two results of R334 into the value `x`. -/
def Chk.and (c d : Chk) (x : Nat) : Chk := ⟨x, c.trap || d.trap, c.flag || d.flag⟩

/-- A word packed from checked digits. -/
def packChk (a : Alpha) (ds : List Chk) : Chk :=
  ⟨a.pack (ds.map (fun c => c.x)), ds.any (fun c => c.trap), ds.any (fun c => c.flag)⟩

end Sys2Proof.Machine
end

