-- ==== Sys2Proof/Machine/Legal.lean ====
section
/-! DEFINITION. What each core instruction names: the registers of each source field, its destination, its alphabet
registers, and whether its fields are legal (R34 to R42, R47, R48 and the limits of each entry). A word whose fields
are not legal traps ILLOP; clause classes are R27. -/

namespace Sys2Proof.Machine

open Sys2Proof

/-- A vector or scalar register. -/
inductive Reg where
  | v (n : Nat)
  | s (n : Nat)
  deriving DecidableEq, Repr

/-- What a word names. `fe0`, `fe1`, `fe2` are the registers of the fields that FE<48>, FE<49> and FE<50> guard
(R37), each empty where the instruction reads no register there; `other` the sources with no FE bit; `pred` says
that a predicate operand sends the word to a vector pipe (R47, R183). -/
structure Uses where
  ok : Bool := true
  fe0 : List Reg := []
  fe1 : List Reg := []
  fe2 : List Reg := []
  other : List Reg := []
  dst : List Reg := []
  alR : List Nat := []
  alW : List Nat := []
  pred : Bool := false
  deriving DecidableEq, Repr

/-- Bit 9 of a register field: scalar (R34). -/
def isS (f : BitVec 10) : Bool := f.getLsbD 9
/-- A vector register field. -/
def isV (f : BitVec 10) : Bool := !f.getLsbD 9
/-- The register number of a field. -/
def rnum (f : BitVec 10) : Nat := if isS f then f.toNat % 512 else f.toNat % 256
/-- The registers that a field names, `n` of them where it is a vector field (R34). -/
def regsOf (f : BitVec 10) (n : Nat) : List Reg :=
  if isS f then [.s (rnum f)] else (List.range n).map (fun k => .v (rnum f + k))
/-- A register field is well formed for an operand of `n` vector registers (R34). -/
def regOk (f : BitVec 10) (n : Nat) : Bool := isS f || (!f.getLsbD 8 && f.toNat % n == 0)
/-- A vector field of `n` registers. -/
def vOk (f : BitVec 10) (n : Nat) : Bool := isV f && regOk f n
/-- A predicate or alphabet field (R34). -/
def pOk (f : BitVec 10) : Bool := f.toNat < 16
/-- An unused field. -/
def zero10 (f : BitVec 10) : Bool := f == 0
/-- A field that names s0. -/
def isS0 (f : BitVec 10) : Bool := f == 0x200

/-- R36: an instruction with a scalar destination has scalar sources. -/
def noMix (d : BitVec 10) (srcs : List (BitVec 10)) : Bool := isV d || srcs.all isS

def mT (m : BitVec 8) : Ty :=
  match m.toNat / 16 with
  | 0 => .i8 | 1 => .i16 | 2 => .i32 | 3 => .i64 | 4 => .n8 | 5 => .n16 | 6 => .n32 | 7 => .n64
  | 8 => .f64 | 9 => .f32 | 10 => .bf16 | 11 => .f16 | 12 => .e4m3 | 13 => .e5m2 | 14 => .e2m1 | _ => .ix4
/-- m<7:4> as a number. -/
def mTc (m : BitVec 8) : Nat := m.toNat / 16
def mRnd (m : BitVec 8) : Nat := m.toNat / 2 % 8
def mBit0 (m : BitVec 8) : Bool := m.getLsbD 0

/-- Registers of a vector operand of a type code: two for 64-bit types. -/
def tyN (tc : Nat) : Nat := if tc == 3 || tc == 7 || tc == 8 then 2 else 1
def tcInt (tc : Nat) : Bool := tc < 8
def tcInt3264 (tc : Nat) : Bool := tc == 2 || tc == 3 || tc == 6 || tc == 7
def tcF (tc : Nat) : Bool := 8 ≤ tc && tc ≤ 11

/-- A format-R word with destination d and register sources a, b, c where `n` gives the vector registers of each (0:
the field is unused and must be 0). -/
def rUses (ok : Bool) (w : RWord) (nd na nb nc : Nat) : Uses :=
  let f (x : BitVec 10) (n : Nat) : Bool := if n == 0 then zero10 x else regOk x n
  let rs (x : BitVec 10) (n : Nat) : List Reg := if n == 0 then [] else regsOf x n
  let srcs := (if na == 0 then [] else [w.a]) ++ (if nb == 0 then [] else [w.b]) ++ (if nc == 0 then [] else [w.c])
  { ok := ok && f w.d nd && f w.a na && f w.b nb && f w.c nc && (nd == 0 || noMix w.d srcs),
    dst := rs w.d nd, fe0 := rs w.a na, fe1 := rs w.b nb, fe2 := rs w.c nc }

/-- Integer instructions of two or three sources (R192 to R201). -/
def intUses (w : RWord) (tok : Bool) (flag : Bool) (three : Bool) : Uses :=
  let n := tyN (mTc w.m)
  rUses (tok && mRnd w.m == 0 && (flag || !mBit0 w.m)) w n n n (if three then n else 0)

/-- Float instructions (R208 to R218). -/
def fltUses (w : RWord) (tok rnd flag : Bool) (nb nc : Nat) : Uses :=
  let n := tyN (mTc w.m)
  rUses (tok && (if rnd then mRnd w.m != 7 else mRnd w.m == 0) && (flag || !mBit0 w.m)) w n n
    (if nb == 9 then n else nb) (if nc == 9 then n else nc)

/-- An instruction with every field zero, or with only some m bits (R130). DESIGN CHOICE, log 125: its guard, which every word has
(R31), may be any. -/
def bareUses (w : RWord) (mok : Bool) : Uses :=
  { ok := mok && zero10 w.d && zero10 w.a && zero10 w.b && zero10 w.c }

/-- Format X (R42): all four fields name scalars; `useR`, `useC`, `useX` say whether rec, ctr and aux are used, and
`nc` how many scalars from crd are read. -/
def xUses (w : XWord) (ok useR useC useX : Bool) (nc : Nat) : Uses :=
  { ok := ok && isS w.rcd && isS w.crd && isS w.ctr && isS w.aux && rnum w.crd ≤ 508
      && (useR || isS0 w.rcd) && (useC || isS0 w.ctr) && (useX || isS0 w.aux) && (nc != 0 || isS0 w.crd),
    fe0 := (if useR then [.s (rnum w.rcd)] else []) ++ (if useC then [.s (rnum w.ctr)] else []),
    fe1 := (List.range nc).map (fun k => .s (rnum w.crd + k)),
    fe2 := if useX then [.s (rnum w.aux)] else [] }

/-- Vector registers of a data field by size code (R34, R41). -/
def szN (size : BitVec 3) : Nat := if size.toNat == 3 then 2 else if size.toNat == 4 then 4 else 1
/-- Size in bytes (R41). -/
def szB (size : BitVec 3) : Nat := 2 ^ size.toNat

/-- Format M: `na` vector registers of a base; `ld` d is written, `st` d is read. -/
def mUses (w : MWord) (ok : Bool) (na : Nat) (ld st : Bool) : Uses :=
  let n := szN w.size
  { ok := ok && w.size.toNat ≤ 4 && regOk w.a na && regOk w.b 1 && regOk w.d n && (isV w.d || w.size.toNat != 4)
      && (!ld || noMix w.d [w.a, w.b]),
    fe0 := regsOf w.a na, fe1 := regsOf w.b 1,
    fe2 := if st then regsOf w.d n else [],
    dst := if ld then regsOf w.d n else [] }

/-- A scratchpad word that names a buffer (R240). -/
def bufUses (w : MWord) (sizes : List Nat) (ld st : Bool) : Uses :=
  mUses w (w.scope == 0 && w.sub.toNat ≤ 3 && sizes.contains w.size.toNat) 1 ld st

/-- `atoms` and `atomc` (R246, R250): for `cas`, b is the comparand and has no index. -/
def atomUses (w : MWord) (scope : BitVec 2) : Uses :=
  let n := szN w.size
  let ok := w.scope == scope && (w.size.toNat == 2 || w.size.toNat == 3) && w.sub.toNat ≤ 10
  if w.sub.toNat == 9 then
    { ok := ok && regOk w.a 1 && regOk w.b n && regOk w.d n && noMix w.d [w.a, w.b],
      fe0 := regsOf w.a 1, fe1 := regsOf w.b n, fe2 := regsOf w.d n, dst := regsOf w.d n }
  else mUses w ok 1 true true

/-- A global word (08_device_memory.md): scope device or system. -/
def gUses (w : MWord) (sizes : List Nat) (sub ld st : Bool) : Uses :=
  mUses w (2 ≤ w.scope.toNat && sizes.contains w.size.toNat && sub) 2 ld st

/-- Format I with scalar or no register. -/
def iBare (w : IWord) (ok : Bool) : Uses := { ok := ok && zero10 w.d && zero10 w.a && w.m4 == 0 }

/-- System register numbers (R127) with their access: true for read only. -/
def sysKnown (n : Nat) : Option Bool :=
  if n ≤ 8 then some true else if n == 0x10 || n == 0x11 || n == 0x12 || n == 0x13 then some false
  else if n == 0x14 then some true else if n == 0x18 || n == 0x19 || n == 0x1A then some false
  else if 0x20 ≤ n && n ≤ 0x25 then some false else if n == 0x30 || n == 0x31 then some true
  else if 0x40 ≤ n && n ≤ 0x4F then some false else if n == 0x50 || n == 0x60 then some false else none

/-- Registers of an A tile (R402). -/
def tileN (pair : Nat) : Nat := if pair ≤ 1 then 2 else 8

/-- Format Q: matrix multiply (R423); `extra` more words from s. -/
def qUses (w : QWord) (sparse : Bool) (extra : Nat) : Uses :=
  let pair := w.m.toNat / 16
  { ok := pair ≤ 9 && isV w.a && regOk w.a (tileN pair) && isS w.b && isS w.c && isS w.s
      && rnum w.s + extra ≤ 511 && (w.m.getLsbD 2 == sparse) && !(w.m.getLsbD 1 && pair ≤ 1)
      && !(sparse && w.m.getLsbD 3),
    fe0 := regsOf w.a (tileN pair), fe1 := [.s (rnum w.b)], fe2 := [.s (rnum w.c)]
    other := (List.range (extra + 1)).map (fun k => .s (rnum w.s + k)) }

/-- Alphabet word operands (R330): the register pair of a 64-bit word depends on the alphabet, so a word field is
checked here as one register; m<3:0> is the alphabet. -/
def alUses (w : RWord) (ok : Bool) (nd na nb nc : Nat) : Uses :=
  { rUses ok w nd na nb nc with alR := [w.m.toNat % 16] }

/-- The uses of each core instruction; none for the other steps of the machine. DESIGN CHOICE, log 110: a prefix before `bar`,
`barw`, `sysrd` or `syswr` is legal if it adds only zeros; log 112: `ldgc` may name a scalar d where b is a scalar too, and
then executes once; log 65: `fsgn.abs` does not read b, which chooses no pipe. -/
def uses : Instr → Option Uses
  | .nop w => some (bareUses w (w.m == 0))
  | .bra w => some { ok := w.rsv == 0 && zero10 w.a }
  | .skip w => some (iBare w (1 ≤ w.imm.toNat && w.imm.toNat ≤ 7))
  | .brx w => some (rUses (w.m.toNat ≤ 1) w 0 2 0 0)
  | .call w => some { ok := w.rsv == 0 && zero10 w.a }
  | .ret w => some (bareUses w (w.m.toNat ≤ 1))
  | .loop w => some { ok := w.rsv == 0 && regOk w.a 1 && !isS0 w.a, fe0 := regsOf w.a 1, dst := regsOf w.a 1 }
  | .exit w => some (bareUses w (w.m == 0))
  | .yield w => some (bareUses w (w.m == 0))
  | .spawn w => some (xUses w (w.code.toNat ≤ 1) true true false 4)
  | .launch w => some (xUses w (w.code == 0) true true false 4)
  | .bar w => some { ok := zero10 w.d && zero10 w.a && w.m4.toNat ≤ 3 && w.imm.toNat < 16
                        && (w.m4 == 1 || w.m4 == 2 || w.imm == 0) }
  | .barw w => some (iBare w (w.imm.toNat < 8))
  | .trap w => some (iBare w (!w.pair))
  | .rte w => some (iBare w (!w.pair && w.imm.toNat ≤ 1))
  | .sysrd w =>
    let wide := isV w.d && w.m4 == 1
    some { ok := zero10 w.a && w.imm.toNat < 4096 && (sysKnown w.imm.toNat).isSome
             && (if isS w.d then w.m4 == 0 else w.m4.toNat ≤ 1) && regOk w.d (if wide then 2 else 1),
           dst := regsOf w.d (if wide then 2 else 1) }
  | .syswr w => some { ok := zero10 w.d && isS w.a && w.m4 == 0 && w.imm.toNat < 4096
                          && sysKnown w.imm.toNat == some false, fe0 := [.s (rnum w.a)] }
  | .chunk w => some (bareUses w (w.m.toNat ≤ 1))
  | .fence w => some (bareUses w (w.m.toNat < 16 && w.m.toNat % 4 != 3))
  | .ifence w => some (bareUses w (w.m == 0))
  | .elect w => some { ok := pOk w.d && zero10 w.a && zero10 w.b && zero10 w.c && w.m == 0, pred := true }
  | .vote w =>
    if w.m == 3 then some { ok := isS w.d && pOk w.a && zero10 w.b && zero10 w.c, dst := [.s (rnum w.d)], pred := true }
    else some { ok := pOk w.d && pOk w.a && zero10 w.b && zero10 w.c && w.m.toNat ≤ 4, pred := true }
  | .acqx w => some { ok := zero10 w.a && !w.pair && w.m4.toNat ≤ 2 && (if w.m4 == 1 then pOk w.d else zero10 w.d)
                         && 0 < w.imm.toNat && w.imm.toNat < 64 }
  | .relx w => some (iBare w (!w.pair && 0 < w.imm.toNat && w.imm.toNat < 64))
  | .waitc w => some { rUses (w.m.toNat ≤ 1 && isS w.d && isS w.a && isS w.b) w 1 1 1 0 with pred := false }
  | .clock w => some (rUses (w.m.toNat ≤ 1 && isS w.d) w 1 0 0 0)
  | .krepl w => some (rUses (w.m == 0 && isS w.d && isS w.a && isS w.b && isS w.c) w 1 1 1 1)
  | .brk w => some (iBare w (!w.pair))
  | .iadd w | .isub w | .imul w => some (intUses w (tcInt (mTc w.m)) true false)
  | .imulh w | .imin w | .imax w | .and w | .or w | .xor w | .andn w | .shl w | .shr w | .bfx w =>
    some (intUses w (tcInt (mTc w.m)) false false)
  | .idiv w => some (intUses w (tcInt (mTc w.m)) true false)
  | .imad w | .bfi w => some (intUses w (tcInt (mTc w.m)) false true)
  | .fshf w => some (intUses w (tcInt3264 (mTc w.m)) true true)
  | .isat w => some { rUses (tcInt (mTc w.m) && w.m.toNat % 16 == 0 && w.b.toNat < 8) { w with b := 0 }
                        (tyN (mTc w.m)) (tyN w.b.toNat) 0 0 with pred := false }
  | .popc w | .clz w | .brev w =>
    let n := tyN (mTc w.m)
    some (rUses (tcInt (mTc w.m) && w.m.toNat % 16 == 0) w n n 0 0)
  | .icmp w =>
    let n := tyN (mTc w.m)
    some { ok := tcInt (mTc w.m) && w.m.toNat % 16 == 0 && pOk w.d && regOk w.a n && regOk w.b n && w.c.toNat < 6,
           fe0 := regsOf w.a n, fe1 := regsOf w.b n, pred := true }
  | .sel w =>
    let n := tyN (mTc w.m)
    let tc := mTc w.m
    some (rUses ((tc == 2 || tc == 6 || tc == 9 || tc == 3 || tc == 7 || tc == 8) && w.m.toNat % 16 == 0 && pOk w.c)
      { w with c := 0 } n n n 0)
  | .mov w =>
    let wide := w.m4.getLsbD 1
    let n := if wide then 2 else 1
    let dOk := regOk w.d n && w.m4.toNat < 4 && !(isS w.d && wide)
    if w.m4.getLsbD 0 then
      some { ok := dOk && regOk w.a n && noMix w.d [w.a] && w.imm == 0 && !w.pair, fe0 := regsOf w.a n, dst := regsOf w.d n }
    else some { ok := dOk && zero10 w.a, dst := regsOf w.d n }
  | .lea w =>
    let wide := w.m4.getLsbD 3
    let n := if wide then 2 else 1
    some { ok := regOk w.d n && regOk w.a n && noMix w.d [w.a] && !(isS w.d && wide),
           fe0 := regsOf w.a n, dst := regsOf w.d n }
  | .iaddc w =>
    let n := tyN (mTc w.m)
    some (rUses (tcInt3264 (mTc w.m) && mRnd w.m == 0 && pOk w.c) { w with c := 0 } n n n 0)
  | .merge w =>
    let n := tyN (mTc w.m)
    let src := w.c.getLsbD 0
    some (rUses (tcInt3264 (mTc w.m) && mRnd w.m == 0 && w.c.toNat ≤ 1 && isV w.d && isV w.a && isV w.b)
      { w with c := 0 } (if src then 1 else n) n n 0)
  | .fadd w | .fsub w | .fmul w => some (fltUses w (tcF (mTc w.m)) true false 9 0)
  | .ffma w => some (fltUses w (tcF (mTc w.m)) true false 9 9)
  | .fmin w | .fmax w => some (fltUses w (tcF (mTc w.m)) false true 9 0)
  | .frcp w | .frsq w | .fsqrt w => some (fltUses w (tcF (mTc w.m)) true false 0 0)
  | .fexp2 w | .flog2 w => some (fltUses w (9 ≤ mTc w.m && mTc w.m ≤ 11) false false 0 0)
  | .fcmp w =>
    let n := tyN (mTc w.m)
    some { ok := tcF (mTc w.m) && w.m.toNat % 16 == 0 && pOk w.d && regOk w.a n && regOk w.b n && w.c.toNat < 8,
           fe0 := regsOf w.a n, fe1 := regsOf w.b n, pred := true }
  | .fclass w =>
    some (rUses (8 ≤ mTc w.m && mTc w.m ≤ 14 && w.m.toNat % 16 == 0) w 1 (tyN (mTc w.m)) 0 0)
  | .fsgn w =>
    let n := tyN (mTc w.m)
    let ok := tcF (mTc w.m) && w.m.toNat % 16 == 0 && w.c.toNat < 4
    if w.c == 3 then some (rUses (ok && regOk w.b n) { w with c := 0, b := 0 } n n 0 0)
    else some (rUses ok { w with c := 0 } n n n 0)
  | .cvt w =>
    some (rUses (mRnd w.m != 7 && !mBit0 w.m && w.b.toNat < 16 && isS w.d == isS w.a) { w with b := 0 }
      (tyN (mTc w.m)) (tyN w.b.toNat) 0 0)
  | .qnt w =>
    let r := mRnd w.m
    some { ok := 12 ≤ mTc w.m && (r == 0 || r == 5 || r == 6) && (!mBit0 w.m || mTc w.m == 15)
             && vOk w.d 1 && vOk w.a 1 && zero10 w.b && isS w.c,
           fe0 := regsOf w.a 1, dst := regsOf w.d 1 ++ [.s (rnum w.c)] }
  | .dqnt w => some (rUses (12 ≤ mTc w.m && mRnd w.m != 7 && !mBit0 w.m && isV w.d && isV w.a) w 1 1 1 0)
  | .fdot2 w => some (rUses (10 ≤ mTc w.m && mTc w.m ≤ 13 && mRnd w.m != 7 && !mBit0 w.m) w 1 1 1 1)
  | .frnd w => some (fltUses w (tcF (mTc w.m)) true true 0 0)
  | .fscale w => some (fltUses w (tcF (mTc w.m)) true false 9 0)
  | .fredu w =>
    let n := tyN (mTc w.m)
    let r := mRnd w.m
    some { ok := (mTc w.m == 8 || mTc w.m == 9) && isS w.d && vOk w.a n && zero10 w.b && w.c.toNat < 3
             && (if w.c == 0 then r != 7 && !mBit0 w.m else r == 0),
           fe0 := regsOf w.a n, dst := [.s (rnum w.d)] }
  | .shfl w =>
    let n := if w.m.getLsbD 4 then 2 else 1
    some { rUses (w.m.toNat < 32 && w.m.toNat / 4 % 4 == 0 && isV w.d && isV w.a) w n n 1 0 with pred := false }
  | .perm w => some (rUses (w.m == 0 && isV w.d) w 1 1 1 1)
  | .plog w => some { ok := pOk w.d && pOk w.a && pOk w.b && pOk w.c, pred := true }
  | .pcnt w =>
    some { ok := w.m.toNat ≤ 1 && pOk w.a && zero10 w.b && zero10 w.c && (if mBit0 w.m then vOk w.d 1 else isS w.d),
           dst := regsOf w.d 1, pred := true }
  | .scan w =>
    let n := tyN (mTc w.m)
    let tc := mTc w.m
    some (rUses ((tcInt3264 tc || tc == 8 || tc == 9) && w.m.toNat / 4 % 4 != 3 && !mBit0 w.m && isV w.d && isV w.a)
      w n n 0 0)
  | .vtos w =>
    let n := if w.m.getLsbD 6 then 2 else 1
    let sb := w.m.getLsbD 5
    some { ok := !w.m.getLsbD 7 && isS w.d && vOk w.a n && isS w.b && zero10 w.c
             && (if sb then isS0 w.b || w.m.toNat % 32 == 0 else isS0 w.b),
           fe0 := regsOf w.a n, fe1 := if sb then [.s (rnum w.b)] else [], dst := [.s (rnum w.d)] }
  | .stov w =>
    let n := if w.m.getLsbD 6 then 2 else 1
    let sb := w.m.getLsbD 5
    some { ok := !w.m.getLsbD 7 && vOk w.d n && isS w.a && isS w.b && zero10 w.c
             && (if sb then isS0 w.b || w.m.toNat % 32 == 0 else isS0 w.b),
           fe0 := [.s (rnum w.a)], fe1 := if sb then [.s (rnum w.b)] else [], dst := regsOf w.d n }
  | .compact w =>
    let n := if w.m.getLsbD 4 then 2 else 1
    some { ok := (w.m == 0 || w.m == 16) && vOk w.d n && vOk w.a n && pOk w.b && zero10 w.c,
           fe0 := regsOf w.a n, dst := regsOf w.d n, pred := true }
  | .rebal w =>
    some { ok := w.m == 0 && vOk w.d 2 && vOk w.a 1 && isS w.b && zero10 w.c,
           fe0 := regsOf w.a 1, fe1 := [.s (rnum w.b)], dst := regsOf w.d 2 }
  | .nzscan w =>
    let t := w.code.toNat / 16
    some (xUses w ((t ≤ 2 || (4 ≤ t && t ≤ 6) || (9 ≤ t && t ≤ 13)) && w.code.toNat / 4 % 4 == 0) true true true 4)
  | .alset w => some { ok := zero10 w.d && isS w.a && zero10 w.b && zero10 w.c && w.m.toNat < 16,
                          fe0 := [.s (rnum w.a)], alW := [w.m.toNat % 16] }
  | .alget w =>
    some { ok := w.m.toNat < 32 && zero10 w.a && zero10 w.b && zero10 w.c
             && (if w.m.getLsbD 4 then vOk w.d 1 else isS w.d),
           dst := regsOf w.d 1, alR := [w.m.toNat % 16] }
  | .sunpk w =>
    let spr := w.m.getLsbD 5
    some (alUses w (w.m.toNat < 64 && (!spr || (isV w.d && isV w.a && isS w.b))) 1 1 1 0)
  | .spack w =>
    let gat := w.m.getLsbD 5
    if gat then some (alUses w (w.m.toNat < 64 && isV w.d && isV w.a && isS w.b) 1 1 1 0)
    else some (alUses w (w.m.toNat < 64) 1 1 1 1)
  | .sld w => some { gUses w [0, 1, 2, 3] true true false with
                        ok := 2 ≤ w.scope.toNat && w.size.toNat ≤ 3 && regOk w.a 2 && regOk w.b 1 && regOk w.d 1
                          && noMix w.d [w.a, w.b],
                        dst := regsOf w.d 1, alR := [w.sub.toNat] }
  | .sst w => some { gUses w [0, 1, 2, 3] true false true with
                        ok := 2 ≤ w.scope.toNat && w.size.toNat ≤ 3 && regOk w.a 2 && regOk w.b 1 && regOk w.d 1,
                        fe2 := regsOf w.d 1, alR := [w.sub.toNat] }
  | .sdot w => some { rUses true w 1 1 1 1 with alR := [w.m.toNat % 16, w.m.toNat / 16] }
  | .smap w => some { ok := zero10 w.d && vOk w.a 1 && zero10 w.b && zero10 w.c && w.m.toNat < 16,
                         fe0 := regsOf w.a 1, alW := [w.m.toNat % 16] }
  | .schk w => some { ok := w.m.toNat < 16 && pOk w.d && regOk w.a 1 && zero10 w.b && zero10 w.c,
                         fe0 := regsOf w.a 1, alR := [w.m.toNat % 16], pred := true }
  | .scvt w => some { rUses true w 1 1 0 0 with alR := [w.m.toNat % 16, w.m.toNat / 16] }
  | .smadd w => some (alUses w (w.m.toNat < 16) 1 1 1 1)
  | .scnt w => some (alUses w (w.m.toNat < 32) 1 1 1 0)
  | .lds w => some (bufUses w [0, 1, 2, 3, 4] true false)
  | .sts w => some (bufUses w [0, 1, 2, 3, 4] false true)
  | .ldsf w | .ldsp w => some (bufUses w [2, 3] true false)
  | .stse w => some (bufUses w [2, 3] false true)
  | .feset w =>
    some { ok := zero10 w.d && isS w.a && isS w.b && w.scope == 0 && w.size == 2 && w.sub.toNat < 8,
           fe0 := [.s (rnum w.a)], fe1 := [.s (rnum w.b)] }
  | .atoms w => some (atomUses w 0)
  | .ldc w => some (mUses w (w.scope == 1 && w.sub == 0) 1 true false)
  | .stc w => some (mUses w (w.scope == 1 && w.sub == 0) 1 false true)
  | .atomc w => some (atomUses w 1)
  | .ldsx w =>
    let u := bufUses w [2, 3, 4] true false
    some { u with ok := u.ok && isV w.d && isS w.a && isS0 w.b, fe1 := [] }
  | .stsx w =>
    let u := bufUses w [2, 3, 4] false true
    some { u with ok := u.ok && isV w.d && isS w.a && isS0 w.b, fe1 := [] }
  | .ldg w => some (gUses w [0, 1, 2, 3, 4] (w.sub.toNat % 4 ≤ 1 && w.sub.toNat / 4 ≤ 2) true false)
  | .stg w => some (gUses w [0, 1, 2, 3, 4] ((w.sub.toNat % 4 == 0 || w.sub.toNat % 4 == 2) && w.sub.toNat / 4 ≤ 2
      && noMix w.d [w.a, w.b]) false true)
  | .atomg w => some (gUses w [2, 3] (w.sub.toNat ≤ 10 && w.sub.toNat != 9) true true)
  | .casg w =>
    let n := szN w.size
    some { ok := 2 ≤ w.scope.toNat && 2 ≤ w.size.toNat && w.size.toNat ≤ 4 && w.sub == 0 && regOk w.a 2
             && regOk w.b n && regOk w.d n && noMix w.d [w.a, w.b] && (w.size != 4 || (isV w.d && isV w.b)),
           fe0 := regsOf w.a 2, fe1 := regsOf w.b n, fe2 := regsOf w.d n, dst := regsOf w.d n }
  | .pref w => some { ok := zero10 w.d && 2 ≤ w.scope.toNat && w.size == 2 && w.sub.toNat ≤ 1 && regOk w.a 2 && regOk w.b 1,
                        fe0 := regsOf w.a 2, fe1 := regsOf w.b 1 }
  | .ldgc w =>
    let zm := !w.sub.getLsbD 0
    some (gUses w (if zm then [2, 3] else [3]) (isS w.a && w.sub.toNat / 2 % 4 == 0) true false)
  | .stgs w => some (gUses w [2, 3, 4] (w.sub == 0 && noMix w.d [w.a, w.b]) false true)
  | .red w => some (gUses w [2, 3] (1 ≤ w.sub.toNat && w.sub.toNat ≤ 10 && w.sub.toNat != 9) false true)
  | .probe w => some (gUses w [2] (w.sub == 0) true false)
  | .migr w => some (gUses w [2] (w.scope == 2 && w.sub == 0) true false)
  | .xcopy w | .xfill w => some (xUses w (w.code == 0) true true true 4)
  | .xform w => some (xUses w true true true true 4)
  | .xgath w => some (xUses w (w.code.toNat ≤ 1) true true true 4)
  | .xscat w => some (xUses w (w.code.toNat ≤ 3) true true true 4)
  | .gnode w => some (xUses w (w.code == 0) true true false 1)
  | .grun w => some (xUses w (w.code == 0) true true false 0)
  | .evmapMap w => some (xUses w (w.code.toNat % 16 == 0) true false false 0)
  | .evmapPulse w => some (xUses w (w.code.toNat % 16 == 1 && 8 ≤ w.code.toNat / 16) false false false 0)
  | .evmapClear w => some (xUses w (w.code == 2) true false false 0)
  | .xpeer w => some (xUses w (w.code.toNat ≤ 1) true true true 4)
  | .xcancel w => some (xUses w (w.code == 0 && !isS0 w.ctr) false true false 0)
  | .ebb w => some (xUses w (w.code.toNat ≤ 2) true true true 4)
  | .kvmap w =>
    let n := if w.m == 0 then 2 else 1
    some (rUses (w.m.toNat ≤ 2 && isS w.a) w n 1 1 0)
  | .mma w => some (qUses w false 0)
  | .mloop w => some (qUses w false 1)
  | .msparse w => some (qUses w true 2)
  | .mzero w => some (xUses w (w.code == 0) true true true 4)
  | .mrd w =>
    let n := if w.m.getLsbD 4 then 2 else 1
    some { ok := vOk w.d n && isS w.a && zero10 w.b && zero10 w.c
             && (w.m.toNat ≤ 3 || w.m == 16),
           fe0 := [.s (rnum w.a)], dst := regsOf w.d n }
  | .mwr w =>
    let n := if w.m.getLsbD 4 then 2 else 1
    some { ok := zero10 w.d && isS w.a && vOk w.b n && zero10 w.c && (w.m == 0 || w.m == 16),
           fe0 := [.s (rnum w.a)], fe1 := regsOf w.b n }
  | .mscale w => some (xUses w (w.code.toNat ≤ 3) true true false 4)
  | .oprdy w => some (bareUses w (w.m == 0))
  | .mchk w =>
    let pair := w.m.toNat / 16
    some { ok := zero10 w.a && zero10 w.b && isS w.c && isS w.s && 2 ≤ pair && pair ≤ 9 && w.m.toNat % 16 == 2,
           fe2 := [.s (rnum w.c)], other := [.s (rnum w.s)] }
  | .attn w => some (xUses w (w.code.toNat ≤ 7) true true true 4)
  | .mconv w => some (xUses w (w.code.toNat ≤ 3) true true true 4)
  | .mrel w => some (bareUses w (w.m == 0))
  | _ => none

/-- The guard fields of a word (R31). -/
def guardOf : Instr → Guard
  | .nop w | .brx w | .ret w | .exit w | .yield w | .chunk w | .fence w | .ifence w | .elect w | .vote w | .waitc w
  | .clock w | .krepl w | .iadd w | .isub w | .imul w | .imulh w | .imad w | .idiv w | .imin w | .imax w | .isat w
  | .and w | .or w | .xor w | .andn w | .shl w | .shr w | .fshf w | .bfx w | .bfi w | .popc w | .clz w | .brev w
  | .icmp w | .sel w | .iaddc w | .merge w | .fadd w | .fsub w | .fmul w | .ffma w | .fmin w | .fmax w | .frcp w
  | .frsq w | .fsqrt w | .fexp2 w | .flog2 w | .fcmp w | .fclass w | .fsgn w | .cvt w | .qnt w | .dqnt w | .fdot2 w
  | .frnd w | .fscale w | .fredu w | .shfl w | .perm w | .plog w | .pcnt w | .scan w | .vtos w | .stov w | .compact w
  | .rebal w | .alset w | .alget w | .sunpk w | .spack w | .sdot w | .smap w | .schk w | .scvt w | .smadd w | .scnt w
  | .kvmap w | .mrd w | .mwr w | .oprdy w | .mrel w => w.g
  | .skip w | .bar w | .barw w | .trap w | .rte w | .sysrd w | .syswr w | .acqx w | .relx w | .brk w | .mov w | .lea w => w.g
  | .bra w | .call w | .loop w => w.g
  | .spawn w | .launch w | .nzscan w | .xcopy w | .xform w | .xgath w | .xscat w | .gnode w | .grun w | .evmapMap w
  | .evmapPulse w | .evmapClear w | .xfill w | .xpeer w | .xcancel w | .ebb w | .mzero w | .mscale w | .attn w
  | .mconv w => w.g
  | .sld w | .sst w | .lds w | .sts w | .ldsf w | .stse w | .ldsp w | .feset w | .atoms w | .ldc w | .stc w | .atomc w
  | .ldsx w | .stsx w | .ldg w | .stg w | .atomg w | .casg w | .pref w | .ldgc w | .stgs w | .red w | .probe w
  | .migr w => w.g
  | .mma w | .mloop w | .mchk w | .msparse w => w.g
  | _ => ⟨false, 0, 0⟩

/-- The primary opcode of a core instruction (R54); 256 for the other steps of the machine. -/
def opcodeOf : Instr → Nat
  | .nop _ => 0x00
  | .bra _ => 0x01
  | .skip _ => 0x02
  | .brx _ => 0x03
  | .call _ => 0x04
  | .ret _ => 0x05
  | .loop _ => 0x06
  | .exit _ => 0x07
  | .yield _ => 0x08
  | .spawn _ => 0x09
  | .launch _ => 0x0A
  | .bar _ => 0x0B
  | .barw _ => 0x0C
  | .trap _ => 0x0D
  | .rte _ => 0x0E
  | .sysrd _ => 0x0F
  | .syswr _ => 0x10
  | .chunk _ => 0x11
  | .fence _ => 0x12
  | .ifence _ => 0x13
  | .elect _ => 0x14
  | .vote _ => 0x15
  | .acqx _ => 0x16
  | .relx _ => 0x17
  | .waitc _ => 0x18
  | .clock _ => 0x19
  | .krepl _ => 0x1A
  | .brk _ => 0x1B
  | .iadd _ => 0x20
  | .isub _ => 0x21
  | .imul _ => 0x22
  | .imulh _ => 0x23
  | .imad _ => 0x24
  | .idiv _ => 0x25
  | .imin _ => 0x26
  | .imax _ => 0x27
  | .isat _ => 0x28
  | .and _ => 0x29
  | .or _ => 0x2A
  | .xor _ => 0x2B
  | .andn _ => 0x2C
  | .shl _ => 0x2D
  | .shr _ => 0x2E
  | .fshf _ => 0x2F
  | .bfx _ => 0x30
  | .bfi _ => 0x31
  | .popc _ => 0x32
  | .clz _ => 0x33
  | .brev _ => 0x34
  | .icmp _ => 0x35
  | .sel _ => 0x36
  | .mov _ => 0x37
  | .lea _ => 0x38
  | .iaddc _ => 0x39
  | .merge _ => 0x3A
  | .fadd _ => 0x40
  | .fsub _ => 0x41
  | .fmul _ => 0x42
  | .ffma _ => 0x43
  | .fmin _ => 0x44
  | .fmax _ => 0x45
  | .frcp _ => 0x46
  | .frsq _ => 0x47
  | .fsqrt _ => 0x48
  | .fexp2 _ => 0x49
  | .flog2 _ => 0x4A
  | .fcmp _ => 0x4B
  | .fclass _ => 0x4C
  | .fsgn _ => 0x4D
  | .cvt _ => 0x4E
  | .qnt _ => 0x4F
  | .dqnt _ => 0x50
  | .fdot2 _ => 0x51
  | .frnd _ => 0x52
  | .fscale _ => 0x53
  | .fredu _ => 0x54
  | .shfl _ => 0x60
  | .perm _ => 0x61
  | .plog _ => 0x62
  | .pcnt _ => 0x63
  | .scan _ => 0x64
  | .vtos _ => 0x65
  | .stov _ => 0x66
  | .compact _ => 0x67
  | .rebal _ => 0x68
  | .nzscan _ => 0x69
  | .alset _ => 0x70
  | .alget _ => 0x71
  | .sunpk _ => 0x72
  | .spack _ => 0x73
  | .sld _ => 0x74
  | .sst _ => 0x75
  | .sdot _ => 0x76
  | .smap _ => 0x77
  | .schk _ => 0x78
  | .scvt _ => 0x79
  | .smadd _ => 0x7A
  | .scnt _ => 0x7B
  | .lds _ => 0x80
  | .sts _ => 0x81
  | .ldsf _ => 0x82
  | .stse _ => 0x83
  | .ldsp _ => 0x84
  | .feset _ => 0x85
  | .atoms _ => 0x86
  | .ldc _ => 0x87
  | .stc _ => 0x88
  | .atomc _ => 0x89
  | .ldsx _ => 0x8A
  | .stsx _ => 0x8B
  | .ldg _ => 0x90
  | .stg _ => 0x91
  | .atomg _ => 0x92
  | .casg _ => 0x93
  | .pref _ => 0x94
  | .ldgc _ => 0x95
  | .stgs _ => 0x96
  | .red _ => 0x97
  | .probe _ => 0x98
  | .migr _ => 0x99
  | .xcopy _ => 0xA0
  | .xform _ => 0xA1
  | .xgath _ => 0xA2
  | .xscat _ => 0xA3
  | .gnode _ => 0xA4
  | .grun _ => 0xA5
  | .evmapMap _ => 0xA6
  | .evmapPulse _ => 0xA6
  | .evmapClear _ => 0xA6
  | .xfill _ => 0xA7
  | .xpeer _ => 0xA8
  | .xcancel _ => 0xA9
  | .ebb _ => 0xAA
  | .kvmap _ => 0xAB
  | .mma _ => 0xB0
  | .mloop _ => 0xB1
  | .msparse _ => 0xB9
  | .mzero _ => 0xB2
  | .mrd _ => 0xB3
  | .mwr _ => 0xB4
  | .mscale _ => 0xB5
  | .oprdy _ => 0xB6
  | .mchk _ => 0xB7
  | .attn _ => 0xB8
  | .mconv _ => 0xBA
  | .mrel _ => 0xBB
  | _ => 256

/-- Opcodes of format I (R54), which a prefix may precede (R45). -/
def formatI (o : Nat) : Bool :=
  o == 0x02 || (0x0B ≤ o && o ≤ 0x10) || o == 0x16 || o == 0x17 || o == 0x1B || o == 0x37 || o == 0x38

/-- Opcodes that the map assigns (R54). -/
def assigned (o : Nat) : Bool :=
  o ≤ 0x1B || (0x20 ≤ o && o ≤ 0x3A) || (0x40 ≤ o && o ≤ 0x54) || (0x60 ≤ o && o ≤ 0x69) || (0x70 ≤ o && o ≤ 0x7B)
    || (0x80 ≤ o && o ≤ 0x8B) || (0x90 ≤ o && o ≤ 0x99) || (0xA0 ≤ o && o ≤ 0xAB) || (0xB0 ≤ o && o ≤ 0xBB)

/-- The opcodes that a VEC clause permits (R27), but for 0x01 and 0x06. -/
def vecOp (o : Nat) : Bool :=
  o == 0x00 || o == 0x02 || o == 0x14 || o == 0x15 || o == 0x19 || (0x20 ≤ o && o ≤ 0x3A) || (0x40 ≤ o && o ≤ 0x54)
    || (0x60 ≤ o && o ≤ 0x68) || (0x70 ≤ o && o ≤ 0x73) || (0x76 ≤ o && o ≤ 0x7B)

/-- R27: does a clause class (0 GEN, 1 VEC, 2 MEM, 3 CMD) permit an opcode; `last` says that the word is its
clause's last. -/
def classOk (cls o : Nat) (last : Bool) : Bool :=
  match cls with
  | 0 => assigned o
  | 1 => vecOp o || (last && (o == 0x01 || o == 0x06))
  | 2 => vecOp o || (last && (o == 0x01 || o == 0x06)) || o == 0x74 || o == 0x75 || (0x80 ≤ o && o ≤ 0x8B)
      || (0x90 ≤ o && o ≤ 0x99)
  | _ => o == 0x00 || o == 0x02 || (0x20 ≤ o && o ≤ 0x3A) || o == 0x69 || (0xA0 ≤ o && o ≤ 0xBB && assigned o)
      || (last && (o == 0x01 || o == 0x06))

/-- R292: the engine commands. -/
def isCommand (o : Nat) : Bool :=
  o == 0x69 || (0xA0 ≤ o && o ≤ 0xAA) || o == 0xB0 || o == 0xB1 || o == 0xB2 || o == 0xB5 || o == 0xB7 || o == 0xB8
    || o == 0xB9 || o == 0xBA

/-- R290: the instructions that act between chunks. -/
def isBetween (o : Nat) : Bool :=
  o == 0x12 || o == 0x13 || o == 0x16 || o == 0x17 || o == 0x18 || (0x82 ≤ o && o ≤ 0x86) || o == 0x89 || o == 0x92
    || o == 0x93

/-- R289: the memory instructions of narrow mode. -/
def isMemOp (o : Nat) : Bool :=
  o == 0x74 || o == 0x75 || (0x80 ≤ o && o ≤ 0x99) || o == 0xB3 || o == 0xB4

/-- R160: the opcodes that are always long-latency writers. `shfl` is one when the group holds more than one split. -/
def isLong (o : Nat) : Bool :=
  o == 0x65 || o == 0x74 || o == 0x80 || o == 0x82 || o == 0x84 || o == 0x86 || o == 0x87 || o == 0x89 || o == 0x8A
    || o == 0x90 || o == 0x92 || o == 0x93 || o == 0x95 || o == 0x98 || o == 0x99 || o == 0xAB || o == 0xB3

/-- Registers that the fields of a word name. -/
def Uses.regs (u : Uses) : List Reg := u.fe0 ++ u.fe1 ++ u.fe2 ++ u.other ++ u.dst
/-- Source registers. -/
def Uses.srcs (u : Uses) : List Reg := u.fe0 ++ u.fe1 ++ u.fe2 ++ u.other
def Reg.isVec : Reg → Bool
  | .v _ => true
  | .s _ => false

/-- R37: an FE bit of a field that is not read as a register is illegal. -/
def feOk (u : Uses) (fe : BitVec 3) : Bool :=
  !(fe.getLsbD 0 && u.fe0.isEmpty) && !(fe.getLsbD 1 && u.fe1.isEmpty) && !(fe.getLsbD 2 && u.fe2.isEmpty)

/-- The static part of R51's ILLOP: every field of the word is legal. -/
def legal (i : Instr) : Bool :=
  match uses i with
  | some u => u.ok && feOk u (guardOf i).fe
  | none => true

/-- R47: the word runs per lane, on a vector pipe. -/
def perLane (i : Instr) : Bool :=
  match uses i with
  | some u => 0x20 ≤ opcodeOf i && !isCommand (opcodeOf i) && !(0xB0 ≤ opcodeOf i)
      && (u.pred || u.regs.any Reg.isVec)
  | none => false

/-- The pipe to which a word issues (R110, R36, R183): 0 a vector pipe, 1 the scalar pipe, 2 the memory slot, 3 the engine command
slot. DESIGN CHOICE, log 9: a control word that is no engine command takes the scalar pipe. -/
def pipeOf (i : Instr) : Nat :=
  if isCommand (opcodeOf i) then 3 else if isMemOp (opcodeOf i) then 2 else if perLane i then 0 else 1

/-- The words that a core issues to a pipe in one cycle (R110). -/
def pipeWidth (k : Nat) : Nat := if k == 0 then 4 else 1

end Sys2Proof.Machine
end

