-- ==== Sys2Proof/Machine/State.lean ====
section
/-! DEFINITION. The state of one package, as plain data: splits, groups, teams, clusters, grids and cores; device
memory, translation and parking; chunks and the global order; engines; host interface and links. Each field names
the rule of the manual that gives it; the model's own fields say so. -/

namespace Sys2Proof.Machine

/-- Sticky flags in the order of FPFLAGS bits 6:0 (R71): NV, DZ, OF, UF, NX, SAT, ICW. -/
abbrev Flags7 := BitVec 7

/-- The causes of the model's own stops. -/
inductive Fault where
  /-- Raised by a core instruction when State.cur names no split of a resident group. No step of the machine issues
  a word without a split. Safe. -/
  | noSplit
  /-- Raised by an access whose page maps storage the package does not have (R266 gives the tiers' sizes). Safe. -/
  | noStorage
  deriving DecidableEq, Repr

/-- Why an instruction has no meaning. -/
inductive Refusal where
  /-- Raised by an arm of exec whose instruction has no meaning yet. Safe. -/
  | notModelled (mnemonic : String)
  deriving DecidableEq, Repr

/-- A reconvergence stack entry (R114): address, header address, mask, with the header word under which an entry in
the middle of a clause continues (R30, R116). -/
structure StackEntry where
  addr : Word
  hdrAddr : Word
  hdr : Word := 0
  mask : Mask
  deriving DecidableEq, Repr

/-- The set-aside resume state of a trap (R468): clause header, skip state, stack, ACTMASK, and whether the trapping
instruction was its clause's last word (R482). -/
structure Resume where
  hdrAddr : Word
  hdr : Word
  skipLeft : Nat
  skipMask : Mask
  stack : List StackEntry
  mask : Mask
  last : Bool
  deriving DecidableEq, Repr

/-- The checkpointed control state of a split (R114, R30, R46, R470, R472). `atHdr`: a clause header is to be
fetched at pc. -/
structure Ctl where
  pc : Word := 0
  hdrAddr : Word := 0
  hdr : Word := 0
  atHdr : Bool := true
  mask : Mask := 0
  stack : List StackEntry := []
  skipLeft : Nat := 0
  skipMask : Mask := 0
  portable : Bool := false
  trapPc : Word := 0
  trapCause : Word := 0
  trapMask : Word := 0
  trapInfo : Word := 0
  trapVec : Word := 0
  trapSave : Word := 0
  resume : Option Resume := none
  deriving DecidableEq, Repr

/-- The checkpointed registers of a group (R151, R163, R74): vector cells by 32 * register + lane, scalars,
predicate masks, alphabet registers, their map tables by 16 * register + entry, the return stacks by lane, and the
group state of R74. A register's full/empty bit (R160) is empty exactly while a write of Group.ll names it. `nv`, the model's
own, counts the writes of each vector register: a register whose count is another than it was has been overwritten since,
whatever it holds (R409). -/
structure Regs where
  v : Cells 32 := []
  nv : Cells 64 := []
  s : Cells 64 := []
  p : Cells 32 := []
  al : Cells 64 := []
  map : Cells 16 := []
  rets : List (Nat × List Word) := []
  fpmode : Word := 0
  repro : Word := 0
  srseed : Word := 0
  srcount : Word := 0
  deriving DecidableEq, Repr

/-- A store before it takes effect (R232, R293, R310): bytes at a location, a `red` held as its operation, a
relaxed-mode symbol store sent to its home (R338), or a kernel table entry (R499). A location is a 64-bit address;
W, A, C, G and cluster SRAM locations are local bases (R370). -/
inductive StoreOp where
  | bytes (loc : Nat) (data : List Byte)
  | red (loc op size operand : Nat) (canon : Option Nat)
  | kit (loc : Nat) (data : List Byte)
  deriving DecidableEq, Repr

/-- The operands of an engine or matrix command, as read at issue (R368, R405). -/
structure Cmd where
  kid : Nat := 0
  opc : Nat := 0
  code : Nat := 0
  gid : Nat := 0
  tid : Nat := 0
  core : Nat := 0
  slot : Nat := 0
  rcd : Nat := 0
  args : List Nat := []
  ctr : Option Nat := none
  gate : Option Nat := none
  fpmode : Word := 0
  repro : Bool := false
  srseed : Word := 0
  /-- a register and m of a format-Q word, its control words S, L and P, and its B and C words (R405 to R407). -/
  areg : Nat := 0
  m : Nat := 0
  sw : Nat := 0
  lw : Nat := 0
  pw : Nat := 0
  bw : Nat := 0
  cw : Nat := 0
  /-- The split that sent it. -/
  sp : Nat := 0
  /-- Each contributor by group index: its vector registers as the engine read them, and how often each had been written when
  they became operands; a write of one before the command finishes makes the result undefined (R409). -/
  tile : List (Nat × Cells 32 × Cells 64) := []
  /-- The list count of `msparse`, read at acceptance (R423). -/
  n : Option Nat := none
  /-- The graph node and the walk that sent it (R386). -/
  node : Option (Nat × Nat) := none
  deriving DecidableEq, Repr

/-- Where a sent command stands (R368, R384, R452, R456). -/
inductive Stage where
  | port
  | held
  | queued
  | running (piece : Nat)
  | releasing (page : Nat)
  | done
  deriving DecidableEq, Repr

/-- A page of an `attn` snapshot (R452): address, LIVEMAP, positions of its live slots and the weight sums that its
release adds. -/
structure SnapPage where
  addr : Nat
  live : Nat
  pos : List (Nat × Nat)
  sums : List (Nat × Nat)
  deriving DecidableEq, Repr

/-- A command in the machine with its progress. `unit` is its asynchronous engine (R367); `raced` says that an operand of it, and
`lost` that a result location alone, was written by another agent before it finished (R409); `credited` that its gate has let it
go (R384); `aRead` that its A operands have been read (R413). -/
structure SentCmd where
  cmd : Cmd
  stage : Stage := .port
  unit : Nat := 0
  raced : Bool := false
  lost : Bool := false
  credited : Bool := false
  aRead : Bool := false
  err : Nat := 0
  snap : List SnapPage := []
  /-- `ebb`: kept tokens as (old page, slot), and pages taken (R456). -/
  kept : List (Nat × Nat) := []
  taken : List Nat := []
  /-- Destination addresses written, in nibbles, to find COLL over the whole command (R377). -/
  written : List Nat := []
  flags : BitVec 8 := 0
  /-- Its record and the conditions of acceptance have been checked; the bytes of its record (R374, R379; of its entry for
  `ebb`, of its record and its entry for `attn`); the index list of a gather or scatter, read before any data moves (R394), or the
contributors of a multiply whose tile came from their latch (R413). -/
  checked : Bool := false
  recb : List Byte := []
  idx : List Nat := []
  /-- Lines that peers returned to it, lines that a peer refused or a link lost with their error codes, and the batches
  that an `xpeer` has sent, by this package's count (R319, R400). -/
  peerData : List (Nat × List Byte) := []
  bad : List (Nat × Nat) := []
  batches : List Nat := []
  deriving DecidableEq, Repr

/-- What a chunk does outside its split when it commits (R291, R430, R433). -/
inductive Effect where
  | arrive (scope id : Nat)
  | arriveWire (tag : Nat)
  | spawn (bin : Nat) (entry : Word) (args : List Word) (ctr : Option Nat) (flush : Bool)
  | launch (rcd : Nat) (args : List Word) (ctr : Option Nat)
  | exit (lanes : Mask)
  | yield
  | command (c : Cmd)
  | evmap (op src : Nat) (v : Word)
  | cancel (ctr : Nat)
  | credit (nv : Cells 64)
  | mrel
  deriving DecidableEq, Repr

/-- A write of a flag register held with its chunk (R191): the register's number, the value, and the flags raised
after it. -/
structure HeldFlags where
  reg : Nat
  val : Word
  later : Word
  deriving DecidableEq, Repr

/-- What a `krepl` of a chunk has judged of its context's mode (R499): the entry, whether the image is of revision 2, the entries
that the chunk had swapped before with theirs, and whether the loaded objects would call for chunked mode. -/
structure Judged where
  idx : Nat
  rev2 : Bool
  before : List (Nat × Bool)
  want : Bool
  deriving DecidableEq, Repr

/-- A chunk in progress (R288 to R300): its checkpoint, the words executed, the stores buffered in program order,
the lines read and written, the pending flags, the closing effects, the registers it holds (R164), whether its last
instruction has issued, and the round reported in phase one (R300). -/
structure Chunk where
  cid : Nat
  ckRegs : Regs
  ckCtl : Ctl
  words : Nat := 0
  ops : List StoreOp := []
  reads : List Nat := []
  writes : List Nat := []
  /-- Line keys in the order in which they were first recorded (R523, event 0x04). -/
  keys : List Nat := []
  flags : Flags7 := 0
  held : List HeldFlags := []
  effs : List Effect := []
  heldS : List Nat := []
  heldAl : List Nat := []
  closed : Bool := false
  phase : Option Nat := none
  /-- The judgements of its `krepl` words, and the entries that they swap with whether to revision 2. -/
  judged : List Judged := []
  swaps : List (Nat × Bool) := []
  /-- It records its lines in a spare signature pair of its core (R295). -/
  spare : Bool := false
  deriving DecidableEq, Repr

/-- The register writes of an instruction: vector cells by 32 * register + lane, scalars, predicates as (register,
lanes, bits), the flags of each lane (R72), and the stochastic-rounding counts it takes (R78). -/
structure Wr where
  v : List (Nat × Lane) := []
  s : List (Nat × Word) := []
  p : List (Nat × Mask × Mask) := []
  fl : List (Nat × Flags7) := []
  cnt : Nat := 0
  deriving DecidableEq, Repr

/-- A trap met and not yet delivered (R468): cause, lanes, address, word, whether it was a pair, whether the
instruction completes (R467) with what it then writes, and whether it was its clause's last word. -/
structure PendTrap where
  cause : Nat
  mask : Mask
  pc : Word
  info : Word
  pair : Bool
  done : Bool
  last : Bool
  wr : Wr := {}
  deriving DecidableEq, Repr

/-- Why a split waits at its word or header; a wait is looked at again whenever the split is chosen. `ready`: its wait has
ended, and it has not been chosen since, so that it does not hold its group's issue (R29). -/
inductive Wait where
  | ready | empty | dest | held | pair | line | commit | waitSet | counter | fullEmpty | blocks | bin | launchQueue | port
  | barrier | parked | stores | drain | born | trap | peer
  deriving DecidableEq, Repr

/-- A barrier arrival with its time (R121, R125). For the wire tree, `counted` says that it counts in the open instance and
`next` that it is held for the next one. -/
structure BarWait where
  scope : Nat
  id : Nat
  arrivedAt : Nat := 0
  counted : Bool := false
  next : Bool := false
  deriving DecidableEq, Repr

/-- A split (R114) with its scheduling state (R111, R112) and squash state (R302 to R304). `ir`: length in bytes and
TRAPINFO word of the instruction fetched last. `born`: the split whose uncommitted chunk made it (R119). `fe`: the
lanes completed of a full/empty operation or of a peer atomic and the values they read (R231, R279), `plan` the lanes
it has still to do, each with its address, operand and comparand. `peerData`, `bad`: the lines that peers have returned
or refused for the load at its word (R319). `posted`: slots posted by `acqx.post`;
`acqDone`: its blocking `acqx` has been granted (R169). -/
structure Split where
  id : Nat
  ctl : Ctl := {}
  chunk : Option Chunk := none
  pst : List StoreOp := []
  wait : Option Wait := none
  stamp : Nat := 0
  /-- The cycle since which it has been ready and passed over (R112, R113). -/
  since : Nat := 0
  promoted : Bool := false
  irLen : Nat := 8
  irInfo : Word := 0
  pend : Option PendTrap := none
  bar : Option BarWait := none
  born : Option Nat := none
  feDone : Mask := 0
  feVals : List (Nat × Nat) := []
  plan : List (Nat × Nat × Nat × Nat) := []
  /-- Where the lanes of an atomic or `sst` in progress have been translated to: host memory or not, and the physical place. -/
  places : List (Nat × Bool × Nat) := []
  peerData : List (Nat × List Byte) := []
  bad : List Nat := []
  squashes : Nat := 0
  narrow : Bool := false
  ticket : Option Nat := none
  resHomes : List Nat := []
  posted : List Nat := []
  acqDone : Bool := false
  deriving DecidableEq, Repr

/-- An outstanding long-latency write (R160): the split and chunk that issued it (chunk 0 for none), the vector cells
and scalars it writes, and the registers it marks full. -/
structure LongWrite where
  sp : Nat
  cid : Nat
  vw : List (Nat × Lane) := []
  sw : List (Nat × Word) := []
  vr : List Nat := []
  sr : List Nat := []
  /-- 1 for an access to a scratchpad buffer or cluster SRAM, 2 for a global one, 3 for a full/empty operation in
  progress, whose split writes it (R231), 0 for any other (R22's LS and LD). -/
  load : Nat := 0
  deriving DecidableEq, Repr

/-- A resident or saved group (R94, R97): registers, flag registers (R71, R373, R420), CHUNKSQ (R305), held extended
slots (R155), outstanding writes, operand latch and its release marks, each of which names the first command after it (R413, R433), operand
credits, each with how often each vector register had been written when it was given (R411), the spawn counters of its lanes (R141), and the barrier instances it does not take part in (R121). -/
structure Group where
  gid : Nat
  tid : Nat
  core : Nat
  slot : Nat
  index : Nat
  spawned : Bool := false
  saved : Bool := false
  preempt : Bool := false
  chunked : Bool := true
  regs : Regs := {}
  fpflags : Word := 0
  mxflags : Word := 0
  xflags : Word := 0
  chunksq : Word := 0
  ext : List Nat := []
  splits : List Split := []
  ll : List LongWrite := []
  nextCid : Nat := 1
  latch : Option (Nat × Nat × List Lane) := none
  mrel : List Nat := []
  credits : List (Cells 64) := []
  laneCtr : List (Nat × Nat) := []
  exempt : List (Nat × Nat) := []
  deriving DecidableEq, Repr

/-- One team's allotment of a buffer (R222, R223, R229): its size in KiB, its bytes, and the words that are full. -/
structure Scratch where
  kib : Nat := 0
  bytes : Cells 8 := []
  full : Cells 1 := []
  deriving DecidableEq, Repr

/-- A full/empty request that waits (R230): buffer, byte offset, words, the queue it stands in (fill or empty), whether
its words stay full (`ldsp`), the data of an `stse`, and its lane. -/
structure FeReq where
  buf : Nat
  off : Nat
  words : List Nat
  fill : Bool
  keep : Bool
  data : List Byte
  gid : Nat
  sp : Nat
  lane : Nat
  deriving DecidableEq, Repr

/-- A team (R94): placement, the four allotments, waiting full/empty requests (R230), gate credits (R384), scale
bindings (R415), groups that have ended with the credits they left (R411), and what its kernel declares. -/
structure Team where
  tid : Nat
  cid : Nat
  core : Nat
  index : Nat
  w : Scratch := {}
  a : Scratch := {}
  c : Scratch := {}
  g : Scratch := {}
  feq : List FeReq := []
  gates : Cells 8 := []
  scaleA : Option (Nat × Nat) := none
  scaleB : Option (Nat × Nat) := none
  ended : List (Nat × Nat) := []
  groups : Nat := 1
  vregs : Nat := 64
  sregs : Nat := 512
  released : Bool := false
  deriving DecidableEq, Repr

/-- A cluster (R94 to R96): its grid, linear number, origin core, shape, cluster SRAM (R226), whether it is saved
(R477) or is to be saved, the device bytes of its record by owner and physical offset, and whether they have been written
since (R478); `named`: a request of the management window names it (R510). -/
structure Cluster where
  cid : Nat
  grid : Nat
  linear : Nat
  origin : Nat
  cx : Nat := 1
  cy : Nat := 1
  slices : Nat := 0
  sram : Cells 8 := []
  saved : Bool := false
  toSave : Bool := false
  corrupt : Bool := false
  saveAt : Nat := 0
  saveLen : Nat := 0
  savePages : List (Nat × Nat) := []
  named : Bool := false
  deriving DecidableEq, Repr

/-- A code object header as the dispatcher reads it (R487). -/
structure CodeHdr where
  rev : Nat := 0
  form : Nat := 0
  team : Nat := 1
  cx : Nat := 1
  cy : Nat := 1
  vregs : Nat := 1
  sregs : Nat := 1
  bufs : List Nat := [0, 0, 0, 0]
  trans : Nat := 0
  transLen : Nat := 0
  deriving DecidableEq, Repr

/-- The kernel table entry a grid is bound to, with its header (R489, R491). -/
structure Binding where
  desc : Nat
  entry : Nat
  portable : Bool
  spmap : Nat := 0
  hdr : CodeHdr
  deriving DecidableEq, Repr

/-- Who launched a grid: a host function, or a team's counter with the launching group's slot (R142, R517). -/
inductive Source where
  | host (fn : Nat)
  | device (tid : Nat) (ctr : Option Nat)
  deriving DecidableEq, Repr

/-- A grid from its launch record to its completion (R96, R98, R515, R491). `next` is its next cluster, `done` the
clusters that have released, `cores` those on which a group of it has started (R493), `starved` the block of R98,
`stuck` since when its next cluster could not be placed, `status` the error its completion carries. -/
structure Grid where
  grid : Nat
  slot : Nat
  serial : Nat
  kit : Nat
  prio : Nat := 0
  repro : Bool := false
  service : Bool := false
  test : Bool := false
  gx : Nat := 1
  gy : Nat := 1
  gz : Nat := 1
  slices : Nat := 0
  argBlock : Word := 0
  args : List Word := []
  src : Source := .host 0
  bound : Option Binding := none
  next : Nat := 0
  done : Nat := 0
  cores : List Nat := []
  starved : Bool := false
  stuck : Option Nat := none
  status : Nat := 0
  deriving DecidableEq, Repr

/-- A spawn bin of a core (R105, R106): number, key, threads with their arguments and counters, the start of its timer,
its expiry, and flush. -/
structure Bin where
  core : Nat
  bin : Nat
  tid : Nat
  entry : Word
  threads : List (List Word × Option Nat) := []
  since : Nat := 0
  expired : Bool := false
  flush : Bool := false
  portable : Bool := false
  deriving DecidableEq, Repr

/-- A request for extended blocks, in the order of its core's queue (R156). -/
structure BlockReq where
  core : Nat
  gid : Nat
  sp : Nat
  slots : List Nat
  posted : Bool
  deriving DecidableEq, Repr

/-- The registers of one core (R109, R384, R421, R522) and its fetch buffer: the instruction words it has fetched
since its last `ifence` (R325, R493), by (context slot, address). -/
structure Core where
  bintimer : Word := 2048
  evsel : List Word := [0, 0, 0, 0, 0, 0, 0, 0]
  evcnt : List Word := [0, 0, 0, 0, 0, 0, 0, 0]
  evteam : List Nat := [0, 0, 0, 0, 0, 0, 0, 0]
  faultinj : Word := 0
  fiTeam : Nat := 0
  fiCmd : Option Nat := none
  route : List Word := [0, 0, 0, 0, 0, 0, 0, 0, 0, 0, 0, 0, 0, 0, 0, 0]
  ibuf : List (Nat × Word) := []
  /-- The number that State.oldSeq had at its last `ifence`. -/
  fenceAt : Nat := 0
  deriving DecidableEq, Repr

/-- A TLB entry of a home slice of a die (R259); slice 16 of die 4 is the host-port home (R268). -/
structure TlbEntry where
  die : Nat
  slice : Nat
  asid : Nat
  host : Bool
  base : Nat
  size : Nat
  leaf : Nat
  deriving DecidableEq, Repr

/-- A request parked for translation (R260, R265): who waits (a group and split, or 0 and a command), the 256-byte block
of its owner that it names, whether an engine made it, and whether it has a place in its home's queue (false: returned to its
requester). -/
structure Parked where
  who : Nat × Nat
  die : Nat
  slice : Nat
  asid : Nat
  host : Bool
  block : Nat
  type : Nat
  source : Nat
  engine : Bool := false
  accepted : Bool := true
  deriving DecidableEq, Repr

/-- A pending miss record (R261) with its PARKED count, and whether it has been written to the ring: the page of its owner by
base and size, and the 64 KiB page of the first request. -/
structure MissRec where
  die : Nat
  asid : Nat
  host : Bool
  base : Nat
  size : Nat
  page : Nat
  kind : Nat
  type : Nat
  parked : Nat
  source : Nat
  written : Bool := false
  /-- It is no longer pending and has still to be written (R505). -/
  ended : Bool := false
  deriving DecidableEq, Repr

/-- A parked request that its home has served, while the access of its split is still to be made (R260, R267): the split, the
home's queue, and its page by base and size. -/
structure Serving where
  who : Nat × Nat
  die : Nat
  slice : Nat
  asid : Nat
  host : Bool
  base : Nat
  size : Nat
  deriving DecidableEq, Repr

/-- A migration of a copy-only page (R267): its leaf's address, the leaf, the page, the frame it took, and the lines that a peer's
source has answered. -/
structure Migration where
  die : Nat
  asid : Nat
  host : Bool
  base : Nat
  size : Nat
  leafAt : Nat
  leaf : Nat
  frame : Option Nat := none
  lines : List (Nat × List Byte) := []
  deriving DecidableEq, Repr

/-- An aperture registration in force (R275, R507). -/
structure Aper where
  die : Nat
  reg : Nat
  base : Nat
  aper : Nat
  pitch : Nat
  rows : Nat
  cells : Nat
  deriving DecidableEq, Repr

/-- A record that waits for its ring (R505): the ring's BAR0 offset, entry bytes, and vector. -/
structure RingRec where
  ring : Nat
  bytes : List Byte
  vec : Nat
  deriving DecidableEq, Repr

/-- A canonical float reduction (R285): physical address, size in bytes, die and slice of its home, and the codes contributed since the last
fold, with their requester ids. -/
structure Accum where
  addr : Nat
  size : Nat
  slice : Nat × Nat
  vals : List (Nat × Nat)
  deriving DecidableEq, Repr

/-- A batch sent or received (R316, R317). -/
structure Batch where
  src : Nat
  asid : Nat
  stamp : List (BitVec 32)
  writes : List PeerOp
  keys : List Nat
  incr : Option Nat := none
  /-- Packages that have not reported it as applied (R318). -/
  owed : List Nat := []
  deriving DecidableEq, Repr

/-- A peer request outstanding (R319, R520), by the split that waits for it (or 0, 0), with the operation, operand and
comparand of an atomic, and its reply once received: no bytes for a refused access. -/
structure PeerReq where
  tag : Nat
  pkg : Nat
  port : Nat
  addr : Nat
  len : Nat
  asid : Nat
  gid : Nat
  sp : Nat
  /-- The clock at issue (R319), and what is needed of the leaf (R264): 0 a read, 1 a fetch of instructions, 2 leave for an
  atomic, which reads nothing; `stale`: the line has been written since, and the reply is of no use. -/
  clock : List (BitVec 32) := []
  need : Nat := 0
  stale : Bool := false
  op : Option (Nat × List Byte × List Byte) := none
  reply : Option (List Byte × List (BitVec 32)) := none
  deriving DecidableEq, Repr

/-- A peer read waiting to be served here (R319), or a peer atomic with its operation, operand and comparand (R269). -/
structure PeerServe where
  src : Nat
  tag : Nat
  port : Nat
  addr : Nat
  len : Nat
  asid : Nat
  clock : List (BitVec 32)
  need : Nat := 0
  op : Option (Nat × List Byte × List Byte) := none
  deriving DecidableEq, Repr

/-- A Dalcor Link port (R509, R518 to R520): state, far end, replays, next sequence numbers, held flits, and the
replies of its replay cache by (source package, tag). -/
structure Port where
  up : Bool := false
  down : Bool := false
  far : Nat := 0
  replays : Nat := 0
  txSeq : BitVec 16 := 0
  rxSeq : BitVec 16 := 0
  heldFlits : List Flit := []
  heldAt : List Nat := []
  cache : List (Nat × Nat × Msg) := []
  deriving DecidableEq, Repr

/-- A walk of a dependence graph (R386, R397): its team, core, die, counter, and the nodes launched and unfinished. -/
structure Walk where
  wid : Nat
  tid : Nat
  gid : Nat
  core : Nat
  slot : Nat
  ctr : Option Nat
  space : Nat
  nodes : List Nat
  cancelled : Bool := false
  fpmode : Word := 0
  repro : Bool := false
  srseed : Word := 0
  deriving DecidableEq, Repr

/-- An aligned word of 8 bytes of a page that grants X, as it was before a write (R493): its physical address, at 2^62 and above for
host memory, its bytes, and the number of the write. -/
structure OldWord where
  key : Nat
  bytes : List Byte
  seq : Nat
  deriving DecidableEq, Repr

/-- An HDM decoder of a function (R501, R502): a range of host physical addresses, and the owner and offset of its first byte. -/
structure Hdm where
  fn : Nat
  idx : Nat
  base : Nat
  size : Nat
  owner : Nat
  off : Nat
  deriving DecidableEq, Repr

/-- A store that a split issued in relaxed mode and had not performed when its group ended with an undeliverable trap (R473):
it is performed all the same (R310). -/
structure Loose where
  gid : Nat
  sp : Nat
  tid : Nat
  cid : Nat
  slot : Nat
  core : Nat
  op : StoreOp
  deriving DecidableEq, Repr

/-- A counter update that waits for its place in the global order (R236, R306): the counter word of a team, the code, what is
added to COUNT, and the sources that pulse with it (R383). -/
structure CtrDue where
  tid : Nat
  off : Nat
  err : Nat
  n : Nat
  pulses : List Nat
  deriving DecidableEq, Repr

/-- A translation in progress (R497): context slot, table index, DESC and VERSION when it began. -/
structure Transl where
  slot : Nat
  kit : Nat
  desc : Nat
  version : Nat
  deriving DecidableEq, Repr

/-- What the host or a peer sees of the package: an interrupt (R505), an answer (R502, R501, R526), a flit sent. -/
inductive Output where
  | msix (fn vec : Nat)
  | cxlData (data : List Byte)
  | unsupported (fn : Nat)
  | config (fn : Nat) (retry : Bool)
  | flit (port : Nat) (f : Flit)
  | hostAtomic (addr : Nat)
  deriving DecidableEq, Repr

/-- What moves next, as plain data (the model's own, log 5): a split issues, a step of the table happens, time
passes, a home drops a TLB entry, the management controller arrives at a wire-tree tag, a host sets a decoder (R501), the hottest
junction has another temperature (R503), or an idle or management flit is sent (R518). -/
inductive Choice where
  | issue (gid sp : Nat)
  | event (i : Instr)
  | tick (n : Nat)
  | tlbDrop (k : Nat)
  | mcArrive (tag : Nat)
  | setHdm (d : Hdm)
  | junction (celsius : Nat)
  | linkFlit (port kind : Nat) (data : List Byte)
  deriving DecidableEq, Repr

/-- The state of the package. -/
structure State where
  /-- The model's own: what moves next, and the split that issues. -/
  schedule : List Choice := []
  cur : Nat × Nat := (0, 0)
  /-- The model's own: free values drawn (log 3). -/
  free : Nat := 0
  /-- CLOCK (R129). -/
  clock : Nat := 0
  /-- The words issued in this cycle: core, pipe and group (R110). -/
  issued : List (Nat × Nat × Nat) := []
  /-- Device memory, by owner * 2^54 + physical offset (R252, R256). -/
  mem : Cells 8 := []
  /-- Host memory over CXL, by host bus address (R268). -/
  hostMem : Cells 8 := []
  /-- Lines of device memory whose data has been lost (R525), by physical address / 64. -/
  failed : List Nat := []
  /-- Code that has been rewritten, which a core may fetch until its next `ifence`, and the number of the next such write (R493). -/
  oldCode : List OldWord := []
  oldSeq : Nat := 0
  groups : List Group := []
  teams : List Team := []
  clusters : List Cluster := []
  grids : List Grid := []
  /-- Grids launched by `launch` while their context drains to change its mode (R309): they are not queued yet. -/
  heldGrids : List Grid := []
  /-- Changes of USERS that wait for their header's page (R491): context slot, header, and whether it goes up. -/
  usersDue : List (Nat × Nat × Bool) := []
  cores : List (Nat × Core) := []
  bins : List Bin := []
  blockQ : List BlockReq := []
  cmds : List SentCmd := []
  walks : List Walk := []
  /-- Counter updates that wait for a reserved chunk, a key, or a saved team (R304, R306). -/
  due : List CtrDue := []
  loose : List Loose := []
  /-- The model's own: the next group, team, cluster, grid, command and walk identifiers. -/
  nextId : Nat := 1
  tlb : List TlbEntry := []
  /-- Translation roots in force by 8 * context slot + owner (R506), and aperture registrations in force (R507). -/
  roots : Cells 64 := []
  apers : List Aper := []
  parked : List Parked := []
  serving : List Serving := []
  misses : List MissRec := []
  migrations : List Migration := []
  accums : List Accum := []
  /-- The open round and each sequencer's next sequence number (R300), the last key granted, and the next
  reservation ticket (R304). -/
  round : Nat := 0
  seqs : List Nat := [0, 0, 0, 0, 0]
  lastKey : Nat × Nat × Nat := (0, 0, 0)
  ticket : Nat := 0
  /-- HDM decoders in force (R501). -/
  hdm : List Hdm := []
  /-- BAR0 registers by offset (R503 to R510), but for those below. -/
  bar0 : Cells 64 := []
  /-- Wire-tree counts by 256 * tag + participant (R509), the counts in force and the arrivals received (R125). -/
  wireCount : Cells 8 := []
  wireForce : Cells 8 := []
  wireGot : Cells 8 := []
  /-- The time of a tag's last counted arrival (R125). -/
  wireLast : Cells 64 := []
  /-- Notices waiting, by die (R507), and records waiting for a ring (R505). -/
  notices : List (Nat × Word) := []
  ringWait : List RingRec := []
  /-- The launch port's records with their functions (R514), and each context slot's next serial (R128). -/
  port : List (Nat × List Byte) := []
  serials : Cells 32 := []
  /-- Context slots that run in chunked mode (R309). -/
  chunkedSlots : List Nat := []
  /-- The start of the owner's lapse timer (R513), power state, throttle level and heat (R528, R529). -/
  beat : Nat := 0
  d3hot : Bool := false
  throttle : Nat := 0
  /-- The last cycle at which power or temperature is known to have been beyond its limit (R529). -/
  hotAt : Nat := 0
  powered : Bool := true
  /-- VC (R315), batches sent and received, peer line cache, peer requests and reads to serve, ports (R316 to R321). -/
  vc : List (BitVec 32) := List.replicate 64 0
  sent : List Batch := []
  inbox : List Batch := []
  /-- Lines fetched as instructions stand in the cache by address + 2^64; `badLines`: lines that a peer has refused to a context in
  the open round. -/
  peerLines : List (Nat × List Byte) := []
  badLines : List Nat := []
  peerReqs : List PeerReq := []
  peerServes : List PeerServe := []
  ports : List Port := List.replicate 12 {}
  /-- Flits that wait for room among a port's 512 unacknowledged ones (R519): port, kind and messages. -/
  outbox : List (Nat × Nat × List Msg) := []
  /-- Packages that no port leads to any longer, until their warm reset (R521). -/
  lost : List Nat := []
  nextTag : Cells 16 := []
  transls : List Transl := []
  /-- Context slots whose kernel tables are to be looked at again, once their pages are mapped (R497). -/
  scanDue : List Nat := []
  /-- The model's own: what has been sent out. -/
  out : List Output := []
  deriving DecidableEq, Repr

/-- The BAR0 registers after reset (R503): ID 0x9100_0000 with READY 0, OWNER with HOST 0xF, HBTIMEOUT 1,000 and
PWRCTL 2,400; every other one 0. -/
def State.bar0Reset : Cells 64 := [(0x00, 0x91000000), (0x10, 0xF), (0x28, 1000), (0x38, 2400)]

/-- The package right after a cold reset (R527): every register at its reset value, no context, grid or group, and
memory with nothing listed. -/
def State.reset : State := { bar0 := State.bar0Reset }

end Sys2Proof.Machine
end

