-- ==== Sys2Proof/Machine/Bar.lean ====
section
/-! DEFINITION. The management window's registers as the machine reads them (R503 to R513), little-endian bytes, and
the rings with their waiting records and interrupts (R505). -/

namespace Sys2Proof.Machine

open Sys2Proof

/-- The n low bytes of a number, little-endian (R4). -/
def leBytes : Nat → Nat → List Byte
  | 0, _ => []
  | n + 1, x => BitVec.ofNat 8 x :: leBytes n (x / 256)

/-- A file of n registers with register k written. -/
def putAt {α : Type} (n : Nat) (d : α) (l : List α) (k : Nat) (v : α) : List α :=
  (List.range n).map (fun j => if j = k then v else l.getD j d)

/-- The number of a little-endian byte list. -/
def ofBytes : List Byte → Nat
  | [] => 0
  | b :: r => b.toNat + 256 * ofBytes r

/-- Write bytes at consecutive addresses. -/
def Cells.write (c : Cells 8) : Nat → List Byte → Cells 8
  | _, [] => c
  | a, b :: r => Cells.write (c.set a b) (a + 1) r

/-- Read n bytes from consecutive addresses. -/
def Cells.read (c : Cells 8) : Nat → Nat → List Byte
  | _, 0 => []
  | a, n + 1 => c.get a :: Cells.read c (a + 1) n

namespace State

/-- A register of BAR0 (R503). -/
def bar (s : State) (off : Nat) : Nat := (s.bar0.get off).toNat
def setBar (s : State) (off v : Nat) : State := { s with bar0 := s.bar0.set off (BitVec.ofNat 64 v) }

/-- TIME in nanoseconds: CLOCK counts 3 cycles a nanosecond (R3, R129). -/
def time (s : State) : Nat := s.clock / 3

/-- This package's number (R503). -/
def pkg (s : State) : Nat := s.bar 0x08 % 32
/-- OWNER.HOST and OWNER.EPOCH (R512). -/
def host (s : State) : Nat := s.bar 0x10 % 16
def epoch (s : State) : Nat := s.bar 0x10 / 2 ^ 32

/-- Context slot c's registers (R506). -/
def ctx (s : State) (c off : Nat) : Nat := s.bar (0x1000 + 256 * c + off)
def ctxValid (s : State) (c : Nat) : Bool := c < 64 && bitAt (s.ctx c 0) 16
def asid (s : State) (c : Nat) : Nat := s.ctx c 0 % 2 ^ 16
/-- The valid slot of an ASID (R506 keeps it unique). -/
def slotOf (s : State) (a : Nat) : Option Nat :=
  (List.range 64).find? (fun c => s.ctxValid c && s.asid c == a)

/-- Die block d (R507). -/
def dieBlk (d : Nat) : Nat := 0x10000 + 4096 * d
/-- REACH of package k (R509). -/
def reach (s : State) (k : Nat) : Bool := bitAt (s.bar (0x30000 + 8 * k)) 12
/-- The lowest-numbered up port that leads to a package (R509). -/
def portTo (s : State) (k : Nat) : Option Nat :=
  (List.range 12).find? (fun j => bitAt (s.bar (0x30000 + 8 * k)) j && (s.ports.getD j {}).up)

/-! ### Rings (R505) -/

def ringSize (s : State) (r : Nat) : Nat := s.bar (r + 8)
def ringHead (s : State) (r : Nat) : Nat := s.bar (r + 0x10) % 2 ^ 32
def ringTail (s : State) (r : Nat) : Nat := s.bar (r + 0x18) % 2 ^ 32
/-- Full or disabled. -/
def ringFull (s : State) (r : Nat) : Bool :=
  s.ringSize r == 0 || (s.ringTail r + 2 ^ 32 - s.ringHead r) % 2 ^ 32 == s.ringSize r
/-- A completion ring, of function (r - 0x100) / 32. -/
def isCompl (r : Nat) : Bool := 0x100 ≤ r && r < 0x200
/-- The function that receives a ring's entries; none while no host owns a log ring. -/
def ringFn (s : State) (r : Nat) : Option Nat :=
  if isCompl r then some ((r - 0x100) / 32) else if s.host == 0xF then none else some s.host

/-- Write an entry at TAIL, in the memory of a function's host, and advance TAIL. An entry of the error log takes the TIME at which
it is written (R511). DESIGN CHOICE, log 113: the memory of function f's host stands at f * 2^64 and above. -/
def ringPut (s : State) (r fn : Nat) (bytes : List Byte) : State :=
  let t := s.ringTail r
  let a := fn * 2 ^ 64 + s.bar r + (t % s.ringSize r) * bytes.length
  let bytes := if r == 0x200 then leBytes 8 s.time ++ bytes.drop 8 else bytes
  let s := { s with hostMem := Cells.write s.hostMem a bytes }
  s.setBar (r + 0x18) (s.bar (r + 0x18) / 2 ^ 32 * 2 ^ 32 + (t + 1) % 2 ^ 32)

def signal (s : State) (fn vec : Nat) : State := { s with out := s.out ++ [.msix fn vec] }

/-- LOST saturates at 2^32 - 1. -/
def ringLost (s : State) (r : Nat) : State :=
  let v := s.bar (r + 0x18)
  s.setBar (r + 0x18) (min (v / 2 ^ 32 + 1) (2 ^ 32 - 1) * 2 ^ 32 + v % 2 ^ 32)

/-- A record for a ring: written at once, waiting (64 places for each ring), or dropped and counted; a completion
entry always waits (R505, R517). -/
def ringAdd (s : State) (r vec : Nat) (bytes : List Byte) : State :=
  let waiting := (s.ringWait.filter (fun w => w.ring == r)).length
  match s.ringFn r with
  | some f =>
    if waiting == 0 && !s.ringFull r then (s.ringPut r f bytes).signal f vec
    else if waiting < 64 || isCompl r then { s with ringWait := s.ringWait ++ [⟨r, bytes, vec⟩] }
    else s.ringLost r
  | none => if waiting < 64 then { s with ringWait := s.ringWait ++ [⟨r, bytes, vec⟩] } else s.ringLost r

/-- Write the waiting records of one ring in their order while there is room; `once` signals its vector once. -/
def ringDrain (r : Nat) (once : Bool) : List RingRec → State → State
  | [], s => s
  | w :: rest, s =>
    match s.ringFn r with
    | some f =>
      if w.ring == r && !s.ringFull r then
        let s1 := { s.ringPut r f w.bytes with ringWait := s.ringWait.erase w }
        ringDrain r once rest (if once then s1 else s1.signal f w.vec)
      else ringDrain r once rest s
    | none => s

/-- An entry of the error log (R511); its TIME is set as it is written. -/
def errLog (s : State) (kind unit store addr ctxs : Nat) : State :=
  s.ringAdd 0x200 1 (leBytes 8 0 ++ leBytes 1 kind ++ leBytes 1 unit ++ leBytes 1 store ++ leBytes 5 0
    ++ leBytes 8 addr ++ leBytes 8 ctxs)

/-! ### Cores -/

/-- A core's registers. -/
def coreAt (s : State) (c : Nat) : Core := ((s.cores.find? (fun e => e.1 == c)).map (fun e => e.2)).getD {}
def setCore (s : State) (c : Nat) (k : Core) : State :=
  { s with cores := (s.cores.filter (fun e => e.1 < c)) ++ (c, k) :: (s.cores.filter (fun e => c < e.1)) }
/-- The die of a core (R13). -/
def dieOf (c : Nat) : Nat := c / 48

/-- Count an event at a core (R522, R523): every enabled counter that selects it, and whose TEAM bit admits the
team. -/
def countEv (s : State) (c tid code n : Nat) : State :=
  let k := s.coreAt c
  let cnt := (List.range 8).map (fun j =>
    let sel := (k.evsel.getD j 0).toNat
    if bitAt sel 16 && sel % 2 ^ 16 == code && (!bitAt sel 17 || k.evteam.getD j 0 == tid)
    then k.evcnt.getD j 0 + BitVec.ofNat 64 n else k.evcnt.getD j 0)
  if cnt == k.evcnt then s else s.setCore c { k with evcnt := cnt }

/-- Count an event in a die's sixteen counters (R507, R522, R523). -/
def countDie (s : State) (d code n : Nat) : State :=
  (List.range 16).foldl (fun s k =>
    let a := dieBlk d + 0x100 + 16 * k
    let sel := s.bar a
    if bitAt sel 16 && sel % 2 ^ 16 == code then s.setBar (a + 8) (s.bar (a + 8) + n) else s) s

/-- The n-th free value, and the state that has drawn it (R9, log 3). -/
def draw (s : State) : Word × State := (Config.freeValue s.free, { s with free := s.free + 1 })

end State

/-- Start-up has ended (R526): before it, the host port answers no request but with Retry Status. -/
def started (s : State) : Bool := s.powered && bitAt (s.bar 0) 0

/-- The writer is the control owner of a package that has started (R504, R526). -/
def owns (s : State) (fn : Nat) : Bool := started s && fn < 8 && fn == s.host

end Sys2Proof.Machine
end

