-- ==== Sys2Proof/Machine/Transc.lean ====
section
/-! DEFINITION. The functions whose exact results are not dyadic (R77, R211, R453): each is enclosed in fixed point
with 320 fraction bits and delivered with a sticky last bit, so that one rounding of it is the rounding of the exact
result (log 4). Series are summed by structural recursion on the number of terms. -/

namespace Sys2Proof.Machine

/-- Fraction bits of the fixed-point evaluation. -/
def fxP : Nat := 320
def fxOne : Nat := 2 ^ fxP
def fxMul (a b : Nat) : Nat := (a * b) >>> fxP

/-- Sum of z^(2i+1)/(2i+1) for n terms from i; `zn` is z^(2i+1), `z2` is z^2. -/
def atanhSum (z2 : Nat) : Nat → Nat → Nat → Nat
  | 0, _, _ => 0
  | n + 1, i, zn => zn / (2 * i + 1) + atanhSum z2 n (i + 1) (fxMul zn z2)

/-- ln 2 = 2 atanh(1/3). -/
def fxLn2 : Nat := 2 * atanhSum (fxOne / 9) 110 0 (fxOne / 3)

/-- Sum of x^k/k! for n terms from k; `t` is x^k/k!. -/
def expSum (x : Nat) : Nat → Nat → Nat → Nat
  | 0, _, _ => 0
  | n + 1, k, t => t + expSum x n (k + 1) (fxMul t x / (k + 1))

/-- exp x for 0 <= x < 1. -/
def fxExp (x : Nat) : Nat := expSum x 90 0 fxOne

/-- Alternating atan series of 1/q: sum of (-1)^i / ((2i+1) q^(2i+1)). -/
def atanInv (q : Nat) : Nat → Nat → Nat → Int
  | 0, _, _ => 0
  | n + 1, i, p => ((p / (2 * i + 1) : Nat) : Int) - atanInv q n (i + 1) (p / (q * q))

/-- pi by Machin's formula, rounded to the fixed point with guard bits. -/
def fxPi : Nat := (16 * atanInv 5 75 0 (2 ^ (fxP + 16) / 5) - 4 * atanInv 239 24 0 (2 ^ (fxP + 16) / 239)).toNat >>> 16

/-- Alternating sum of x^k/k! with steps of two: sine from k = 1, cosine from k = 0. -/
def trigSum (x2 : Nat) : Nat → Nat → Nat → Int
  | 0, _, _ => 0
  | n + 1, k, t => (t : Int) - trigSum x2 n (k + 2) (fxMul t x2 / ((k + 1) * (k + 2)))

/-- A fixed-point magnitude with a sticky bit. -/
def fxSticky (neg : Bool) (x : Nat) : FV := .fin neg (2 * x + 1) (-(fxP : Int) - 1)

/-- The fixed-point integer part of m * 2^e (floor). -/
def fxOf (m : Nat) (e : Int) : Nat := if 0 ≤ e + fxP then m * pow2 (e + fxP) else m >>> (-(e + fxP)).toNat

/-- 2^x of a dyadic x: exact for an integer, otherwise sticky (R77). Exponents are held to +-4000, beyond every
format's range. -/
def exp2Dy (x : Dy) : FV :=
  if Dy.lt (Dy.ofInt 4000) x then .fin false 1 4000
  else if Dy.lt x (Dy.ofInt (-4000)) then .fin false 3 (-4001)
  else
    let fx : Int := if x.m < 0 then -(fxOf x.m.natAbs x.e : Int) else fxOf x.m.natAbs x.e
    let k := fx / (fxOne : Int)
    let f := (fx % (fxOne : Int)).toNat
    -- an argument finer than the fixed point is not an integer: its power is 1 shifted by the sticky bit
    let fine := decide (x.e < -(fxP : Int)) && x.m % pow2 (-(fxP : Int) - x.e) != 0
    if f = 0 && !fine then .fin false 1 k
    else .fin false (2 * fxExp (fxMul f fxLn2) + 1) (k - fxP - 1)

/-- log2 of a positive dyadic m * 2^e: exact for a power of two, otherwise sticky. -/
def log2Dy (m : Nat) (e : Int) : FV :=
  let l := Nat.log2 m
  let top : Int := e + l
  if m = 2 ^ l then .ofInt top
  else
    let mant := if l ≤ fxP then m * 2 ^ (fxP - l) else m >>> (l - fxP)
    let z := ((mant - fxOne) * fxOne) / (mant + fxOne)
    let ln := 2 * atanhSum (fxMul z z) 110 0 z
    let v : Int := top * fxOne + ((ln * fxOne) / fxLn2 : Nat)
    if v < 0 then .fin true (2 * (-v - 1).toNat + 1) (-(fxP : Int) - 1) else fxSticky false v.toNat

/-- exp of a dyadic x <= 0: exactly 1 at 0, otherwise sticky; below -4000 it is a tiny value that rounds as one. -/
def expNegDy (x : Dy) : FV :=
  if x.m = 0 then .fin false 1 0
  else if Dy.lt x (Dy.ofInt (-4000)) then .fin false 3 (-4001)
  else
    let a : Int := -(fxOf x.m.natAbs x.e : Int)
    let k := a / (fxLn2 : Int)
    let r := (a % (fxLn2 : Int)).toNat
    .fin false (2 * fxExp r + 1) (k - fxP - 1)

/-- cos and sin of a nonnegative dyadic angle; (1, +0) exactly at 0 (R453). The sine of an angle below 2^-60 is the angle less
something beyond every rounding. -/
def cosSinDy (m : Nat) (e : Int) : FV × FV :=
  if m = 0 then (.fin false 1 0, .fin false 0 0)
  else if e + Nat.log2 m < -60 then (fxSticky false (fxOne - 2), .fin false (m * 2 ^ 200 - 1) (e - 200))
  else
    let th := fxOf m e
    let half := fxPi / 2
    let n := th / half
    let r := th % half
    let r2 := fxMul r r
    let s := (trigSum r2 70 1 r).toNat
    let c := (trigSum r2 70 0 fxOne).toNat
    match n % 4 with
    | 0 => (fxSticky false c, fxSticky false s)
    | 1 => (fxSticky true s, fxSticky false c)
    | 2 => (fxSticky true c, fxSticky true s)
    | _ => (fxSticky false s, fxSticky true c)

/-- Integer square root by bits: the greatest r with r^2 <= x, r below 2^n. -/
def isqrtBits (x : Nat) : Nat → Nat → Nat
  | 0, r => r
  | n + 1, r => let r' := r + 2 ^ n; if r' * r' ≤ x then isqrtBits x n r' else isqrtBits x n r

/-- floor(sqrt x). -/
def isqrt (x : Nat) : Nat := isqrtBits x (Nat.log2 x / 2 + 1) 0

/-- The quotient of two positive dyadic magnitudes, sticky where it is not exact; at least 120 significant bits. -/
def divDy (a : Nat) (ea : Int) (b : Nat) (eb : Int) : Nat × Int :=
  let k := 120 + Nat.log2 b
  let q := (a * 2 ^ k) / b
  let r := (a * 2 ^ k) % b
  (2 * q + (if r = 0 then 0 else 1), ea - eb - k - 1)

/-- The square root of a positive dyadic magnitude, sticky where it is not exact. -/
def sqrtDy (m : Nat) (e : Int) : Nat × Int :=
  let m1 := if e % 2 = 0 then m else 2 * m
  let e1 := if e % 2 = 0 then e else e - 1
  let x := m1 * 2 ^ 256
  let r := isqrt x
  (2 * r + (if r * r = x then 0 else 1), e1 / 2 - 128 - 1)

/-- The reciprocal square root of a positive dyadic magnitude, sticky where it is not exact. -/
def rsqrtDy (m : Nat) (e : Int) : Nat × Int :=
  let m1 := if e % 2 = 0 then m else 2 * m
  let e1 := if e % 2 = 0 then e else e - 1
  let k := 2 * (130 + Nat.log2 m1)
  let x := 2 ^ k
  -- floor(sqrt(2^k / m1)), exact when r^2 * m1 = 2^k
  let r := isqrt (x / m1)
  (2 * r + (if r * r * m1 = x then 0 else 1), -(e1 / 2) - (k / 2 : Nat) - 1)

end Sys2Proof.Machine
end

