-- ==== Sys2Proof/Machine/FpArith.lean ====
section
/-! DEFINITION. The arithmetic of the vector and scalar pipes on element values (06_vector_arithmetic.md): every
function takes codes and FPMODE's settings, and gives a code with its flags. -/

namespace Sys2Proof.Machine

/-- The default NaN with flags. -/
def FFmt.nanRes (f : FFmt) (fl : Flags) : FRes := ⟨f.defNan, fl⟩

/-- NV for a signalling NaN among the operands (R189 item 3). -/
def snanFlags (xs : List FV) : Flags := flagIf (xs.any FV.isSnan) fNV

/-- Read and flush an operand of a float format. -/
def FFmt.read (f : FFmt) (env : FpEnv) (x : Nat) : FV := f.flushIn env (f.decode (x % 2 ^ f.width))

/-- The sign of an exact zero sum: that of both operands where they agree, otherwise + or, under rdn, - (R189). -/
def zeroSumSign (env : FpEnv) (a b : Bool) : Bool := if a == b then a else env.mode == 2

/-- Sum of two read values (R189, R208). -/
def FFmt.addV (f : FFmt) (env : FpEnv) (x y : FV) : FRes :=
  match x, y with
  | .nan _, _ => f.nanRes (snanFlags [x, y])
  | _, .nan _ => f.nanRes (snanFlags [x, y])
  | .inf a, .inf b => if a == b then ⟨f.infCode a, 0⟩ else f.nanRes fNV
  | .inf a, _ => ⟨f.infCode a, 0⟩
  | _, .inf b => ⟨f.infCode b, 0⟩
  | .fin a ma ea, .fin b mb eb =>
    f.deliverDy env .arith ((FV.fin a ma ea).dy.add (FV.fin b mb eb).dy) (zeroSumSign env a b)

/-- The opposite sign, NaNs apart. -/
def FV.negate : FV → FV
  | .nan s => .nan s
  | .inf s => .inf (!s)
  | .fin s m e => .fin (!s) m e

/-- Product of two values: a NaN with its flags, or an exact value. -/
def mulV (x y : FV) : FV × Flags :=
  match x, y with
  | .nan _, _ => (.nan false, snanFlags [x, y])
  | _, .nan _ => (.nan false, snanFlags [x, y])
  | .inf a, .inf b => (.inf (a != b), 0)
  | .inf a, .fin b m _ => if m = 0 then (.nan false, fNV) else (.inf (a != b), 0)
  | .fin a m _, .inf b => if m = 0 then (.nan false, fNV) else (.inf (a != b), 0)
  | .fin a m e, .fin b n e' => (.fin (a != b) (m * n) (e + e'), 0)

/-- Deliver a value: default NaN, infinity, or a rounded finite value. -/
def FFmt.deliverV (f : FFmt) (env : FpEnv) (v : FV) (fl : Flags) : FRes :=
  match v with
  | .nan _ => ⟨f.defNan, fl⟩
  | .inf s => ⟨f.infCode s, fl⟩
  | .fin s m e => if m = 0 then ⟨f.signBit s, fl⟩ else
    let r := f.deliver env .arith s m e
    ⟨r.code, r.fl ||| fl⟩

/-- Exact sum of two finite or infinite values (no NaN result but for infinities of opposite signs). -/
def addExact (env : FpEnv) (x y : FV) : FV × Flags :=
  match x, y with
  | .nan _, _ => (.nan false, 0)
  | _, .nan _ => (.nan false, 0)
  | .inf a, .inf b => if a == b then (.inf a, 0) else (.nan false, fNV)
  | .inf a, _ => (.inf a, 0)
  | _, .inf b => (.inf b, 0)
  | .fin a ma ea, .fin b mb eb =>
    let d := (FV.fin a ma ea).dy.add (FV.fin b mb eb).dy
    if d.m = 0 then (.fin (zeroSumSign env a b) 0 0, 0) else (.fin (d.m < 0) d.m.natAbs d.e, 0)

def fadd (f : FFmt) (env : FpEnv) (a b : Nat) : FRes := f.addV env (f.read env a) (f.read env b)
def fsub (f : FFmt) (env : FpEnv) (a b : Nat) : FRes := f.addV env (f.read env a) (f.read env b).negate
def fmul (f : FFmt) (env : FpEnv) (a b : Nat) : FRes :=
  let p := mulV (f.read env a) (f.read env b)
  f.deliverV env p.1 p.2

/-- Fused multiply-add on read values (R209): a product of 0 and infinity raises NV even with a quiet NaN addend. -/
def FFmt.fmaV (f : FFmt) (env : FpEnv) (x y z : FV) : FRes :=
  let p := mulV x y
  match p.1, z with
  | .nan _, _ => f.nanRes (p.2 ||| snanFlags [z])
  | _, .nan _ => f.nanRes (snanFlags [x, y, z])
  | v, w =>
    let s := addExact env v w
    f.deliverV env s.1 (s.2 ||| p.2)

def ffma (f : FFmt) (env : FpEnv) (a b c : Nat) : FRes := f.fmaV env (f.read env a) (f.read env b) (f.read env c)

/-- x < y for `fmin` and `fmax`: -0 is below +0 (R210). -/
def FV.minLt (x y : FV) : Bool :=
  match x, y with
  | .inf a, .inf b => a && !b
  | .inf a, _ => a
  | _, .inf b => !b
  | .fin a m e, .fin b n e' =>
    if m = 0 && n = 0 then a && !b else Dy.lt (FV.fin a m e).dy (FV.fin b n e').dy
  | _, _ => false

/-- The code of a read value (its own code after input flushing). -/
def FFmt.code (f : FFmt) (v : FV) : Nat :=
  match v with
  | .nan _ => f.defNan
  | .inf s => f.infCode s
  | .fin s m e => f.encode s m e

/-- `fmin` (max = false) and `fmax` on read values (R210). -/
def FFmt.minMaxV (f : FFmt) (max nanMode : Bool) (x y : FV) : FRes :=
  let fl := snanFlags [x, y]
  if nanMode then
    if x.isNan || y.isNan then ⟨f.defNan, fl⟩
    else ⟨f.code (if max then (if x.minLt y then y else x) else (if y.minLt x then y else x)), fl⟩
  else if x.isNan && y.isNan then ⟨f.defNan, fl⟩
  else if x.isNan then ⟨f.code y, fl⟩
  else if y.isNan then ⟨f.code x, fl⟩
  else ⟨f.code (if max then (if x.minLt y then y else x) else (if y.minLt x then y else x)), fl⟩

def fminmax (f : FFmt) (env : FpEnv) (max nanMode : Bool) (a b : Nat) : FRes :=
  f.minMaxV max nanMode (f.read env a) (f.read env b)

/-- Reciprocal (R211). -/
def frcp (f : FFmt) (env : FpEnv) (a : Nat) : FRes :=
  match f.read env a with
  | .nan s => f.nanRes (flagIf s fNV)
  | .inf s => ⟨f.signBit s, 0⟩
  | .fin s m e => if m = 0 then ⟨f.infCode s, fDZ⟩ else
    let q := divDy 1 0 m e
    f.deliver env .arith s q.1 q.2

/-- Reciprocal square root (R211). -/
def frsq (f : FFmt) (env : FpEnv) (a : Nat) : FRes :=
  match f.read env a with
  | .nan s => f.nanRes (flagIf s fNV)
  | .inf s => if s then f.nanRes fNV else ⟨0, 0⟩
  | .fin s m e => if m = 0 then ⟨f.infCode s, fDZ⟩ else if s then f.nanRes fNV else
    let q := rsqrtDy m e
    f.deliver env .arith false q.1 q.2

/-- Square root (R211). -/
def fsqrt (f : FFmt) (env : FpEnv) (a : Nat) : FRes :=
  match f.read env a with
  | .nan s => f.nanRes (flagIf s fNV)
  | .inf s => if s then f.nanRes fNV else ⟨f.infCode false, 0⟩
  | .fin s m e => if m = 0 then ⟨f.signBit s, 0⟩ else if s then f.nanRes fNV else
    let q := sqrtDy m e
    f.deliver env .arith false q.1 q.2

/-- Base-2 exponential, rounded to nearest even (R77, R212). -/
def fexp2 (f : FFmt) (env : FpEnv) (a : Nat) : FRes :=
  let env := { env with mode := 0 }
  match f.read env a with
  | .nan s => f.nanRes (flagIf s fNV)
  | .inf s => if s then ⟨0, 0⟩ else ⟨f.infCode false, 0⟩
  | .fin s m e => f.deliverV env (exp2Dy (FV.fin s m e).dy) 0

/-- Base-2 logarithm, rounded to nearest even (R77, R212). -/
def flog2 (f : FFmt) (env : FpEnv) (a : Nat) : FRes :=
  let env := { env with mode := 0 }
  match f.read env a with
  | .nan s => f.nanRes (flagIf s fNV)
  | .inf s => if s then f.nanRes fNV else ⟨f.infCode false, 0⟩
  | .fin s m e => if m = 0 then ⟨f.infCode true, fDZ⟩ else if s then f.nanRes fNV else
    f.deliverV { env with ftzo := false } (log2Dy m e) 0

/-- The eight comparisons of R213, with NV. -/
def fcmp (f : FFmt) (env : FpEnv) (cc a b : Nat) : Bool × Flags :=
  let x := f.read env a
  let y := f.read env b
  let un := x.isNan || y.isNan
  let sn := snanFlags [x, y]
  let eq := !un && (match x, y with
    | .inf p, .inf q => p == q
    | .fin .., .fin .. => Dy.eq x.dy y.dy
    | _, _ => false)
  let lt := !un && !eq && x.minLt y
  let qn := flagIf un fNV
  match cc with
  | 0 => (eq, sn)
  | 1 => (!eq, sn)
  | 2 => (lt, qn)
  | 3 => (lt || eq, qn)
  | 4 => (!un && !lt && !eq, qn)
  | 5 => (!un && !lt, qn)
  | 6 => (un, sn)
  | _ => (!un, sn)

/-- The class of a raw code as a one-hot value (R214). -/
def fclass (f : FFmt) (a : Nat) : Nat :=
  match f.decode (a % 2 ^ f.width) with
  | .nan s => if s then 0x100 else 0x200
  | .inf s => if s then 0x001 else 0x080
  | .fin s m e =>
    if m = 0 then (if s then 0x008 else 0x010)
    else if f.subnormal m e then (if s then 0x004 else 0x020)
    else (if s then 0x002 else 0x040)

/-- Sign operations on raw codes (R215): 0 copy, 1 neg, 2 xor, 3 abs. -/
def fsgn (f : FFmt) (mode a b : Nat) : Nat :=
  let w := f.width
  let sa := bitAt a (w - 1)
  let sb := bitAt b (w - 1)
  let s := match mode with
    | 0 => sb
    | 1 => !sb
    | 2 => sa != sb
    | _ => false
  a % 2 ^ (w - 1) + (if s then 2 ^ (w - 1) else 0)

/-- Two-element dot product into f32 (R216) of read values; infinities of opposite signs among its three terms raise NV,
a NaN beside them or not. -/
def fdot2V (env : FpEnv) (a0 b0 a1 b1 z : FV) : FRes :=
  let f := Ty.f32.fmt
  let p := mulV a0 b0
  let q := mulV a1 b1
  let clash := [p.1, q.1, z].any (fun x => x.isInf && x.sign) && [p.1, q.1, z].any (fun x => x.isInf && !x.sign)
  let fl := p.2 ||| q.2 ||| snanFlags [z] ||| flagIf clash fNV
  if p.1.isNan || q.1.isNan || z.isNan || clash then ⟨f.defNan, fl⟩
  else f.deliverV env (addExact env (addExact env p.1 q.1).1 z).1 fl

def fdot2 (t : Ty) (env : FpEnv) (a b c : Nat) : FRes :=
  let f := t.fmt
  let w := t.width
  fdot2V env (f.read env a) (f.read env b) (f.read env (a >>> w)) (f.read env (b >>> w)) (Ty.f32.fmt.read env c)

/-- Round to integral (R217); `x` is the `.x` form, which sets NX. -/
def frnd (f : FFmt) (env : FpEnv) (x : Bool) (a : Nat) : FRes :=
  match f.read env a with
  | .nan s => f.nanRes (flagIf s fNV)
  | .inf s => ⟨f.infCode s, 0⟩
  | .fin s m e =>
    let r := roundAt env.mode env.t s m e 0
    ⟨f.encode s r.1 0, flagIf (x && r.2) fNX⟩

/-- Multiply by 2^n, n an i32 (R218). Exponents are held to +-5000, beyond every format's range. -/
def fscale (f : FFmt) (env : FpEnv) (a n : Nat) : FRes :=
  match f.read env a with
  | .nan s => f.nanRes (flagIf s fNV)
  | .inf s => ⟨f.infCode s, 0⟩
  | .fin s m e => if m = 0 then ⟨f.signBit s, 0⟩ else f.deliver env .arith s m (e + max (-5000) (min 5000 (toSigned 32 n)))

/-- The combinations of `scan`, `fredu` and the reductions: 0 add, 1 min, 2 max. -/
def FFmt.combine (f : FFmt) (env : FpEnv) (op : Nat) (nanMode : Bool) (x y : FV) : FRes :=
  match op with
  | 0 => f.addV env x y
  | 1 => f.minMaxV false nanMode x y
  | _ => f.minMaxV true nanMode x y

/-- One level of the pairwise tree of R81: `node` is the number of its first node; the state is the codes that are
present, with the flags. A value without a partner passes unchanged. -/
def treeLevel (comb : Nat → Nat → Nat → FRes) : Nat → List (Option Nat) → List (Option Nat) × Flags
  | node, some x :: some y :: r =>
    let c := comb node x y
    let t := treeLevel comb (node + 1) r
    (some c.code :: t.1, c.fl ||| t.2)
  | node, x :: y :: r =>
    let t := treeLevel comb (node + 1) r
    ((if x.isSome then x else y) :: t.1, t.2)
  | _, l => (l, 0)

/-- The tree of R81 over 32 lanes: levels start at nodes 0, 16, 24, 28 and 30. -/
def treeReduce (comb : Nat → Nat → Nat → FRes) (xs : List (Option Nat)) : Option Nat × Flags :=
  let r := [0, 16, 24, 28, 30].foldl (fun (s : List (Option Nat) × Flags) n =>
    let t := treeLevel comb n s.1
    (t.1, s.2 ||| t.2)) (xs, 0)
  (r.1.getD 0 none, r.2)

end Sys2Proof.Machine
end

