-- ==== Sys2Proof/Machine/Mem.lean ====
section
/-! DEFINITION. Device memory (08_device_memory.md): the address (R252 to R255, R276), the tables and the TLB (R256 to
R259), protection (R264), the bytes of plain and compressed pages (R271 to R274), the canonical reductions (R285),
parking (R260, R261) and the line keys and signatures (R296, R297). -/

namespace Sys2Proof.Machine

open Sys2Proof

/-! ### Addresses -/

/-- Where a normalised address leads. -/
inductive Place where
  | dev (owner off : Nat)
  | peer (pkg owner off : Nat)
  | host (off : Nat)
  deriving DecidableEq, Repr

def vaSpace (a : Nat) : Nat := a / 2 ^ 62 % 4
def vaPkg (a : Nat) : Nat := a / 2 ^ 57 % 32
def vaOwner (a : Nat) : Nat := a / 2 ^ 54 % 8
def vaOff (a : Nat) : Nat := a % 2 ^ 54

/-- The aperture's target of a SPACE 0b00 address, if a registration in force holds it (R276). -/
def aperTarget (s : State) (a : Nat) : Option Nat :=
  (s.apers.find? (fun p => p.aper ≤ a && a < p.aper + p.rows * p.cells * 64)).map (fun p =>
    let o := a - p.aper
    let q := o / 64
    p.base + (q % p.rows) * p.pitch + (q / p.rows) * 64 + o % 64)

/-- R254: the package's own number in SPACE 0b01 is SPACE 0b00. -/
def ownSpace (s : State) (a : Nat) : Nat := if vaSpace a == 1 && vaPkg a == s.pkg then a % 2 ^ 57 else a

/-- R254, and R276: an aperture address is its target. -/
def normal (s : State) (a : Nat) : Nat := let a := ownSpace s a; (aperTarget s a).getD a

/-- The place of an aperture's target (R276), which is checked as an address of its own (R253). DESIGN CHOICE, log 117: a target
beyond SPACE 0b00 and PKG 0, which a large PITCH can name, meets ACCESS. -/
def targetPlace (t : Nat) : Option Place := if 2 ^ 57 ≤ t || 5 ≤ vaOwner t then none else some (.dev (vaOwner t) (vaOff t))

/-- R253, on the address as given, and on its target where an aperture holds it: none is the ACCESS condition. -/
def place (s : State) (a : Nat) : Option Place :=
  let sp := vaSpace a
  if sp == 3 || (sp != 1 && vaPkg a != 0) || 5 ≤ vaOwner a || (sp == 2 && vaOwner a != 0) then none
  else if sp == 1 && vaPkg a != s.pkg then
    if s.reach (vaPkg a) then some (.peer (vaPkg a) (vaOwner a) (vaOff a)) else none
  else if sp == 2 then some (.host (vaOff a))
  else match aperTarget s (ownSpace s a) with
    | some t => targetPlace t
    | none => some (.dev (vaOwner a) (vaOff a))

/-- The home slice of an offset (R255). -/
def homeSlice (owner h : Nat) : Nat :=
  if owner ≤ 3 then slice h 12 8 ^^^ slice h 17 13 ^^^ slice h 22 18 ^^^ slice h 27 23
  else slice h 11 8 ^^^ slice h 15 12 ^^^ slice h 19 16 ^^^ slice h 23 20

/-- The home of a block: a slice of its owner, or the host-port home, as number 16 of the I/O die (R268). -/
def queueSlice (host : Bool) (owner off : Nat) : Nat := if host then 16 else homeSlice owner off

/-- The die of an address's home; peer and host addresses count as die 4 (R300). -/
def homeDie (a : Nat) : Nat := if vaSpace a == 0 then vaOwner a else 4

/-! ### Physical memory -/

/-- The key of a physical byte in State.mem. -/
def phys (owner off : Nat) : Nat := owner * 2 ^ 54 + off
/-- Sizes of the tiers (R266). -/
def physOk (owner off : Nat) : Bool := off < (if owner ≤ 3 then 2 ^ 37 else 2 ^ 40)

/-- round(v0 + S, rne) of a canonical reduction: the contributions summed exactly in increasing requester id with the
word's value, and rounded once; any NaN gives the default NaN (R284, R285). -/
def foldVal (f : FFmt) (v0 : Nat) (vals : List Nat) : Nat :=
  let add (x y : FV) : FV := (addExact {} x y).1
  match (v0 :: vals).map f.decode with
  | [] => v0
  | x :: r =>
    let t := r.foldl add x
    if (v0 :: vals).any (fun c => (f.decode c).isNan) then f.defNan else (f.deliverV {} t 0).code

/-- The bytes that an accumulator's word reads as. -/
def Accum.bytes (mem : Cells 8) (a : Accum) : List Byte :=
  let f := if a.size == 4 then Ty.f32.fmt else Ty.f64.fmt
  leBytes a.size (foldVal f (ofBytes (Cells.read mem a.addr a.size)) (a.vals.map (fun v => v.2)))

namespace State

/-- A byte of device memory as a read returns it (R285). -/
def memByte (s : State) (k : Nat) : Byte :=
  match s.accums.find? (fun a => a.addr ≤ k && k < a.addr + a.size) with
  | some a => (a.bytes s.mem).getD (k - a.addr) 0
  | none => s.mem.get k

def memRead (s : State) : Nat → Nat → List Byte
  | _, 0 => []
  | k, n + 1 => s.memByte k :: memRead s (k + 1) n

/-- Words that a write replaces stay to be fetched by cores that have not executed `ifence` since (R493), whatever the write goes
through. -/
def noteOld (s : State) (host : Bool) (k n : Nat) : State :=
  let one (i : Nat) : OldWord :=
    let a := (k / 8 + i) * 8
    ⟨if host then 2 ^ 62 + a else a, if host then Cells.read s.hostMem a 8 else s.memRead a 8, s.oldSeq⟩
  { s with oldSeq := s.oldSeq + 1, oldCode := (List.range ((k % 8 + n + 7) / 8)).map one ++ s.oldCode }

/-- Records of saved clusters that lie in n bytes have been written (R478). -/
def spoilRecords (s : State) (k n : Nat) : State :=
  let hits (c : Cluster) : Bool := c.saved && c.savePages.any (fun r => r.1 < k + n && k < r.1 + r.2)
  { s with clusters := s.clusters.map (fun c => if hits c then { c with corrupt := true } else c) }

/-- Fold an accumulator into its word (R285). -/
def foldAccum (s : State) (a : Accum) : State :=
  { (s.spoilRecords a.addr a.size).noteOld false a.addr a.size with
    mem := Cells.write s.mem a.addr (a.bytes s.mem), accums := s.accums.erase a }

/-- A write of device memory: any canonical reduction of its words folds first (R285), its old words may still be fetched
(R493), and a saved cluster whose record it touches resumes with undefined values (R478). -/
def memWrite (s : State) (k : Nat) (d : List Byte) : State :=
  let hit := s.accums.filter (fun a => a.addr < k + d.length && k < a.addr + a.size)
  let s := (hit.foldl foldAccum s).noteOld false k d.length
  { s.spoilRecords k d.length with mem := Cells.write s.mem k d }

/-- A write of host memory. -/
def hostWrite (s : State) (k : Nat) (d : List Byte) : State :=
  { s.noteOld true k d.length with hostMem := Cells.write s.hostMem k d }

end State

/-! ### Tables (R256 to R258, R267) -/

/-- A valid leaf with its page: `base` is the page's offset in its owner, `leafAt` the entry's physical key. -/
structure Leaf where
  frame : Nat
  peer : Bool
  copy : Bool
  comp : Nat
  x : Bool
  w : Bool
  rd : Bool
  base : Nat
  size : Nat
  raw : Nat
  leafAt : Nat
  deriving DecidableEq, Repr

inductive Walked where
  | leaf (l : Leaf)
  | none
  | malformed
  deriving DecidableEq, Repr

/-- The source of a copy-only leaf is not rejected by R267. -/
def copySrcOk (s : State) (e size : Nat) : Bool :=
  let src := e / 2 ^ 16 * 2 ^ 16 % 2 ^ 63
  src % size == 0 && (bitAt e 63 || (slice e 57 55 ≤ 4 && !bitAt e 54 && slice e 62 58 != s.pkg))

/-- One entry of a level that maps pages of `size` (R257, R258): a leaf, the next table, or a miss. DESIGN CHOICE, log 104:
bits PEER, COPY, COMP, X, W and RD of an entry that is no leaf are ignored. -/
def entryAt (s : State) (level size off e leafAt : Nat) : Walked ⊕ Nat :=
  if !bitAt e 0 then .inl .none
  else if slice e 11 10 != 0 || bitAt e 5 then .inl .malformed
  else if bitAt e 1 then
    let copy := bitAt e 8
    if level ≤ 1 || slice e 7 6 == 3 || slice e 15 12 != 0 then .inl .malformed
    else if copy then
      if copySrcOk s e size then
        .inl (.leaf ⟨0, bitAt e 9, true, slice e 7 6, bitAt e 4, bitAt e 3, bitAt e 2, off / size * size, size, e, leafAt⟩)
      else .inl .malformed
    else if slice e 63 52 != 0 || (slice e 51 16 * 2 ^ 16) % size != 0 then .inl .malformed
    else .inl (.leaf ⟨slice e 51 16 * 2 ^ 16, bitAt e 9, false, slice e 7 6, bitAt e 4, bitAt e 3, bitAt e 2,
      off / size * size, size, e, leafAt⟩)
  else if level == 4 || slice e 63 52 != 0 then .inl .malformed
  else .inr (slice e 51 12 * 2 ^ 12)

/-- Walk from a table at a physical offset of `owner`: the levels left, with each level's number, lowest offset bit
and number of index bits (R256). DESIGN CHOICE, log 118: the entries of a table beyond its owner's memory (R266) read 0, which is
a miss. -/
def walkFrom (s : State) (owner off : Nat) : List (Nat × Nat × Nat) → Nat → Walked
  | [], _ => .malformed
  | (level, lo, n) :: r, table =>
    let at_ := phys owner (table + 8 * (off / 2 ^ lo % 2 ^ n))
    match entryAt s level (2 ^ lo) off (ofBytes (s.memRead at_ 8)) at_ with
    | .inl w => w
    | .inr t => walkFrom s owner off r t

def levels : List (Nat × Nat × Nat) := [(0, 48, 6), (1, 39, 9), (2, 30, 9), (3, 21, 9), (4, 16, 5)]

/-- Walk an offset in the tables of a context slot; SPACE 0b10 uses owner 4's table (R268). -/
def walk (s : State) (slot owner off : Nat) : Walked :=
  walkFrom s owner off levels (s.roots.get (8 * slot + owner)).toNat

/-- A TLB entry of the home of an offset translates it. -/
def TlbEntry.covers (t : TlbEntry) (asid : Nat) (host : Bool) (owner off : Nat) : Bool :=
  t.die == owner && t.slice == queueSlice host owner off && t.asid == asid && t.host == host && t.base ≤ off
    && off < t.base + t.size

/-- Translation of an offset: the TLB of its home, then a walk (R259). -/
def xlate (s : State) (slot : Nat) (host : Bool) (owner off : Nat) : Walked :=
  match s.tlb.find? (fun t => t.covers (s.asid slot) host owner off) with
  | some t =>
    match entryAt s 4 t.size off t.leaf 0 with
    | .inl w => w
    | .inr _ => .none
  | none => walk s slot owner off

/-- Entries of the TLB of a home slice (R16, R18, R259). DESIGN CHOICE, log 14: the host-port home, for which the manual gives no
number, has as many. -/
def tlbSize : Nat := 4096

/-- The TLB with a place free in a home: where its entries are all taken, one of them goes, which a free value says (log 14). -/
def tlbRoom (s : State) (owner slice : Nat) : State :=
  let mine := s.tlb.filter (fun t => t.die == owner && t.slice == slice)
  if mine.length < tlbSize then s
  else
    let d := s.draw
    match mine[d.1.toNat % mine.length]? with
    | some t => { d.2 with tlb := d.2.tlb.erase t }
    | none => d.2

/-- The TLB of an offset's home holds its leaf. -/
def inTlb (s : State) (slot : Nat) (host : Bool) (owner off : Nat) : Bool :=
  s.tlb.any (fun t => t.covers (s.asid slot) host owner off)

/-- The pages of two records or leaves share bytes. -/
def meets (base size base' size' : Nat) : Bool := base < base' + size' && base' < base + size

/-- Some records are no longer pending (R261); those that have still to be written are written all the same (R505). -/
def endRecords (s : State) (p : MissRec → Bool) : State :=
  { s with misses := (s.misses.filter (fun m => !(p m && m.written))).map (fun m => if p m then { m with ended := true } else m) }

/-- The records of a page are no longer pending (R261). -/
def endMisses (s : State) (die asid : Nat) (host : Bool) (base size : Nat) : State :=
  endRecords s (fun m => m.die == die && m.asid == asid && m.host == host && meets m.base m.size base size)

/-- A walk has found the leaf of an offset (R259): it is installed in the TLB of its home, if it is not there, and the page's
records are no longer pending (R261); those of a copy-only page are until its migration. -/
def install (s : State) (slot : Nat) (host : Bool) (owner off : Nat) (l : Leaf) : State :=
  if inTlb s slot host owner off then s
  else
    let sl := queueSlice host owner off
    let s := tlbRoom s owner sl
    let s := { s with tlb := s.tlb ++ [⟨owner, sl, s.asid slot, host, l.base, l.size, l.raw⟩] }
    if l.copy then s else endMisses s owner (s.asid slot) host l.base l.size

/-- What an access needs of its leaf (R264); `red` reads nothing for its split; `own` is the Headland's own update, which no
permission bars. -/
inductive Need where
  | read | write | atomic | red | fetch | own
  deriving DecidableEq, Repr

/-- TYPE bits of a miss record (R261). -/
def Need.typeBits : Need → Nat
  | .read => 1
  | .write | .own => 2
  | .fetch => 4
  | .atomic | .red => 8

def Leaf.permits (l : Leaf) : Need → Bool
  | .read => l.rd
  | .write | .red => l.w && l.comp == 0
  | .atomic => l.w && l.rd && l.comp == 0
  | .fetch => l.x
  | .own => l.comp == 0

/-- The answer of a home to one access. `hit` gives the owner, the byte's offset in the page and the leaf; `miss` the block of
256 bytes that parks with the KIND of its record (5: no record, a line of another package is asked for; 6: none, the storage
has failed). -/
inductive Xl where
  | bad
  | viol
  | noStore
  | miss (host : Bool) (owner block kind : Nat)
  | hit (host : Bool) (owner inPage : Nat) (l : Leaf)
  | peer (pkg : Nat)
  deriving DecidableEq, Repr

/-- Bytes of a page lie in storage that has failed (R525): the line of a byte, or the slot of a compressed block. -/
def State.failedAt (s : State) (owner : Nat) (l : Leaf) (inPage : Nat) : Bool :=
  !s.failed.isEmpty && (if l.comp == 0 then s.failed.contains (phys owner (l.frame + inPage) / 64)
    else (List.range 6).any (fun k => s.failed.contains ((phys owner (l.frame + inPage / 256 * 320) + min (64 * k) 319) / 64)))

/-- R253, translation and R264 for an access at a virtual address. DESIGN CHOICE, log 119: the permissions of a copy-only page are
checked before it migrates, so that a forbidden access starts no migration. -/
def access (s : State) (slot : Nat) (need : Need) (a : Nat) : Xl :=
  match place s a with
  | none => .bad
  | some (.peer p _ _) => .peer p
  | some (.dev o off) =>
    match xlate s slot false o off with
    | .none => .miss false o (off / 256) 0
    | .malformed => .miss false o (off / 256) 3
    | .leaf l =>
      if !l.permits need then .viol
      else if l.copy then .miss false o (off / 256) 1
      else if l.comp != 0 && (aperTarget s (ownSpace s a)).isSome then .viol
      else if !physOk o (l.frame + (off - l.base)) then .noStore
      else if s.failedAt o l (off - l.base) then .miss false o (off / 256) 6
      else .hit false o (off - l.base) l
  | some (.host off) =>
    match xlate s slot true 4 off with
    | .none => .miss true 4 (off / 256) 0
    | .malformed => .miss true 4 (off / 256) 3
    | .leaf l =>
      if !l.permits need then .viol
      else if l.copy then .miss true 4 (off / 256) 1
      else .hit true 4 (off - l.base) l

/-- The leaf that the walk of an access finds is installed (R259). -/
def touch (s : State) (slot : Nat) (need : Need) (a : Nat) : State :=
  match access s slot need a with
  | .hit h o inPage l => install s slot h o (l.base + inPage) l
  | _ => s

/-! ### Compressed blocks (R271 to R274) -/

/-- Number of ones below bit j. -/
def onesBelow (m : Nat) : Nat → Nat
  | 0 => 0
  | j + 1 => onesBelow m j + (if bitAt m j then 1 else 0)

/-- Sum of the n signed deltas of b bytes from an index. -/
def deltaSum (rd : Nat → Nat → Nat) (b : Nat) : Nat → Int
  | 0 => 0
  | n + 1 => deltaSum rd b n + toSigned (8 * b) (rd (16 + n * b) b)

/-- A byte of a logical block; `rd o n` reads n bytes of its slot. None for a malformed D64 block. -/
def blockByte (d64 : Bool) (rd : Nat → Nat → Nat) (o : Nat) : Option Byte :=
  if d64 then
    let width := rd 0 1
    if 3 < width || rd 1 7 != 0 then none
    else
      let w := wrap 64 ((rd 8 8 : Int) + deltaSum rd (2 ^ width) (o / 8))
      some (BitVec.ofNat 8 (w / 2 ^ (8 * (o % 8))))
  else
    let mask := rd 0 8
    let j := o / 4
    if bitAt mask j then some (BitVec.ofNat 8 (rd (8 + 4 * onesBelow mask j + o % 4) 1)) else some 0

/-- n bytes of a page, from an offset in it; none where a D64 block is malformed. -/
def pageRead (s : State) (host : Bool) (owner : Nat) (l : Leaf) (inPage : Nat) : Nat → Option (List Byte)
  | 0 => some []
  | n + 1 =>
    let read (o k : Nat) : List Byte :=
      if host then Cells.read s.hostMem (l.frame + o) k else s.memRead (phys owner (l.frame + o)) k
    let b : Option Byte :=
      if l.comp == 0 then (read inPage 1).head?
      else blockByte (l.comp == 2) (fun o k => ofBytes (read (320 * (inPage / 256) + o) k)) (inPage % 256)
    match b, pageRead s host owner l (inPage + 1) n with
    | some b, some r => some (b :: r)
    | _, _ => none

/-- Write bytes at a place of a plain page. -/
def pageWrite (s : State) (host : Bool) (owner : Nat) (l : Leaf) (inPage : Nat) (d : List Byte) : State :=
  if host then s.hostWrite (l.frame + inPage) d
  else s.memWrite (phys owner (l.frame + inPage)) d

/-! ### Sending over the Dalcor Link (R518 to R520) -/

/-- A flit goes out: it takes the next sequence number and is held until it is acknowledged. -/
def putFlit (s : State) (port kind : Nat) (msgs : List Msg) : State :=
  let p := s.ports.getD port {}
  let f : Flit := ⟨p.txSeq, p.rxSeq - 1, kind, msgs, true⟩
  let p' := { p with txSeq := p.txSeq + 1, heldFlits := p.heldFlits ++ [f], heldAt := p.heldAt ++ [s.clock] }
  { s with ports := s.ports.set port p', out := s.out ++ [.flit port f] }

/-- Send a flit on a port, or let it wait behind those for which a sender has no room: it holds 512 unacknowledged flits (R519). -/
def sendFlit (s : State) (port kind : Nat) (msgs : List Msg) : State :=
  if (s.ports.getD port {}).heldFlits.length < 512 && !s.outbox.any (fun e => e.1 == port) then putFlit s port kind msgs
  else { s with outbox := s.outbox ++ [(port, kind, msgs)] }

/-- Flits that wait for room on a port go out, in their order. -/
def drainOut (s : State) (port : Nat) : State :=
  (s.outbox.filter (fun e => e.1 == port)).foldl (fun s e => sendFlit s e.1 e.2.1 e.2.2)
    { s with outbox := s.outbox.filter (fun e => e.1 != port) }

/-- A port has room for a flit to every package: a sender holds 512 unacknowledged flits (R519). -/
def portRoom (s : State) (port : Nat) : Bool := (s.ports.getD port {}).heldFlits.length + 32 ≤ 512

/-- Send a message to a package; nothing where no port leads there. -/
def sendTo (s : State) (pkg kind : Nat) (m : Msg) : State :=
  match s.portTo pkg with
  | some p => sendFlit s p kind [m]
  | none => s

/-- The line of an address. -/
def lineAddr (a : Nat) : Nat := a / 64 * 64

/-- The port on which a line of a peer can be asked for: it has not been asked for, fewer than 64 requests are outstanding
there (R520), and there is room for the flit. -/
def askPort (s : State) (who : Nat × Nat) (a need : Nat) : Option Nat :=
  (s.portTo (vaPkg a)).bind (fun port =>
    if s.peerReqs.any (fun q => (q.gid, q.sp) == who && q.addr == a && q.need == need && q.op.isNone && !q.stale)
        || 64 ≤ (s.peerReqs.filter (fun q => q.port == port && q.reply.isNone)).length || !portRoom s port then none
    else some port)

/-- Ask a peer for a line, or for leave to act on it (need 2), unless it is asked for or no place is left (R319). -/
def askPeer (s : State) (who : Nat × Nat) (slot a need : Nat) : State :=
  match askPort s who a need with
  | none => s
  | some port =>
    let k := vaPkg a
    let tag := (s.nextTag.get k).toNat
    let asid := s.asid slot
    let q : PeerReq := { tag := tag, pkg := k, port := port, addr := a, len := 64, asid := asid, gid := who.1, sp := who.2
                         clock := s.vc, need := need }
    sendFlit { s with peerReqs := s.peerReqs ++ [q], nextTag := s.nextTag.set k (s.nextTag.get k + 1) } port 1
      [.readReq s.pkg tag a 64 asid s.vc need false]

/-- A line in the peer line cache: by its address, or, fetched as instructions, by its address + 2^64. -/
def cachedLine (s : State) (a : Nat) : Option (List Byte) := (s.peerLines.find? (fun l => l.1 == a)).map (fun l => l.2)

/-! ### Misses and parking (R260, R261, R267) -/

/-- A die's free-frame ring of a page size (R507). -/
def freeRing (die size : Nat) : Nat :=
  State.dieBlk die + (if size == 2 ^ 16 then 0x40 else if size == 2 ^ 21 then 0x60 else 0x80)

/-- Take the frame at HEAD of the ring of a page's size, skipping malformed entries (R507). -/
def takeFrame (s : State) (die size : Nat) : Nat → Option Nat × State
  | 0 => (none, s)
  | n + 1 =>
    let r := freeRing die size
    let h := s.bar (r + 0x10) % 2 ^ 32
    if s.ringSize r == 0 || h == s.bar (r + 0x18) % 2 ^ 32 then (none, s)
    else
      let at_ := s.bar r + 8 * (h % s.ringSize r)
      let e := ofBytes (s.memRead (phys die at_) 8)
      let s := s.setBar (r + 0x10) ((h + 1) % 2 ^ 32)
      if e / 2 ^ 52 != 0 || e % size != 0 then takeFrame (s.errLog 8 die 0 at_ 0) die size n
      else (some e, s)

/-- A frame from the ring of a page's size, however many malformed entries stand before it. -/
def nextFrame (s : State) (die size : Nat) : Option Nat × State := takeFrame s die size (s.ringSize (freeRing die size) + 1)

/-- A block lies in a page. -/
def inLeaf (base size block : Nat) : Bool := base ≤ block * 256 && block * 256 < base + size

/-- A record stands for the page of a block. -/
def MissRec.covers (r : MissRec) (die asid : Nat) (host : Bool) (block : Nat) : Bool :=
  !r.ended && r.die == die && r.asid == asid && r.host == host && inLeaf r.base r.size block

/-- A miss on a page (R261): the unwritten records of the page count it, and a page with no pending record makes one. -/
def addMiss (s : State) (m : MissRec) (block : Nat) : State :=
  let on (r : MissRec) : Bool := r.covers m.die m.asid m.host block
  let ms := s.misses.map (fun r => if on r && !r.written then { r with parked := min (r.parked + m.parked) 0xFFFF } else r)
  { s with misses := if ms.any (fun r => on r && r.kind != 2) then ms else ms ++ [m] }

/-- The record of KIND 2 of a page that finds no free frame (R267): one while it is pending, with the requests parked on the
page. -/
def addFrameless (s : State) (m : MissRec) (block : Nat) : State :=
  if s.misses.any (fun r => r.covers m.die m.asid m.host block && r.kind == 2) then s
  else
    let n := (s.parked.filter (fun q => q.die == m.die && q.asid == m.asid && q.host == m.host && inLeaf m.base m.size q.block)).length
    { s with misses := s.misses ++ [{ m with kind := 2, parked := min n 0xFFFF }] }

/-- The page of a block that misses, by base and size: that of its copy-only leaf, or 64 KiB. -/
def missPage (s : State) (slot owner block : Nat) : Nat × Nat :=
  match walk s slot owner (block * 256) with
  | .leaf l => (l.base, l.size)
  | _ => (block / 256 * 2 ^ 16, 2 ^ 16)

/-- The record of a miss. -/
def missOf (s : State) (slot : Nat) (host : Bool) (owner block kind type source : Nat) (parked : Nat := 1) : MissRec :=
  let p := missPage s slot owner block
  ⟨owner, s.asid slot, host, p.1, p.2, block / 256, kind, type, parked, source, false, false⟩

/-- The TLB entries of an offset go, where the table holds another leaf by now. -/
def dropHeld (s : State) (slot : Nat) (host : Bool) (owner off : Nat) : State :=
  { s with tlb := s.tlb.filter (fun t => !t.covers (s.asid slot) host owner off) }

/-- Start a migration for a copy-only page of an owner; `m` is the record of the miss that starts it. -/
def startMigration (s : State) (slot : Nat) (host : Bool) (owner block : Nat) (m : MissRec) : State :=
  match walk s slot owner (block * 256) with
  | .leaf l =>
    if !l.copy then dropHeld s slot host owner (block * 256)
    else if !s.migrations.any (fun g => g.die == owner && g.asid == s.asid slot && g.host == host && g.base == l.base) then
      let f := nextFrame s owner l.size
      let s := { f.2 with migrations := f.2.migrations
                  ++ [({ die := owner, asid := f.2.asid slot, host := host, base := l.base, size := l.size, leafAt := l.leafAt
                         leaf := l.raw, frame := f.1 } : Migration)] }
      if f.1.isNone then addFrameless s m block else s
    else s
  | _ => dropHeld s slot host owner (block * 256)

/-- A source that the manual does not name, as R262 may report it: a core, or an engine from 0 to 788. -/
def freeSource (v : Word) : Nat := let k := v.toNat % 981; if k < 192 then k else 0x8000 + (k - 192)

/-- Who waits for a request whose requester has gone (R260): no group has the number. -/
def noWho : Nat × Nat := (2 ^ 64, 0)

/-- Requests whose requesters no longer wait: one that its home's queue holds stays there, and its reply is discarded; one
that has been returned is not sent again (R260). -/
def dropParked (gone : Nat × Nat → Bool) (l : List Parked) : List Parked :=
  (l.filter (fun q => q.accepted || !gone q.who)).map (fun q => if gone q.who then { q with who := noWho } else q)

/-- Requests to peers whose requesters no longer wait: those outstanding keep their places until their replies come (R520), which
are of no use. -/
def dropReqs (gone : PeerReq → Bool) (l : List PeerReq) : List PeerReq :=
  (l.filter (fun q => !(gone q && q.reply.isSome))).map (fun q =>
    if gone q then { q with gid := noWho.1, sp := noWho.2, stale := true } else q)

/-- The requests of a home's queue. -/
def queued (s : State) (die slice : Nat) (accepted : Bool) : List Parked :=
  s.parked.filter (fun p => p.die == die && p.slice == slice && p.accepted == accepted)

/-- The KIND of a miss that no walk ends: the storage has failed (R525), and the access waits. -/
def failedKind : Nat := 6

/-- Install the leaf of a copy-only page that a walk has found (R259). -/
def installCopy (s : State) (slot : Nat) (host : Bool) (owner off : Nat) : State :=
  match xlate s slot host owner off with
  | .leaf l => install s slot host owner off l
  | _ => s

/-- Park a request that missed (R260), unless it is parked on that block already: a place in its home's queue of 256 if there
is one that no returned request waits for, a miss record, and a migration for a copy-only page. `engine` is the engine
number of R262. A line of another package is asked for. -/
def park (s : State) (who : Nat × Nat) (slot core : Nat) (engine : Option Nat) (need : Need) (host : Bool)
    (owner block kind : Nat) : State :=
  let a := s.asid slot
  if kind == 5 then askPeer s who slot block (if need == .fetch then 1 else 0)
  else if kind == failedKind then s
  else if s.parked.any (fun p => p.who == who && p.die == owner && p.asid == a && p.host == host && p.block == block) then s
  else
    let sl := queueSlice host owner (block * 256)
    let acc := (queued s owner sl true).length < 256 && (queued s owner sl false).isEmpty
    let src := match engine with | some n => 0x8000 + n | none => core
    let s := { s with parked := s.parked
                ++ [(⟨who, owner, sl, a, host, block, need.typeBits, src, engine.isSome, acc⟩ : Parked)] }
    let m := missOf s slot host owner block (if engine.isSome then 4 else kind) need.typeBits src
    let s := s.countDie owner 0x10 1
    let s := addMiss { s with serving := s.serving.filter (fun e => e.who != who) } m block
    if kind == 1 then startMigration (installCopy s slot host owner (block * 256)) slot host owner block m else s

/-! ### Reads by the dispatcher and the engines -/

/-- What a read of global memory by the dispatcher or an engine answers (R265). -/
inductive Rd where
  | ok (b : List Byte)
  | miss (host : Bool) (owner block kind : Nat)
  | bad
  deriving DecidableEq, Repr

/-- A page that an access waits for. -/
structure MissAt where
  host : Bool
  owner : Nat
  block : Nat
  kind : Nat
  deriving DecidableEq, Repr

/-- The mark of a line that a peer has refused to a context. -/
def badMark (asid a : Nat) : Nat := asid * 2 ^ 72 + a

/-- Read n bytes of one line of a peer (R319): from the peer line cache, or once it has answered. -/
def rdPeer (s : State) (slot a n : Nat) : Rd :=
  if s.badLines.contains (badMark (s.asid slot) (lineAddr a)) then .bad
  else match cachedLine s (lineAddr a) with
    | some d => .ok ((d.drop (a % 64)).take n)
    | none => .miss false 0 (lineAddr a) 5

/-- Read n bytes that lie in one page (R253, R264); those of a peer lie in one line. -/
def rdGlobal (s : State) (slot addr n : Nat) : Rd :=
  match access s slot .read addr with
  | .peer _ => rdPeer s slot addr n
  | .hit host owner inPage l => match pageRead s host owner l inPage n with | some b => .ok b | none => .bad
  | .miss host owner page kind => .miss host owner page kind
  | _ => .bad

/-- Someone's request to a home or a peer is on its way. -/
def State.waitsFor (s : State) (who : Nat × Nat) : Bool :=
  s.parked.any (fun q => q.who == who) || s.peerReqs.any (fun q => (q.gid, q.sp) == who)

/-- n little-endian bytes of a record from byte k. -/
def recField (b : List Byte) (k n : Nat) : Nat := ofBytes ((b.drop k).take n)

/-! ### Lines and signatures (R296, R297) -/

/-- The line key of a location: a local base (R370) or a normalised virtual address. -/
def lineKey (loc : Nat) : Nat :=
  let b := loc / 2 ^ 56
  if 0xC0 ≤ b && b ≤ 0xC3 then 3 * 2 ^ 56 + (b - 0xC0) * 2 ^ 52 + loc % 2 ^ 56 / 64
  else if b == 0xC4 then 3 * 2 ^ 56 + 2 ^ 54 + loc % 2 ^ 56 / 64
  else loc / 64

def isScratchKey (k : Nat) : Bool := k / 2 ^ 56 == 3 && k / 2 ^ 54 % 4 == 0
def isClusterKey (k : Nat) : Bool := k / 2 ^ 56 == 3 && k / 2 ^ 54 % 4 == 1
def isGlobalKey (k : Nat) : Bool := k / 2 ^ 56 != 3

def sigMul : List Nat := [0x9E3779B97F4A7C15, 0xC2B2AE3D27D4EB4F, 0x165667B19E3779F9, 0xD6E8FEB86659FD93]

/-- The 1,024-bit signature of a list of keys, as a number. -/
def sigOf (keys : List Nat) : Nat :=
  keys.foldl (fun m k => sigMul.foldl (fun m c => m ||| 2 ^ ((k * c) % 2 ^ 64 / 2 ^ 54)) m) 0

/-- The lines that n bytes at a location touch. -/
def linesOf (loc n : Nat) : List Nat :=
  (List.range ((loc % 64 + n + 63) / 64)).map (fun i => lineKey (loc / 64 * 64 + 64 * i))

/-- Add keys that are not yet there. -/
def addKeys (ks : List Nat) (new : List Nat) : List Nat := new.foldl (fun l k => if l.contains k then l else l ++ [k]) ks

end Sys2Proof.Machine
end

