-- ==== Sys2Proof/Machine/Regs.lean ====
section
/-! DEFINITION. The registers of a group (R151, R35), the lanes of a mask, the current split with its group, team,
cluster and grid, and how each is updated. -/

namespace Sys2Proof.Machine

open Sys2Proof

/-- The lanes of a mask, in increasing order. -/
def lanesOf (m : Mask) : List Nat := (List.range 32).filter (fun i => m.getLsbD i)
/-- The lowest lane of a mask; 0 for none. -/
def lowest (m : Mask) : Nat := (lanesOf m).headD 0
def popcount (m : Mask) : Nat := (lanesOf m).length
/-- The mask of a list of lanes. -/
def maskOf (l : List Nat) : Mask := l.foldl (fun m i => m ||| BitVec.ofNat 32 (2 ^ i)) 0

namespace Regs

def vget (r : Regs) (n lane : Nat) : Lane := r.v.get (32 * n + lane)
def vset (r : Regs) (n lane : Nat) (x : Lane) : Regs := { r with v := r.v.set (32 * n + lane) x }
/-- s0 reads 0 (R35). -/
def sget (r : Regs) (n : Nat) : Word := if n = 0 then 0 else r.s.get n
/-- A write of s0 has no effect (R35). -/
def sset (r : Regs) (n : Nat) (x : Word) : Regs := if n = 0 then r else { r with s := r.s.set n x }
/-- p0 reads all ones (R35). -/
def pget (r : Regs) (n : Nat) : Mask := if n = 0 then BitVec.allOnes 32 else r.p.get n
/-- A write of the lanes `m` of a predicate; a write of p0 has no effect (R35). -/
def pset (r : Regs) (n : Nat) (m bits : Mask) : Regs :=
  if n = 0 then r else { r with p := r.p.set n ((r.p.get n &&& ~~~m) ||| (bits &&& m)) }
def alget (r : Regs) (n : Nat) : Word := r.al.get n
def mapget (r : Regs) (n k : Nat) : BitVec 16 := r.map.get (16 * n + k)
/-- The return stack of a lane (R114), top first. -/
def retsOf (r : Regs) (lane : Nat) : List Word := ((r.rets.find? (fun e => e.1 == lane)).map (fun e => e.2)).getD []
def setRets (r : Regs) (lane : Nat) (l : List Word) : Regs :=
  { r with rets := r.rets.filter (fun e => e.1 < lane) ++ (if l.isEmpty then [] else [(lane, l)])
      ++ r.rets.filter (fun e => lane < e.1) }

/-- The value of a register field in a lane: `n` vector registers of 32 bits, or the scalar (R34, R36). -/
def src (r : Regs) (f : BitVec 10) (n lane : Nat) : Nat :=
  if isS f then (r.sget (rnum f)).toNat
  else if n = 2 then (r.vget (rnum f) lane).toNat + (r.vget (rnum f + 1) lane).toNat * 2 ^ 32
  else if n = 4 then ofBytes ((List.range 4).flatMap (fun k => leBytes 4 (r.vget (rnum f + k) lane).toNat))
  else (r.vget (rnum f) lane).toNat

/-- Vector registers are overwritten: their counts go up. -/
def touch (r : Regs) (ns : List Nat) : Regs := { r with nv := ns.foldl (fun (c : Cells 64) n => c.set n (c.get n + 1)) r.nv }

/-- Apply register writes. -/
def apply (r : Regs) (w : Wr) : Regs :=
  let r := { r with v := w.v.foldl (fun (c : Cells 32) (e : Nat × Lane) => c.set e.1 e.2) r.v }.touch
    (w.v.map (fun (e : Nat × Lane) => e.1 / 32)).eraseDups
  let r := w.s.foldl (fun (r : Regs) (e : Nat × Word) => r.sset e.1 e.2) r
  let r := w.p.foldl (fun (r : Regs) (e : Nat × Mask × Mask) => r.pset e.1 e.2.1 e.2.2) r
  { r with srcount := r.srcount + BitVec.ofNat 64 w.cnt }

end Regs

/-- The vector cells of a field's write: `n` registers from the field, one lane. -/
def vCells (f : BitVec 10) (lane : Nat) : Nat → Nat → List (Nat × Lane)
  | 0, _ => []
  | n + 1, x => vCells f lane n (x % 2 ^ (32 * n)) ++ [(32 * (rnum f + n) + lane, BitVec.ofNat 32 (x / 2 ^ (32 * n)))]

/-- The write of a result to a destination field: the lanes' values, or a scalar's (R186, R69). -/
def wrDst (f : BitVec 10) (n : Nat) (vals : List (Nat × Nat)) : Wr :=
  if isS f then
    match vals with
    | [] => {}
    | (_, x) :: _ => { s := [(rnum f, BitVec.ofNat 64 x)] }
  else { v := vals.flatMap (fun e => vCells f e.1 n e.2) }

/-- A predicate write of the executing lanes. -/
def wrPred (f : BitVec 10) (m bits : Mask) : Wr := { p := [(f.toNat % 16, m, bits)] }

/-! ### The current split -/

def noGroup : Group := { gid := 0, tid := 0, core := 0, slot := 0, index := 0 }
def noTeam : Team := { tid := 0, cid := 0, core := 0, index := 0 }
def noCluster : Cluster := { cid := 0, grid := 0, linear := 0, origin := 0 }
def noGrid : Grid := { grid := 0, slot := 0, serial := 0, kit := 0 }

/-- A wait of the split has ended: it is ready from this cycle on (R111). -/
def Split.wake (now : Nat) (p : Split) : Split := { p with wait := some .ready, stamp := now, since := now }

def Group.split? (g : Group) (id : Nat) : Option Split := g.splits.find? (fun p => p.id == id)
def Group.setSplit (g : Group) (id : Nat) (f : Split → Split) : Group :=
  { g with splits := g.splits.map (fun p => if p.id == id then f p else p) }

namespace State

def group? (s : State) (gid : Nat) : Option Group := s.groups.find? (fun g => g.gid == gid)
def team? (s : State) (tid : Nat) : Option Team := s.teams.find? (fun t => t.tid == tid)
def cluster? (s : State) (cid : Nat) : Option Cluster := s.clusters.find? (fun c => c.cid == cid)
def grid? (s : State) (gr : Nat) : Option Grid := s.grids.find? (fun g => g.grid == gr)

def modGroup (s : State) (gid : Nat) (f : Group → Group) : State :=
  { s with groups := s.groups.map (fun g => if g.gid == gid then f g else g) }
def modTeam (s : State) (tid : Nat) (f : Team → Team) : State :=
  { s with teams := s.teams.map (fun t => if t.tid == tid then f t else t) }
def modCluster (s : State) (cid : Nat) (f : Cluster → Cluster) : State :=
  { s with clusters := s.clusters.map (fun c => if c.cid == cid then f c else c) }
def modGrid (s : State) (gr : Nat) (f : Grid → Grid) : State :=
  { s with grids := s.grids.map (fun g => if g.grid == gr then f g else g) }
def modSplitOf (s : State) (gid sp : Nat) (f : Split → Split) : State := s.modGroup gid (fun g => g.setSplit sp f)

/-- The current group, and its split, team, cluster, grid and context slot. -/
def g (s : State) : Group := (s.group? s.cur.1).getD noGroup
def sp (s : State) : Split := (s.g.split? s.cur.2).getD { id := 0 }
def teamOf (s : State) (g : Group) : Team := (s.team? g.tid).getD noTeam
def clusterOf (s : State) (g : Group) : Cluster := (s.cluster? (s.teamOf g).cid).getD noCluster
def gridOf (s : State) (g : Group) : Grid := (s.grid? (s.clusterOf g).grid).getD noGrid
def t (s : State) : Team := s.teamOf s.g
def cl (s : State) : Cluster := s.clusterOf s.g
def gr (s : State) : Grid := s.gridOf s.g
def slotNo (s : State) : Nat := s.gr.slot

/-- The current split exists and its group is resident. -/
def hasCur (s : State) : Bool :=
  match s.group? s.cur.1 with
  | some g => !g.saved && (g.split? s.cur.2).isSome
  | none => false

def modG (s : State) (f : Group → Group) : State := s.modGroup s.cur.1 f
def modSp (s : State) (f : Split → Split) : State := s.modSplitOf s.cur.1 s.cur.2 f
def modCtl (s : State) (f : Ctl → Ctl) : State := s.modSp (fun p => { p with ctl := f p.ctl })
def modChunk (s : State) (f : Chunk → Chunk) : State := s.modSp (fun p => { p with chunk := p.chunk.map f })
def modRegs (s : State) (f : Regs → Regs) : State := s.modG (fun g => { g with regs := f g.regs })

/-- The context runs in chunked mode (R309): a group's mode is fixed when it starts, since the mode changes only
while the context has no resident group. -/
def chunkedMode (s : State) : Bool := s.g.chunked

def regs (s : State) : Regs := s.g.regs
def ctl (s : State) : Ctl := s.sp.ctl

/-- exec(i) of R32 and R46 as a mask. -/
def exec (s : State) (i : Instr) : Mask :=
  let gd := guardOf i
  let p := s.regs.pget gd.pg.toNat
  let m := s.ctl.mask &&& (if gd.pn then ~~~p else p)
  if 0 < s.ctl.skipLeft then m &&& ~~~s.ctl.skipMask else m

/-- A fresh identifier. -/
def fresh (s : State) : Nat × State := (s.nextId, { s with nextId := s.nextId + 1 })

end State

/-! ### Full/empty bits of registers (R160), extended slots (R155) -/

/-- A register is empty while an outstanding long-latency write names it. -/
def Group.emptyReg (g : Group) : Reg → Bool
  | .v n => g.ll.any (fun l => l.vr.contains n)
  | .s n => g.ll.any (fun l => l.sr.contains n)

/-- The extended slot of a vector register (R151). -/
def extSlot (n : Nat) : Nat := (n - 64) / 32

namespace State

/-- A slot that the group has requested and does not hold (R156). -/
def requested (s : State) (g : Group) (k : Nat) : Bool := s.blockQ.any (fun r => r.gid == g.gid && r.slots.contains k)

/-- A slot with a posted request that is not yet granted (R158). -/
def postedSlot (s : State) (g : Group) (k : Nat) : Bool :=
  s.blockQ.any (fun r => r.gid == g.gid && r.posted && r.slots.contains k)

/-- The group has the register (R152, R158); a posted extended register is had, and waited on. -/
def hasReg (s : State) (g : Group) : Reg → Bool
  | .v n => if n < 64 then n < 8 * (((s.teamOf g).vregs + 7) / 8)
            else g.ext.contains (extSlot n) || s.postedSlot g (extSlot n)
  | .s n => n < 64 * (((s.teamOf g).sregs + 63) / 64)

/-- The register lies in a posted slot that has not been granted (R158). -/
def postedReg (s : State) (g : Group) : Reg → Bool
  | .v n => 64 ≤ n && !g.ext.contains (extSlot n) && s.postedSlot g (extSlot n)
  | .s _ => false

/-- Another split of the group holds the scalar or alphabet register in chunked mode (R164). -/
def heldByOther (s : State) (scalars als : List Nat) : Bool :=
  s.g.splits.any (fun p => p.id != s.cur.2 && (match p.chunk with
    | some c => scalars.any (fun n => c.heldS.contains n) || als.any (fun n => c.heldAl.contains n)
    | none => false))

end State

/-! ### Scratchpad buffers (R222, R227, R370) -/

/-- A local base: buffer 0 to 3 (W, A, C, G), or 4 for cluster SRAM, with an offset (R370). -/
def localLoc (buf off : Nat) : Nat := (0xC0 + buf) * 2 ^ 56 + off
def Team.buf (t : Team) (b : Nat) : Scratch := match b with | 0 => t.w | 1 => t.a | 2 => t.c | _ => t.g
def Team.setBuf (t : Team) (b : Nat) (x : Scratch) : Team :=
  match b with | 0 => { t with w := x } | 1 => { t with a := x } | 2 => { t with c := x } | _ => { t with g := x }
/-- Size of an allotment in bytes. -/
def Scratch.size (x : Scratch) : Nat := x.kib * 1024
def Cluster.size (c : Cluster) : Nat := c.slices * 262144

/-- The words that n bytes at an offset touch. -/
def wordsOf (off n : Nat) : List Nat := (List.range ((off % 4 + n + 3) / 4)).map (fun i => off / 4 + i)

/-- Write bytes and mark their words full (R229). -/
def Scratch.put (x : Scratch) (off : Nat) (d : List Byte) : Scratch :=
  { x with bytes := Cells.write x.bytes off d, full := (wordsOf off d.length).foldl (fun f w => f.set w 1) x.full }

/-- Write bytes and leave the bits (R229: atomics; R236). -/
def Scratch.putRaw (x : Scratch) (off : Nat) (d : List Byte) : Scratch := { x with bytes := Cells.write x.bytes off d }

end Sys2Proof.Machine
end

