-- ==== Sys2Proof/Machine/Link.lean ====
section
/-! DEFINITION. Sending over the Dalcor Link ports (R518 to R520) and the batches of causal delivery (R315 to R318). -/

namespace Sys2Proof.Machine

open Sys2Proof

/-- The packages that a batch goes to: each that the routing table marks reachable (R316). -/
def batchPkgs (s : State) : List Nat := (List.range 32).filter (fun k => k != s.pkg && s.reach k)

/-- A batch can be sent: its ports have room, and fewer than 2^20 batches are not yet reported (R318). -/
def batchRoom (s : State) : Bool :=
  (batchPkgs s).all (fun k => match s.portTo k with | some p => portRoom s p | none => true)
    && (s.sent.filter (fun b => b.owed.any (fun k => s.reach k))).length < 2 ^ 20

/-- Lines of peers that have been written: no copy of them is used any longer, and a reply to an earlier request is of no use
(R316, R317). -/
def dropLines (s : State) (keys : List Nat) : State :=
  let old (a : Nat) : Bool := keys.contains (lineKey a)
  { s with
    peerLines := s.peerLines.filter (fun l => !old l.1)
    groups := s.groups.map (fun g => { g with splits := g.splits.map (fun p =>
      { p with peerData := p.peerData.filter (fun l => !old l.1) }) })
    cmds := s.cmds.map (fun c => { c with peerData := c.peerData.filter (fun l => !old l.1) })
    peerReqs := s.peerReqs.map (fun q => if q.op.isNone && q.need == 0 && old q.addr then { q with stale := true } else q) }

/-- R316: send a batch of writes, with the line keys of every peer write; `incr` is the counter word that an `xpeer`
increments (R400). -/
def sendBatch (s : State) (asid : Nat) (writes : List PeerOp) (keys : List Nat) (incr : Option Nat) : State :=
  let vc := s.vc.set s.pkg (s.vc.getD s.pkg 0 + 1)
  let dests := batchPkgs s
  let b : Batch := { src := s.pkg, asid := asid, stamp := vc, writes := writes, keys := keys, incr := incr, owed := dests }
  let s := dropLines { s with vc := vc, sent := s.sent ++ [b] } keys
  dests.foldl (fun s k =>
    let ws := writes.filter (fun w => vaPkg w.addr == k)
    let inc := match incr with | some a => if vaPkg a == k then some a else none | none => none
    sendTo s k 3 (.batch s.pkg asid vc ws keys inc)) s

/-- R320: a batch of this package has not been applied at a package that it writes. -/
def batchesOwed (s : State) : Bool :=
  s.sent.any (fun b => b.writes.any (fun w => b.owed.contains (vaPkg w.addr)))

end Sys2Proof.Machine
end

