-- ==== Sys2Proof/WellFormed.lean ====
section
/-! DEFINITION. Well-formed instructions: a core instruction whose fields are legal (R34 to R42 and each entry's
limits) and whose immediate its encoding holds (R40); an evmap whose code is its operation (R398); another step of
the machine whose numbers name something that exists. -/

namespace Sys2Proof

open Machine

/-- The immediate is one that the word, or the pair, can hold (R40). -/
def IWord.fits (w : IWord) : Bool := w.pair || w.imm == (w.imm.truncate 24).signExtend 64

/-- The format-I words hold their immediates. -/
def Instr.immFits : Instr → Bool
  | .skip w | .bar w | .barw w | .trap w | .rte w | .sysrd w | .syswr w | .acqx w | .relx w | .brk w | .mov w
  | .lea w => w.fits
  | _ => true

/-- The operation code of each evmap is its own (R398). -/
def Instr.opFits : Instr → Bool
  | .evmapMap w => w.code.toNat % 16 == 0
  | .evmapPulse w => w.code.toNat % 16 == 1
  | .evmapClear w => w.code.toNat % 16 == 2
  | _ => true

/-- A word at an instruction position that forms no instruction (R48): an unassigned opcode, 0xC5, a prefix, or an
evmap of no operation. -/
def formsNothing (w : Word) : Bool :=
  !assigned (w.toNat / 2 ^ 56) || (w.toNat / 2 ^ 56 == 0xA6 && 3 ≤ w.toNat % 16)

/-- The numbers of the other steps: registers of R191, priority levels (R98), ports (R509), dies, functions (R501)
and portable words that are not the marker (R495). -/
def Instr.numbersFit : Instr → Bool
  | .portableInstruction w => w != 1
  | .flagsRegisterWrite n _ => n == 0x011 || n == 0x018 || n == 0x019
  | .levelHeadStarvation l | .preemptStarvation l => l < 8
  | .notice fn d _ => fn ≤ 16 && d < 5
  | .noticeComplete d | .correctedSoftError d => d < 5
  | .linkPortDown p | .flitReplay p | .flitReceive p _ => p < 12
  | .linkPortUp p k _ => p < 12 && k < 32
  | .xblockGrant c | .commandAcceptance c => c < 192
  | .binTimerExpiry c b | .binLaunch c b => c < 192 && b < 16
  | .barwInstanceRelease t => t < 8
  | .throttleLevelChange l => l < 8
  | .unassignedOpcode w => formsNothing w
  | _ => true

/-- Well-formed instructions. -/
def Instr.wf (i : Instr) : Bool := legal i && i.immFits && i.opFits && i.numbersFit

end Sys2Proof
end

