-- ==== Sys2Proof/Decode.lean ====
section
/-! DEFINITION. The decoder, total on any words: native words with their prefix (R31, R38 to R45), portable words
(R494, R495), and the encoder of the native core instructions, written from the same tables. Fields that no rule
accepts still decode, as a term that Machine.legal refuses and exec traps; a word that forms no instruction (R48)
decodes to unassignedOpcode. -/

namespace Sys2Proof

open Machine

/-- n bits of a word from bit lo. -/
abbrev fld (w : BitVec 64) (lo n : Nat) : BitVec n := w.extractLsb' lo n

/-- OPC, PN, PG and FE in their places (R31). -/
def encG (o : Nat) (g : Guard) : BitVec 16 := BitVec.ofNat 8 o ++ BitVec.ofBool g.pn ++ g.pg ++ g.fe

def decG (w : Word) : Guard := ⟨w.getLsbD 55, fld w 51 4, fld w 48 3⟩
def decR (w : Word) : RWord := ⟨decG w, fld w 38 10, fld w 28 10, fld w 18 10, fld w 8 10, fld w 0 8⟩
/-- R40: the prefix P gives immediate bits 63:24. -/
def decI (w : Word) (pre : Option Word) : IWord :=
  match pre with
  | none => ⟨decG w, fld w 38 10, fld w 28 10, fld w 24 4, (fld w 0 24).signExtend 64, false⟩
  | some p => ⟨decG w, fld w 38 10, fld w 28 10, fld w 24 4, fld p 0 40 ++ fld w 0 24, true⟩
def decM (w : Word) : MWord :=
  ⟨decG w, fld w 38 10, fld w 28 10, fld w 18 10, fld w 16 2, fld w 13 3, fld w 9 4, fld w 0 9⟩
def decX (w : Word) : XWord := ⟨decG w, fld w 38 10, fld w 28 10, fld w 18 10, fld w 8 10, fld w 0 8⟩
def decQ (w : Word) : QWord := ⟨decG w, fld w 38 10, fld w 28 10, fld w 18 10, fld w 8 10, fld w 0 8⟩
def decB (w : Word) : BWord := ⟨decG w, w.getLsbD 47, fld w 40 7, fld w 30 10, fld w 0 30⟩

/-- R398: code<3:0> is the operation. -/
def decEvmap (w : Word) : Instr :=
  match w.toNat % 16 with
  | 0 => .evmapMap (decX w)
  | 1 => .evmapPulse (decX w)
  | 2 => .evmapClear (decX w)
  | _ => .unassignedOpcode w

/-- The instruction of a native word, with the prefix word before it if there is one (R54). -/
def decodeWord (w : Word) (pre : Option Word) : Instr :=
  match w.toNat / 2 ^ 56 with
  | 0x00 => .nop (decR w)
  | 0x01 => .bra (decB w)
  | 0x02 => .skip (decI w pre)
  | 0x03 => .brx (decR w)
  | 0x04 => .call (decB w)
  | 0x05 => .ret (decR w)
  | 0x06 => .loop (decB w)
  | 0x07 => .exit (decR w)
  | 0x08 => .yield (decR w)
  | 0x09 => .spawn (decX w)
  | 0x0A => .launch (decX w)
  | 0x0B => .bar (decI w pre)
  | 0x0C => .barw (decI w pre)
  | 0x0D => .trap (decI w pre)
  | 0x0E => .rte (decI w pre)
  | 0x0F => .sysrd (decI w pre)
  | 0x10 => .syswr (decI w pre)
  | 0x11 => .chunk (decR w)
  | 0x12 => .fence (decR w)
  | 0x13 => .ifence (decR w)
  | 0x14 => .elect (decR w)
  | 0x15 => .vote (decR w)
  | 0x16 => .acqx (decI w pre)
  | 0x17 => .relx (decI w pre)
  | 0x18 => .waitc (decR w)
  | 0x19 => .clock (decR w)
  | 0x1A => .krepl (decR w)
  | 0x1B => .brk (decI w pre)
  | 0x20 => .iadd (decR w)
  | 0x21 => .isub (decR w)
  | 0x22 => .imul (decR w)
  | 0x23 => .imulh (decR w)
  | 0x24 => .imad (decR w)
  | 0x25 => .idiv (decR w)
  | 0x26 => .imin (decR w)
  | 0x27 => .imax (decR w)
  | 0x28 => .isat (decR w)
  | 0x29 => .and (decR w)
  | 0x2A => .or (decR w)
  | 0x2B => .xor (decR w)
  | 0x2C => .andn (decR w)
  | 0x2D => .shl (decR w)
  | 0x2E => .shr (decR w)
  | 0x2F => .fshf (decR w)
  | 0x30 => .bfx (decR w)
  | 0x31 => .bfi (decR w)
  | 0x32 => .popc (decR w)
  | 0x33 => .clz (decR w)
  | 0x34 => .brev (decR w)
  | 0x35 => .icmp (decR w)
  | 0x36 => .sel (decR w)
  | 0x37 => .mov (decI w pre)
  | 0x38 => .lea (decI w pre)
  | 0x39 => .iaddc (decR w)
  | 0x3A => .merge (decR w)
  | 0x40 => .fadd (decR w)
  | 0x41 => .fsub (decR w)
  | 0x42 => .fmul (decR w)
  | 0x43 => .ffma (decR w)
  | 0x44 => .fmin (decR w)
  | 0x45 => .fmax (decR w)
  | 0x46 => .frcp (decR w)
  | 0x47 => .frsq (decR w)
  | 0x48 => .fsqrt (decR w)
  | 0x49 => .fexp2 (decR w)
  | 0x4A => .flog2 (decR w)
  | 0x4B => .fcmp (decR w)
  | 0x4C => .fclass (decR w)
  | 0x4D => .fsgn (decR w)
  | 0x4E => .cvt (decR w)
  | 0x4F => .qnt (decR w)
  | 0x50 => .dqnt (decR w)
  | 0x51 => .fdot2 (decR w)
  | 0x52 => .frnd (decR w)
  | 0x53 => .fscale (decR w)
  | 0x54 => .fredu (decR w)
  | 0x60 => .shfl (decR w)
  | 0x61 => .perm (decR w)
  | 0x62 => .plog (decR w)
  | 0x63 => .pcnt (decR w)
  | 0x64 => .scan (decR w)
  | 0x65 => .vtos (decR w)
  | 0x66 => .stov (decR w)
  | 0x67 => .compact (decR w)
  | 0x68 => .rebal (decR w)
  | 0x69 => .nzscan (decX w)
  | 0x70 => .alset (decR w)
  | 0x71 => .alget (decR w)
  | 0x72 => .sunpk (decR w)
  | 0x73 => .spack (decR w)
  | 0x74 => .sld (decM w)
  | 0x75 => .sst (decM w)
  | 0x76 => .sdot (decR w)
  | 0x77 => .smap (decR w)
  | 0x78 => .schk (decR w)
  | 0x79 => .scvt (decR w)
  | 0x7A => .smadd (decR w)
  | 0x7B => .scnt (decR w)
  | 0x80 => .lds (decM w)
  | 0x81 => .sts (decM w)
  | 0x82 => .ldsf (decM w)
  | 0x83 => .stse (decM w)
  | 0x84 => .ldsp (decM w)
  | 0x85 => .feset (decM w)
  | 0x86 => .atoms (decM w)
  | 0x87 => .ldc (decM w)
  | 0x88 => .stc (decM w)
  | 0x89 => .atomc (decM w)
  | 0x8A => .ldsx (decM w)
  | 0x8B => .stsx (decM w)
  | 0x90 => .ldg (decM w)
  | 0x91 => .stg (decM w)
  | 0x92 => .atomg (decM w)
  | 0x93 => .casg (decM w)
  | 0x94 => .pref (decM w)
  | 0x95 => .ldgc (decM w)
  | 0x96 => .stgs (decM w)
  | 0x97 => .red (decM w)
  | 0x98 => .probe (decM w)
  | 0x99 => .migr (decM w)
  | 0xA0 => .xcopy (decX w)
  | 0xA1 => .xform (decX w)
  | 0xA2 => .xgath (decX w)
  | 0xA3 => .xscat (decX w)
  | 0xA4 => .gnode (decX w)
  | 0xA5 => .grun (decX w)
  | 0xA7 => .xfill (decX w)
  | 0xA8 => .xpeer (decX w)
  | 0xA9 => .xcancel (decX w)
  | 0xAA => .ebb (decX w)
  | 0xAB => .kvmap (decR w)
  | 0xB0 => .mma (decQ w)
  | 0xB1 => .mloop (decQ w)
  | 0xB9 => .msparse (decQ w)
  | 0xB2 => .mzero (decX w)
  | 0xB3 => .mrd (decR w)
  | 0xB4 => .mwr (decR w)
  | 0xB5 => .mscale (decX w)
  | 0xB6 => .oprdy (decR w)
  | 0xB7 => .mchk (decQ w)
  | 0xB8 => .attn (decX w)
  | 0xBA => .mconv (decX w)
  | 0xBB => .mrel (decR w)
  | 0xA6 => decEvmap w
  | _ => .unassignedOpcode w

/-- A native instruction read from a word and its successor: one word, or a prefix and a format-I word (R44). None
where the prefix is stray (R45). -/
def decodeNative (w w2 : Word) : Option Instr :=
  if w.toNat / 2 ^ 56 == 0xE0 then
    if formatI (w2.toNat / 2 ^ 56) then some (decodeWord w2 (some w)) else none
  else some (decodeWord w none)

/-! ### Portable words (R494, R495) -/

/-- The format letter of an opcode (R54). -/
inductive Fmt where
  | R | I | M | B | X | Q
  deriving DecidableEq, Repr

def fmtOf (o : Nat) : Fmt :=
  if formatI o then .I
  else if o == 0x01 || o == 0x04 || o == 0x06 then .B
  else if o == 0x09 || o == 0x0A || o == 0x69 || (0xA0 ≤ o && o ≤ 0xAA) || o == 0xB2 || o == 0xB5 || o == 0xB8
    || o == 0xBA then .X
  else if o == 0xB0 || o == 0xB1 || o == 0xB7 || o == 0xB9 then .Q
  else if o == 0x74 || o == 0x75 || (0x80 ≤ o && o ≤ 0x99) then .M
  else .R

/-- Which of d, a, b and c name a predicate, by opcode and m (R495). -/
def predFields (o m : Nat) : Bool × Bool × Bool × Bool :=
  match o with
  | 0x14 => (true, false, false, false)
  | 0x15 => (m != 3, true, false, false)
  | 0x16 => (m == 1, false, false, false)
  | 0x35 | 0x4B | 0x78 => (true, false, false, false)
  | 0x36 | 0x39 => (false, false, false, true)
  | 0x62 => (true, true, true, true)
  | 0x63 => (false, true, false, false)
  | 0x67 => (false, false, true, false)
  | _ => (false, false, false, false)

/-- A 7-bit register field: s(f<5:0>) or v(f<5:0>) (R495). A field that holds a number below 64 keeps it. -/
def port7 (f : Nat) : BitVec 10 := BitVec.ofNat 10 (if f / 64 == 1 then 512 + f % 64 else f % 64)

/-- A 7-bit field; a predicate field must have bits 6:3 zero (R495). -/
def portField (pred : Bool) (f : Nat) : Option (BitVec 10) :=
  if pred && 8 ≤ f then none else some (port7 f)

/-- A word with a guard, an opcode and its lower fields. -/
def wordOf (o : Nat) (g : Guard) (fields : Nat) : Word := BitVec.append (encG o g) (BitVec.ofNat 48 fields)

/-- The native word that a portable word 0 and its extension word (0 without X) form; none where the pair traps
ILLOP (R494, R495). -/
def portableWord (w0 ext : Nat) : Option Word :=
  let o := w0 / 2 ^ 24 % 256
  let x := w0 / 2 ^ 23 % 2 == 1
  if !assigned o then none
  else if x && ext / 2 ^ 24 != 0xE1 then none
  else
    let e := if x then ext else 0
    let g : Guard := ⟨e / 2 ^ 20 % 2 == 1, BitVec.ofNat 4 (e / 2 ^ 21 % 8), BitVec.ofNat 3 (e / 2 ^ 17 % 8)⟩
    let f7 (n : Nat) : Nat := w0 / 2 ^ n % 128
    let mk (parts : Nat) : Option Word := some (wordOf o g parts)
    let e17 := e % 2 ^ 17
    match fmtOf o with
    | .R =>
      let m := e17 / 4 % 256
      let pf := predFields o m
      if w0 / 2 ^ 21 % 4 != 0 || e17 % 4 != 0 then none
      else
        match portField pf.1 (f7 14), portField pf.2.1 (f7 7), portField pf.2.2.1 (f7 0),
            portField pf.2.2.2 (e17 / 2 ^ 10) with
        | some d, some a, some b, some c =>
          mk (d.toNat * 2 ^ 38 + a.toNat * 2 ^ 28 + b.toNat * 2 ^ 18 + c.toNat * 2 ^ 8 + m)
        | _, _, _, _ => none
    | .I =>
      let m4 := e17 / 2 ^ 13
      let pf := predFields o m4
      if e17 % 2 ^ 13 != 0 then none
      else
        match portField pf.1 (f7 16) with
        | some d =>
          let imm := (BitVec.ofNat 9 (w0 % 512)).signExtend 24
          mk (d.toNat * 2 ^ 38 + (port7 (f7 9)).toNat * 2 ^ 28 + m4 * 2 ^ 24 + imm.toNat)
        | none => none
    | .M =>
      if e17 % 2 != 0 then none
      else
        let b := if x then port7 (e17 / 2 ^ 10) else 0x200
        mk ((port7 (f7 16)).toNat * 2 ^ 38 + (port7 (f7 9)).toNat * 2 ^ 28 + b.toNat * 2 ^ 18
          + (e17 / 2 ^ 8 % 4) * 2 ^ 16 + (e17 / 2 ^ 5 % 8) * 2 ^ 13 + (e17 / 2 % 16) * 2 ^ 9
          + ((BitVec.ofNat 9 (w0 % 512)).toNat))
    | .B =>
      if e17 != 0 then none
      else
        let off := (BitVec.ofNat 15 (w0 % 2 ^ 15)).signExtend 30
        mk ((w0 / 2 ^ 22 % 2) * 2 ^ 47 + (port7 (w0 / 2 ^ 15 % 128)).toNat * 2 ^ 30 + off.toNat)
    | .X =>
      if w0 / 2 ^ 21 % 4 != 0 || e17 % 4 != 0 || (f7 7 / 64 == 1 && 60 < f7 7 % 64) then none
      else
        let aux := if x then port7 (e17 / 2 ^ 10) else 0x200
        mk ((port7 (f7 14)).toNat * 2 ^ 38 + (port7 (f7 7)).toNat * 2 ^ 28 + (port7 (f7 0)).toNat * 2 ^ 18
          + aux.toNat * 2 ^ 8 + e17 / 4 % 256)
    | .Q =>
      if w0 / 2 ^ 21 % 4 != 0 || e17 % 4 != 0 then none
      else
        let s := if x then port7 (e17 / 2 ^ 10) else 0x200
        mk ((port7 (f7 14)).toNat * 2 ^ 38 + (port7 (f7 7)).toNat * 2 ^ 28 + (port7 (f7 0)).toNat * 2 ^ 18
          + s.toNat * 2 ^ 8 + e17 / 4 % 256)

/-- What a portable position holds: the marker, or the word with its extension in bits 63:32 (R495, R496). -/
def decodeAtPortable (w0 ext : Nat) : Instr :=
  if w0 == 1 then .safePointMarker
  else .portableInstruction (BitVec.ofNat 64 (w0 + (if w0 / 2 ^ 23 % 2 == 1 then ext * 2 ^ 32 else 0)))

/-- The instruction read from `nbits` bits numbered as the opcode table numbers them: up to 32 bits a portable word,
more a native word, or a prefix word with the format-I word in bits 127:64. -/
def decodeTableWord (nbits w : Nat) : Option Instr :=
  if nbits ≤ 32 then some (decodeAtPortable (w % 2 ^ 32) 0)
  else decodeNative (BitVec.ofNat 64 w) (BitVec.ofNat 64 (w / 2 ^ 64))

/-! ### The encoder -/

def encR (o : Nat) (w : RWord) : Word := encG o w.g ++ w.d ++ w.a ++ w.b ++ w.c ++ w.m
def encM (o : Nat) (w : MWord) : Word := encG o w.g ++ w.d ++ w.a ++ w.b ++ w.scope ++ w.size ++ w.sub ++ w.off
def encX (o : Nat) (w : XWord) : Word := encG o w.g ++ w.rcd ++ w.crd ++ w.ctr ++ w.aux ++ w.code
def encQ (o : Nat) (w : QWord) : Word := encG o w.g ++ w.a ++ w.b ++ w.c ++ w.s ++ w.m
def encB (o : Nat) (w : BWord) : Word := encG o w.g ++ BitVec.ofBool w.u ++ w.rsv ++ w.a ++ w.off
/-- The format-I word. -/
def encIw (o : Nat) (w : IWord) : Word := encG o w.g ++ w.d ++ w.a ++ w.m4 ++ w.imm.extractLsb' 0 24
/-- The prefix word that carries immediate bits 63:24 (R40). -/
def encPre (w : IWord) : Word := BitVec.ofNat 8 0xE0 ++ (0 : BitVec 16) ++ w.imm.extractLsb' 24 40
def encI (o : Nat) (w : IWord) : List Word := if w.pair then [encPre w, encIw o w] else [encIw o w]

/-- The native words of a core instruction; none for the other steps of the machine, which are no words. -/
def encode : Instr → List Word
  | .nop w => [encR 0x00 w]
  | .bra w => [encB 0x01 w]
  | .skip w => encI 0x02 w
  | .brx w => [encR 0x03 w]
  | .call w => [encB 0x04 w]
  | .ret w => [encR 0x05 w]
  | .loop w => [encB 0x06 w]
  | .exit w => [encR 0x07 w]
  | .yield w => [encR 0x08 w]
  | .spawn w => [encX 0x09 w]
  | .launch w => [encX 0x0A w]
  | .bar w => encI 0x0B w
  | .barw w => encI 0x0C w
  | .trap w => encI 0x0D w
  | .rte w => encI 0x0E w
  | .sysrd w => encI 0x0F w
  | .syswr w => encI 0x10 w
  | .chunk w => [encR 0x11 w]
  | .fence w => [encR 0x12 w]
  | .ifence w => [encR 0x13 w]
  | .elect w => [encR 0x14 w]
  | .vote w => [encR 0x15 w]
  | .acqx w => encI 0x16 w
  | .relx w => encI 0x17 w
  | .waitc w => [encR 0x18 w]
  | .clock w => [encR 0x19 w]
  | .krepl w => [encR 0x1A w]
  | .brk w => encI 0x1B w
  | .iadd w => [encR 0x20 w]
  | .isub w => [encR 0x21 w]
  | .imul w => [encR 0x22 w]
  | .imulh w => [encR 0x23 w]
  | .imad w => [encR 0x24 w]
  | .idiv w => [encR 0x25 w]
  | .imin w => [encR 0x26 w]
  | .imax w => [encR 0x27 w]
  | .isat w => [encR 0x28 w]
  | .and w => [encR 0x29 w]
  | .or w => [encR 0x2A w]
  | .xor w => [encR 0x2B w]
  | .andn w => [encR 0x2C w]
  | .shl w => [encR 0x2D w]
  | .shr w => [encR 0x2E w]
  | .fshf w => [encR 0x2F w]
  | .bfx w => [encR 0x30 w]
  | .bfi w => [encR 0x31 w]
  | .popc w => [encR 0x32 w]
  | .clz w => [encR 0x33 w]
  | .brev w => [encR 0x34 w]
  | .icmp w => [encR 0x35 w]
  | .sel w => [encR 0x36 w]
  | .mov w => encI 0x37 w
  | .lea w => encI 0x38 w
  | .iaddc w => [encR 0x39 w]
  | .merge w => [encR 0x3A w]
  | .fadd w => [encR 0x40 w]
  | .fsub w => [encR 0x41 w]
  | .fmul w => [encR 0x42 w]
  | .ffma w => [encR 0x43 w]
  | .fmin w => [encR 0x44 w]
  | .fmax w => [encR 0x45 w]
  | .frcp w => [encR 0x46 w]
  | .frsq w => [encR 0x47 w]
  | .fsqrt w => [encR 0x48 w]
  | .fexp2 w => [encR 0x49 w]
  | .flog2 w => [encR 0x4A w]
  | .fcmp w => [encR 0x4B w]
  | .fclass w => [encR 0x4C w]
  | .fsgn w => [encR 0x4D w]
  | .cvt w => [encR 0x4E w]
  | .qnt w => [encR 0x4F w]
  | .dqnt w => [encR 0x50 w]
  | .fdot2 w => [encR 0x51 w]
  | .frnd w => [encR 0x52 w]
  | .fscale w => [encR 0x53 w]
  | .fredu w => [encR 0x54 w]
  | .shfl w => [encR 0x60 w]
  | .perm w => [encR 0x61 w]
  | .plog w => [encR 0x62 w]
  | .pcnt w => [encR 0x63 w]
  | .scan w => [encR 0x64 w]
  | .vtos w => [encR 0x65 w]
  | .stov w => [encR 0x66 w]
  | .compact w => [encR 0x67 w]
  | .rebal w => [encR 0x68 w]
  | .nzscan w => [encX 0x69 w]
  | .alset w => [encR 0x70 w]
  | .alget w => [encR 0x71 w]
  | .sunpk w => [encR 0x72 w]
  | .spack w => [encR 0x73 w]
  | .sld w => [encM 0x74 w]
  | .sst w => [encM 0x75 w]
  | .sdot w => [encR 0x76 w]
  | .smap w => [encR 0x77 w]
  | .schk w => [encR 0x78 w]
  | .scvt w => [encR 0x79 w]
  | .smadd w => [encR 0x7A w]
  | .scnt w => [encR 0x7B w]
  | .lds w => [encM 0x80 w]
  | .sts w => [encM 0x81 w]
  | .ldsf w => [encM 0x82 w]
  | .stse w => [encM 0x83 w]
  | .ldsp w => [encM 0x84 w]
  | .feset w => [encM 0x85 w]
  | .atoms w => [encM 0x86 w]
  | .ldc w => [encM 0x87 w]
  | .stc w => [encM 0x88 w]
  | .atomc w => [encM 0x89 w]
  | .ldsx w => [encM 0x8A w]
  | .stsx w => [encM 0x8B w]
  | .ldg w => [encM 0x90 w]
  | .stg w => [encM 0x91 w]
  | .atomg w => [encM 0x92 w]
  | .casg w => [encM 0x93 w]
  | .pref w => [encM 0x94 w]
  | .ldgc w => [encM 0x95 w]
  | .stgs w => [encM 0x96 w]
  | .red w => [encM 0x97 w]
  | .probe w => [encM 0x98 w]
  | .migr w => [encM 0x99 w]
  | .xcopy w => [encX 0xA0 w]
  | .xform w => [encX 0xA1 w]
  | .xgath w => [encX 0xA2 w]
  | .xscat w => [encX 0xA3 w]
  | .gnode w => [encX 0xA4 w]
  | .grun w => [encX 0xA5 w]
  | .evmapMap w => [encX 0xA6 w]
  | .evmapPulse w => [encX 0xA6 w]
  | .evmapClear w => [encX 0xA6 w]
  | .xfill w => [encX 0xA7 w]
  | .xpeer w => [encX 0xA8 w]
  | .xcancel w => [encX 0xA9 w]
  | .ebb w => [encX 0xAA w]
  | .kvmap w => [encR 0xAB w]
  | .mma w => [encQ 0xB0 w]
  | .mloop w => [encQ 0xB1 w]
  | .msparse w => [encQ 0xB9 w]
  | .mzero w => [encX 0xB2 w]
  | .mrd w => [encR 0xB3 w]
  | .mwr w => [encR 0xB4 w]
  | .mscale w => [encX 0xB5 w]
  | .oprdy w => [encR 0xB6 w]
  | .mchk w => [encQ 0xB7 w]
  | .attn w => [encX 0xB8 w]
  | .mconv w => [encX 0xBA w]
  | .mrel w => [encR 0xBB w]
  | _ => []

/-- The instruction that a list of native words holds (one word, or a prefix pair). -/
def decodeWords : List Word → Option Instr
  | [w] => decodeNative w 0
  | [p, w] => decodeNative p w
  | _ => none

end Sys2Proof
end

