-- ==== Sys2Proof/Machine/MxGeom.lean ====
section
/-! DEFINITION. Where commands read and write: local bases (R370), the shapes of the matrix engine's type pairs (R402), the
control words (R405 to R407), and the ranges of the buffers that an unfinished matrix command reads or writes (R409). -/

namespace Sys2Proof.Machine

open Sys2Proof

/-! ### Kinds of commands -/

/-- The matrix-engine commands (R408). -/
def isMatrixCmd (opc : Nat) : Bool :=
  opc == 0xB0 || opc == 0xB1 || opc == 0xB2 || opc == 0xB5 || opc == 0xB7 || opc == 0xB8 || opc == 0xB9 || opc == 0xBA
/-- The commands of an asynchronous engine (R367). -/
def isAsyncCmd (opc : Nat) : Bool := opc == 0xA0 || opc == 0xA1 || opc == 0xA2 || opc == 0xA3 || opc == 0xA7 || opc == 0xA8

/-! ### Local bases (R370) -/

/-- A local base: buffer 0 to 3, or 4 for cluster SRAM, with its offset. -/
def localBase (a : Nat) : Option (Nat × Nat) :=
  let b := a / 2 ^ 56
  if 0xC0 ≤ b && b ≤ 0xC4 then some (b - 0xC0, a % 2 ^ 56) else none

/-- The size in bytes of a team's allotment, or of its cluster's. -/
def allotSize (s : State) (tid buf : Nat) : Nat :=
  match s.team? tid with
  | none => 0
  | some t => if buf < 4 then (t.buf buf).size else ((s.cluster? t.cid).getD noCluster).size

/-- Bytes of a team's allotment, or of its cluster's. -/
def allotRead (s : State) (tid buf off n : Nat) : List Byte :=
  match s.team? tid with
  | none => []
  | some t => if buf < 4 then Cells.read (t.buf buf).bytes off n else Cells.read ((s.cluster? t.cid).getD noCluster).sram off n

/-- Read n bytes of a record at a global address or a local base; they lie in one page. -/
def rdAny (s : State) (slot tid a n : Nat) : Rd :=
  match localBase a with
  | some (b, o) => if o + n ≤ allotSize s tid b then .ok (allotRead s tid b o n) else .bad
  | none => rdGlobal s slot a n

/-- The context slot of a team. -/
def slotOfTeam (s : State) (tid : Nat) : Nat :=
  match (s.team? tid).bind (fun t => s.cluster? t.cid) with
  | some c => ((s.grid? c.grid).getD noGrid).slot
  | none => 0

/-! ### Type pairs (R402) -/

/-- A type pair: the types of A and B, M, N and K, the registers of an A tile, and the bits of an element. -/
structure MxPair where
  a : Ty
  b : Ty
  m : Nat
  n : Nat
  k : Nat
  regs : Nat
  bits : Nat
  cBytes : Nat
  deriving DecidableEq, Repr

def mxPair (p : Nat) : MxPair :=
  match p with
  | 0 => ⟨.f64, .f64, 8, 8, 4, 2, 64, 8⟩
  | 1 => ⟨.f32, .f32, 8, 8, 8, 2, 32, 4⟩
  | 2 => ⟨.bf16, .bf16, 16, 16, 32, 8, 16, 4⟩
  | 3 => ⟨.f16, .f16, 16, 16, 32, 8, 16, 4⟩
  | 4 => ⟨.e4m3, .e4m3, 16, 16, 64, 8, 8, 4⟩
  | 5 => ⟨.e4m3, .e5m2, 16, 16, 64, 8, 8, 4⟩
  | 6 => ⟨.e5m2, .e4m3, 16, 16, 64, 8, 8, 4⟩
  | 7 => ⟨.e5m2, .e5m2, 16, 16, 64, 8, 8, 4⟩
  | 8 => ⟨.e2m1, .e2m1, 16, 16, 128, 8, 4, 4⟩
  | _ => ⟨.ix4, .ix4, 16, 16, 128, 8, 4, 4⟩

/-- The bytes of a dense row of B and of C. -/
def MxPair.bRow (p : MxPair) : Nat := p.n * p.bits / 8
def MxPair.cRow (p : MxPair) : Nat := p.n * p.cBytes

/-! ### Control words of a format-Q command -/

namespace Cmd

def pair (c : Cmd) : MxPair := mxPair (c.m / 16)
def acc (c : Cmd) : Bool := bitAt c.m 0
def chk (c : Cmd) : Bool := bitAt c.m 1
def sparse (c : Cmd) : Bool := bitAt c.m 2
def reuse (c : Cmd) : Bool := bitAt c.m 3
def contrib (c : Cmd) : Nat := slice c.sw 63 32
def boff (c : Cmd) : Nat := c.bw % 2 ^ 32
def coff (c : Cmd) : Nat := c.cw % 2 ^ 32
def bPitch (c : Cmd) : Nat := let p := slice c.bw 47 32; if p == 0 then c.pair.bRow else p
def cPitch (c : Cmd) : Nat := let p := slice c.cw 47 32; if p == 0 then c.pair.cRow else p
/-- INCB in bytes, 0 for `mma`. -/
def incB (c : Cmd) : Int := if c.opc == 0xB1 then toSigned 16 (slice c.lw 63 48) * 8 else 0
def incA (c : Cmd) : Nat := if c.opc == 0xB0 then 0 else slice c.lw 47 40
def incSA (c : Cmd) : Nat := if c.opc == 0xB0 then 0 else slice c.lw 39 32
def incSB (c : Cmd) : Nat := if c.opc == 0xB0 then 0 else slice c.lw 31 24
def listOff (c : Cmd) : Nat := c.pw % 2 ^ 20
def indexed (c : Cmd) : Bool := bitAt c.pw 20
/-- An argument of a format-X command. -/
def arg (c : Cmd) (k : Nat) : Nat := c.args.getD k 0

end Cmd

/-- A 32-bit word of a team's G allotment. -/
def gWord (s : State) (tid off : Nat) : Nat := ofBytes (allotRead s tid 3 off 4)

/-- The count of the index list of `msparse` (R406), as it was read at acceptance (R423). -/
def listCount (s : State) (c : Cmd) : Nat := c.n.getD (gWord s c.tid c.listOff)

/-- The steps of a multiply (R414). -/
def mxSteps (s : State) (c : Cmd) : Nat :=
  if c.opc == 0xB0 then 1 else if c.opc == 0xB1 then c.lw % 2 ^ 16
  else (listCount s c + c.pair.k - 1) / c.pair.k

/-- The contributors' group indices in increasing order (R411); the issuing group alone where CONTRIB is 0. -/
def contributors (c : Cmd) : List Nat :=
  if c.contrib == 0 then [(c.tile.headD (0, [], [])).1]
  else (List.range 32).filter (fun k => bitAt c.contrib k)

/-- The W row of B that position q of step t reads (R414). -/
def bRowAt (s : State) (c : Cmd) (t q : Nat) : Int :=
  let p := t * c.pair.k + q
  let row := if c.sparse then (if c.indexed then gWord s c.tid (c.listOff + 4 + 4 * p) else p) else q
  (c.boff : Int) + t * c.incB + row * c.bPitch

/-- The positions of step t that are not masked. -/
def livePos (s : State) (c : Cmd) (t : Nat) : List Nat :=
  (List.range c.pair.k).filter (fun q => !(c.sparse && listCount s c ≤ t * c.pair.k + q))

/-- The C tile of contributor u. -/
def tileOff (c : Cmd) (u : Nat) : Nat := if c.chk then c.coff + u * 2048 else c.coff + u * c.pair.m * c.cPitch

/-- The ranges of C that a multiply writes. -/
def tileRanges (c : Cmd) : List (Nat × Nat × Nat) :=
  (List.range (contributors c).length).flatMap (fun u =>
    if c.chk then [(2, tileOff c u, 1156)]
    else (List.range c.pair.m).map (fun i => (2, tileOff c u + i * c.cPitch, c.pair.cRow)))

/-- What a multiply writes: nothing where it accumulates over no step (R424). -/
def mulWrites (s : State) (c : Cmd) : List (Nat × Nat × Nat) := if c.acc && mxSteps s c == 0 then [] else tileRanges c

/-- Rows and blocks of the scales that a multiply reads, as offsets in G (R415); the scale of a masked block is not read (R84). -/
def scaleOffs (s : State) (c : Cmd) : List Nat :=
  let t := (s.team? c.tid).getD noTeam
  let blocks (k : Nat) : List Nat := (List.range (c.pair.k / 32)).filter (fun b =>
    !(c.sparse && listCount s c ≤ k * c.pair.k + 32 * b))
  if c.m / 16 ≤ 3 then []
  else
    (List.range (mxSteps s c)).flatMap (fun k =>
      (match t.scaleA with
        | some (sa, pa) => (List.range (16 * (contributors c).length)).flatMap (fun i =>
            (blocks k).map (fun b => sa + k * c.incSA + i * pa + b))
        | none => [])
      ++ (match t.scaleB with
        | some (sb, pb) => (List.range 16).flatMap (fun j => (blocks k).map (fun b => sb + k * c.incSB + j * pb + b))
        | none => []))

/-- The fields of an attention record (R459): NQ, QOFF, COFF, SCALE, ROPEBASE, and whether its reserved fields are 0. -/
def attnRec (s : State) (c : Cmd) : Option (Nat × Nat × Nat × Nat × Nat × Bool) :=
  match rdAny s (slotOfTeam s c.tid) c.tid c.rcd 64 with
  | .ok b => some (recField b 0 2, recField b 4 4, recField b 8 4, recField b 12 4, recField b 16 4,
      recField b 2 2 == 0 && recField b 20 44 == 0)
  | _ => none

/-- A multiply (R423). -/
def isMul (opc : Nat) : Bool := opc == 0xB0 || opc == 0xB1 || opc == 0xB9

/-- The ranges of Q and of O: NQ rows of D bf16 and of D f32. -/
def attnRows (s : State) (c : Cmd) (d : Nat) : List (Nat × Nat × Nat) × List (Nat × Nat × Nat) :=
  match attnRec s c with
  | some (nq, qoff, coff, _) => ([(1, qoff, nq * 2 * d)], [(2, coff, nq * 4 * d)])
  | none => ([], [])

/-- D of the entry that an `attn` names (R448). -/
def attnD (s : State) (c : Cmd) : Nat :=
  match rdGlobal s (slotOfTeam s c.tid) (c.arg 0) 64 with
  | .ok b => 32 * (recField b 36 4 / 8 % 8 + 1)
  | _ => 0

/-- The buffer ranges that an unfinished matrix command reads, as (buffer, offset, length). -/
def mxReads (s : State) (c : Cmd) : List (Nat × Nat × Nat) :=
  if isMul c.opc then
    (List.range (mxSteps s c)).flatMap (fun t => (livePos s c t).filterMap (fun q =>
        let r := bRowAt s c t q
        if 0 ≤ r then some (0, r.toNat, c.pair.bRow) else none))
      ++ (scaleOffs s c).map (fun o => (3, o, 1))
      ++ (if c.sparse && c.n.isNone then [(3, c.listOff, 4)] else [])
      ++ (if c.sparse && c.indexed then [(3, c.listOff + 4, 4 * listCount s c)] else [])
      ++ (if c.acc then mulWrites s c else [])
  else if c.opc == 0xB7 then [(2, c.coff, 1156)]
  else if c.opc == 0xBA then [(2, c.rcd, c.arg 1 * (if bitAt c.code 1 then 8 else 4))]
  else if c.opc == 0xB8 then (attnRows s c (attnD s c)).1
  else []

/-- The ranges of C that an unfinished matrix command writes. -/
def mxWrites (s : State) (c : Cmd) : List (Nat × Nat × Nat) :=
  if isMul c.opc then mulWrites s c
  else if c.opc == 0xB2 then [(2, c.rcd, c.arg 0)]
  else if c.opc == 0xB7 then [(2, c.coff + 1280, 128)]
  else if c.opc == 0xB8 then (attnRows s c (attnD s c)).2
  else []

/-- A range of a buffer overlaps one of a list. -/
def overlaps (l : List (Nat × Nat × Nat)) (buf off n : Nat) : Bool :=
  l.any (fun r => r.1 == buf && r.2.1 < off + n && off < r.2.1 + r.2.2)

/-- An unfinished matrix command of a team that no gate holds back (R384, R408). -/
def SentCmd.mxOf (c : SentCmd) (tid : Nat) : Bool :=
  c.cmd.tid == tid && isMatrixCmd c.cmd.opc && c.stage != .held && !(c.stage == .port && c.cmd.gate.isSome)

/-! ### Races (R224, R409) -/

/-- A write of a buffer range by an agent other than the matrix engine spoils the unfinished matrix commands that read it, with all
that they compute, and the results of those that write it (R224, R409). -/
def raceMark (s : State) (tid buf off n : Nat) : State :=
  let reads (c : SentCmd) : Bool := c.mxOf tid && overlaps (mxReads s c.cmd) buf off n
  let writes (c : SentCmd) : Bool := c.mxOf tid && overlaps (mxWrites s c.cmd) buf off n
  if s.cmds.any (fun c => reads c || writes c) then
    { s with cmds := s.cmds.map (fun c => { c with raced := c.raced || reads c, lost := c.lost || writes c }) }
  else s

/-- A read of C words that an unfinished matrix command of the team writes (R224, R409). -/
def racedRead (s : State) (tid buf off n : Nat) : Bool :=
  s.cmds.any (fun c => c.mxOf tid && overlaps (mxWrites s c.cmd) buf off n)

/-- Bytes read at an offset of a buffer; those of C words that an unfinished matrix command writes are free values, from an index
on. -/
def spoilBytes (s : State) (tid b o base : Nat) (d : List Byte) : List Byte :=
  if racedRead s tid b o d.length then
    d.zipIdx.map (fun e => if racedRead s tid b (o + e.2) 1 then (Config.freeValue (base + e.2)).truncate 8 else e.1)
  else d

end Sys2Proof.Machine
end

