-- ==== Sys2Proof/Machine/Ops.lean ====
section
/-! DEFINITION. The shared operations of a split: counters (R236), squashes (R294, R302 to R304), the end of a group
(R138), instruction fetch (R493), taking a trap (R466 to R474) and returning from one (R482), and what surrounds the
own effect of every core instruction: the checks of R51, the waits of R37, R158, R161 and R164, the chunk it belongs
to (R289, R294), and the advance to the next word. -/

namespace Sys2Proof.Machine

open Sys2Proof

/-! ### Conflicts and squashes (R298, R302 to R304) -/

/-- Restore the cells of some lanes from a checkpoint. -/
def restoreLanes (ck cur : Cells 32) (m : Mask) : Cells 32 :=
  (ck.filter (fun e => m.getLsbD (e.1 % 32))).foldl (fun c e => c.set e.1 e.2)
    (cur.filter (fun e => !m.getLsbD (e.1 % 32)))

/-- The lanes of a checkpoint: its active mask and the lanes on its stack. -/
def Ctl.lanes (c : Ctl) : Mask := c.stack.foldl (fun m e => m ||| e.mask) c.mask

/-- The registers that a squash restores (R163, R164, R74). DESIGN CHOICE, log 108: FPMODE, SRSEED and the count are
restored whole, for all the splits of the group. -/
def restoreRegs (c : Chunk) (r : Regs) : Regs :=
  let m := c.ckCtl.lanes
  { r with
    v := restoreLanes c.ckRegs.v r.v m
    s := c.heldS.foldl (fun x n => x.set n (c.ckRegs.s.get n)) r.s
    p := (List.range 16).foldl (fun x n => x.set n ((x.get n &&& ~~~m) ||| (c.ckRegs.p.get n &&& m))) r.p
    al := c.heldAl.foldl (fun x n => x.set n (c.ckRegs.al.get n)) r.al
    map := c.heldAl.foldl (fun x n => (List.range 16).foldl (fun x k =>
      x.set (16 * n + k) (c.ckRegs.map.get (16 * n + k))) x) r.map
    rets := r.rets.filter (fun e => !m.getLsbD e.1) ++ c.ckRegs.rets.filter (fun e => m.getLsbD e.1)
    fpmode := c.ckRegs.fpmode, repro := c.ckRegs.repro, srseed := c.ckRegs.srseed, srcount := c.ckRegs.srcount }

/-- The homes of a list of line keys, for reservations (R304): a home slice of a global line, the buffers of a core,
a die's cluster SRAM unit. -/
def homeOf (core key : Nat) : Nat :=
  if isScratchKey key then 10000 + 4 * core + key / 2 ^ 52 % 4
  else if isClusterKey key then 20000 + core / 48
  else
    let a := key * 64
    if vaSpace a == 0 then 100 * vaOwner a + homeSlice (vaOwner a) (vaOff a) else 30000 + vaSpace a

/-- Squash the chunk of one split (R294): the checkpoint comes back, the chunk's writes, flags, effects, holds and
outstanding writes go, splits it made go (R119). `counted`: R302 counts it; CHUNKSQ leaves out pre-emption (R305). -/
def squashSplit (s : State) (gid id : Nat) (counted preempt : Bool) : State :=
  match s.group? gid with
  | none => s
  | some g =>
    match (g.split? id).bind (fun p => p.chunk.map (fun c => (p, c))) with
    | none => s
    | some (p, c) =>
      let n := if preempt then 0 else if counted then p.squashes + 1 else p.squashes
      let homes := if p.ticket.isSome || (counted && 8 ≤ n) then p.resHomes ++ (c.reads ++ c.writes).map (homeOf g.core)
        else p.resHomes
      let tk := if counted && 8 ≤ n && p.ticket.isNone then some s.ticket else p.ticket
      let nar := (counted && 3 ≤ n) || p.narrow
      let p' := { p.wake s.clock with
                         ctl := c.ckCtl, chunk := none, pend := none, bar := none, squashes := n
                         peerData := [], bad := []
                         narrow := nar, ticket := if preempt then none else tk
                         resHomes := if preempt then [] else homes }
      let s := if tk != p.ticket then { s with ticket := s.ticket + 1 } else s
      let s := s.modGroup gid (fun g =>
        { g with regs := restoreRegs c g.regs
                 chunksq := if preempt then g.chunksq else g.chunksq + 1
                 ll := g.ll.filter (fun l => !(l.sp == id && l.cid == c.cid))
                 splits := (g.splits.filter (fun q => q.born != some id)).map (fun q => if q.id == id then p' else q) })
      let s := { s with parked := dropParked (fun w => w == (gid, id)) s.parked
                        serving := s.serving.filter (fun e => e.who != (gid, id))
                        peerReqs := dropReqs (fun q => (q.gid, q.sp) == (gid, id)) s.peerReqs }
      let s := if preempt then s else (s.countEv g.core g.tid 0x03 1).countDie (State.dieOf g.core) 0x03 1
      if nar && !p.narrow then s.countEv g.core g.tid 0x05 1 else s

/-- The chunk of a split executes again for a reason that R302 does not count: its count, its ticket and its reservations
stay. -/
def redoChunk (s : State) (gid id : Nat) : State :=
  match (s.group? gid).bind (fun g => g.split? id) with
  | none => s
  | some p => (squashSplit s gid id false true).modSplitOf gid id (fun q =>
      { q with squashes := p.squashes, ticket := p.ticket, resHomes := p.resHomes })

/-- Two key lists whose signatures intersect (R297, R298). -/
def intersects (a b : List Nat) : Bool := sigOf a &&& sigOf b != 0

/-- Is a split's chunk among those that a write of these keys is compared with (R298)? -/
def compared (s : State) (keys : List Nat) (tid cid : Nat) (g : Group) : Bool :=
  keys.any isGlobalKey || (keys.any isScratchKey && g.tid == tid) || (keys.any isClusterKey && (s.teamOf g).cid == cid)

/-- The splits whose chunks a write of `keys` squashes; a reserved chunk is squashed only by an older ticket (R304). -/
def victims (s : State) (keys : List Nat) (tid cid : Nat) (me : Nat × Nat) (ticket : Option Nat) :
    List (Nat × Nat × List Nat × Bool) :=
  if keys.isEmpty then [] else
  s.groups.flatMap (fun g =>
    if compared s keys tid cid g then
      g.splits.filterMap (fun p => match p.chunk with
        | some c =>
          if (g.gid, p.id) != me && intersects keys (c.reads ++ c.writes)
              && (match p.ticket, ticket with
                  | none, _ => true
                  | some b, some a => a < b
                  | some _, none => false)
          then some (g.gid, p.id, c.keys, p.ticket.isNone) else none
        | none => none)
    else [])

/-- Squash what a committed write of these lines conflicts with (R298, R301, R306). The squash of a reserved chunk by
an older one is not counted (R304). `own`: every line key of the committing chunk (R523). -/
def conflict (s : State) (keys : List Nat) (tid cid : Nat) (me : Nat × Nat) (ticket : Option Nat) (own : List Nat := keys) : State :=
  (victims s keys tid cid me ticket).foldl (fun s v =>
    let s := squashSplit s v.1 v.2.1 v.2.2.2 false
    if (v.2.2.1.take 32).any (fun k => own.contains k) then s
    else match s.group? v.1 with
      | some g => s.countEv g.core g.tid 0x04 1
      | none => s) s

/-- R304.2: a reserved chunk keeps a writer of these lines waiting: the writer goes through one of its homes, its
signature intersects the reserved chunk's, and it holds no older ticket. -/
def reservedBlocks (s : State) (keys : List Nat) (core : Nat) (me : Nat × Nat) (ticket : Option Nat) : Bool :=
  s.groups.any (fun g => g.splits.any (fun p =>
    match p.ticket, p.chunk with
    | some b, some c =>
      (g.gid, p.id) != me && (match ticket with | some a => b < a | none => true)
        && intersects keys (c.reads ++ c.writes)
        && keys.any (fun k => (p.resHomes ++ (c.reads ++ c.writes).map (homeOf g.core)).contains (homeOf core k))
    | _, _ => false))

/-! ### Keys (R300) -/

/-- The dies of a footprint in increasing order: the requester's, and those of the homes of the written global lines. -/
def footprint (die : Nat) (keys : List Nat) : List Nat :=
  (List.range 5).filter (fun d => d == die || keys.any (fun k => isGlobalKey k && homeDie (64 * k) == d))

/-- A chunk of several dies that has reported a round in phase one, and that nothing keeps from phase two, is to be granted
before every greater key (R300, R301). -/
def phaseBlocks (s : State) (k : Nat × Nat × Nat) : Bool :=
  s.groups.any (fun g => !g.saved && g.splits.any (fun p =>
    match p.chunk with
    | some c =>
      (match c.phase with
        | some r =>
          let d := (footprint (State.dieOf g.core) c.writes).headD 4
          (r < k.1 || (r == k.1 && d < k.2.1)) && !s.parked.any (fun q => q.who == (g.gid, p.id))
            && !reservedBlocks s c.writes g.core (g.gid, p.id) p.ticket
        | none => false)
    | none => false))

/-- The key that a footprint takes in the open round. None where it is not greater than the last one granted, or where a
chunk in phase two is to come first: the chunk then waits, and its round is a later one. -/
def keyIn (s : State) (r : Nat) (dies : List Nat) : Option (Nat × Nat × Nat) :=
  let d := dies.headD 4
  let k := s.lastKey
  let key := (r, d, s.seqs.getD d 0)
  if (k.1 < r || (k.1 == r && k.2.1 ≤ d)) && !phaseBlocks s key then some key else none

/-- Take a key. -/
def takeKey (s : State) (k : Nat × Nat × Nat) : State :=
  { s with lastKey := k, seqs := if k.1 == s.round then s.seqs.set k.2.1 (k.2.2 + 1) else s.seqs }

/-- An engine of a die takes the key of a chunk that writes these lines, where one is free. -/
def engineKey (s : State) (die : Nat) (keys : List Nat) : State :=
  match keyIn s s.round (footprint die keys) with
  | some k => takeKey s k
  | none => s

/-- An engine of a die may be granted a chunk that writes these lines: no reserved chunk holds their homes (R304), and a key
is free (R306). -/
def engineMay (s : State) (die core : Nat) (keys : List Nat) : Bool :=
  !reservedBlocks s keys core (0, 0) none && (keyIn s s.round (footprint die keys)).isSome

/-! ### Counters (R235, R236) -/

/-- A core number that no core has: what a saved group, team or bin stands on. -/
def noCore : Nat := 255

/-- A held command that its gate has not let go. -/
def SentCmd.waits (c : SentCmd) (tid : Nat) : Bool := c.cmd.tid == tid && c.stage == .held && !c.credited

/-- A held command takes 1 from its gate's credit, where it is at least 1 (R384). -/
def takeCredit (tid : Nat) (s : State) (c : SentCmd) : State :=
  match s.team? tid, c.cmd.gate with
  | some t, some g =>
    if c.waits tid && t.gates.get g != 0 then
      { s.modTeam tid (fun t => { t with gates := t.gates.set g (t.gates.get g - 1) }) with
        cmds := s.cmds.map (fun x => if x.cmd.kid == c.cmd.kid then { x with credited := true } else x) }
    else s
  | _, _ => s

/-- A team's held commands take what credit there is, the oldest of each gate first. -/
def takeCredits (s : State) (tid : Nat) : State := (s.cmds.filter (fun c => c.waits tid)).foldl (takeCredit tid) s

/-- A pulse of a source for a team (R384). -/
def pulse (s : State) (core tid src : Nat) : State :=
  let row := (s.coreAt core).route.getD src 0
  takeCredits (s.modTeam tid (fun t => { t with gates := (List.range 16).foldl (fun (c : Cells 8) g =>
    if row.getLsbD g && c.get g != 255 then c.set g (c.get g + 1) else c) t.gates })) tid

/-- The lines of a counter word. -/
def ctrKeys (off : Nat) : List Nat := linesOf (localLoc 3 off) 4

/-- A counter word of a team may be updated: the team is on a core, and its engine chunk may be granted. -/
def counterMay (s : State) (tid off : Nat) : Bool :=
  match s.team? tid with
  | some t => t.core != noCore && engineMay s (State.dieOf t.core) t.core (ctrKeys off)
  | none => true

/-- Add n finished commands to a counter: the code first, if ERR is 0; COUNT modulo 2^24; the full/empty bit stays. The
update is an engine chunk of its own (R306), and the sources pulse with it (R383). DESIGN CHOICE, log 109: the counter of a
team whose allotment has been released is not updated. -/
def counterAdd (s : State) (d : CtrDue) : State :=
  match s.team? d.tid with
  | none => s
  | some t =>
    let w := ofBytes (Cells.read t.g.bytes d.off 4)
    let e := if w / 2 ^ 24 == 0 then d.err else w / 2 ^ 24
    let w' := e * 2 ^ 24 + (w + d.n) % 2 ^ 24
    let s := raceMark (engineKey s (State.dieOf t.core) (ctrKeys d.off)) d.tid 3 d.off 4
    let s := s.modTeam d.tid (fun t => { t with g := t.g.putRaw d.off (leBytes 4 w') })
    let s := conflict s (ctrKeys d.off) d.tid 0 (0, 0) none
    d.pulses.foldl (fun s k => pulse s t.core d.tid k) s

/-- An update of a counter: at once where it may take effect and no earlier one of the word waits, or else in its turn. -/
def counterPost (s : State) (d : CtrDue) : State :=
  if counterMay s d.tid d.off && !s.due.any (fun e => e.tid == d.tid && e.off == d.off) then counterAdd s d
  else { s with due := s.due ++ [d] }

/-- The updates that wait are tried again, in their order. -/
def drainDue (s : State) : State :=
  if s.due.isEmpty then s else s.due.foldl counterPost { s with due := [] }

/-! ### The end of a group (R138, R473) -/

/-- A group takes part in the open instances of a barrier (R121). -/
def Group.takesPart (g : Group) (scope id : Nat) : Bool := !g.exempt.contains (scope, id)

/-- The groups under a barrier: of one group, a team, a cluster or a grid. -/
def barGroups (s : State) (scope obj : Nat) : List Group :=
  s.groups.filter (fun g => match scope with
    | 0 => g.gid == obj
    | 1 => g.tid == obj
    | 2 => (s.teamOf g).cid == obj
    | _ => (s.clusterOf g).grid == obj)

/-- An open instance of a team or cluster barrier whose participants have all ended is over (R121): the groups that it left out
take part in the next one. -/
def overBars (s : State) : State :=
  let live (g : Group) (e : Nat × Nat) : Bool :=
    (barGroups s e.1 (if e.1 == 1 then g.tid else (s.teamOf g).cid)).any (fun x => x.takesPart e.1 e.2)
  if s.groups.all (fun g => g.exempt.isEmpty) then s
  else { s with groups := s.groups.map (fun g => { g with exempt := g.exempt.filter (live g) }) }

/-- Remove a group: its blocks and slot are free, its spawn counters are credited, its requests go; it counts as arrived at the
barriers of its team and cluster. -/
def endGroup (s : State) (gid : Nat) : State :=
  match s.group? gid with
  | none => s
  | some g =>
    let s := { s with
      groups := s.groups.filter (fun x => x.gid != gid)
      blockQ := s.blockQ.filter (fun r => r.gid != gid)
      parked := dropParked (fun w => w.1 == gid) s.parked
      serving := s.serving.filter (fun e => e.who.1 != gid)
      peerReqs := dropReqs (fun q => q.gid == gid) s.peerReqs
      teams := s.teams.map (fun t => if t.tid == g.tid then
        { t with ended := t.ended ++ [(g.index, g.credits.length)], feq := t.feq.filter (fun q => q.gid != gid) } else t) }
    g.laneCtr.foldl (fun s e => counterPost s ⟨g.tid, e.2, 0, 1, []⟩) (overBars s)

/-- Drop a split; its group ends with its last split (R116). -/
def dropSplit (s : State) (gid id : Nat) : State :=
  let s := s.modGroup gid (fun g => { g with splits := g.splits.filter (fun p => p.id != id) })
  match s.group? gid with
  | some g => if g.splits.isEmpty then endGroup s gid else s
  | none => s

/-! ### Instruction fetch (R493, R264) -/

inductive Fetched where
  | word (w : Nat)
  | viol
  | miss (host : Bool) (owner block kind : Nat)
  deriving DecidableEq, Repr

/-- The key of a fetched word in a core's fetch buffer. -/
def ibufKey (slot n addr : Nat) : Nat := (slot * 16 + n) * 2 ^ 64 + addr

/-- The values that a core may still fetch at a physical place: those that have been rewritten since its last `ifence`, by whatever
address. -/
def oldWords (s : State) (core key n : Nat) : List Nat :=
  (s.oldCode.filter (fun e => e.key == key / 8 * 8 && (s.coreAt core).fenceAt ≤ e.seq)).map (fun e =>
    ofBytes ((e.bytes.drop (key % 8)).take n))

/-- Fetch n bytes of instruction memory. Of a word that has been rewritten since the core's last `ifence`, or that it holds
since then, the core fetches the new value or an old one (R493). Of a peer's word the value held, or that of its line in the
peer line cache, may be old too: a free value says whether the line is asked for again. -/
def fetchAt (s : State) (g : Group) (addr n : Nat) : Fetched × State :=
  let slot := (s.gridOf g).slot
  let key := ibufKey slot n addr
  let held := (s.coreAt g.core).ibuf.find? (fun e => e.1 == key)
  let keep (s : State) (w : Nat) : State :=
    let k := s.coreAt g.core
    s.setCore g.core { k with ibuf := k.ibuf.filter (fun e => e.1 != key) ++ [(key, BitVec.ofNat 64 w)] }
  let pick (s : State) (w : Nat) (old : List Nat) : Fetched × State :=
    let olds := ((match held with | some e => [e.2.toNat] | none => []) ++ old).filter (fun v => v != w)
    if olds.isEmpty then (.word w, if held.isSome then s else keep s w)
    else
      let d := s.draw
      let v := (w :: olds).getD (d.1.toNat % (olds.length + 1)) w
      (.word v, keep d.2 v)
  match access s slot .fetch addr with
  | .hit host owner inPage l =>
    match pageRead s host owner l inPage n with
    | some b =>
      let w := ofBytes b
      let s := install s slot host owner (l.base + inPage) l
      let at_ := if host then 2 ^ 62 + (l.frame + inPage) else phys owner (l.frame + inPage)
      pick s w (oldWords s g.core at_ n)
    | none => (.viol, s)
  | .miss host owner page kind =>
    match held with
    | some e => (.word e.2.toNat, s)
    | none => (.miss host owner page kind, s)
  | .peer _ =>
    let ln := lineAddr addr + 2 ^ 64
    let of (l : List Byte) : Nat := ofBytes ((l.drop (addr % 64)).take n)
    let ask : Fetched := .miss false 0 (lineAddr addr) 5
    if s.sp.bad.contains ln then (.viol, s)
    else match s.sp.peerData.find? (fun l => l.1 == ln) with
    | some l => pick s (of l.2) []
    | none =>
      match held, cachedLine s ln with
      | none, none => (ask, s)
      | some e, _ => let d := s.draw; if d.1.getLsbD 0 then (ask, d.2) else (.word e.2.toNat, d.2)
      | none, some l => let d := s.draw; if d.1.getLsbD 0 then (ask, d.2) else (.word (of l), keep d.2 (of l))
  | _ => (match held with | some e => .word e.2.toNat | none => .viol, s)

/-- The lines of peers that have been fetched as instructions go. -/
def dropFetched (s : State) : State := { s with peerLines := s.peerLines.filter (fun l => l.1 < 2 ^ 64) }

/-- An `ifence` on a core (R325, R493). -/
def coreIfence (s : State) (core : Nat) : State :=
  dropFetched (s.setCore core { s.coreAt core with ibuf := [], fenceAt := s.oldSeq })

/-- A clause header word (R21). -/
def isHeader (w : Nat) : Bool := w / 2 ^ 56 == 0xC5
/-- A legal clause header (R22, R26). -/
def headerOk (w : Nat) : Bool := isHeader w && w / 2 ^ 52 % 16 ≤ 3 && !bitAt w 47 && w % 2 ^ 38 == 0
def hdrClass (w : Word) : Nat := w.toNat / 2 ^ 52 % 16
def hdrLen (w : Word) : Nat := w.toNat / 2 ^ 48 % 16 + 1

/-- A portable word 0 meets R495, as far as it shows alone: with X = 1, under an extension word of some m (R468). -/
def portableEntryOk (w : Nat) : Bool :=
  w == 1 || [0, 4 * 3, 2 ^ 13].any (fun m => (portableWord w (0xE1 * 2 ^ 24 + m)).isSome)

/-! ### Traps (R466 to R474) -/

/-- Drop the current split's chunk if it has executed no word. -/
def dropEmptyChunk (s : State) : State :=
  s.modSp (fun p => match p.chunk with
    | some c => if c.words == 0 then { p with chunk := none } else p
    | none => p)

/-- Close the current split's chunk; it commits before the split goes on. A boundary of any cause but narrow mode's
own ends narrow mode (R303). -/
def closeChunk (s : State) (narrowCause : Bool) : State :=
  s.modSp (fun p => { p with chunk := p.chunk.map (fun c => { c with closed := true })
                             narrow := p.narrow && narrowCause })

/-- Nothing of the prefix is outstanding: its chunk has committed, its loads have returned and, in relaxed mode, its
stores are performed (R468). -/
def prefixDone (s : State) (g : Group) (p : Split) : Bool :=
  p.chunk.isNone && p.pst.isEmpty && !g.ll.any (fun l => l.sp == p.id && l.load != 0) && s.groups.any (fun x => x.gid == g.gid)

/-- The fault log record of R474. -/
def faultRecord (s : State) (g : Group) (p : Split) (t : PendTrap) (reason : Nat) : List Byte :=
  let gr := s.gridOf g
  leBytes 8 t.pc.toNat ++ leBytes 8 t.info.toNat ++ leBytes 4 t.mask.toNat ++ leBytes 1 t.cause ++ leBytes 1 reason
    ++ leBytes 1 g.core ++ leBytes 1 (g.index + 32 * p.id) ++ leBytes 4 gr.serial ++ leBytes 2 gr.kit ++ leBytes 2 0

/-- The stores that the splits of a group have issued and not performed, by themselves. -/
def looseOf (s : State) (g : Group) : List Loose :=
  g.splits.flatMap (fun p => p.pst.map (fun op => (⟨g.gid, p.id, g.tid, (s.clusterOf g).cid, (s.gridOf g).slot, g.core, op⟩ : Loose)))

/-- R473: an undeliverable trap ends the group; the other splits' chunks are squashed and not counted, the stores that they
have issued are still performed, and the grid's completion carries 0x43. -/
def undeliverable (s : State) (g : Group) (p : Split) (t : PendTrap) (reason : Nat) : State :=
  let gr := s.gridOf g
  let rec_ := faultRecord s g p t reason
  let s := g.splits.foldl (fun s q => if q.id == p.id then s else squashSplit s g.gid q.id false true) s
  let s := endGroup { s with loose := s.loose ++ looseOf s g } g.gid
  let s := s.modGrid gr.grid (fun x => if x.status == 0 then { x with status := 0x43 } else x)
  s.ringAdd (0x1000 + 256 * gr.slot + 0x58) 2 rec_

/-- The register writes of an instruction in the current split, with the scalars it writes held with its chunk
(R164): the checkpoint keeps the value before the chunk's first write of each. -/
def holdScalars (s : State) (ns : List Nat) : State :=
  let r := s.regs
  s.modChunk (fun c =>
    ns.foldl (fun c n => if n == 0 || c.heldS.contains n then c
      else { c with heldS := c.heldS ++ [n], ckRegs := { c.ckRegs with s := c.ckRegs.s.set n (r.s.get n) } }) c)

/-- Hold alphabet registers with the chunk (R164, R328). -/
def holdAl (s : State) (ns : List Nat) : State :=
  let r := s.regs
  s.modChunk (fun c =>
    ns.foldl (fun c n => if c.heldAl.contains n then c
      else { c with heldAl := c.heldAl ++ [n]
                    ckRegs := { c.ckRegs with
                      al := c.ckRegs.al.set n (r.al.get n)
                      map := (List.range 16).foldl (fun x k => x.set (16 * n + k) (r.map.get (16 * n + k)))
                        c.ckRegs.map } }) c)

/-- Raise flags of FPFLAGS: pending with the chunk in chunked mode, and after a held write of the register (R191);
at once otherwise. -/
def raiseFlags (s : State) (f : Flags7) : State :=
  if s.sp.chunk.isSome then
    s.modChunk (fun c =>
      if c.held.any (fun h => h.reg == 0x011) then
        { c with held := c.held.map (fun h => if h.reg == 0x011 then { h with later := h.later ||| f.setWidth 64 } else h) }
      else { c with flags := c.flags ||| f })
  else s.modG (fun g => { g with fpflags := g.fpflags ||| f.setWidth 64 })

/-- All the flags of an instruction. -/
def Wr.flags (w : Wr) : Flags7 := w.fl.foldl (fun a e => a ||| e.2) 0

/-- Apply an instruction's register writes and flags. -/
def applyWr (s : State) (w : Wr) : State :=
  let s := holdScalars s (w.s.map (fun e => e.1))
  let s := s.modRegs (fun r => r.apply w)
  if w.flags == 0 then s else raiseFlags s w.flags

/-- R468: deliver the pending trap of the current split, once its prefix is done: a completing instruction's results
are written and its flags go to FPFLAGS directly; then the trap registers are written and the handler starts, or the
trap is undeliverable. A handler whose word misses translation is waited for. -/
def deliverTrap (s : State) : State :=
  let g := s.g
  let p := s.sp
  match p.pend with
  | none => s
  | some t =>
    if !prefixDone s g p then s
    else
      let written (s : State) : State := if t.done then applyWr s t.wr else s
      let inTrap := p.ctl.trapCause.getLsbD 63
      if inTrap || p.ctl.trapVec == 0 then
        undeliverable (written s) g p t (if inTrap then 1 else 0)
      else
        let vec := p.ctl.trapVec.toNat
        let aligned := if p.ctl.portable then vec % 4 == 0 else vec % 8 == 0
        match if aligned then fetchAt s g vec (if p.ctl.portable then 4 else 8) else (.viol, s) with
        | (.miss host owner page kind, s) =>
          (park s s.cur (s.gridOf g).slot g.core none .fetch host owner page kind).modSp (fun p => { p with wait := some .parked })
        | (.viol, s) => undeliverable (written s) g p t 2
        | (.word w, s) =>
          if !(if p.ctl.portable then portableEntryOk w else headerOk w) then undeliverable (written s) g p t 2
          else
            let c := p.ctl
            let res : Resume := ⟨c.hdrAddr, c.hdr, c.skipLeft, c.skipMask, c.stack, c.mask, t.last⟩
            let cause : Nat := 2 ^ 63 + (if t.pair then 2 ^ 9 else 0) + (if t.done then 2 ^ 8 else 0) + t.cause
            (written s).modSp (fun p =>
              { p with pend := none, wait := none, stamp := s.clock, since := s.clock
                       ctl := { p.ctl with
                         resume := some res, trapPc := t.pc, trapInfo := t.info
                         trapMask := t.mask.setWidth 64, trapCause := BitVec.ofNat 64 cause
                         stack := [], skipLeft := 0, skipMask := 0, pc := p.ctl.trapVec, atHdr := true } })

/-- The word is its clause's last (R20). -/
def lastWord (p : Split) : Bool :=
  p.ctl.portable || p.ctl.atHdr || p.ctl.pc.toNat + p.irLen == p.ctl.hdrAddr.toNat + 8 * (hdrLen p.ctl.hdr + 1)

/-- A trap met at the current word (R466): the chunk is cut before it, and the trap is delivered as soon as the
prefix is done. `last`: the word is its clause's last (R482). -/
def raiseTrapAt (s : State) (cause : Nat) (mask : Mask) (pc info : Word) (pair done : Bool) (wr : Wr) (last : Bool) : State :=
  let s := closeChunk (dropEmptyChunk s) false
  let t : PendTrap := ⟨cause, mask, pc, info, pair, done, last, wr⟩
  let s := s.modSp (fun p => { p with pend := some t, wait := some .trap, peerData := [], bad := [] })
  deliverTrap s

/-- A trap of the instruction at the current word. -/
def raiseTrap (s : State) (cause : Nat) (mask : Mask) (done : Bool) (wr : Wr) : State :=
  let p := s.sp
  raiseTrapAt s cause mask p.ctl.pc p.irInfo (p.irLen == (if p.ctl.portable then 8 else 16)) done wr (lastWord p)

/-! ### The frame of every core instruction -/

/-- What an instruction's own effect answers. `done`: it has acted, and the split goes on at the next word; `jump`: it
has set the control state itself, and its clause ends; `trap`: it meets a condition of its entry, with no effect; `complete`: it writes its
results and traps (R467); `part`: it has acted in some lanes and traps without completing (R338); `wait`: it holds at its word; `cut`: the chunk ends before it (R289). -/
inductive Act where
  | done (s : State)
  | jump (s : State)
  | trap (cause : Nat) (mask : Mask)
  | complete (cause : Nat) (mask : Mask) (wr : Wr) (s : State)
  | part (cause : Nat) (mask : Mask) (s : State)
  | wait (w : Wait) (s : State)
  | cut
  | fault (f : Fault)
  deriving Repr

/-- What the checks before an instruction answer. -/
inductive Gate where
  | go (s : State)
  | stop (s : State)
  | trap (cause : Nat)
  deriving Repr

/-- The split waits. -/
def stopFor (s : State) (w : Wait) : Gate := .stop (s.modSp (fun p => { p with wait := some w }))

/-- The system registers whose write waits for the earlier chunk (R147). -/
def sysAfterCommit (n : Nat) : Bool := n == 0x1A || (0x40 ≤ n && n ≤ 0x50) || n == 0x60

/-- R126: the word needs a mode that the grid does not have. -/
def privBad (i : Instr) (gr : Grid) : Bool :=
  match i with
  | .barw _ => !gr.service
  | .sysrd w => w.imm == 0x060 && !gr.test
  | .syswr w => (w.imm == 0x060 && !gr.test) || (w.imm == 0x01A && !gr.service)
  | _ => false

/-- The chunk ends before the word, and the word acts between chunks (R289, R290). -/
def boundaryBefore (i : Instr) : Bool :=
  match i with
  | .trap _ | .brk _ => true
  | .syswr w => sysAfterCommit w.imm.toNat
  | _ => isBetween (opcodeOf i)

/-- The chunk ends after the word (R289). -/
def closesChunk (o : Nat) : Bool :=
  (7 ≤ o && o ≤ 0x0C) || o == 0x11 || isCommand o

/-- In relaxed mode the word waits until the split's earlier stores are performed (R310, R122, R291, R324). -/
def drainsStores (i : Instr) (rev0 : Bool) : Bool :=
  match i with
  | .chunk w => w.m == 1
  | .fence w => w.m.toNat % 4 != 1
  | .syswr w => sysAfterCommit w.imm.toNat
  | .stg w => w.sub.toNat % 4 == 2 || rev0
  | .ldg _ | .ldgc _ | .stgs _ | .red _ | .sld _ | .sst _ => rev0
  | .stse _ | .feset _ | .atoms _ | .atomc _ | .atomg _ | .casg _ | .krepl _ => true
  | _ => (7 ≤ opcodeOf i && opcodeOf i ≤ 0x0C) || isCommand (opcodeOf i)

/-- A buffered store is to a global address. -/
def StoreOp.isGlobal : StoreOp → Bool
  | .bytes l _ | .kit l _ | .red l _ _ _ _ => (localBase l).isNone

/-- The current grid's object is of revision 0. -/
def State.rev0 (s : State) : Bool := (s.gridOf s.g).bound.any (fun b => b.hdr.rev == 0)

/-- In relaxed mode the word waits for earlier stores of its split: all of them, or, in code of revision 0, whose global
accesses are acquires too, those to global addresses before any later access of memory (R310). -/
def storesFirst (i : Instr) (rev0 : Bool) (p : Split) : Bool :=
  let reads : Bool := match i with | .kvmap _ | .waitc _ => true | _ => isMemOp (opcodeOf i)
  (drainsStores i rev0 && !p.pst.isEmpty) || (rev0 && reads && p.pst.any StoreOp.isGlobal)

/-- With no lane executing, `chunk` and `fence` have their boundaries alone (R33, R322, R323). -/
def idle (i : Instr) (s : State) : Bool := match i with | .chunk _ | .fence _ => s.exec i == 0 | _ => false

/-- The core has a signature pair for a new chunk of the current split (R295): the group's own, or one of 64 spares. -/
def pairFree (s : State) : Bool :=
  let g := s.g
  let spares (x : Group) : Nat := (x.splits.filter (fun p => p.chunk.any (fun c => c.spare))).length
  !g.splits.any (fun p => p.chunk.isSome) ||
    (s.groups.filter (fun x => x.core == g.core)).foldl (fun n x => n + spares x) 0 < 64

/-- Begin a chunk (R294). -/
def openChunk (s : State) : State :=
  let g := s.g
  let c : Chunk := { cid := g.nextCid, ckRegs := g.regs, ckCtl := s.ctl, spare := g.splits.any (fun p => p.chunk.isSome) }
  (s.modG (fun g => { g with nextCid := g.nextCid + 1 })).modSp (fun p => { p with chunk := some c })

/-- A 64-bit alphabet in a register (R326). -/
def alWide (r : Regs) (n : Nat) : Bool := (r.alget n).toNat / 2 ^ 40 % 4 == 3
/-- The pair of registers of a 64-bit word; an odd register names no pair, and the entry traps ALPH (R330, R335). -/
def dblReg (wide : Bool) (l : List Reg) : List Reg :=
  if wide then l.flatMap (fun r => match r with
    | .v n => if n % 2 == 0 then [.v n, .v (n + 1)] else [.v n]
    | .s n => [.s n]) else l

/-- The registers that an instruction names: the word operands of the alphabet instructions are pairs under a 64-bit
alphabet (R330). -/
def usesIn (i : Instr) (r : Regs) : Uses :=
  let u := (uses i).getD {}
  match i with
  | .sunpk w | .schk w | .scnt w => { u with fe0 := dblReg (alWide r (w.m.toNat % 16)) u.fe0 }
  | .spack w =>
    let wd := alWide r (w.m.toNat % 16)
    { u with fe0 := dblReg (wd && !w.m.getLsbD 5) u.fe0, dst := dblReg wd u.dst }
  | .sdot w => { u with fe0 := dblReg (alWide r (w.m.toNat % 16)) u.fe0, fe1 := dblReg (alWide r (w.m.toNat / 16)) u.fe1 }
  | .scvt w => { u with fe0 := dblReg (alWide r (w.m.toNat % 16)) u.fe0, dst := dblReg (alWide r (w.m.toNat / 16)) u.dst }
  | .smadd w =>
    let wd := alWide r (w.m.toNat % 16)
    { u with fe0 := dblReg wd u.fe0, fe1 := dblReg wd u.fe1, fe2 := dblReg wd u.fe2, dst := dblReg wd u.dst }
  | _ => u

/-- The scalars that an instruction names, but for s0. -/
def scalarsIn (u : Uses) : List Nat :=
  u.regs.filterMap (fun r => match r with | .s n => if n == 0 then none else some n | .v _ => none)

/-- The split's chunk has issued its last instruction. -/
def Split.chunkClosed (p : Split) : Bool := match p.chunk with | some c => c.closed | none => false

/-- The checks and waits before an instruction's own effect, in the order of R51 with the waits of R37, R158, R161
and R164 after them. `go` gives the state in which its chunk is open. -/
def gate (i : Instr) (s : State) : Gate :=
  let g := s.g
  let p := s.sp
  if p.pend.isSome then stopFor s .trap
  else if !p.plan.isEmpty || p.feDone != 0 then .go s
  else if p.born.isSome then stopFor s .born
  else if p.bar.isSome then stopFor s .barrier
  else if p.chunkClosed then stopFor s .commit
  else if s.parked.any (fun q => q.who == s.cur) then stopFor s .parked
  else if !legal i then .trap 0x01
  else if !classOk (hdrClass p.ctl.hdr) (opcodeOf i) (lastWord p) then .trap 0x11
  else if privBad i (s.gridOf g) then .trap 0x0F
  else
    let u := usesIn i g.regs
    let fe := (guardOf i).fe
    if u.regs.any (fun r => !s.hasReg g r) then .trap 0x10
    else if (fe.getLsbD 0 && u.fe0.any g.emptyReg) || (fe.getLsbD 1 && u.fe1.any g.emptyReg)
        || (fe.getLsbD 2 && u.fe2.any g.emptyReg) then .trap 0x06
    else if u.regs.any (fun r => s.postedReg g r) then stopFor s .blocks
    else if u.srcs.any g.emptyReg then stopFor s .empty
    else if u.dst.any g.emptyReg then stopFor s .dest
    else if s.chunkedMode && s.heldByOther (scalarsIn u) (u.alR ++ u.alW) then
      match p.chunk with
      | some c =>
        if c.words != 0 && !(c.heldS.isEmpty && c.heldAl.isEmpty) then stopFor (closeChunk s false) .commit
        else stopFor s .held
      | none => stopFor s .held
    else if !s.chunkedMode then
      if storesFirst i ((s.gridOf g).bound.any (fun b => b.hdr.rev == 0)) p && !idle i s then stopFor s .stores
      else .go s
    else if boundaryBefore i then
      match p.chunk with
      | some c => if c.words == 0 then .go (dropEmptyChunk s) else stopFor (closeChunk s false) .commit
      | none => .go s
    else
      match p.chunk with
      | some _ => .go s
      | none => if pairFree s then .go (openChunk s) else stopFor s .pair

/-! ### Addresses of format M (R41) -/

/-- The signed off9 (R41). -/
def off9 (w : MWord) : Int := w.off.toInt

/-- The lanes in which a format-M word acts: once where every register is scalar (R36). -/
def memLanes (s : State) (i : Instr) (w : MWord) : List Nat :=
  let m := s.exec i
  if isS w.d && isS w.a && isS w.b then (if m == 0 then [] else [lowest m]) else lanesOf m

/-- A scratchpad or cluster address: vector base and index are zero-extended (R227). -/
def eaLocal (s : State) (w : MWord) (lane : Nat) : Nat :=
  wrap 64 ((s.regs.src w.a 1 lane : Int) + s.regs.src w.b 1 lane + off9 w * szB w.size)

/-- The offsets and the buffer that the lanes of a scratchpad instruction access (R240 to R251). -/
def padAccess (i : Instr) (s : State) : Option (Nat × Nat × List Nat) :=
  let each (w : MWord) : Option (Nat × Nat × List Nat) := some (w.sub.toNat % 4, szB w.size, (memLanes s i w).map (eaLocal s w))
  let block (w : MWord) : Option (Nat × Nat × List Nat) :=
    some (w.sub.toNat % 4, szB w.size, (lanesOf (s.exec i)).map (fun (l : Nat) =>
      wrap 64 (((s.regs.sget (rnum w.a)).toNat : Int) + off9 w * szB w.size + (l : Int) * szB w.size)))
  match i with
  | .lds w | .sts w | .ldsf w | .stse w | .ldsp w => each w
  | .atoms w => some (3, szB w.size, (memLanes s i w).map (fun l =>
      if w.sub.toNat == 9 then wrap 64 ((s.regs.src w.a 1 l : Int) + off9 w * szB w.size) else eaLocal s w l))
  | .ldsx w | .stsx w => block w
  | _ => none

/-- The bank cycles that an instruction takes beyond its first (R225): the most distinct words that fall into one of the banks
of its buffer (R221), less 1. -/
def bankWaits (i : Instr) (s : State) : Nat :=
  match padAccess i s with
  | some (b, n, as) =>
    let banks := [256, 128, 256, 64].getD b 64
    let ws := (as.flatMap (fun a => wordsOf a n)).eraseDups
    ws.foldl (fun m w => max m (ws.countP (fun x => x % banks == w % banks))) 0 - 1
  | none => 0

/-- A word has issued in this cycle: its core, its pipe and its group (R110). -/
def State.noteIssue (s : State) (e : Nat × Nat × Nat) : State := { s with issued := s.issued ++ [e] }

/-- After an instruction's own effect: the word counts in its chunk, the skip state advances (R46), the clause may
end (R20, R29), the chunk ends where R289 says, and its pipe has taken a word in this cycle (R110). `u` is the state before
the effect; `jumped`: the effect has set the control state, and the clause has ended. DEDUCED, log 121: narrow mode ends the
chunk after a memory instruction in every program, whatever R364 and R366 say of theirs. -/
def finish (i : Instr) (jumped : Bool) (u : State) (s : State) : State :=
  let o := opcodeOf i
  let p := s.sp
  let ended := jumped || lastWord p
  let g := u.g
  let hdr := u.ctl.hdr
  let s := ((s.countEv g.core g.tid 0x01 1).countEv g.core g.tid 0x06 (bankWaits i u)).noteIssue (g.core, pipeOf i, g.gid)
  s.modSp (fun p =>
    let c := p.ctl
    let tm := ended && hdr.getLsbD 38
    let k := p.irLen / 8
    let c := if jumped then c
      else { c with pc := c.pc + BitVec.ofNat 64 p.irLen, atHdr := ended
                    skipLeft := if o == 0x02 then c.skipLeft else if ended then 0 else c.skipLeft - k }
    let words := match p.chunk with | some x => x.words + 1 | none => 0
    let other := tm || closesChunk o || words == 4096 || (match p.chunk with | some x => x.closed | none => false)
    let nar := p.narrow && isMemOp o && p.chunk.isSome
    { p with ctl := c
             chunk := p.chunk.map (fun x => { x with words := words, closed := other || nar })
             narrow := p.narrow && !other && !boundaryBefore i
             stamp := if p.wait.isSome && p.wait != some .ready then s.clock else p.stamp
             since := s.clock, wait := none, promoted := false })

/-- Every core instruction: the checks, its own effect, and what follows from it. -/
def core (i : Instr) (body : State → Act) (s : State) : Host.Outcome State Fault Refusal :=
  if s.hasCur then
    match gate i s with
    | .stop s => .next s
    | .trap c => .next (raiseTrap s c s.ctl.mask false {})
    | .go s1 =>
      match body s1 with
      | .done s2 => .next (finish i false s1 s2)
      | .jump s2 => .next (finish i true s1 s2)
      | .trap c m => .next (raiseTrap s1 c m false {})
      | .complete c m wr s2 => .next (raiseTrap s2 c m true wr)
      | .part c m s2 => .next (raiseTrap s2 c m false {})
      | .wait w s2 => .next (dropEmptyChunk (s2.modSp (fun p => { p with wait := some w })))
      | .cut => .next ((closeChunk s1 false).modSp (fun p => { p with wait := some .commit }))
      | .fault f => .fault f
  else .fault .noSplit

/-- An event of the machine, which changes nothing where its condition does not hold (log 5). -/
def event (ok : Bool) (act : State → State) (s : State) : Host.Outcome State Fault Refusal :=
  .next (if ok then act s else s)

end Sys2Proof.Machine
end

