-- ==== Sys2Proof/Machine/Grid.lean ====
section
/-! DEFINITION. Kernel table entries and code object headers (R487 to R490), the needs of a grid (R103), launch records
and their refusals (R142, R143, R514 to R517), and the report of a grid's end. -/

namespace Sys2Proof.Machine

open Sys2Proof

/-! ### Kernel table (R489, R490) -/

/-- A kernel table entry. `rsv`: a reserved bit is 1. -/
structure KitEntry where
  desc : Nat
  code : Nat
  native : Nat
  spmap : Nat
  version : Nat
  valid : Bool
  portable : Bool
  rev : Nat
  rsv : Bool
  deriving DecidableEq, Repr

def kitEntry (b : List Byte) : KitEntry :=
  let fl := recField b 36 1
  ⟨recField b 0 8, recField b 8 8, recField b 16 8, recField b 24 8, recField b 32 4, bitAt fl 0, bitAt fl 1,
    fl / 4 % 4, fl / 16 != 0 || recField b 37 27 != 0⟩

/-- A code object header with whether its fields lie in their ranges (R487). -/
def codeHdr (b : List Byte) : CodeHdr × Bool :=
  let sh := recField b 7 1
  let h : CodeHdr :=
    { rev := recField b 4 1, form := recField b 5 1, team := recField b 6 1, cx := sh % 8, cy := sh / 16 % 8
      vregs := recField b 8 2, sregs := recField b 10 2
      bufs := [recField b 12 2, recField b 14 2, recField b 16 2, recField b 18 2]
      trans := recField b 20 8, transLen := recField b 28 4 }
  (h, h.rev ≤ 2 && h.form ≤ 1 && 1 ≤ h.team && h.team ≤ 32 && sh / 8 % 2 == 0 && sh / 128 == 0 && 1 ≤ h.cx && h.cx ≤ 6
    && 1 ≤ h.cy && h.cy ≤ 6 && h.cx * h.cy ≤ 12 && 1 ≤ h.vregs && h.vregs ≤ 64 && 1 ≤ h.sregs && h.sregs ≤ 512
    && recField b 32 32 == 0)

/-- The malformations of an entry that its own bytes show (R490). -/
def KitEntry.selfBad (e : KitEntry) : Bool :=
  !e.valid || e.desc == 0 || e.code == 0 || e.desc % 64 != 0 || e.rev == 3 || e.rsv
    || (!e.portable && (e.native != 0 || e.spmap != 0))

/-- What a kernel table entry's check answers. -/
inductive Kit where
  | ok (e : KitEntry) (h : CodeHdr)
  | malformed
  | miss (host : Bool) (owner page kind : Nat)
  deriving DecidableEq, Repr

/-- The check of an image with the header that its DESC names (R490). -/
def kitCheck (s : State) (slot : Nat) (b : List Byte) : Kit :=
  let e := kitEntry b
  if e.selfBad then .malformed
  else
    match rdGlobal s slot e.desc 64 with
    | .bad => .malformed
    | .miss h o p k => .miss h o p k
    | .ok hb =>
      let h := codeHdr hb
      if !h.2 || h.1.form != (if e.portable then 1 else 0) || h.1.rev != e.rev then .malformed else .ok e h.1

/-- The start of a context's kernel table. DESIGN CHOICE, log 44: bits 11:0 of KITBASE, which R506 has 0, are left out. -/
def kitBase (s : State) (slot : Nat) : Nat := s.ctx slot 0x30 / 4096 * 4096

/-- The address of a kernel table entry. -/
def kitAddr (s : State) (slot idx : Nat) : Nat := kitBase s slot + 64 * (idx % 4096)

/-- The pieces of a context's kernel table by page: the index of the first entry, their number, and what an access to it finds. -/
def kitPieces (s : State) (slot : Nat) : List (Nat × Nat × Xl) :=
  let base := kitBase s slot
  (List.range 5).filterMap (fun j =>
    let a := if j == 0 then base else base / 65536 * 65536 + 65536 * j
    let last := min (base + 4096 * 64) (base / 65536 * 65536 + 65536 * (j + 1))
    if a < last then some ((a - base) / 64, (last - a) / 64, access s slot .read a) else none)

/-- An entry of a context's kernel table cannot be read yet: its page is copy-only, or a line of another package is still to be
asked for. A page that is not mapped holds no entry. -/
def kitUnread (s : State) (slot : Nat) : Option MissAt :=
  (kitPieces s slot).findSome? (fun p => match p.2.2 with
    | .miss h o b k => if k == 1 then some ⟨h, o, b, k⟩ else none
    | .peer _ => (List.range p.2.1).findSome? (fun k => match rdPeer s slot (kitAddr s slot (p.1 + k)) 64 with
      | .miss h o b k => some ⟨h, o, b, k⟩
      | _ => none)
    | _ => none)

/-- The check of a context's kernel table entry. -/
def kitAt (s : State) (slot idx : Nat) : Kit :=
  match rdGlobal s slot (kitAddr s slot idx) 64 with
  | .bad => .malformed
  | .miss h o p k => .miss h o p k
  | .ok b => kitCheck s slot b

/-! ### The mode of a context (R308, R309) -/

/-- An entry of a kernel table loads an object of revision 2: it is valid and names a header that declares it. A header whose
page is missing counts with the revision that the entry gives. -/
def entryRev2 (s : State) (slot : Nat) (e : KitEntry) : Bool :=
  match rdGlobal s slot e.desc 64 with
  | .ok b => let h := codeHdr b; h.2 && h.1.rev == 2
  | .miss _ _ _ _ => e.rev == 2
  | .bad => false

/-- A valid entry of the context's kernel table loads an object of revision 2, those of `skip` left out. -/
def kitHasRev2 (s : State) (slot : Nat) (skip : List Nat) : Bool :=
  (List.range 4096).any (fun k => !skip.contains k && (match rdGlobal s slot (wrap 64 ((kitAddr s slot k + 36 : Nat) : Int)) 1 with
    | .ok f => bitAt (ofBytes f) 0 && (match rdGlobal s slot (kitAddr s slot k) 64 with
      | .ok b => entryRev2 s slot (kitEntry b)
      | _ => false)
    | _ => false))

/-- A grid of the context is bound to an object of revision 2. -/
def boundRev2 (s : State) (slot : Nat) : Bool :=
  s.grids.any (fun g => g.slot == slot && (match g.bound with | some b => b.hdr.rev == 2 | none => false))

/-- The mode that the context's loaded objects call for. -/
def wantChunked (s : State) (slot : Nat) : Bool := boundRev2 s slot || kitHasRev2 s slot []

/-- What keeps the mode that a context's loaded objects call for from being known: an entry that cannot be read yet, while no
other calls for chunked mode. -/
def modeUnread (s : State) (slot? : Option Nat) : Option (Nat × MissAt) := slot?.bind (fun c =>
  (kitUnread s c).bind (fun m => if wantChunked s c then none else some (c, m)))

/-- The mode that they would call for with an entry swapped, beside the swaps of one chunk before it (R499). -/
def wantWith (s : State) (slot idx : Nat) (rev2 : Bool) (before : List (Nat × Bool)) : Bool :=
  rev2 || boundRev2 s slot || before.any (fun e => e.1 != idx && e.2) || kitHasRev2 s slot (idx :: before.map (fun e => e.1))

/-- A context has no resident group and no queued grid (R309). -/
def drained (s : State) (slot : Nat) : Bool := !s.grids.any (fun g => g.slot == slot)

/-- New launches of a context are held: it is to change its mode, and has not drained. -/
def modeHolds (s : State) (slot? : Option Nat) : Bool :=
  match slot? with
  | some c => !drained s c && s.chunkedSlots.contains c != wantChunked s c
  | none => false

/-- The mode of a context that has drained becomes the one its loaded objects call for (R309). -/
def setMode (s : State) (slot : Nat) : State :=
  if !drained s slot then s
  else
    let want := wantChunked s slot
    if s.chunkedSlots.contains slot == want then s
    else { s with chunkedSlots := if want then slot :: s.chunkedSlots else s.chunkedSlots.filter (fun c => c != slot) }

/-! ### Needs and ends of grids -/

/-- Base register blocks of one group (R152). -/
def CodeHdr.vBlocks (h : CodeHdr) : Nat := (h.vregs + 7) / 8
def CodeHdr.sBlocks (h : CodeHdr) : Nat := (h.sregs + 63) / 64
/-- The sizes of W, A, C and G in KiB (R221). -/
def bufKib : List Nat := [1536, 1024, 512, 1024]
/-- R103: the needs exceed an idle core, rectangle or die pool. -/
def CodeHdr.tooBig (h : CodeHdr) (slices : Nat) : Bool :=
  256 < h.team * h.vBlocks || 256 < h.team * h.sBlocks || (h.bufs.zip bufKib).any (fun e => e.2 < e.1) || 256 < slices

/-! ### Ends of grids (R143, R517) -/

/-- A 16-byte completion entry (R517). -/
def complEntry (serial asid kit status : Nat) : List Byte :=
  leBytes 4 serial ++ leBytes 2 asid ++ leBytes 2 kit ++ leBytes 1 status ++ leBytes 7 0

/-- Report a grid's end or refusal to its launcher: an entry of the function's completion ring, or the counter of
`launch`. -/
def reportGrid (s : State) (src : Source) (serial asid kit status : Nat) : State :=
  match src with
  | .host fn => s.ringAdd (0x100 + 32 * fn) 0 (complEntry serial asid kit status)
  | .device tid ctr => match ctr with | some off => counterPost s ⟨tid, off, status, 1, []⟩ | none => s

/-- What a change of USERS adds. -/
def usersWord (up : Bool) : List Byte := leBytes 4 (if up then 1 else 2 ^ 32 - 1)

/-- Change USERS of a code object header, as the Headland keeps it (R487, R491); none where its page is missing, where a reserved
chunk holds its line (R304), or where no batch can be sent (R318). The header in a peer's memory changes there. -/
def tryUsers (s : State) (slot desc : Nat) (up : Bool) : Option State :=
  match access s slot .own desc with
  | .hit h o inPage l =>
    let n := ofBytes ((pageRead s h o l inPage 4).getD []) + ofBytes (usersWord up)
    let keys := linesOf (normal s desc) 4
    if reservedBlocks s keys 191 (0, 0) none then none
    else some (conflict (pageWrite (touch s slot .own desc) h o l inPage (leBytes 4 n)) keys 0 0 (0, 0) none)
  | .peer _ =>
    if batchRoom s then
      some (sendBatch s (s.asid slot) [{ addr := desc, data := usersWord up, red := some (1, none) }] (linesOf desc 4) none)
    else none
  | .miss _ _ _ _ => none
  | _ => some s

/-- The change waits where it cannot be made yet; a missing page is logged. The dispatcher has no engine number (R262): SOURCE is a free value. -/
def addUsers (s : State) (slot desc : Nat) (up : Bool) : State :=
  match tryUsers s slot desc up with
  | some t => t
  | none => match access s slot .own desc with
    | .miss h o p k =>
      let d := s.draw
      park { d.2 with usersDue := s.usersDue ++ [(slot, desc, up)] } noWho slot (freeSource d.1) none .own h o p k
    | _ => { s with usersDue := s.usersDue ++ [(slot, desc, up)] }

/-- The changes that wait are tried again. -/
def drainUsers (s : State) : State :=
  s.usersDue.foldl (fun s e => match tryUsers s e.1 e.2.1 e.2.2 with
    | some t => t
    | none => { s with usersDue := s.usersDue ++ [e] }) { s with usersDue := [] }

/-- The 4,096 places of the dispatcher (R98): grids with clusters to place, and completion entries beyond the 64 that
wait on the I/O die (R517). -/
def queueUsed (s : State) : Nat :=
  (s.grids.filter (fun g => g.next < g.gx * g.gy * g.gz)).length + s.heldGrids.length
    + (List.range 8).foldl (fun n f =>
        n + ((s.ringWait.filter (fun w => w.ring == 0x100 + 32 * f)).length - 64)) 0

/-- It is the effect of `launch`. -/
def Effect.isLaunch : Effect → Bool
  | .launch _ _ _ => true
  | _ => false

/-- The entries that `launch` instructions have reserved and not used (R142). -/
def launchReserved (s : State) : Nat :=
  s.groups.foldl (fun n g => g.splits.foldl (fun n p => match p.chunk with
    | some c => n + (c.effs.filter Effect.isLaunch).length
    | none => n) n) 0

/-! ### Launch records (R515, R516) -/

/-- What reading a launch record answers. -/
inductive Launch where
  | refuse (code serial asid kit : Nat)
  | queue (g : Grid)
  | miss (host : Bool) (owner page kind : Nat)
  deriving DecidableEq, Repr

/-- The context slot of a record: named by its ASID for the host, the launching grid's for `launch`. -/
def recSlot (s : State) (b : List Byte) : Option Grid → Option Nat
  | some g => some g.slot
  | none => s.slotOf (recField b 6 2)

/-- A launch record's checks in the order of R516, and the grid that it queues. `by_`: the launching grid of `launch`
with the arguments of its crd and its group's
REPRO.ON (R86). -/
def readRecord (s : State) (b : List Byte) (src : Source) (by_ : Option (Grid × List Word × Bool)) : Launch :=
  let kit := recField b 0 2
  let slot? := recSlot s b (by_.map (fun e => e.1))
  let serial := match slot? with | some c => (s.serials.get c).toNat | none => 0
  let asid := recField b 6 2
  let fl := recField b 3 1
  let rsv := 4096 ≤ kit || recField b 2 1 / 8 != 0 || fl / 8 != 0 || recField b 20 4 != 0
  match slot? with
  | none => .refuse 0x40 serial asid (kit % 4096)
  | some slot =>
    let no (c : Nat) : Launch := .refuse c serial (s.asid slot) (kit % 4096)
    if rsv then no 0x40
    else
      match kitAt s slot kit with
      | .malformed => no 0x40
      | .miss h o p k => .miss h o p k
      | .ok _ h =>
        let gx := recField b 8 4
        let gy := recField b 12 4
        let gz := recField b 16 4
        let slices := recField b 4 2
        let svc := bitAt fl 1 && (match by_ with | some e => e.1.service | none => true)
        let tst := bitAt fl 2 && (match by_ with | some e => e.1.test | none => true)
        if gx == 0 || gy == 0 || gz == 0 || 2 ^ 32 < gx * gy * gz || 256 < slices then no 0x41
        else if h.tooBig slices then no 0x42
        else if by_.isNone && ((svc && !bitAt (s.ctx slot 0) 17) || (tst && !bitAt (s.ctx slot 0) 18)) then no 0x45
        else .queue
          { grid := s.nextId, slot := slot, serial := serial, kit := kit, prio := recField b 2 1
            repro := match by_ with | some e => e.2.2 | none => bitAt fl 0
            service := svc, test := tst, gx := gx, gy := gy, gz := gz, slices := slices
            argBlock := BitVec.ofNat 64 (recField b 24 8)
            args := match by_ with
              | some e => e.2.1
              | none => (List.range 4).map (fun k => BitVec.ofNat 64 (recField b (32 + 8 * k) 8))
            src := src }

/-- The leaves of a kernel table entry and of the header that it names are installed, as the dispatcher reads them (R259). -/
def touchKit (s : State) (slot idx : Nat) : State :=
  let s := touch s slot .read (kitAddr s slot idx)
  match rdGlobal s slot (kitAddr s slot idx) 64 with
  | .ok b => touch s slot .read (kitEntry b).desc
  | _ => s

/-- Every record that the dispatcher reads takes its context's next serial (R128). -/
def takeSerial (s : State) (slot? : Option Nat) : State :=
  match slot? with
  | some c => { s with serials := s.serials.set c (s.serials.get c + 1) }
  | none => s

/-- Read a launch record: queue its grid, or report its refusal. None where a page that it needs is missing. The grid of a `launch`
is held while its context drains to change its mode (R309). -/
def takeRecord (s : State) (b : List Byte) (src : Source) (by_ : Option (Grid × List Word × Bool)) : Option State :=
  let slot? := recSlot s b (by_.map (fun e => e.1))
  let s := match slot? with | some c => touchKit s c (recField b 0 2 % 4096) | none => s
  match readRecord s b src by_ with
  | .miss _ _ _ _ => none
  | .refuse c serial asid kit => some (reportGrid (takeSerial s slot?) src serial asid kit c)
  | .queue g =>
    let s := { takeSerial s slot? with nextId := s.nextId + 1 }
    some (if by_.isSome && modeHolds s slot? then { s with heldGrids := s.heldGrids ++ [g] } else { s with grids := s.grids ++ [g] })

end Sys2Proof.Machine
end

