-- ==== Sys2Proof/Machine/Effects.lean ====
section
/-! DEFINITION. What a chunk does outside its split when it commits (R122, R291): pulses and gates (R383, R384), the
finish of a command (R236, R380), cancelling (R401), bins (R105, R106), barrier arrivals (R121, R125), exits (R138),
launches (R142) and the effects of oprdy and mrel (R430, R433). -/

namespace Sys2Proof.Machine

open Sys2Proof

/-! ### Pulses and commands -/

/-- The event source that a finishing command pulses (R367, R383). -/
def sourceOf (c : SentCmd) : Nat :=
  let o := c.cmd.opc
  if isMatrixCmd o then 0 else if o == 0xA2 || o == 0xA3 then 4 else if isAsyncCmd o then 1 + c.unit
  else if o == 0x69 then 3 else if o == 0xAA then 5 else 6

/-- Add flags to a held write of a register. -/
def HeldFlags.raise (reg : Nat) (f : Word) (h : HeldFlags) : HeldFlags :=
  if h.reg == reg then { h with later := h.later ||| f } else h
def Split.raiseHeld (reg : Nat) (f : Word) (p : Split) : Split :=
  { p with chunk := p.chunk.map (fun c => { c with held := c.held.map (HeldFlags.raise reg f) }) }

/-- OR flags into a group's MXFLAGS or XFLAGS, and into a held write of it (R191); discarded if the group has ended
(R372, R410). -/
def orFlags (s : State) (gid : Nat) (matrix : Bool) (f : BitVec 8) : State :=
  if f == 0 then s
  else
    let w : Word := f.setWidth 64
    s.modGroup gid (fun g =>
      let sp := g.splits.map (Split.raiseHeld (if matrix then 0x018 else 0x019) w)
      if matrix then { g with splits := sp, mxflags := g.mxflags ||| w }
      else { g with splits := sp, xflags := g.xflags ||| w })

/-- A command finishes with an error code, 0 for none (R236, R380, R383): its counter is updated, its sources pulse,
and it leaves, but for a graph node, which GRAPH_NODE_FINISH takes up. -/
def finishCmd (s : State) (c : SentCmd) (err : Nat) : State :=
  let k := c.cmd
  let s := orFlags s k.gid (isMatrixCmd k.opc) (if isMatrixCmd k.opc then c.flags else 0)
  let s := match k.ctr with
    | some off => counterPost s ⟨k.tid, off, err, 1, [7, sourceOf c]⟩
    | none => pulse s k.core k.tid (sourceOf c)
  let s := { s with parked := dropParked (fun w => w == (0, k.kid)) s.parked }
  match k.node with
  | some _ => { s with cmds := s.cmds.map (fun x => if x.cmd.kid == k.kid then { x with stage := .done, err := err } else x) }
  | none => { s with cmds := s.cmds.filter (fun x => x.cmd.kid != k.kid) }

/-- A node's command has finished, and its successors are taken up (R386). -/
def SentCmd.finished (c : SentCmd) : Bool :=
  match c.stage with
  | .done => true
  | .releasing _ => c.cmd.node.isSome
  | _ => false

/-- R401: cancel the team's unfinished commands and walks that name a counter. -/
def cancelCmds (s : State) (tid off : Nat) : State :=
  let s := (s.cmds.filter (fun c => c.cmd.tid == tid && c.cmd.ctr == some off && !c.finished)).foldl
    (fun s c => finishCmd s c 0x2A) s
  (s.walks.filter (fun w => w.tid == tid && w.ctr == some off && !w.cancelled)).foldl (fun s w =>
    let s := counterPost s ⟨tid, off, 0x2A, 1, [7, 6]⟩
    let ws := s.walks.map (fun x => if x.wid == w.wid then { x with cancelled := true } else x)
    { s with walks := ws.filter (fun x => !(x.cancelled && x.nodes.isEmpty)) }) s

/-! ### Bins (R105 to R107) -/

/-- The threads that chunks in progress have reserved for a bin of a core, by team and entry (R140). -/
def binReserved (s : State) (core bin : Nat) : List (Nat × Word) :=
  s.groups.flatMap (fun g => if g.core != core then [] else g.splits.flatMap (fun p => match p.chunk with
    | some c => c.effs.filterMap (fun e => match e with
        | .spawn b entry _ _ _ => if b == bin then some (g.tid, entry) else none
        | _ => none)
    | none => []))

/-- The pair to which a bin is keyed, and its threads with those reserved; none for a free bin. -/
def binState (s : State) (core bin : Nat) : Option (Nat × Word × Nat) :=
  let r := binReserved s core bin
  match s.bins.find? (fun b => b.core == core && b.bin == bin) with
  | some b => some (b.tid, b.entry, b.threads.length + r.length)
  | none => match r with
    | (t, e) :: _ => some (t, e, r.length)
    | [] => none

/-- The bin that a spawned thread enters (R105); none where it waits (R107). -/
def binFor (s : State) (core tid : Nat) (entry : Word) : Option Nat :=
  match (List.range 16).find? (fun b => match binState s core b with
      | some (t, e, n) => t == tid && e == entry && n < 32
      | none => false) with
  | some b => some b
  | none => (List.range 16).find? (fun b => (binState s core b).isNone)

/-- A thread enters its bin (R105, R106). -/
def enterBin (s : State) (core bin tid : Nat) (entry : Word) (args : List Word) (ctr : Option Nat) (flush portable : Bool) : State :=
  if s.bins.any (fun b => b.core == core && b.bin == bin) then
    { s with bins := s.bins.map (fun b => if b.core == core && b.bin == bin then
        { b with threads := b.threads ++ [(args, ctr)], flush := b.flush || flush } else b) }
  else
    { s with bins := s.bins ++ [({ core := core, bin := bin, tid := tid, entry := entry, threads := [(args, ctr)]
                                   since := s.clock, flush := flush, portable := portable } : Bin)] }

/-! ### Wire tree arrivals (R125) -/

/-- Some participant of a tag has a nonzero count in force. -/
def wireAny (s : State) (tag : Nat) : Bool := (List.range 193).any (fun p => s.wireForce.get (256 * tag + p) != 0)

/-- Count an arrival of a participant in the open instance, if it is one that counts; `true` where it is held for the
next instance. -/
def wireCountOne (s : State) (tag p : Nat) : State × Bool × Bool :=
  let k := 256 * tag + p
  let want := s.wireForce.get k
  let got := s.wireGot.get k
  let now (s : State) : State := { s with wireLast := s.wireLast.set tag (BitVec.ofNat 64 s.clock) }
  if !wireAny s tag then (s, true, false)
  else if want == 0 then (s, false, false)
  else if got.toNat < want.toNat then (now { s with wireGot := s.wireGot.set k (got + 1) }, true, false)
  else (s, false, true)

/-! ### Reconvergence (R114, R116) -/

/-- Continue at a stack entry; under a portable or header address a header is fetched there. -/
def Ctl.goEntry (c : Ctl) (e : StackEntry) (rest : List StackEntry) : Ctl :=
  { c with pc := e.addr, hdrAddr := e.hdrAddr, hdr := e.hdr, mask := e.mask, stack := rest, skipLeft := 0, skipMask := 0
           atHdr := e.addr == e.hdrAddr }

/-- Push an entry in address order; lanes of an equal address join (R114, R115). -/
def pushEntry (e : StackEntry) : List StackEntry → List StackEntry
  | [] => [e]
  | x :: r =>
    if x.addr == e.addr then { x with mask := x.mask ||| e.mask } :: r
    else if e.addr.toNat < x.addr.toNat then e :: x :: r
    else x :: pushEntry e r

/-- Lanes leave a split for good (R138): a split with no lane left takes its top entry, or ends. -/
def exitLanes (s : State) (gid id : Nat) (lanes : Mask) : State :=
  let s := s.modSplitOf gid id (fun p => { p with ctl := { p.ctl with mask := p.ctl.mask &&& ~~~lanes } })
  match (s.group? gid).bind (fun g => g.split? id) with
  | none => s
  | some p =>
    if p.ctl.mask != 0 then s
    else match p.ctl.stack with
      | [] => dropSplit s gid id
      | e :: r => s.modSplitOf gid id (fun p => { p with ctl := p.ctl.goEntry e r })

/-! ### Applying an effect -/

/-- The record of a `launch` effect is read and its grid queued (R142). None where a page is missing. -/
def applyLaunch (s : State) (g : Group) (rcd : Nat) (args : List Word) (ctr : Option Nat) : Option State :=
  match rdGlobal s (s.gridOf g).slot rcd 64 with
  | .ok b => takeRecord (touch s (s.gridOf g).slot .read rcd) b (.device g.tid ctr) (some (s.gridOf g, args, g.regs.repro.getLsbD 0))
  | _ => none

/-- One closing effect of a split's chunk (R291). -/
def applyEffect (s : State) (gid id : Nat) (e : Effect) : State :=
  match s.group? gid with
  | none => s
  | some g =>
    match e with
    | .arrive scope b =>
      s.modSplitOf gid id (fun p => { p with bar := some { scope := scope, id := b, arrivedAt := s.clock }, wait := some .barrier })
    | .arriveWire tag =>
      let r := wireCountOne s tag g.core
      r.1.modSplitOf gid id (fun p =>
        { p with bar := some { scope := 4, id := tag, arrivedAt := s.clock, counted := r.2.1, next := r.2.2 }
                 wait := some .barrier })
    | .spawn bin entry args ctr flush =>
      let portable := match g.split? id with | some p => p.ctl.portable | none => false
      enterBin s g.core bin g.tid entry args ctr flush portable
    | .launch rcd args ctr => (applyLaunch s g rcd args ctr).getD s
    | .exit lanes => exitLanes s gid id lanes
    | .yield => s.modSplitOf gid id (fun p => { p with stamp := s.clock })
    | .command c =>
      { s with cmds := s.cmds ++ [({ cmd := { c with kid := s.nextId } } : SentCmd)], nextId := s.nextId + 1 }
    | .evmap op src v =>
      match op with
      | 0 =>
        let k := s.coreAt g.core
        s.setCore g.core { k with route := putAt 16 0 k.route src (v &&& 0xFFFF) }
      | 1 => pulse s g.core g.tid src
      | _ => s.modTeam g.tid (fun t =>
        { t with gates := (List.range 16).foldl (fun (c : Cells 8) k => if v.getLsbD k then c.set k 0 else c) t.gates })
    | .cancel off => cancelCmds s g.tid off
    | .credit nv => s.modGroup gid (fun g => if g.credits.length < 255 then { g with credits := g.credits ++ [nv] } else g)
    | .mrel => s.modGroup gid (fun g => { g with mrel := g.mrel ++ [s.nextId] })

/-- The current split's instruction has an effect outside it: at its chunk's commit, or at once in relaxed mode. -/
def effect (s : State) (e : Effect) : State :=
  if s.sp.chunk.isSome then s.modChunk (fun c => { c with effs := c.effs ++ [e] })
  else applyEffect s s.cur.1 s.cur.2 e

end Sys2Proof.Machine
end

