-- ==== Sys2Proof/Machine/Operands.lean ====
section
/-! DEFINITION. The operand forms: the lanes in which an instruction acts, the typed values of its sources (R36, R186),
and the addresses of the format-M words (R41, R227, 08_device_memory.md). -/

namespace Sys2Proof.Machine

open Sys2Proof

/-- The lanes in which an arithmetic instruction acts: once for a scalar destination, in the lowest executing lane;
otherwise in each executing lane (R36). -/
def actLanes (s : State) (i : Instr) (d : BitVec 10) : List Nat :=
  let m := s.exec i
  if isS d then (if m == 0 then [] else [lowest m]) else lanesOf m

/-- The value of a source of a type code in a lane: its low W bits (R186). -/
def srcT (s : State) (f : BitVec 10) (tc lane : Nat) : Nat :=
  s.regs.src f (tyN tc) lane % 2 ^ (Ty.ofCode tc).width

/-- The low 32 bits of a source that is one register wide, or the low word of a pair. -/
def src32 (s : State) (f : BitVec 10) (lane : Nat) : Nat := s.regs.src f 1 lane % 2 ^ 32

/-- A predicate operand in a lane. -/
def srcP (s : State) (f : BitVec 10) (lane : Nat) : Bool := (s.regs.pget (f.toNat % 16)).getLsbD lane

/-- The scalar that a field names. -/
def srcS (s : State) (f : BitVec 10) : Nat := (s.regs.sget (rnum f)).toNat

/-- The scalar n registers after a field's (R42). -/
def srcSn (s : State) (f : BitVec 10) (n : Nat) : Nat := (s.regs.sget (rnum f + n)).toNat

/-- What a source lane supplies (R167): a lane that another split's chunk in progress has had since its checkpoint supplies the
value of that checkpoint; every other lane its register's value. -/
def laneReg (s : State) (n lane : Nat) : Lane :=
  let g := s.g
  let other := g.splits.find? (fun p => p.id != s.cur.2 && p.chunk.any (fun c => c.ckCtl.lanes.getLsbD lane))
  match if g.chunked then other.bind (fun p => p.chunk) else none with
  | some c => c.ckRegs.vget n lane
  | none => g.regs.vget n lane

/-- `n` registers of a vector field in a lane, as R167 supplies them. -/
def laneVal (s : State) (f : BitVec 10) (n lane : Nat) : Nat :=
  (laneReg s (rnum f) lane).toNat + (if n = 2 then (laneReg s (rnum f + 1) lane).toNat * 2 ^ 32 else 0)

/-- A long-latency write issued by the current split (R160, R162): its cells and scalars are written later, and its
destination registers are empty until then. In chunked mode its scalar is held (R164). -/
def longWrite (s : State) (wr : Wr) (dst : List Reg) (load : Nat) : State :=
  let s := holdScalars s (wr.s.map (fun e => e.1))
  let cid := match s.sp.chunk with | some c => c.cid | none => 0
  let vr := dst.filterMap (fun r => match r with | .v n => some n | .s _ => none)
  let sr := dst.filterMap (fun r => match r with | .s n => if n == 0 then none else some n | .v _ => none)
  let l : LongWrite := ⟨s.cur.2, cid, wr.v, wr.s, vr, sr, load⟩
  s.modG (fun g => { g with ll := g.ll ++ [l] })

/-- The act of an instruction that writes registers. -/
def wrote (s : State) (w : Wr) : Act := .done (applyWr s w)

/-! ### Global addresses -/

/-- The index of a global word: a vector lane is sign-extended (08_device_memory.md, Reference entries). DESIGN CHOICE, log 120: a
scalar, which gives all 64 bits, is unsigned. -/
def idxGlobal (s : State) (f : BitVec 10) (lane : Nat) : Int :=
  if isS f then (s.regs.src f 1 lane : Int) else toSigned 32 (s.regs.src f 1 lane)

/-- A global address: a vector base is an even pair (08_device_memory.md, Reference entries). -/
def eaGlobal (s : State) (w : MWord) (lane : Nat) : Nat :=
  wrap 64 ((s.regs.src w.a 2 lane : Int) + idxGlobal s w.b lane + off9 w * szB w.size)

end Sys2Proof.Machine
end

