-- ==== Sys2Proof/Machine/Flags.lean ====
section
/-! DEFINITION. Rounding environments (R53, R70, R78, R79) and flags with their traps (R71 to R73, R190). -/

namespace Sys2Proof.Machine

open Sys2Proof

/-- The mode that a rounding code resolves to: dyn takes FPMODE.RM (R53, R70). -/
def roundMode (s : State) (rc : Nat) : Nat := if rc == 6 then s.regs.fpmode.toNat % 8 else rc
/-- REPRO.ON (R86). -/
def reproOn (s : State) : Bool := s.regs.repro.getLsbD 0

/-- t of R78 for a lane; with REPRO.ON = 0 it is a free value. -/
def srOf (s : State) (lane : Nat) : Nat :=
  if reproOn s then srT s.regs.srseed.toNat lane s.regs.srcount.toNat
  else (Config.freeValue (s.free + lane)).toNat % 65536

/-- The environment of an instruction with a rounding code, in a lane (R79). -/
def fpEnv (s : State) (rc lane : Nat) : FpEnv :=
  let m := s.regs.fpmode
  { mode := roundMode s rc, t := if roundMode s rc == 5 then srOf s lane else 0
    ftzi := m.getLsbD 3, ftzo := m.getLsbD 4, ftzn := m.getLsbD 5 }

/-- The free values that an instruction with sr draws, one a lane or node (R78, R81). -/
def drawSr (s : State) (rc : Nat) : State :=
  if roundMode s rc == 5 && !reproOn s then { s with free := s.free + 32 } else s
/-- The count that an instruction with sr takes, whatever its guard (R78). -/
def srCount (s : State) (rc : Nat) : Nat := if roundMode s rc == 5 then 1 else 0

/-- The flags whose traps are enabled (R70, R73). -/
def trapFlags (s : State) : Flags :=
  let m := s.regs.fpmode
  flagIf (m.getLsbD 6) fNV ||| flagIf (m.getLsbD 7) fDZ ||| flagIf (m.getLsbD 8) fOF

/-- The end of an instruction that raises flags (R73, R190): a trap that completes it where a lane raises a flag whose
trap is enabled. `once`: the mask is every executing lane (a scalar-pipe instruction). -/
def finishFlags (s : State) (w : Wr) (once : Bool) (m : Mask) : Act :=
  let en := trapFlags s
  let trapping := w.fl.filter (fun e => e.2 &&& en != 0)
  if trapping.isEmpty then .done (applyWr s w)
  else
    let all := trapping.foldl (fun a e => a ||| (e.2 &&& en)) (0 : Flags)
    let cause := if all &&& fNV != 0 then 0x07 else if all &&& fDZ != 0 then 0x08 else 0x09
    .complete cause (if once then m else maskOf (trapping.map (fun e => e.1))) w s

/-- A per-lane operation with flags: `f` gives each lane's result code and flags. DESIGN CHOICE, log 111: on the scalar pipe
the lane i of R78 is the lowest executing lane. -/
def fpLanes (i : Instr) (s : State) (d : BitVec 10) (nd rc : Nat) (f : FpEnv → Nat → FRes) : Act :=
  let rs := (actLanes s i d).map (fun l => (l, f (fpEnv s rc l) l))
  let w := wrDst d nd (rs.map (fun e => (e.1, e.2.code)))
  finishFlags (drawSr s rc) { w with fl := rs.map (fun e => (e.1, e.2.fl)), cnt := srCount s rc } (isS d) (s.exec i)

/-- A per-lane operation without flags. -/
def intLanes (i : Instr) (s : State) (d : BitVec 10) (nd : Nat) (f : Nat → Nat) : Act :=
  wrote s (wrDst d nd ((actLanes s i d).map (fun l => (l, f l))))

/-- A comparison of each executing lane into a predicate, with flags. -/
def cmpLanes (i : Instr) (s : State) (d : BitVec 10) (f : Nat → Bool × Flags) : Act :=
  let m := s.exec i
  let rs := (lanesOf m).map (fun l => (l, f l))
  let w := wrPred d m (maskOf ((rs.filter (fun e => e.2.1)).map (fun e => e.1)))
  finishFlags s { w with fl := rs.map (fun e => (e.1, e.2.2)) } false m

end Sys2Proof.Machine
end

