-- ==== Sys2Proof/Machine/Access.lean ====
section
/-! DEFINITION. The accesses of a split: its own buffered stores (R293, R310), the lines it reads, the scratchpad buffers
and cluster SRAM with their full/empty bits and waiting requests (R227 to R232), the atomic operations (R247), and the
checks and reads of global addresses (08_device_memory.md, Reference entries), with peer reads (R319). -/

namespace Sys2Proof.Machine

open Sys2Proof

/-! ### Buffered stores (R293, R310) -/

/-- The stores of the current split that have not taken effect, oldest first. -/
def ownOps (s : State) : List StoreOp :=
  match s.sp.chunk with
  | some c => c.ops
  | none => s.sp.pst

/-- The location and length that a buffered store covers. -/
def StoreOp.range : StoreOp → Nat × Nat
  | .bytes l d | .kit l d => (l, d.length)
  | .red l _ size _ _ => (l, size)

def StoreOp.hits (op : StoreOp) (loc n : Nat) : Bool := op.range.1 < loc + n && loc < op.range.1 + op.range.2
def StoreOp.isRed : StoreOp → Bool
  | .red _ _ _ _ _ => true
  | _ => false

/-- Bytes from a location with a buffered store laid over them. -/
def StoreOp.over (loc : Nat) (b : List Byte) : StoreOp → List Byte
  | .bytes l d | .kit l d => (List.range b.length).map (fun i =>
      if l ≤ loc + i && loc + i < l + d.length then d.getD (loc + i - l) 0 else b.getD i 0)
  | .red _ _ _ _ _ => b

/-- What the split reads: its own buffered bytes before memory (R232, R270). -/
def overlay (s : State) (loc : Nat) (b : List Byte) : List Byte := (ownOps s).foldl (fun b op => op.over loc b) b

/-- The split's own `red` targets some of these bytes (R289). -/
def redHits (s : State) (loc n : Nat) : Bool := (ownOps s).any (fun op => op.isRed && op.hits loc n)

/-- The lines that the chunks of a group hold in its store buffer. -/
def groupLines (g : Group) : Nat :=
  g.splits.foldl (fun n p => match p.chunk with | some c => n + c.writes.length | none => n) 0

/-- A chunk's stores enter the store buffer, or end the chunk, or wait for a line (R293); in relaxed mode they go to
the split's unperformed stores. DESIGN CHOICE, log 127: lines are those of R293 and R296, of 64 bytes, where a note of R357 counts
otherwise. -/
def storeAct (s : State) (ops : List StoreOp) (keys : List Nat) : Act :=
  match s.sp.chunk with
  | none => .done (s.modSp (fun p => { p with pst := p.pst ++ ops }))
  | some c =>
    let need := (addKeys c.writes keys).length - c.writes.length
    if groupLines s.g + need ≤ 128 then
      .done (s.modChunk (fun c =>
        { c with ops := c.ops ++ ops, writes := addKeys c.writes keys, keys := addKeys c.keys keys }))
    else if c.writes.isEmpty then .wait .line s
    else .cut

/-- The chunk may record the lines of a load: it holds at most 1,024 distinct lines read (R289). -/
def readRoom (s : State) (keys : List Nat) : Bool :=
  match s.sp.chunk with
  | none => true
  | some c => c.words == 0 || (addKeys c.reads keys).length ≤ 1024

def noteReads (s : State) (keys : List Nat) : State :=
  s.modChunk (fun c => { c with reads := addKeys c.reads keys, keys := addKeys c.keys keys })

/-! ### Scratchpad and cluster SRAM -/

/-- A full/empty request is the oldest of its queue in each of its words, and they are in its state (R230). -/
def feReady (t : Team) (earlier : List FeReq) (q : FeReq) : Bool :=
  !earlier.any (fun e => e.buf == q.buf && e.fill == q.fill && e.words.any (fun w => q.words.contains w))
    && q.words.all (fun w => ((t.buf q.buf).full.get w == 1) == q.fill)

/-- The first request that can be served, of those that `may` lets through. -/
def feNext (t : Team) (may : FeReq → Bool) : List FeReq → List FeReq → Option FeReq
  | _, [] => none
  | earlier, q :: r => if feReady t earlier q && may q then some q else feNext t may (earlier ++ [q]) r

/-- Clear the bits of words. -/
def Scratch.empty (x : Scratch) (ws : List Nat) : Scratch := { x with full := ws.foldl (fun f w => f.set w 0) x.full }

/-- Serve a request (R230, R242): the words change and its lane completes (R231). -/
def feServe (s : State) (tid : Nat) (t : Team) (q : FeReq) : State :=
  let d := Cells.read (t.buf q.buf).bytes q.off (4 * q.words.length)
  -- a C word that an unfinished matrix command writes (R224)
  let race := q.fill && racedRead s tid q.buf q.off d.length
  let val := ofBytes (if race then spoilBytes s tid q.buf q.off s.free d else d)
  let s := if race then { s with free := s.free + 16 } else s
  let s := s.modTeam tid (fun t =>
    let t := { t with feq := t.feq.erase q }
    if q.fill then (if q.keep then t else t.setBuf q.buf ((t.buf q.buf).empty q.words))
    else t.setBuf q.buf ((t.buf q.buf).put q.off q.data))
  let s := if q.fill then s
    else conflict (raceMark s tid q.buf q.off q.data.length) (linesOf (localLoc q.buf q.off) q.data.length) tid 0
      (q.gid, q.sp) none
  s.modSplitOf q.gid q.sp (fun p =>
    { p with feDone := p.feDone ||| maskOf [q.lane], feVals := p.feVals ++ [(q.lane, val)]
             plan := p.plan.filter (fun e => e.1 != q.lane) })

/-- The data write of an `stse` waits while a reserved chunk holds its line's home (R233). -/
def feMay (s : State) (t : Team) (q : FeReq) : Bool :=
  q.fill || !reservedBlocks s (linesOf (localLoc q.buf q.off) q.data.length) t.core (q.gid, q.sp) none

/-- Serve waiting requests of a team while one can be served. -/
def feServeAll (tid : Nat) : Nat → State → State
  | 0, s => s
  | n + 1, s =>
    match s.team? tid with
    | none => s
    | some t =>
      match feNext t (feMay s t) [] t.feq with
      | none => s
      | some q => feServeAll tid n (feServe s tid t q)

/-- Serve what a change of full/empty bits lets go on. -/
def feWake (s : State) (tid : Nat) : State :=
  match s.team? tid with
  | some t => if t.feq.isEmpty then s else feServeAll tid (t.feq.length + 1) s
  | none => s

/-- Bytes written to a buffer or to cluster SRAM by a store: the words become full (R229), and unfinished matrix commands on
them are spoiled. Waiting requests go on once the whole write has been made (feWake). -/
def putLocal (s : State) (tid buf off : Nat) (d : List Byte) : State :=
  match s.team? tid with
  | none => s
  | some t =>
    if buf < 4 then
      (raceMark s tid buf off d.length).modTeam tid (fun t => t.setBuf buf ((t.buf buf).put off d))
    else s.modCluster t.cid (fun c => { c with sram := Cells.write c.sram off d })

/-- The size of an allotment that the current split reaches. -/
def localSize (s : State) (buf : Nat) : Nat := if buf < 4 then (s.t.buf buf).size else s.cl.size

/-- What the current split reads at an offset, with its own buffered bytes. -/
def localBytes (s : State) (buf off n : Nat) : List Byte :=
  overlay s (localLoc buf off)
    (if buf < 4 then Cells.read (s.t.buf buf).bytes off n else Cells.read s.cl.sram off n)

/-- The lanes that TRAPMASK names for a condition: those that meet it, or every executing lane of an instruction that
executes once (R467). -/
def meetM (s : State) (i : Instr) (once : Bool) (lanes : List Nat) : Mask := if once then s.exec i else maskOf lanes

/-- A format-M word whose registers are all scalar executes once (R36). -/
def onceM (w : MWord) : Bool := isS w.d && isS w.a && isS w.b

/-- The checks of R227: the allotment, then alignment, of every executing lane before any takes effect. -/
def checkLocal (s : State) (i : Instr) (once : Bool) (buf n : Nat) (as : List (Nat × Nat)) : Option Act :=
  let out := (as.filter (fun e => localSize s buf < e.2 + n)).map (fun e => e.1)
  let odd := (as.filter (fun e => e.2 % n != 0)).map (fun e => e.1)
  if !out.isEmpty then some (.trap 0x0B (meetM s i once out))
  else if !odd.isEmpty then some (.trap 0x0C (meetM s i once odd))
  else none

/-- Values that a race leaves undefined are replaced by free values (R224, R409). -/
def spoil (s : State) (tid buf n : Nat) (as : List (Nat × Nat)) (vals : List (Nat × Nat)) : List (Nat × Nat) × State :=
  if as.any (fun e => racedRead s tid buf e.2 n) then
    ((vals.zip as).map (fun e =>
        if racedRead s tid buf e.2.2 n then (e.1.1, (Config.freeValue (s.free + 2 * e.1.1)).toNat
          + (Config.freeValue (s.free + 2 * e.1.1 + 1)).toNat * 2 ^ 64) else e.1),
      { s with free := s.free + 64 })
  else (vals, s)

/-- A plain load of a buffer or of cluster SRAM: n bytes at each lane's offset (R241, R249, R251). -/
def localLoad (i : Instr) (d : BitVec 10) (once : Bool) (buf n : Nat) (as : List (Nat × Nat)) (s : State) : Act :=
  match checkLocal s i once buf n as with
  | some a => a
  | none =>
    let keys := as.flatMap (fun e => linesOf (localLoc buf e.2) n)
    if as.isEmpty then .done s
    else if !readRoom s keys then .cut
    else
      let vals := as.map (fun e => (e.1, ofBytes (localBytes s buf e.2 n)))
      let r := spoil s s.g.tid buf n as vals
      let k := if n ≤ 4 then 1 else n / 4
      .done (longWrite (noteReads r.2 keys) (wrDst d k (r.1.map (fun e => (e.1, e.2 % 2 ^ (8 * n))))) (regsOf d k) 1)

/-- A plain store to a buffer or to cluster SRAM, in increasing lane order (R241, R228). -/
def localStore (i : Instr) (once : Bool) (buf n : Nat) (as : List (Nat × Nat)) (data : Nat → Nat) (s : State) : Act :=
  match checkLocal s i once buf n as with
  | some a => a
  | none =>
    if as.isEmpty then .done s
    else storeAct s (as.map (fun e => .bytes (localLoc buf e.2) (leBytes n (data e.1))))
      (as.flatMap (fun e => linesOf (localLoc buf e.2) n))

/-! ### Atomic operations (R247) -/

/-- The new value, none where nothing is written, with the flags. -/
def atomOp (op bits old x cmp : Nat) : Option Nat × Flags :=
  let m := 2 ^ bits
  let lt := toSigned bits old < toSigned bits x
  match op with
  | 0 => (some x, 0)
  | 1 => (some ((old + x) % m), 0)
  | 2 => (some (old &&& x), 0)
  | 3 => (some (old ||| x), 0)
  | 4 => (some (old ^^^ x), 0)
  | 5 => (some (if lt then old else x), 0)
  | 6 => (some (if lt then x else old), 0)
  | 7 => (some (min old x), 0)
  | 8 => (some (max old x), 0)
  | 9 => (if old == cmp then some x else none, 0)
  | _ =>
    let r := fadd (if bits == 32 then Ty.f32.fmt else Ty.f64.fmt) {} old x
    (some r.code, r.fl)

/-- The number by which a symbol store goes to a word's home (R338); log 70. -/
def symCode : Nat := 16

/-- R338: a digit of a word is replaced; none where the word is invalid under ICW = 0. `x` is the digit's index, above 8
bits its symbol, and above 32 bits the alphabet's neutral symbol; `al` the alphabet register. -/
def symOp (al old x : Nat) : Option Nat :=
  let a := alphaOf (al % 2 ^ 64) []
  let put (y : Nat) : Nat := a.replace y (x % 256) (x / 256 % 2 ^ 24)
  if a.valid old then some (put old)
  else if a.icw == 0 then none
  else some (put (a.pack (List.replicate a.n (x / 2 ^ 32))))

/-- The number by which a swap of a kernel table entry goes to its home (R499); log 70. -/
def kitCode : Nat := 17

/-- What a home does to a word: an atomic operation, a symbol store, or the swap of an entry whose VERSION is the comparand. -/
def homeOp (op bits old x cmp : Nat) : Option Nat × Flags :=
  if op == symCode then (symOp cmp old x, 0)
  else if op == kitCode then (if old / 2 ^ 256 % 2 ^ 32 == cmp then some x else none, 0)
  else atomOp op bits old x cmp

/-- Flags that enter FPFLAGS directly (R247). -/
def directFlags (s : State) (f : Flags) : State :=
  if f == 0 then s else s.modG (fun g => { g with fpflags := g.fpflags ||| f.setWidth 64 })

/-! ### Global accesses -/

/-- The lanes of a global word with their normalised addresses. -/
def globalLanes (s : State) (i : Instr) (w : MWord) : List (Nat × Nat) :=
  (memLanes s i w).map (fun l => (l, eaGlobal s w l))

/-- What the checks of a global access find. -/
inductive GChk where
  | ok (s : State)
  | stop (a : Act)
  deriving Repr

/-- The pages that lanes miss. -/
def lanesMiss (s : State) (need : Need) (as : List (Nat × Nat)) : List MissAt :=
  as.filterMap (fun e => match access s s.slotNo need e.2 with
    | .miss h o p k => some ⟨h, o, p, k⟩
    | _ => none)

/-- The mark of a line for which a peer has given or refused leave, as a request names it: to change a word of it (2), or to
write it (3); log 70. -/
def leaveKey (need a : Nat) : Nat := a + need * 2 ^ 64

/-- The lanes that violate protection (R264), name a line that a peer refused, or lie outside the routed packages. -/
def lanesViol (s : State) (need : Need) (as : List (Nat × Nat)) : List Nat :=
  (as.filter (fun e => match access s s.slotNo need e.2 with
    | .viol => true
    | .peer _ => [0, 2, 3].any (fun k => s.sp.bad.contains (leaveKey k (lineAddr e.2)))
    | _ => false)).map (fun e => e.1)

def parkAll (s : State) (need : Need) (ms : List MissAt) : State :=
  ms.foldl (fun s m => park s s.cur s.slotNo s.g.core none need m.host m.owner m.block m.kind) s

/-- Install what the lanes' walks found (R259). -/
def installAll (s : State) (need : Need) (as : List (Nat × Nat)) : State :=
  as.foldl (fun s e => match access s s.slotNo need e.2 with
    | .hit h o inPage l => install s s.slotNo h o (l.base + inPage) l
    | _ => s) s

/-- R253, alignment, translation and R264, in that order, for every executing lane. `wait`: a missing translation is
waited for here; a chunk's store is not, since it leaves the core at commit (R260). `kind`: the access that parks. -/
def checkGlobal (s : State) (i : Instr) (once : Bool) (need : Need) (n : Nat) (wait : Bool) (as : List (Nat × Nat))
    (kind : Need := need) : GChk :=
  let bad := (as.filter (fun e => (place s e.2).isNone)).map (fun e => e.1)
  let odd := (as.filter (fun e => e.2 % n != 0)).map (fun e => e.1)
  if !bad.isEmpty then .stop (.trap 0x0B (meetM s i once bad))
  else if !odd.isEmpty then .stop (.trap 0x0C (meetM s i once odd))
  else
    let ms := lanesMiss s need as
    let viol := lanesViol s need as
    if wait && !ms.isEmpty then .stop (.wait .parked (parkAll s kind ms))
    else if !viol.isEmpty then .stop (.trap 0x0B (meetM s i once viol))
    else if as.any (fun e => match access s s.slotNo need e.2 with | .noStore => true | _ => false) then
      .stop (.fault .noStorage)
    else .ok (installAll s need as)

/-- The bytes of a line held for the split's peer load: those that its requests returned, or the package's peer line
cache (R319). -/
def peerLine (s : State) (a : Nat) : Option (List Byte) :=
  ((s.sp.peerData ++ s.peerLines).find? (fun l => l.1 == a)).map (fun l => l.2)

/-- The lines of other packages that an access still needs. -/
def peerNeed (s : State) (as : List (Nat × Nat)) : List Nat :=
  (as.filterMap (fun e =>
    match place s e.2 with
    | some (.peer _ _ _) => if (peerLine s (lineAddr e.2)).isNone then some (lineAddr e.2) else none
    | _ => none)).eraseDups

/-- The current split asks for a line (R319). -/
def askLine (s : State) (a : Nat) : State := askPeer s s.cur s.slotNo a 0

/-- The bytes that a checked lane reads: n bytes from its page or from a peer's line; none for a malformed D64 block. -/
def globalBytes (s : State) (a n : Nat) : Option (List Byte) :=
  match access s s.slotNo .read a with
  | .hit h o inPage l => (pageRead s h o l inPage n).map (overlay s (normal s a))
  | .peer _ => (peerLine s (lineAddr a)).map (fun b => overlay s (normal s a) ((b.drop (a % 64)).take n))
  | _ => some (overlay s (normal s a) (List.replicate n 0))

/-- What a global load reads in each lane, or why it does not: the lines enter the read signature, a load of bytes that
the chunk's own `red` targets ends it (R289), and a relaxed-mode one waits for that `red`; `red` says which addresses. -/
def globalRead (i : Instr) (once : Bool) (n : Nat) (as : List (Nat × Nat)) (s : State)
    (go : State → List (Nat × Nat) → Act) (red : State → Nat → Bool := fun s a => redHits s (normal s a) n) : Act :=
  match checkGlobal s i once .read n true as with
  | .stop a => a
  | .ok s =>
    let keys := as.flatMap (fun e => linesOf (normal s e.2) n)
    let need := peerNeed s as
    if as.any (fun e => red s e.2) then
      (if s.sp.chunk.isSome then .cut else .wait .stores s)
    else if !readRoom s keys then .cut
    else if !need.isEmpty then .wait .peer (need.foldl askLine s)
    else
      let vals := as.map (fun e => (e.1, globalBytes s e.2 n))
      let bad := (vals.filter (fun e => e.2.isNone)).map (fun e => e.1)
      if !bad.isEmpty then .trap 0x0B (meetM s i once bad)
      else go ((noteReads s keys).modSp (fun p => { p with peerData := [], bad := [] }))
        (vals.map (fun e => (e.1, ofBytes (e.2.getD []))))

/-- The lines of peers that have come stay with the split while an instruction reads on. -/
def keepLines (s t : State) : State := t.modSp (fun p => { p with peerData := s.sp.peerData })

/-- A further read of an instruction that reads more than once, each address for a lane: the lines that have come stay. -/
def readOn (i : Instr) (once : Bool) (as : List (Nat × Nat)) (s : State) (go : State → Act)
    (red : State → Nat → Bool := fun s a => redHits s (normal s a) 1) : Act :=
  globalRead i once 1 as s (fun t _ => go (keepLines s t)) red

/-- It has read everything. -/
def readDone (s : State) : State := s.modSp (fun p => { p with peerData := [] })

end Sys2Proof.Machine
end

