-- ==== Sys2Proof/Machine/Kv.lean ====
section
/-! DEFINITION. KV sequences (R445 to R450): entries of the position remap table, pages and their live slots; and kvmap
(R461). -/

namespace Sys2Proof.Machine

open Sys2Proof

/-- An entry of the position remap table (R448). `rsv`: a reserved bit is 1. -/
structure KvEntry where
  list : Nat
  pool : Nat
  npages : Nat
  nlive : Nat
  decay : Nat
  sink : Nat
  recent : Nat
  gen : Nat
  flags : Nat
  kscale : Nat
  vscale : Nat
  rsv : Bool
  deriving DecidableEq, Repr

def kvEntry (b : List Byte) : KvEntry :=
  ⟨recField b 0 8, recField b 8 8, recField b 16 4, recField b 20 4, recField b 24 4, recField b 28 2, recField b 30 2,
    recField b 32 4, recField b 36 4, recField b 40 4, recField b 44 4, recField b 36 4 / 64 != 0 || recField b 48 16 != 0⟩

namespace KvEntry

def busy (e : KvEntry) : Bool := bitAt e.flags 1
/-- e4m3 elements; bf16 otherwise. -/
def e4m3 (e : KvEntry) : Bool := bitAt e.flags 2
/-- D = 32 (DIMC + 1). -/
def d (e : KvEntry) : Nat := 32 * (e.flags / 8 % 8 + 1)
/-- Bytes of an element. -/
def z (e : KvEntry) : Nat := if e.e4m3 then 1 else 2
/-- The malformations that the entry's own bytes show. -/
def selfBad (e : KvEntry) : Bool := !bitAt e.flags 0 || e.flags / 8 % 8 == 0 || 4096 < e.npages || e.rsv
/-- The places of K and V of a slot in a page (R445). -/
def kAt (e : KvEntry) (slot : Nat) : Nat := 0x400 + slot * e.d * e.z
def vAt (e : KvEntry) (slot : Nat) : Nat := 0x400 + 64 * e.d * e.z + slot * e.d * e.z

end KvEntry

/-- The live slots of a LIVEMAP in ascending order. -/
def liveSlots (m : Nat) : List Nat := (List.range 64).filter (fun k => bitAt m k)

/-- The address of an entry lies in the context's table (R447). -/
def prtOk (s : State) (slot a : Nat) : Bool :=
  let base := s.ctx slot 0x38
  a % 64 == 0 && base ≤ a && a + 64 ≤ base + 64 * (s.ctx slot 0x40 % 2 ^ 32)

/-- n bytes as the chunk reads them. -/
def gBytes (s : State) (a n : Nat) : List Byte :=
  (List.range n).flatMap (fun (k : Nat) => (globalBytes s (wrap 64 ((a : Int) + k)) 1).getD [0])

/-- The first and last bytes of n bytes. -/
def bothEnds (a n : Nat) : List Nat := [a, wrap 64 ((a : Int) + n - 1)]

/-- Read places, each an address and a length, under the checks of a load that executes once: then go on. -/
def readAll (i : Instr) (places : List (Nat × Nat)) (s : State) (go : State → Act) : Act :=
  readOn i true (places.flatMap (fun p => (bothEnds p.1 p.2).map (fun a => (0, a)))) s go
    (fun s a => places.any (fun p => p.1 == a && redHits s (normal s a) p.2))

/-- The page and slot of a logical index (R450). -/
def kvFind : List (Nat × List Nat) → Nat → Option (Nat × Nat)
  | [], _ => none
  | (pg, live) :: r, t => if t < live.length then some (pg, live.getD t 0) else kvFind r (t - live.length)

/-- R461. -/
def bodyKvmap (w : RWord) (s : State) : Act :=
  let i := Instr.kvmap w
  let m := s.exec i
  let mode := w.m.toNat % 4
  let n := if mode == 0 then 2 else 1
  let ls := actLanes s i w.d
  let ea := srcS s w.a
  let out (s : State) (vals : List (Nat × Nat)) : Act := .done (longWrite (readDone s) (wrDst w.d n vals) (regsOf w.d n) 2)
  let ones : Nat := if mode == 0 then 2 ^ 64 - 1 else 2 ^ 32 - 1
  if ls.isEmpty then .done s
  else if (place s ea).isNone then .trap 0x0B m
  else if ea % 64 != 0 then .trap 0x0C m
  else if !prtOk s s.slotNo ea then .trap 0x0B m
  else
    readAll i [(ea, 64)] s (fun s =>
      let e := kvEntry (gBytes s ea 64)
      if e.selfBad then out s (ls.map (fun l => (l, ones)))
      else
        readAll i ((List.range e.npages).map (fun k => (wrap 64 ((e.list + 8 * k : Nat) : Int), 8))) s (fun s =>
          let pages := (List.range e.npages).map (fun k => ofBytes (gBytes s (e.list + 8 * k) 8))
          readAll i (pages.map (fun p => (wrap 64 ((p + 0x200 : Nat) : Int), 8))) s (fun s =>
            let live := pages.map (fun p => (p, liveSlots (ofBytes (gBytes s (p + 0x200) 8))))
            let total := live.foldl (fun n p => n + p.2.length) 0
            let idx := ls.map (fun l => (l, src32 s w.b l))
            if total != e.nlive then out s (ls.map (fun l => (l, ones)))
            else
              let found := idx.map (fun x => (x.1, kvFind live x.2))
              let fieldAt (p : Nat × Nat) : Nat := p.1 + (if mode == 1 then 0x100 else 0) + 4 * p.2
              let places := if mode == 0 then [] else found.filterMap (fun x => x.2.map (fun p => (wrap 64 (fieldAt p : Int), 4)))
              readAll i places s (fun s =>
                out s (found.map (fun x => (x.1, match x.2 with
                  | none => ones
                  | some p => if mode == 0 then p.1 + p.2 else ofBytes (gBytes s (fieldAt p) 4))))))))
def execKvmap (w : RWord) (s : State) : Host.Outcome State Fault Refusal := core (.kvmap w) (bodyKvmap w) s

end Sys2Proof.Machine
end

