-- ==== Sys2Proof/Machine/Alpha.lean ====
section
/-! DEFINITION. The alphabet instructions in registers: 0x70 to 0x73 and 0x76 to 0x7B (R342 to R347, R350 to R355). The
symbol loads and stores are in Global.lean. -/

namespace Sys2Proof.Machine

open Sys2Proof

/-- The map table of an alphabet register (R328). -/
def alTab (r : Regs) (n : Nat) : List Int := (List.range 16).map (fun k => (r.mapget n k).toInt)
/-- The alphabet that an alphabet register holds. -/
def alphaAt (r : Regs) (n : Nat) : Alpha := alphaOf (r.alget n).toNat (alTab r n)
/-- The alphabet of m<3:0>, and of m<7:4> (R341). -/
def alA (s : State) (w : RWord) : Alpha := alphaAt s.regs (w.m.toNat % 16)
def alB (s : State) (w : RWord) : Alpha := alphaAt s.regs (w.m.toNat / 16)

/-- Registers of a packed word (R330). -/
def Alpha.regs (a : Alpha) : Nat := if a.w == 64 then 2 else 1
/-- A word operand in a lane (R330). -/
def wordIn (s : State) (a : Alpha) (f : BitVec 10) (lane : Nat) : Nat := s.regs.src f a.regs lane % 2 ^ a.w
/-- A value operand in a lane (R341). -/
def valueIn (s : State) (f : BitVec 10) (lane : Nat) : Int :=
  if isS f then toSigned 64 (s.regs.src f 1 lane) else toSigned 32 (s.regs.src f 1 lane)
/-- A value result for a destination field (R341). -/
def valueOut (d : BitVec 10) (x : Int) : Nat := wrap (if isS d then 64 else 32) x
/-- R335.1: a zero register, or a 64-bit alphabet on an odd vector register. -/
def alphBad (a : Alpha) (words : List (BitVec 10)) : Bool :=
  a.r == 0 || (a.w == 64 && words.any (fun f => isV f && f.toNat % 2 == 1))

/-- The mask of a condition met in some lanes: every executing lane for a scalar form (R467). -/
def meeting (s : State) (i : Instr) (d : BitVec 10) (ls : List Nat) : Mask := if isS d then s.exec i else maskOf ls

/-- An alphabet instruction that writes registers (R335): `bad` is its condition on register contents, `idx` that on a
digit index, and `f` each lane's checked result. -/
def alLanes (i : Instr) (s : State) (d : BitVec 10) (nd : Nat) (bad : Bool) (idx : Nat → Bool) (f : Nat → Chk) : Act :=
  let ls := actLanes s i d
  if ls.isEmpty then wrote s {}
  else if bad then .trap 0x12 (s.exec i)
  else if ls.any idx then .trap 0x12 (meeting s i d (ls.filter idx))
  else
    let rs := ls.map (fun l => (l, f l))
    let tr := rs.filter (fun e => e.2.trap)
    if !tr.isEmpty then .trap 0x0A (meeting s i d (tr.map (fun e => e.1)))
    else wrote s { wrDst d nd (rs.map (fun e => (e.1, e.2.x))) with
                     fl := rs.map (fun e => (e.1, flagIf e.2.flag fICW)) }

/-- R342. -/
def bodyAlset (w : RWord) (s : State) : Act :=
  let n := w.m.toNat % 16
  let img := srcS s w.a
  if s.exec (.alset w) == 0 then wrote s {}
  else if imgOk img then
    .done ((holdAl s [n]).modRegs (fun r => { r with al := r.al.set n (BitVec.ofNat 64 img) }))
  else .trap 0x12 (s.exec (.alset w))
def execAlset (w : RWord) (s : State) : Host.Outcome State Fault Refusal := core (.alset w) (bodyAlset w) s

/-- R343. -/
def bodyAlget (w : RWord) (s : State) : Act :=
  let n := w.m.toNat % 16
  intLanes (.alget w) s w.d 1 (fun l =>
    if w.m.getLsbD 4 then (if l < 16 then wrap 32 (s.regs.mapget n l).toInt else 0) else (s.regs.alget n).toNat)
def execAlget (w : RWord) (s : State) : Host.Outcome State Fault Refusal := core (.alget w) (bodyAlget w) s

/-- R345: the word and digit index of a lane in the spread form; none past lane 31. -/
def spread (s : State) (a : Alpha) (w : RWord) (lane : Nat) : Option (Nat × Nat) :=
  let e := srcS s w.b % 2 ^ 32 + lane
  if 31 < e / a.n then none else some (laneVal s w.a a.regs (e / a.n) % 2 ^ a.w, e % a.n)

/-- R345. -/
def bodySunpk (w : RWord) (s : State) : Act :=
  let a := alA s w
  let raw := w.m.getLsbD 4
  let spr := w.m.getLsbD 5
  let out (x j : Nat) : Chk :=
    let c := a.check x
    let g := a.digit c.x j
    { c with x := if raw then g else valueOut w.d (a.val g) }
  alLanes (.sunpk w) s w.d 1 (alphBad a [w.a]) (fun l => !spr && a.n ≤ src32 s w.b l)
    (fun l =>
      if spr then (match spread s a w l with | some (x, j) => out x j | none => { x := 0 })
      else out (wordIn s a w.a l) (src32 s w.b l))
def execSunpk (w : RWord) (s : State) : Host.Outcome State Fault Refusal := core (.sunpk w) (bodySunpk w) s

/-- R347: the digits of the word that a lane gathers. -/
def gather (s : State) (a : Alpha) (w : RWord) (lane : Nat) : List Chk :=
  (List.range a.n).map (fun t =>
    let l := srcS s w.b % 2 ^ 32 + lane * a.n + t
    if 31 < l then { x := a.neutral }
    else
      let v := laneVal s w.a 1 l
      a.orNeutral (if w.m.getLsbD 4 then a.encRaw v else a.enc (toSigned 32 v)))

/-- R347. -/
def bodySpack (w : RWord) (s : State) : Act :=
  let a := alA s w
  let raw := w.m.getLsbD 4
  let gat := w.m.getLsbD 5
  alLanes (.spack w) s w.d a.regs (alphBad a (if gat then [w.d] else [w.d, w.a]))
    (fun l => !gat && a.n ≤ src32 s w.b l)
    (fun l =>
      if gat then packChk a (gather s a w l)
      else
        let c := a.check (wordIn s a w.a l)
        let g := a.orNeutral (if raw then a.encRaw (s.regs.src w.c 1 l) else a.enc (valueIn s w.c l))
        c.and g (a.replace c.x (src32 s w.b l) g.x))
def execSpack (w : RWord) (s : State) : Host.Outcome State Fault Refusal := core (.spack w) (bodySpack w) s

/-- R350. -/
def bodySdot (w : RWord) (s : State) : Act :=
  let a := alA s w
  let b := alB s w
  alLanes (.sdot w) s w.d 1 (alphBad a [w.a] || alphBad b [w.b] || a.n != b.n) (fun _ => false)
    (fun l =>
      let x := a.check (wordIn s a w.a l)
      let y := b.check (wordIn s b w.b l)
      let sum := (List.range a.n).foldl (fun (t : Int) j => t + a.val (a.digit x.x j) * b.val (b.digit y.x j)) 0
      x.and y (valueOut w.d (valueIn s w.c l + sum)))
def execSdot (w : RWord) (s : State) : Host.Outcome State Fault Refusal := core (.sdot w) (bodySdot w) s

/-- R351: the lanes of other splits supply what R167 gives. -/
def bodySmap (w : RWord) (s : State) : Act :=
  let n := w.m.toNat % 16
  if s.exec (.smap w) == 0 then wrote s {}
  else
    .done ((holdAl s [n]).modRegs (fun r =>
      { r with map := (List.range 16).foldl (fun (c : Cells 16) k =>
          c.set (16 * n + k) ((laneReg s (rnum w.a) k).truncate 16)) r.map }))
def execSmap (w : RWord) (s : State) : Host.Outcome State Fault Refusal := core (.smap w) (bodySmap w) s

/-- R352. -/
def bodySchk (w : RWord) (s : State) : Act :=
  let a := alA s w
  let m := s.exec (.schk w)
  if m != 0 && alphBad a [w.a] then .trap 0x12 m
  else wrote s (wrPred w.d m (maskOf ((lanesOf m).filter (fun l => a.valid (wordIn s a w.a l)))))
def execSchk (w : RWord) (s : State) : Host.Outcome State Fault Refusal := core (.schk w) (bodySchk w) s

/-- A word re-radixed (R353). -/
def scvtVal (a b : Alpha) (x : Nat) : Chk :=
  let c := a.check x
  let p := packChk b ((List.range b.n).map (fun j =>
    if j < a.n then b.orNeutral (b.enc (a.val (a.digit c.x j))) else { x := b.neutral }))
  c.and p p.x

/-- R353. -/
def bodyScvt (w : RWord) (s : State) : Act :=
  let a := alA s w
  let b := alB s w
  alLanes (.scvt w) s w.d b.regs (alphBad a [w.a] || alphBad b [w.d]) (fun _ => false)
    (fun l => scvtVal a b (wordIn s a w.a l))
def execScvt (w : RWord) (s : State) : Host.Outcome State Fault Refusal := core (.scvt w) (bodyScvt w) s

/-- R354. -/
def bodySmadd (w : RWord) (s : State) : Act :=
  let a := alA s w
  alLanes (.smadd w) s w.d a.regs (alphBad a [w.a, w.b, w.c, w.d]) (fun _ => false)
    (fun l =>
      let x := a.check (wordIn s a w.a l)
      let y := a.check (wordIn s a w.b l)
      let z := a.check (wordIn s a w.c l)
      (x.and y 0).and z (a.pack ((List.range a.n).map (fun j =>
        (a.digit x.x j * a.digit y.x j + a.digit z.x j) % a.r))))
def execSmadd (w : RWord) (s : State) : Host.Outcome State Fault Refusal := core (.smadd w) (bodySmadd w) s

/-- R355. -/
def bodyScnt (w : RWord) (s : State) : Act :=
  let a := alA s w
  alLanes (.scnt w) s w.d 1 (alphBad a [w.a]) (fun _ => false)
    (fun l =>
      let c := a.check (wordIn s a w.a l)
      { c with x := ((List.range a.n).filter (fun j =>
          (a.val (a.digit c.x j) == valueIn s w.b l) != w.m.getLsbD 4)).length })
def execScnt (w : RWord) (s : State) : Host.Outcome State Fault Refusal := core (.scnt w) (bodyScnt w) s

end Sys2Proof.Machine
end

