-- ==== Sys2Proof/Machine/Control.lean ====
section
/-! DEFINITION. Control instructions: nop, branches and divisions (R46 to R50, R115, R119, R130 to R137), exit and yield
(R138, R139), the barriers' arrivals (R144, R145), clock (R150), software traps and rte (R481, R482), chunk, fence and
ifence (R322 to R325), and the clause header fetch with reconvergence and merging (R23 to R26, R116 to R118). -/

namespace Sys2Proof.Machine

open Sys2Proof

/-! ### Paths (R115) -/

/-- The path of the lanes that go on: the next word under the current header, or the next header. -/
def nextPath (s : State) (m : Mask) : StackEntry :=
  let p := s.sp
  let a := p.ctl.pc + BitVec.ofNat 64 p.irLen
  if lastWord p then ⟨a, a, 0, m⟩ else ⟨a, p.ctl.hdrAddr, p.ctl.hdr, m⟩
/-- The path of the lanes that branch to a header. -/
def toPath (a : Word) (m : Mask) : StackEntry := ⟨a, a, 0, m⟩

/-- The split goes on along one path. -/
def takePath (s : State) (stay : StackEntry) : Act :=
  let n := nextPath s 0
  if stay.addr == n.addr && stay.hdrAddr == n.hdrAddr then
    .done (s.modCtl (fun c => { c with mask := stay.mask }))
  else .jump (s.modCtl (fun c => c.goEntry stay c.stack))

/-- The free split numbers of the current group, in increasing order (R115, R119). -/
def freeSplits (g : Group) : List Nat := (List.range 4).filter (fun n => !g.splits.any (fun p => p.id == n))

/-- A split that a division makes (R115, R471, R472); in chunked mode it issues once the dividing chunk commits. DESIGN
CHOICE, log 101: in relaxed mode the accesses that the dividing split issued before count for the dividing split alone, in the
conditions LD, LS, ST and CH of R23. -/
def newSplit (s : State) (id : Nat) (e : StackEntry) : Split :=
  let p := s.sp
  let c := p.ctl.goEntry e []
  { id := id, stamp := s.clock, since := s.clock, wait := some .ready, born := if p.chunk.isSome then some s.cur.2 else none
    ctl := { c with resume := if p.ctl.trapCause.getLsbD 63 then c.resume else none } }

/-- R115: divide the active lanes among paths; `branchy` for bra, call and loop, whose paths are the not-taken lanes
and the taken ones. The condition of R118 is met before anything changes. DESIGN CHOICE, log 103: taken and not-taken lanes
of bra, call and loop are two paths also where the target is the next header. -/
def divide (s : State) (paths : List StackEntry) (branchy : Bool) (exec : Mask) : Act :=
  let paths := paths.filter (fun e => e.mask != 0)
  match paths with
  | [] => .done s
  | [e] => takePath s e
  | e :: r =>
    let free := freeSplits s.g
    let swap := branchy && free.isEmpty
    let stay := if swap then r.headD e else e
    let news := if swap then [] else free.zip r
    let push := if swap then [e] else r.drop free.length
    let stack := push.foldl (fun st x => pushEntry x st) s.ctl.stack
    if 32 < stack.length then .trap 0x05 exec
    else
      let born := news.map (fun x => newSplit s x.1 x.2)
      let s := s.modCtl (fun c => { c with stack := stack })
      let s := s.modG (fun g => { g with splits := g.splits ++ born })
      let s := if news.isEmpty then s else s.modChunk (fun c => { c with closed := true })
      takePath s stay

/-- What the fetch of branch targets answers (R49). -/
inductive Tgt where
  | ok (s : State)
  | stop (a : Act)
  deriving Repr

/-- Fetch each target, with the lanes that take it: the lanes on pages without X, whether a target is no header, and
the first miss. -/
def fetchTargets (s : State) : List (Word × Mask) → Mask × Bool × Option (Bool × Nat × Nat × Nat) × State
  | [] => (0, false, none, s)
  | (t, m) :: r =>
    let port := s.ctl.portable
    let step := if port then 4 else 8
    let a := t.toNat
    let f := fetchAt s s.g (a / step * step) step
    let rest := fetchTargets f.2 r
    match f.1 with
    | .viol => (m ||| rest.1, rest.2.1, rest.2.2.1, rest.2.2.2)
    | .miss h o p k => (rest.1, rest.2.1, some (h, o, p, k), rest.2.2.2)
    | .word w =>
      let good := a % step == 0 && (if port then w / 2 ^ 24 != 0xE1 else isHeader w)
      (rest.1, !good || rest.2.1, rest.2.2.1, rest.2.2.2)

/-- R49: ACCESS, then the wait for a missing target, then BADTGT. DESIGN CHOICE, log 102: ACCESS for one target does not wait
for the missing page of another. -/
def checkTargets (s : State) (ts : List (Word × Mask)) (exec : Mask) : Tgt :=
  let r := fetchTargets s ts
  if r.1 != 0 then .stop (.trap 0x0B r.1)
  else match r.2.2.1 with
    | some (h, o, p, k) => .stop (.wait .parked (park r.2.2.2 s.cur s.slotNo s.g.core none .fetch h o p k))
    | none => if r.2.1 then .stop (.trap 0x03 exec) else .ok r.2.2.2

/-- The target of a format-B word (R43, R495). -/
def tgtB (s : State) (w : BWord) : Word :=
  s.ctl.pc + BitVec.ofInt 64 (w.off.toInt * (if s.ctl.portable then 4 else 8))

/-! ### The entries -/

def execNop (w : RWord) (s : State) : Host.Outcome State Fault Refusal := core (.nop w) (fun s => .done s) s

/-- Push a link in each taken lane (R135). -/
def pushLinks (s : State) (m : Mask) (link : Word) : State :=
  s.modRegs (fun r => (lanesOf m).foldl (fun r l => r.setRets l (link :: r.retsOf l)) r)

/-- bra and call (R131, R132, R135). -/
def bodyBra (i : Instr) (call : Bool) (w : BWord) (s : State) : Act :=
  let taken := s.exec i
  let act := s.ctl.mask
  if taken == 0 then .done s
  else
    match checkTargets s [(tgtB s w, taken)] taken with
    | .stop a => a
    | .ok s =>
      let full := (lanesOf taken).filter (fun l => 16 ≤ (s.regs.retsOf l).length)
      if w.u && taken != act then .trap 0x04 taken
      else if call && !full.isEmpty then .trap 0x05 (maskOf full)
      else
        let link := s.ctl.pc + BitVec.ofNat 64 s.sp.irLen
        divide (if call then pushLinks s taken link else s)
          [nextPath s (act &&& ~~~taken), toPath (tgtB s w) taken] true taken

def execBra (w : BWord) (s : State) : Host.Outcome State Fault Refusal := core (.bra w) (bodyBra (.bra w) false w) s
def execCall (w : BWord) (s : State) : Host.Outcome State Fault Refusal := core (.call w) (bodyBra (.call w) true w) s

/-- R137: the counter is written once the branch's conditions hold. -/
def bodyLoop (w : BWord) (s : State) : Act :=
  let i := Instr.loop w
  let m := s.exec i
  let act := s.ctl.mask
  let width := if isS w.a then 64 else 32
  let vals := (actLanes s i w.a).map (fun l => (l, wrap width ((s.regs.src w.a 1 l : Int) - 1)))
  let taken : Mask :=
    if isS w.a then (if vals.any (fun e => e.2 != 0) then m else 0)
    else maskOf ((vals.filter (fun e => e.2 != 0)).map (fun e => e.1))
  if taken == 0 then wrote s (wrDst w.a 1 vals)
  else
    match checkTargets s [(tgtB s w, taken)] m with
    | .stop a => a
    | .ok s =>
      if w.u && taken != act then .trap 0x04 m
      else divide (applyWr s (wrDst w.a 1 vals)) [nextPath s (act &&& ~~~taken), toPath (tgtB s w) taken] true m
def execLoop (w : BWord) (s : State) : Host.Outcome State Fault Refusal := core (.loop w) (bodyLoop w) s

/-- The paths of brx and ret: one for each target with the lanes that fall through, in address order (R115). -/
def fanPaths (s : State) (tg : List (Nat × Word)) (rest : Mask) : List StackEntry :=
  let ps := tg.foldl (fun l e => pushEntry (toPath e.2 (maskOf [e.1])) l) []
  if rest == 0 then ps else pushEntry (nextPath s rest) ps

/-- brx and ret after their targets are known (R134, R136); `act` is what each executing lane does first. -/
def fanOut (s : State) (u : Bool) (m : Mask) (tg : List (Nat × Word)) (act : State → State) : Act :=
  let ts := (fanPaths s tg 0).map (fun e => (e.addr, e.mask))
  match checkTargets s ts m with
  | .stop a => a
  | .ok s =>
    if u && (1 < ts.length || m != s.ctl.mask) then .trap 0x04 m
    else divide (act s) (fanPaths s tg (s.ctl.mask &&& ~~~m)) false m

/-- R134. -/
def bodyBrx (w : RWord) (s : State) : Act :=
  let m := s.exec (.brx w)
  if m == 0 then .done s
  else fanOut s (mBit0 w.m) m ((lanesOf m).map (fun l => (l, BitVec.ofNat 64 (s.regs.src w.a 2 l)))) id
def execBrx (w : RWord) (s : State) : Host.Outcome State Fault Refusal := core (.brx w) (bodyBrx w) s

/-- R136: STACK comes first; all is checked before any lane pops. -/
def bodyRet (w : RWord) (s : State) : Act :=
  let m := s.exec (.ret w)
  let none_ := (lanesOf m).filter (fun l => (s.regs.retsOf l).isEmpty)
  if m == 0 then .done s
  else if !none_.isEmpty then .trap 0x05 (maskOf none_)
  else fanOut s (mBit0 w.m) m ((lanesOf m).map (fun l => (l, (s.regs.retsOf l).headD 0)))
    (fun s => s.modRegs (fun r => (lanesOf m).foldl (fun r l => r.setRets l ((r.retsOf l).drop 1)) r))
def execRet (w : RWord) (s : State) : Host.Outcome State Fault Refusal := core (.ret w) (bodyRet w) s

/-- The next n words of the clause, where they can be fetched. -/
def wordsFrom (s : State) (addr : Nat) : Nat → List (Option Nat) × Option (Bool × Nat × Nat × Nat) × State
  | 0 => ([], none, s)
  | n + 1 =>
    let f := fetchAt s s.g addr 8
    let r := wordsFrom f.2 (addr + 8) n
    match f.1 with
    | .word w => (some w :: r.1, r.2.1, r.2.2)
    | .viol => (none :: r.1, r.2.1, r.2.2)
    | .miss h o p k => (none :: r.1, some (h, o, p, k), r.2.2)

/-- A prefix and the word after it form a per-lane instruction: the word is of format I, and bits 55:40 of the prefix are 0
(R44, R45). -/
def pairOk (w y : Nat) : Bool :=
  w / 2 ^ 40 % 2 ^ 16 == 0 && (match decodeNative (BitVec.ofNat 64 w) (BitVec.ofNat 64 y) with
    | some i => perLane i
    | none => false)

/-- R47: each word of the range, a prefix with the word that it prefixes, is a per-lane instruction. -/
def skipOk : List (Option Nat) → Bool
  | [] => true
  | [some w] => w / 2 ^ 56 != 0xE0 && perLane (decodeWord (BitVec.ofNat 64 w) none)
  | some w :: x :: r =>
    if w / 2 ^ 56 == 0xE0 then
      (match x with | some y => pairOk w y | none => true) && skipOk r
    else perLane (decodeWord (BitVec.ofNat 64 w) none) && skipOk (x :: r)
  | none :: r => skipOk r

/-- R46, R47, R133. -/
def bodySkip (w : IWord) (s : State) : Act :=
  let p := s.sp
  let n := w.imm.toNat
  let next := p.ctl.pc.toNat + p.irLen
  let left := if lastWord p then 0 else (p.ctl.hdrAddr.toNat + 8 * (hdrLen p.ctl.hdr + 1) - next) / 8
  if left < n then .trap 0x01 p.ctl.mask
  else
    let r := wordsFrom s next n
    match r.2.1 with
    | some (h, o, pg, k) => .wait .parked (park r.2.2 s.cur s.slotNo s.g.core none .fetch h o pg k)
    | none =>
      if skipOk r.1 then .done (r.2.2.modCtl (fun c => { c with skipLeft := n, skipMask := s.exec (.skip w) }))
      else .trap 0x01 p.ctl.mask
def execSkip (w : IWord) (s : State) : Host.Outcome State Fault Refusal := core (.skip w) (bodySkip w) s

/-- R138. In relaxed mode the lanes leave at once, and a split with no lane left goes on at its top stack entry or ends. -/
def bodyExit (w : RWord) (s : State) : Act :=
  let m := s.exec (.exit w)
  if m == 0 then .done s
  else if s.sp.chunk.isNone && s.ctl.mask &&& ~~~m == 0 then .jump (effect s (.exit m))
  else .done (effect s (.exit m))
def execExit (w : RWord) (s : State) : Host.Outcome State Fault Refusal := core (.exit w) (bodyExit w) s

/-- R139: whatever its guard. -/
def execYield (w : RWord) (s : State) : Host.Outcome State Fault Refusal :=
  core (.yield w) (fun s => .done (effect s .yield)) s

/-- R144. -/
def bodyBar (w : IWord) (s : State) : Act :=
  .done (if s.exec (.bar w) == 0 then s else effect s (.arrive w.m4.toNat w.imm.toNat))
def execBar (w : IWord) (s : State) : Host.Outcome State Fault Refusal := core (.bar w) (bodyBar w) s

/-- R145. -/
def bodyBarw (w : IWord) (s : State) : Act :=
  .done (if s.exec (.barw w) == 0 then s else effect s (.arriveWire w.imm.toNat))
def execBarw (w : IWord) (s : State) : Host.Outcome State Fault Refusal := core (.barw w) (bodyBarw w) s

/-- R150. -/
def bodyClock (w : RWord) (s : State) : Act :=
  if s.exec (.clock w) == 0 then .done s
  else wrote s (wrDst w.d 1 [(0, if mBit0 w.m then s.time else s.clock)])
def execClock (w : RWord) (s : State) : Host.Outcome State Fault Refusal := core (.clock w) (bodyClock w) s

/-- R481. -/
def bodyTrap (i : Instr) (cause : Nat) (s : State) : Act :=
  if s.exec i == 0 then .done s else .trap cause (s.exec i)
def execTrap (w : IWord) (s : State) : Host.Outcome State Fault Refusal := core (.trap w) (bodyTrap (.trap w) 0x0E) s
def execBrk (w : IWord) (s : State) : Host.Outcome State Fault Refusal := core (.brk w) (bodyTrap (.brk w) 0x0D) s

/-- The control state after rte at T, from a set-aside state (R482); the address of a header is fetched as one. -/
def resumeCtl (c : Ctl) (r : Resume) (t : Word) (step : Bool) : Ctl :=
  let hdr := (step && r.last) || t == r.hdrAddr
  let used := if step then (if c.trapCause.getLsbD 9 then 2 else 1) else 0
  { c with
    pc := t, atHdr := hdr, hdrAddr := if hdr then t else r.hdrAddr, hdr := if hdr then 0 else r.hdr
    skipLeft := if hdr then 0 else r.skipLeft - used, skipMask := r.skipMask, stack := r.stack
    trapCause := c.trapCause &&& ~~~(BitVec.ofNat 64 (2 ^ 63)) }

/-- R482, R496. -/
def bodyRte (w : IWord) (s : State) : Act :=
  let c := s.ctl
  let step := w.imm.getLsbD 0
  let unit := if c.portable then 4 else 8
  let t := c.trapPc + (if step then BitVec.ofNat 64 (unit * (if c.trapCause.getLsbD 9 then 2 else 1)) else 0)
  if s.exec (.rte w) == 0 then .done s
  else if !c.trapCause.getLsbD 63 then .trap 0x01 c.mask
  else
    match c.resume with
    | none =>
      match checkTargets s [(t, s.exec (.rte w))] (s.exec (.rte w)) with
      | .stop a => a
      | .ok s => .jump (s.modCtl (fun c =>
          { c with pc := t, atHdr := true, hdrAddr := t, hdr := 0, skipLeft := 0
                   trapCause := c.trapCause &&& ~~~(BitVec.ofNat 64 (2 ^ 63)) }))
    | some r => if c.mask != r.mask then .trap 0x01 c.mask else .jump (s.modCtl (fun c => resumeCtl c r t step))
def execRte (w : IWord) (s : State) : Host.Outcome State Fault Refusal := core (.rte w) (bodyRte w) s

/-- R322: the boundary, and in relaxed mode the wait of `.wait`, belong to `core`. -/
def execChunk (w : RWord) (s : State) : Host.Outcome State Fault Refusal := core (.chunk w) (fun s => .done s) s

/-- R324. -/
def bodyFence (w : RWord) (s : State) : Act :=
  let kind := w.m.toNat % 4
  let sys := w.m.toNat / 4 == 3
  if s.exec (.fence w) == 0 then .done s
  else if sys && kind != 1 && batchesOwed s then .wait .drain s
  else .done (if sys && kind != 2 then { s with peerLines := [] } else s)
def execFence (w : RWord) (s : State) : Host.Outcome State Fault Refusal := core (.fence w) (bodyFence w) s

/-- R325. -/
def bodyIfence (w : RWord) (s : State) : Act :=
  .done (if s.exec (.ifence w) == 0 then s
    else coreIfence s s.g.core)
def execIfence (w : RWord) (s : State) : Host.Outcome State Fault Refusal := core (.ifence w) (bodyIfence w) s

/-! ### Clause headers (R23 to R26, R116 to R118) -/

/-- A split stands at a header and has issued no word of its clause (R117). -/
def standsAt (h : Word) (p : Split) : Bool :=
  p.pend.isNone && p.bar.isNone && p.born.isNone && p.feDone == 0 && p.plan.isEmpty
    && ((p.ctl.atHdr && p.ctl.pc == h)
        || (!p.ctl.atHdr && p.ctl.hdrAddr == h && p.ctl.pc == (if p.ctl.portable then h else h + 8)))

/-- Two splits may merge at a header (R117, R471). -/
def mayMerge (p q : Split) : Bool :=
  p.ctl.trapCause.getLsbD 63 == q.ctl.trapCause.getLsbD 63 && p.ctl.portable == q.ctl.portable

/-- The union of two stacks, with equal addresses combined. -/
def unionStack (a b : List StackEntry) : List StackEntry := b.foldl (fun st e => pushEntry e st) a

/-- Merge split b into split a, a the lower number, at a header or after a barrier (R117, R123). -/
def mergeSplits (s : State) (gid a b : Nat) (h : Word) (atHdr : Bool) : State :=
  match (s.group? gid).bind (fun g => g.split? b) with
  | none => s
  | some q =>
    let s := s.modGroup gid (fun g =>
      { g with
        ll := g.ll.map (fun l => if l.sp == b then { l with sp := a } else l)
        splits := (g.splits.filter (fun p => p.id != b)).map (fun p => if p.id == a then
          { p.wake s.clock with
            pst := p.pst ++ q.pst, posted := p.posted ++ q.posted
            ctl := { p.ctl with
              mask := p.ctl.mask ||| q.ctl.mask, stack := unionStack p.ctl.stack q.ctl.stack
              pc := if atHdr then h else p.ctl.pc
              atHdr := atHdr || p.ctl.atHdr } } else p) })
    { s with
      parked := dropParked (fun w => w == (gid, b)) s.parked
      serving := s.serving.filter (fun e => e.who != (gid, b))
      blockQ := s.blockQ.map (fun r => if r.gid == gid && r.sp == b then { r with sp := a } else r)
      cmds := s.cmds.map (fun c => if c.cmd.gid == gid && c.cmd.sp == b then { c with cmd := { c.cmd with sp := a } } else c)
      cur := if s.cur == (gid, b) then (gid, a) else s.cur }

/-- The wait set of a header holds for the current split (R23), but for CH, which is looked at first. -/
def waitSetOk (s : State) (hdr : Nat) : Bool :=
  let g := s.g
  let p := s.sp
  let load (k : Nat) : Bool := g.ll.any (fun l => l.sp == p.id && l.load == k)
  !(bitAt hdr 46 && (p.chunk.isSome || !p.pst.isEmpty))
    && !(bitAt hdr 45 && p.posted.any (fun k => s.postedSlot g k))
    && !(bitAt hdr 44 && s.cmds.any (fun c => c.cmd.gid == g.gid && c.cmd.sp == p.id && c.stage == .port))
    && !(bitAt hdr 43 && g.latch.isSome)
    && !(bitAt hdr 42 && !p.pst.isEmpty)
    && !(bitAt hdr 41 && load 1)
    && !(bitAt hdr 40 && load 2)

/-- A trap at a header (R26, R118, R264), which is no last word of its clause but in portable code (R482, R496). -/
def trapHdr (s : State) (cause : Nat) (info : Word) (pair : Bool := false) : State :=
  let s := s.modCtl (fun c => { c with hdrAddr := c.pc, hdr := if c.portable then 0 else info })
  raiseTrapAt s cause s.ctl.mask s.ctl.pc info pair false {} s.ctl.portable

/-- A boundary of a cause of its own ends narrow mode where no chunk is open (R303). -/
def endNarrow (s : State) : State := s.modSp (fun p => { p with narrow := p.narrow && p.chunk.isSome })

/-- The split's wait, with a chunk that has executed no word dropped. -/
def holdAt (s : State) (w : Wait) : State := dropEmptyChunk (s.modSp (fun p => { p with wait := some w }))

/-- The wait set, and the entry into the clause (R23, R24), with which the split becomes ready anew (R111). -/
def enterClause (s : State) (hdr : Nat) : State :=
  let ch := bitAt hdr 46
  let s := if ch then endNarrow (dropEmptyChunk s) else s
  if ch && s.sp.chunk.isSome then (closeChunk s false).modSp (fun p => { p with wait := some .commit })
  else if !waitSetOk s hdr then s.modSp (fun p => { p with wait := some .waitSet })
  else
    s.modSp (fun p =>
      { p with
        stamp := s.clock, since := s.clock, wait := none
        ctl := { p.ctl with
          hdrAddr := p.ctl.pc, hdr := BitVec.ofNat 64 hdr, atHdr := false, skipLeft := 0
          pc := if p.ctl.portable then p.ctl.pc else p.ctl.pc + 8 } })

/-- STACK at a header where the split would merge (R118): in portable code its words are the instruction's there (R496). -/
def mergeTrap (s : State) (hdr : Nat) : State :=
  let pc := s.ctl.pc.toNat
  if !(s.ctl.portable && bitAt hdr 23) then trapHdr s 0x05 (BitVec.ofNat 64 hdr)
  else match fetchAt s s.g (pc + 4) 4 with
  | (.miss h o pg k, s) => holdAt (park s s.cur s.slotNo s.g.core none .fetch h o pg k) .parked
  | (.viol, s) => trapHdr s 0x05 (BitVec.ofNat 64 hdr) true
  | (.word e, s) => trapHdr s 0x05 (BitVec.ofNat 64 (hdr + e * 2 ^ 32)) true

/-- R117 at a header whose word has been checked: where other splits stand there, the chunk ends (R289), and the split merges
with the first that it may merge with and that has no chunk; or else it enters the clause. A portable word 0 counts as a header
(R496). -/
def mergeOrEnter (s : State) (hdr : Nat) : State :=
  let g := s.g
  let p := s.sp
  let enter (s : State) : State := enterClause s (if p.ctl.portable then 0 else hdr)
  if !g.splits.any (fun q => q.id != p.id && standsAt p.ctl.pc q) then enter s
  else
  let s := endNarrow (dropEmptyChunk s)
  if s.sp.chunk.isSome then (closeChunk s false).modSp (fun p => { p with wait := some .commit })
  else match g.splits.find? (fun q => q.id != p.id && standsAt p.ctl.pc q && mayMerge p q && q.chunk.isNone) with
  | none => enter s
  | some q =>
    if 32 < (unionStack p.ctl.stack q.ctl.stack).length then mergeTrap s hdr
    else mergeSplits s g.gid (min p.id q.id) (max p.id q.id) p.ctl.pc true

/-- The current split fetches the clause header at its pc (R26, R116). -/
def fetchHeader (s : State) : State :=
  let g := s.g
  let p := s.sp
  let c := p.ctl
  if !c.atHdr || p.pend.isSome || p.born.isSome || p.bar.isSome then s
  else if (match p.chunk with | some x => x.closed | none => false) then s.modSp (fun p => { p with wait := some .commit })
  else if s.parked.any (fun q => q.who == s.cur) then s.modSp (fun p => { p with wait := some .parked })
  else
    let lower : Option (StackEntry × List StackEntry) := match c.stack with
      | e :: r => if e.addr.toNat < c.pc.toNat then some (e, r) else none
      | [] => none
    match lower with
    | some (e, r) => s.modCtl (fun c => c.goEntry e (pushEntry ⟨c.pc, c.pc, 0, c.mask⟩ r))
    | none =>
      let join (s : State) : State := match c.stack with
        | e :: r => if e.addr == c.pc then s.modCtl (fun c => { c with mask := c.mask ||| e.mask, stack := r }) else s
        | [] => s
      match fetchAt s g c.pc.toNat (if c.portable then 4 else 8) with
      | (.miss h o pg k, s) => holdAt (park s s.cur (s.gridOf g).slot g.core none .fetch h o pg k) .parked
      | (.viol, s) => trapHdr (join s) 0x0B 0
      | (.word w, s) => if c.portable || headerOk w then mergeOrEnter (join s) w else trapHdr (join s) 0x11 (BitVec.ofNat 64 w)

/-- CLAUSE_HEADER_FETCH. -/
def execClauseHeaderFetch (s : State) : Host.Outcome State Fault Refusal := event s.hasCur fetchHeader s

end Sys2Proof.Machine
end

