-- ==== Sys2Proof/Machine/Barrier.lean ====
section
/-! DEFINITION. The completion and release of barriers (R121 to R124), and of the barrier wire tree's instances (R125). -/

namespace Sys2Proof.Machine

open Sys2Proof

/-! ### bar (R121, R123) -/

/-- A split waits at a barrier of a scope and identifier. -/
def Split.waitsAt (p : Split) (scope id : Nat) : Bool :=
  match p.bar with
  | some b => b.scope == scope && b.id == id
  | none => false

/-- Every participant has arrived, and some split waits; the clusters of a grid that have not been placed have not
arrived. -/
def barDone (s : State) (scope obj id : Nat) : Bool :=
  let gs := (barGroups s scope obj).filter (fun g => g.takesPart scope id)
  gs.any (fun g => !g.splits.isEmpty) && gs.all (fun g => g.splits.all (fun p => p.waitsAt scope id))
    && (scope != 3 || (match s.grid? obj with | some r => r.next == r.gx * r.gy * r.gz | none => false))

/-- A split goes on after its barrier. -/
def Split.go (now : Nat) (p : Split) : Split := { p.wake now with bar := none }

/-- Two splits stand after the same `bar`, and may merge (R117, R123). -/
def sameBar (p q : Split) : Bool :=
  p.id != q.id && p.ctl.pc == q.ctl.pc && p.ctl.hdrAddr == q.ctl.hdrAddr && mayMerge p q
    && (unionStack p.ctl.stack q.ctl.stack).length ≤ 32

/-- The first two of the released splits of a group that may merge, the lower number first. -/
def barPair (g : Group) (ids : List Nat) : Option (Nat × Nat) :=
  let ps := g.splits.filter (fun p => ids.contains p.id)
  (ps.flatMap (fun p => (ps.filter (sameBar p)).map (fun q => (min p.id q.id, max p.id q.id)))).head?

/-- Merge released splits while two of them may merge. -/
def mergeBar (gid : Nat) (ids : List Nat) : Nat → State → State
  | 0, s => s
  | n + 1, s =>
    match (s.group? gid).bind (fun g => barPair g ids) with
    | some (a, b) => mergeBar gid ids n (mergeSplits s gid a b 0 false)
    | none => s

/-- Release one group's splits that wait at the barrier. -/
def releaseGroup (s : State) (g : Group) (scope id : Nat) : State :=
  let ids := (g.splits.filter (fun p => p.waitsAt scope id)).map (fun p => p.id)
  let one (p : Split) : Split := if p.waitsAt scope id then p.go s.clock else p
  let s := s.modGroup g.gid (fun g =>
    { g with splits := g.splits.map one, exempt := g.exempt.filter (fun e => e != (scope, id)) })
  mergeBar g.gid ids 4 s

/-- R123. -/
def releaseBar (s : State) (scope obj id : Nat) : State :=
  (barGroups s scope obj).foldl (fun s g => if g.takesPart scope id then releaseGroup s g scope id
    else s.modGroup g.gid (fun g => { g with exempt := g.exempt.filter (fun e => e != (scope, id)) })) s

/-- BARRIER_RELEASE. -/
def execBarrierRelease (scope obj id : Nat) (s : State) : Host.Outcome State Fault Refusal :=
  event (scope < 4 && barDone s scope obj id) (fun s => releaseBar s scope obj id) s

/-! ### The wire tree (R125) -/

/-- Every participant with a nonzero count in force has received it. -/
def wireFull (s : State) (tag : Nat) : Bool :=
  (List.range 193).all (fun p => s.wireGot.get (256 * tag + p) == s.wireForce.get (256 * tag + p))

/-- A split whose arrival forms an instance of its own, 96 cycles after it: scope 5, and scope 4 while the tag has no
participants. -/
def wireOwn (s : State) (tag : Nat) (p : Split) : Bool :=
  match p.bar with
  | some b => (b.scope == 5 || (b.scope == 4 && !wireAny s tag)) && b.id == tag && b.arrivedAt + 96 ≤ s.clock
  | none => false

/-- A tag gets participants: the instances that single arrivals have formed stay apart from its next one. -/
def wireApart (s : State) (tag : Nat) : State :=
  let one (p : Split) : Split := { p with bar := p.bar.map (fun b => if b.scope == 4 && b.id == tag then { b with scope := 5 } else b) }
  { s with groups := s.groups.map (fun g => { g with splits := g.splits.map one }) }

/-- A split that waits in the open instance. -/
def wireOpen (tag : Nat) (p : Split) : Bool :=
  match p.bar with
  | some b => b.scope == 4 && b.id == tag && !b.next
  | none => false

/-- The open instance is complete and 96 cycles have passed. -/
def wireDue (s : State) (tag : Nat) : Bool :=
  wireAny s tag && wireFull s tag && (s.wireLast.get tag).toNat + 96 ≤ s.clock

/-- The tag has something to release. -/
def wireOk (s : State) (tag : Nat) : Bool := wireDue s tag || s.groups.any (fun g => g.splits.any (wireOwn s tag))

/-- Release the splits that a test names, group by group. -/
def wireRelease (s : State) (sel : Split → Bool) : State :=
  s.groups.foldl (fun s g =>
    let ids := (g.splits.filter sel).map (fun p => p.id)
    if ids.isEmpty then s
    else
      let s := s.modGroup g.gid (fun g => { g with splits := g.splits.map (fun p => if sel p then p.go s.clock else p) })
      mergeBar g.gid ids 4 s) s

/-- An arrival held for the next instance counts in it, or is held again. -/
def wireReplay (tag : Nat) (s : State) (g : Group) : State :=
  g.splits.foldl (fun s p => match p.bar with
    | some b =>
      if b.scope == 4 && b.id == tag && b.next then
        let r := wireCountOne s tag g.core
        r.1.modSplitOf g.gid p.id (fun p =>
          { p with bar := some { b with arrivedAt := s.clock, counted := r.2.1, next := r.2.2 } })
      else s
    | none => s) s

/-- The management controller's arrival; one beyond its count is held, in the count after the last participant's. -/
def wireMc (s : State) (tag : Nat) : State :=
  let r := wireCountOne s tag 192
  if r.2.2 then { r.1 with wireGot := r.1.wireGot.set (256 * tag + 193) (r.1.wireGot.get (256 * tag + 193) + 1) } else r.1

/-- The management controller's held arrivals count in the instance that opens. -/
def wireMcReplay (tag : Nat) : Nat → State → State
  | 0, s => s
  | n + 1, s => wireMcReplay tag n (wireMc s tag)

/-- The next instance opens: counts in force are those set, received counts are 0, and held arrivals count. -/
def wireNext (s : State) (tag : Nat) : State :=
  let mc := (s.wireGot.get (256 * tag + 193)).toNat
  let s := { s with
    wireForce := (List.range 193).foldl (fun c p => c.set (256 * tag + p) (s.wireCount.get (256 * tag + p))) s.wireForce
    wireGot := (List.range 194).foldl (fun c p => c.set (256 * tag + p) 0) s.wireGot }
  wireMcReplay tag mc (s.groups.foldl (wireReplay tag) s)

/-- BARW_INSTANCE_RELEASE. -/
def execBarwInstanceRelease (tag : Nat) (s : State) : Host.Outcome State Fault Refusal :=
  event (tag < 8 && wireOk s tag) (fun s =>
    let s1 := wireRelease s (wireOwn s tag)
    if wireDue s tag then wireNext (wireRelease s1 (wireOpen tag)) tag else s1) s

end Sys2Proof.Machine
end

