-- ==== Sys2Proof/Machine/Float.lean ====
section
/-! DEFINITION. The floating-point instructions 0x40 to 0x54 (R189, R208 to R220) and the conversions cvt, qnt and
dqnt (R88 to R93). -/

namespace Sys2Proof.Machine

open Sys2Proof

/-- A float instruction of type m<7:4> and rounding code m<3:1>: `op` on the codes of a, b and c. -/
def fltBody (i : Instr) (w : RWord) (rc : Nat) (op : FFmt → FpEnv → Nat → Nat → Nat → FRes) (s : State) : Act :=
  let tc := mTc w.m
  fpLanes i s w.d (tyN tc) rc (fun env l =>
    op (Ty.ofCode tc).fmt env (srcT s w.a tc l) (srcT s w.b tc l) (srcT s w.c tc l))

def execFadd (w : RWord) (s : State) : Host.Outcome State Fault Refusal :=
  core (.fadd w) (fltBody (.fadd w) w (mRnd w.m) (fun f e a b _ => fadd f e a b)) s
def execFsub (w : RWord) (s : State) : Host.Outcome State Fault Refusal :=
  core (.fsub w) (fltBody (.fsub w) w (mRnd w.m) (fun f e a b _ => fsub f e a b)) s
def execFmul (w : RWord) (s : State) : Host.Outcome State Fault Refusal :=
  core (.fmul w) (fltBody (.fmul w) w (mRnd w.m) (fun f e a b _ => fmul f e a b)) s
def execFfma (w : RWord) (s : State) : Host.Outcome State Fault Refusal :=
  core (.ffma w) (fltBody (.ffma w) w (mRnd w.m) ffma) s
def execFmin (w : RWord) (s : State) : Host.Outcome State Fault Refusal :=
  core (.fmin w) (fltBody (.fmin w) w 0 (fun f e a b _ => fminmax f e false (mBit0 w.m) a b)) s
def execFmax (w : RWord) (s : State) : Host.Outcome State Fault Refusal :=
  core (.fmax w) (fltBody (.fmax w) w 0 (fun f e a b _ => fminmax f e true (mBit0 w.m) a b)) s
def execFrcp (w : RWord) (s : State) : Host.Outcome State Fault Refusal :=
  core (.frcp w) (fltBody (.frcp w) w (mRnd w.m) (fun f e a _ _ => frcp f e a)) s
def execFrsq (w : RWord) (s : State) : Host.Outcome State Fault Refusal :=
  core (.frsq w) (fltBody (.frsq w) w (mRnd w.m) (fun f e a _ _ => frsq f e a)) s
def execFsqrt (w : RWord) (s : State) : Host.Outcome State Fault Refusal :=
  core (.fsqrt w) (fltBody (.fsqrt w) w (mRnd w.m) (fun f e a _ _ => fsqrt f e a)) s
def execFexp2 (w : RWord) (s : State) : Host.Outcome State Fault Refusal :=
  core (.fexp2 w) (fltBody (.fexp2 w) w 0 (fun f e a _ _ => fexp2 f e a)) s
def execFlog2 (w : RWord) (s : State) : Host.Outcome State Fault Refusal :=
  core (.flog2 w) (fltBody (.flog2 w) w 0 (fun f e a _ _ => flog2 f e a)) s

def bodyFcmp (w : RWord) (s : State) : Act :=
  let tc := mTc w.m
  cmpLanes (.fcmp w) s w.d (fun l =>
    fcmp (Ty.ofCode tc).fmt (fpEnv s 0 l) w.c.toNat (srcT s w.a tc l) (srcT s w.b tc l))
def execFcmp (w : RWord) (s : State) : Host.Outcome State Fault Refusal := core (.fcmp w) (bodyFcmp w) s

def bodyFclass (w : RWord) (s : State) : Act :=
  let tc := mTc w.m
  intLanes (.fclass w) s w.d 1 (fun l => fclass (Ty.ofCode tc).fmt (srcT s w.a tc l))
def execFclass (w : RWord) (s : State) : Host.Outcome State Fault Refusal := core (.fclass w) (bodyFclass w) s

def bodyFsgn (w : RWord) (s : State) : Act :=
  let tc := mTc w.m
  intLanes (.fsgn w) s w.d (tyN tc) (fun l =>
    fsgn (Ty.ofCode tc).fmt w.c.toNat (srcT s w.a tc l) (srcT s w.b tc l))
def execFsgn (w : RWord) (s : State) : Host.Outcome State Fault Refusal := core (.fsgn w) (bodyFsgn w) s

/-- R216: c and d are f32. -/
def bodyFdot2 (w : RWord) (s : State) : Act :=
  let t := Ty.ofCode (mTc w.m)
  fpLanes (.fdot2 w) s w.d 1 (mRnd w.m) (fun env l => fdot2 t env (src32 s w.a l) (src32 s w.b l) (src32 s w.c l))
def execFdot2 (w : RWord) (s : State) : Host.Outcome State Fault Refusal := core (.fdot2 w) (bodyFdot2 w) s

def execFrnd (w : RWord) (s : State) : Host.Outcome State Fault Refusal :=
  core (.frnd w) (fltBody (.frnd w) w (mRnd w.m) (fun f e a _ _ => frnd f e (mBit0 w.m) a)) s

/-- R218: b is an i32. -/
def bodyFscale (w : RWord) (s : State) : Act :=
  let tc := mTc w.m
  fpLanes (.fscale w) s w.d (tyN tc) (mRnd w.m) (fun env l =>
    fscale (Ty.ofCode tc).fmt env (srcT s w.a tc l) (src32 s w.b l))
def execFscale (w : RWord) (s : State) : Host.Outcome State Fault Refusal := core (.fscale w) (bodyFscale w) s

/-- R220: the tree of R81 over the executing lanes; node n rounds with lane number n. -/
def bodyFredu (w : RWord) (s : State) : Act :=
  let tc := mTc w.m
  let f := (Ty.ofCode tc).fmt
  let m := s.exec (.fredu w)
  let rc := mRnd w.m
  let vals := (List.range 32).map (fun l =>
    if m.getLsbD l then
      let x := srcT s w.a tc l
      -- FTZI applies to the lanes' values alone; every other code passes as it is
      some (match f.decode x, f.flushIn (fpEnv s 0 l) (f.decode x) with
        | .fin _ mg _, .fin sg 0 _ => if mg = 0 then x else f.signBit sg
        | _, _ => x)
    else none)
  let comb (node x y : Nat) : FRes :=
    f.combine { fpEnv s rc node with ftzi := false } w.c.toNat (mBit0 w.m) (f.decode x) (f.decode y)
  let r := treeReduce comb vals
  match r.1 with
  | none => wrote (drawSr s rc) { cnt := srCount s rc }
  | some v =>
    finishFlags (drawSr s rc) { s := [(rnum w.d, BitVec.ofNat 64 v)], fl := [(lowest m, r.2)], cnt := srCount s rc } false m
def execFredu (w : RWord) (s : State) : Host.Outcome State Fault Refusal := core (.fredu w) (bodyFredu w) s

/-! ### Conversions -/

/-- cvt of one code (R89): an ix4 slot has no partner, so 0b1000 is an invalid code. -/
def cvtVal (st dt : Ty) (env : FpEnv) (x : Nat) : FRes :=
  if st == .ix4 && x % 16 == 8 then
    let r := convert dt env .convert (.ofInt 0)
    ⟨r.code, r.fl ||| fICW⟩
  else if st.isInt && st == dt then ⟨x % 2 ^ st.width, 0⟩
  else convert dt env .convert (tyFlushIn st env (tyValue st x))

def bodyCvt (w : RWord) (s : State) : Act :=
  let st := w.b.toNat
  let dt := mTc w.m
  fpLanes (.cvt w) s w.d (tyN dt) (mRnd w.m) (fun env l => cvtVal (Ty.ofCode st) (Ty.ofCode dt) env (srcT s w.a st l))
def execCvt (w : RWord) (s : State) : Host.Outcome State Fault Refusal := core (.cvt w) (bodyCvt w) s

/-- The rounding code of `qnt`: a dyn that resolves to neither rne nor sr is rne (R90). -/
def qntCode (s : State) (w : RWord) : Nat :=
  let m := roundMode s (mRnd w.m)
  if m == 5 then 5 else 0

/-- R91: the executing lanes form the block; lanes with a NaN or an infinity raise NV. -/
def bodyQnt (w : RWord) (s : State) : Act :=
  let m := s.exec (.qnt w)
  let rc := qntCode s w
  let t := Ty.ofCode (mTc w.m)
  if m == 0 then wrote (drawSr s rc) { cnt := srCount s rc }
  else
    let f := Ty.f32.fmt
    let xs := (List.range 32).map (fun l =>
      if m.getLsbD l then some (f.flushIn (fpEnv s 0 l) (f.decode (src32 s w.a l))) else none)
    let ts := (List.range 32).map (fun l => (fpEnv s rc l).t)
    let q := quantise t (fpEnv s rc 0) (mBit0 w.m) ts xs
    let codes := (List.range 32).filterMap (fun l => (q.2.1.getD l none).map (fun c => (l, c)))
    let bad := (lanesOf m).filter (fun l => match xs.getD l none with | some v => v.isNan || v.isInf | none => false)
    let fl := if bad.isEmpty then [(lowest m, q.2.2)] else bad.map (fun l => (l, fNV))
    let wr := wrDst w.d 1 codes
    finishFlags (drawSr s rc) { wr with s := [(rnum w.c, BitVec.ofNat 64 q.1)], fl := fl, cnt := srCount s rc } false m
def execQnt (w : RWord) (s : State) : Host.Outcome State Fault Refusal := core (.qnt w) (bodyQnt w) s

/-- R93: one element dequantised; lo and hi are the ix4 slots of the lane's pair. -/
def dqntVal (t : Ty) (env : FpEnv) (lane x lo hi sc : Nat) : FRes :=
  let v : FV × Flags :=
    if t == .ix4 then
      if lo == 8 then ((if lane % 2 == 0 then tyValue .e4m3 (hi * 16 + 8) else .ofInt 0), 0)
      else if lane % 2 == 1 && hi == 8 then (.ofInt 0, fICW)
      else (.ofInt (toSigned 4 (if lane % 2 == 0 then lo else hi)), 0)
    else (tyFlushIn t env (tyValue t x), 0)
  if sc == 0xFF then ⟨Ty.f32.fmt.defNan, v.2 ||| fNV⟩
  else
    let r := convert .f32 env .convert (v.1.scale ((sc : Int) - 127))
    ⟨r.code, r.fl ||| v.2⟩

/-- R93. DESIGN CHOICE, log 107: an ix4 partner lane that is active in another split supplies the register as the group holds
it now. -/
def bodyDqnt (w : RWord) (s : State) : Act :=
  let t := Ty.ofCode (mTc w.m)
  fpLanes (.dqnt w) s w.d 1 (mRnd w.m) (fun env l =>
    dqntVal t env l (srcT s w.a (mTc w.m) l) (src32 s w.a (l / 2 * 2) % 16) (src32 s w.a (l / 2 * 2 + 1) % 16)
      (src32 s w.b l % 256))
def execDqnt (w : RWord) (s : State) : Host.Outcome State Fault Refusal := core (.dqnt w) (bodyDqnt w) s

end Sys2Proof.Machine
end

