-- ==== Sys2Proof/Machine/Global.lean ====
section
/-! DEFINITION. The global instructions (R278 to R287) and the symbol load and store (R348, R349). -/

namespace Sys2Proof.Machine

open Sys2Proof

/-- The data of a global store or atomic in a lane. -/
def gData (s : State) (w : MWord) (lane : Nat) : Nat := s.regs.src w.d (szN w.size) lane % 2 ^ (8 * szB w.size)

/-- R278. -/
def bodyLdg (w : MWord) (s : State) : Act :=
  let i := Instr.ldg w
  let as := globalLanes s i w
  if as.isEmpty then .done s
  else globalRead i (onceM w) (szB w.size) as s (fun s vals =>
    .done (longWrite s (wrDst w.d (szN w.size) vals) (regsOf w.d (szN w.size)) 2))
def execLdg (w : MWord) (s : State) : Host.Outcome State Fault Refusal := core (.ldg w) (bodyLdg w) s

/-- The lines of peers for which the lanes have no leave yet (R264), which comes before any lane acts, so that a refused one
leaves no effect. `need`: 2 to change words, 3 to write. -/
def leaveNeed (s : State) (need : Nat) (as : List (Nat × Nat)) : List Nat :=
  (as.filterMap (fun e => match place s e.2 with
    | some (.peer _ _ _) =>
      if s.sp.peerData.any (fun l => l.1 == leaveKey need (lineAddr e.2)) then none else some (lineAddr e.2)
    | _ => none)).eraseDups

/-- Ask a peer for leave. -/
def askLeave (need : Nat) (s : State) (a : Nat) : State := askPeer s s.cur s.slotNo a need

/-- Leave that peers gave for a store that is issued. -/
def useLeave (s : State) : State := if s.sp.peerData.isEmpty then s else s.modSp (fun p => { p with peerData := [] })

/-- A lane names the package by its own number: it orders at system scope (R254). -/
def ownNumber (s : State) (as : List (Nat × Nat)) : Bool :=
  as.any (fun e => match place s e.2 with | some (.dev _ _) => vaSpace e.2 == 1 | _ => false)

/-- A release at system scope (R254, R278), that of a word of revision 0 among them (R310): earlier stores at peers are to be
applied there first. -/
def sysRelease (s : State) (i : Instr) (w : MWord) (as : List (Nat × Nat)) : Bool :=
  let rel := match i with | .stg _ => w.sub.toNat % 4 == 2 | _ => false
  (rel && w.scope == 3) || ((rel || s.rev0) && ownNumber s as)

/-- A plain or streaming store (R278, R283). -/
def globalStore (i : Instr) (w : MWord) (s : State) : Act :=
  let as := globalLanes s i w
  let n := szB w.size
  if as.isEmpty then .done s
  else if sysRelease s i w as && !s.chunkedMode && batchesOwed s then .wait .drain s
  else
    match checkGlobal s i (onceM w) .write n (!s.chunkedMode) as with
    | .stop a => a
    | .ok s =>
      let need := leaveNeed s 3 as
      if !need.isEmpty then .wait .peer (need.foldl (askLeave 3) s)
      else storeAct (useLeave s) (as.map (fun e => .bytes (normal s e.2) (leBytes n (gData s w e.1))))
        (as.flatMap (fun e => linesOf (normal s e.2) n))

def execStg (w : MWord) (s : State) : Host.Outcome State Fault Refusal := core (.stg w) (globalStore (.stg w) w) s
def execStgs (w : MWord) (s : State) : Host.Outcome State Fault Refusal := core (.stgs w) (globalStore (.stgs w) w) s

/-- Lanes at host memory (R268). -/
def hostLanes (s : State) (as : List (Nat × Nat)) : List Nat :=
  (as.filter (fun e => match place s e.2 with | some (.host _) => true | _ => false)).map (fun e => e.1)

/-- R284. -/
def bodyRed (w : MWord) (s : State) : Act :=
  let i := Instr.red w
  let as := globalLanes s i w
  let n := szB w.size
  let op := w.sub.toNat
  if as.isEmpty then .done s
  else if sysRelease s i w as && !s.chunkedMode && batchesOwed s then .wait .drain s
  else
    match checkGlobal s i (onceM w) .red n (!s.chunkedMode) as with
    | .stop a => a
    | .ok s =>
      let h := if op == 1 then [] else hostLanes s as
      let canon := if op == 10 && reproOn s then some s.g.core else none
      if !h.isEmpty then .trap 0x0B (meetM s i (onceM w) h)
      else storeAct s (as.map (fun e => .red (normal s e.2) op n (gData s w e.1) canon))
        (as.flatMap (fun e => linesOf (normal s e.2) n))
def execRed (w : MWord) (s : State) : Host.Outcome State Fault Refusal := core (.red w) (bodyRed w) s

/-! ### Acts at a home: atomics and the symbol store of relaxed mode (R279, R280, R268, R269, R319, R520) -/

/-- The place of a byte of a page: host memory or not, and the physical address. -/
def physAt (h : Bool) (o inPage : Nat) (l : Leaf) : Bool × Nat := (h, if h then l.frame + inPage else phys o (l.frame + inPage))

def physRead (s : State) (h : Bool) (k n : Nat) : List Byte := if h then Cells.read s.hostMem k n else s.memRead k n
def physWrite (s : State) (h : Bool) (k : Nat) (d : List Byte) : State :=
  if h then s.hostWrite k d else s.memWrite k d

/-- The reply of the split's outstanding peer atomic: its bytes once it has come. -/
def peerReply (s : State) : Option PeerReq := s.peerReqs.find? (fun q => (q.gid, q.sp) == s.cur && q.op.isSome)

/-- Send a peer atomic: op, operand and comparand at an address. -/
def askAtom (s : State) (a n op x cmp : Nat) : State :=
  let k := vaPkg a
  match s.portTo k with
  | none => s
  | some port =>
    if 64 ≤ (s.peerReqs.filter (fun q => q.port == port && q.reply.isNone)).length || !portRoom s port then s
    else
      let tag := (s.nextTag.get k).toNat
      let asid := s.asid s.slotNo
      let x := leBytes (if op == symCode then 16 else n) x
      let c := leBytes (if op == symCode then 8 else n) cmp
      let q : PeerReq := { tag := tag, pkg := k, port := port, addr := a, len := n, asid := asid, gid := s.cur.1, sp := s.cur.2
                           op := some (op, x, c) }
      sendTo { s with peerReqs := s.peerReqs ++ [q], nextTag := s.nextTag.set k (s.nextTag.get k + 1) } k 1
        (.atomReq s.pkg tag a op n asid x c false)

/-- A lane has completed with its old value. -/
def laneDone (s : State) (lane old : Nat) : State :=
  s.modSp (fun p => { p with feDone := p.feDone ||| maskOf [lane], feVals := p.feVals ++ [(lane, old)]
                             plan := p.plan.filter (fun e => e.1 != lane) })

/-- What a lane keeps: the old value, and for `sst`, above it, whether its value had no symbol. -/
def laneKeep (op old cmp : Nat) : Nat := if op == symCode then old % 2 ^ 64 + cmp / 2 ^ 64 * 2 ^ 64 else old

/-- One lane of an atomic or `sst` in this package's memory or the host's, at its physical place. DESIGN CHOICE, log 74: the host-port
home does an `sst` in one step, and reports it as it does a host atomic. -/
def atomHome (s : State) (op n lane a x cmp : Nat) (h : Bool) (k : Nat) : State :=
  let old := ofBytes (physRead s h k n)
  let r := homeOp op (8 * n) old x cmp
  let s := directFlags s r.2
  let s := match r.1 with
    | none => s
    | some v => conflict (physWrite s h k (leBytes n v)) (linesOf (normal s a) n) s.g.tid s.cl.cid s.cur none
  let s := if h then { s with out := s.out ++ [.hostAtomic k] } else s
  laneDone s lane (laneKeep op old cmp)

/-- Where a lane has been translated to, or is now. -/
def lanePlace (s : State) (lane a : Nat) : Option (Bool × Nat) :=
  match s.sp.places.find? (fun e => e.1 == lane) with
  | some e => some e.2
  | none => match access s s.slotNo .atomic a with
    | .hit h o inPage l => some (physAt h o inPage l)
    | _ => none

/-- A word of a peer has been changed there: copies of its line go, here and, by a batch that lists it, elsewhere (R310, R314, R316);
log 68. -/
def peerChanged (s : State) (a n : Nat) : State := sendBatch s (s.asid s.slotNo) [] (linesOf (normal s a) n) none

/-- The remaining lanes that violate, with one that a peer has refused. -/
def lanesRefused (s : State) (lane : Nat) : List Nat :=
  (s.sp.plan.filter (fun e => e.1 == lane || (match access s s.slotNo .atomic e.2.1 with
    | .viol | .bad | .noStore => (lanePlace s e.1 e.2.1).isNone
    | _ => false))).map (fun e => e.1)

/-- The lanes that remain, in increasing order (R279); a peer's lane waits for its reply, and its flags follow from the old
value (R247). -/
def atomAdvance (i : Instr) (once : Bool) (op n : Nat) : Nat → State → Act
  | 0, s => .done s
  | k + 1, s =>
    match s.sp.plan with
    | [] => .done s
    | (lane, a, x, cmp) :: _ =>
      let refused (s : State) : Act := .part 0x0B (meetM s i once (lanesRefused s lane)) s
      if reservedBlocks s (linesOf (normal s a) n) s.g.core s.cur none then .wait .line s
      else match lanePlace s lane a with
      | some (h, q) => atomAdvance i once op n k (atomHome s op n lane a x cmp h q)
      | none =>
        match access s s.slotNo .atomic a with
        | .peer _ =>
          (match peerReply s with
          | none => .wait .peer (askAtom s a n op x cmp)
          | some q =>
            match q.reply with
            | none => .wait .peer s
            | some (b, _) =>
              let r := homeOp op (8 * n) (ofBytes b) x cmp
              let wrote := !b.isEmpty && r.1.isSome
              let s' := { s with peerReqs := s.peerReqs.erase q }
              if wrote && !batchRoom s then .wait .peer s
              else if b.isEmpty then refused s'
              else
                let s := directFlags (if wrote then peerChanged s' a n else s') r.2
                atomAdvance i once op n k (laneDone s lane (laneKeep op (ofBytes b) cmp)))
        | .miss h o p k' => .wait .parked (park s s.cur s.slotNo s.g.core none .atomic h o p k')
        | _ => refused s

/-- The lanes are to act at their homes, where they have been translated to. -/
def beginLanes (s : State) (plan : List (Nat × Nat × Nat × Nat)) : State :=
  let s := s.modSp (fun p => { p with places := [] })
  let at_ := plan.filterMap (fun e => (lanePlace s e.1 e.2.1).map (fun x => (e.1, x)))
  s.modSp (fun p => { p with plan := plan, places := at_, peerData := [], bad := [] })

/-- The lanes have acted, or those that remain do not. -/
def endLanes (s : State) : State :=
  (s.modSp (fun p => { p with feDone := 0, feVals := [], plan := [], places := [] })).modG (fun g =>
    { g with ll := g.ll.filter (fun l => !(l.sp == s.cur.2 && l.load == 3)) })

/-- The end of lanes of which one has been refused. -/
def endPart : Act → Act
  | .part c m s => .part c m (endLanes s)
  | a => a

/-- The lanes of atomg and casg with their addresses: casg has no index. -/
def gAtomLanes (s : State) (i : Instr) (cas : Bool) (w : MWord) : List (Nat × Nat) :=
  if cas then (memLanes s i w).map (fun l => (l, wrap 64 ((s.regs.src w.a 2 l : Int) + off9 w * szB w.size)))
  else globalLanes s i w

/-- atomg and casg. A system-scope one first waits for the batches of earlier chunks, and makes later peer reads ignore
the peer line cache (R320). -/
def bodyAtomG (i : Instr) (cas : Bool) (w : MWord) (s : State) : Act :=
  let n := szB w.size
  let op := if cas then 9 else w.sub.toNat
  let started := !s.sp.plan.isEmpty || s.sp.feDone != 0
  let as := gAtomLanes s i cas w
  let sys := w.scope == 3 || as.any (fun e => vaSpace e.2 != 0)
  if !started && as.isEmpty then .done s
  else if !started && sys && batchesOwed s then .wait .drain s
  else
    match if started then GChk.ok s else checkGlobal s i (onceM w) .atomic n true as with
    | .stop a => a
    | .ok s =>
      let h := if cas || op ≤ 1 then [] else hostLanes s as
      let need := leaveNeed s 2 as
      if !started && !h.isEmpty then .trap 0x0B (meetM s i (onceM w) h)
      else if !started && !need.isEmpty then .wait .peer (need.foldl (askLeave 2) s)
      else
        let s := if started then s
          else longWrite (beginLanes s (as.map (fun e =>
            (e.1, e.2, gData s w e.1, if cas then s.regs.src w.b (szN w.size) e.1 % 2 ^ (8 * n) else 0)))) {} (regsOf w.d (szN w.size)) 3
        match atomAdvance i (onceM w) op n 33 s with
        | .done s =>
          let vals := s.sp.feVals
          let s := endLanes s
          let s := if sys then { s with peerLines := [] } else s
          .done (longWrite s (wrDst w.d (szN w.size) vals) (regsOf w.d (szN w.size)) 2)
        | a => endPart a

def execAtomg (w : MWord) (s : State) : Host.Outcome State Fault Refusal := core (.atomg w) (bodyAtomG (.atomg w) false w) s
def execCasg (w : MWord) (s : State) : Host.Outcome State Fault Refusal := core (.casg w) (bodyAtomG (.casg w) true w) s

/-- R281: no visible effect, and no trap on an address. -/
def execPref (w : MWord) (s : State) : Host.Outcome State Fault Refusal := core (.pref w) (fun s => .done s) s

/-! ### ldgc (R282) -/

/-- The first and last bytes of `k` sectors of a slot. -/
def sectorEnds (slot k : Nat) : List Nat := (List.range k).flatMap (fun j => [slot + 64 * j, slot + 64 * j + 63])

/-- n bytes of a slot, at an offset, as the chunk reads them. -/
def slotBytes (s : State) (slot o n : Nat) : Nat :=
  ofBytes ((List.range n).flatMap (fun (k : Nat) => (globalBytes s (wrap 64 ((slot : Int) + o + k)) 1).getD [0]))

/-- The sectors that a slot's header calls for (R272, R273). -/
def sectorsOf (d64 : Bool) (rd : Nat → Nat → Nat) : Nat :=
  if d64 then (match rd 0 1 with | 0 => 1 | 1 => 2 | 2 => 3 | 3 => 5 | _ => 1)
  else (8 + 4 * onesBelow (rd 0 8) 64 + 63) / 64

/-- Read the ends of sectors of each lane's slot under the checks of a load, then go on. -/
def readSlots (i : Instr) (ends : List (Nat × Nat)) (s : State) (go : State → Act) : Act :=
  readOn i false ends s go

/-- The keys of every line of a slot of 320 bytes (R296). -/
def slotKeys (s : State) (slot : Nat) : List Nat :=
  (List.range 5).flatMap (fun (j : Nat) => linesOf (normal s (wrap 64 ((slot : Int) + 64 * j))) 64)

/-- The split's own `red` targets bytes of a slot. -/
def slotRed (s : State) (slot : Nat) : Bool :=
  (List.range 5).any (fun (j : Nat) => redHits s (normal s (wrap 64 ((slot : Int) + 64 * j))) 64)

def bodyLdgc (w : MWord) (s : State) : Act :=
  let i := Instr.ldgc w
  let n := szB w.size
  let d64 := w.sub.getLsbD 0
  let ls := (memLanes s i w).map (fun l => (l, idxGlobal s w.b l + off9 w * n))
  let slot (e : Nat × Int) : Nat := wrap 64 ((srcS s w.a : Int) + 320 * (e.2 / 256))
  let once := onceM w
  let keys := ls.flatMap (fun e => slotKeys s (slot e))
  let bad := (ls.filter (fun e => (place s (slot e)).isNone)).map (fun e => e.1)
  let odd := (ls.filter (fun e => e.2 % (n : Int) != 0)).map (fun e => e.1)
  if ls.isEmpty then .done s
  else if !bad.isEmpty then .trap 0x0B (meetM s i once bad)
  else if !odd.isEmpty then .trap 0x0C (meetM s i once odd)
  else if ls.any (fun e => slotRed s (slot e)) then (if s.sp.chunk.isSome then .cut else .wait .stores s)
  else if !readRoom s keys then .cut
  else
    readSlots i (ls.flatMap (fun e => (sectorEnds (slot e) 1).map (fun a => (e.1, a)))) s (fun s =>
      let rest := ls.flatMap (fun e => (sectorEnds (slot e) (sectorsOf d64 (slotBytes s (slot e)))).map (fun a => (e.1, a)))
      readSlots i rest s (fun s =>
        let val (e : Nat × Int) : List (Option Byte) :=
          (List.range n).map (fun k => blockByte d64 (slotBytes s (slot e)) (Int.toNat (e.2 % 256) + k))
        let vals : List (Nat × List (Option Byte)) := ls.map (fun e => (e.1, val e))
        let mal := (vals.filter (fun e => e.2.any Option.isNone)).map (fun e => e.1)
        if !mal.isEmpty then .trap 0x0B (meetM s i once mal)
        else .done (longWrite (noteReads (readDone s) keys) (wrDst w.d (szN w.size)
            (vals.map (fun e => (e.1, ofBytes (e.2.map (fun b => b.getD 0)))))) (regsOf w.d (szN w.size)) 2)))
def execLdgc (w : MWord) (s : State) : Host.Outcome State Fault Refusal := core (.ldgc w) (bodyLdgc w) s

/-! ### probe and migr (R286, R287) -/

/-- The owner, space and offset by which an address of this package or of host memory is translated. -/
def xlatePlace (s : State) (a : Nat) : Option (Bool × Nat × Nat) :=
  match place s a with
  | some (.dev o off) => some (false, o, off)
  | some (.host off) => some (true, 4, off)
  | _ => none

/-- The page size code of R286. -/
def sizeCode (n : Nat) : Nat := if n == 2 ^ 16 then 0 else if n == 2 ^ 21 then 1 else 2

/-- The status word of a page of a peer, whose table this package does not hold: a free value with the form of R286. -/
def peerProbe (v : Nat) : Nat :=
  if v % 2 == 0 then v % 4 else v % 64 + v / 64 % 3 * 64 + v / 256 % 2 * 256 + v / 512 % 3 * 512

/-- The status word of R286. -/
def probeWord (s : State) (lane a : Nat) : Nat :=
  let aper := if (aperTarget s (ownSpace s a)).isSome then 2 else 0
  match xlatePlace s a with
  | none => peerProbe (Config.freeValue (s.free + lane)).toNat
  | some (h, o, off) =>
    match xlate s s.slotNo h o off with
    | .leaf l =>
      let mig := s.migrations.any (fun g => g.die == o && g.asid == s.asid s.slotNo && g.host == h && g.base == l.base)
      sizeCode l.size * 512 + (if mig then 256 else 0) + l.comp * 64 + (if l.copy then 32 else 0) + (if l.x then 16 else 0)
        + (if l.w then 8 else 0) + (if l.rd then 4 else 0) + aper + 1
    | _ => aper

/-- R286. DESIGN CHOICE, log 105: the leaf's RD is not asked for, although R264 names probe beside the loads, since R286 has
the address checked by R253 only. -/
def bodyProbe (w : MWord) (s : State) : Act :=
  let i := Instr.probe w
  let as := globalLanes s i w
  let bad := (as.filter (fun e => (place s e.2).isNone)).map (fun e => e.1)
  if as.isEmpty then .done s
  else if !bad.isEmpty then .trap 0x0B (meetM s i (onceM w) bad)
  else
    let vals := as.map (fun e => (e.1, probeWord s e.1 e.2))
    let s := if as.any (fun e => (xlatePlace s e.2).isNone) then { s with free := s.free + 32 } else s
    .done (longWrite s (wrDst w.d 1 vals) (regsOf w.d 1) 2)
def execProbe (w : MWord) (s : State) : Host.Outcome State Fault Refusal := core (.probe w) (bodyProbe w) s

/-- One lane's page (R287): its status, and the state in which its migration has started or its miss is logged. DESIGN CHOICE,
log 106: the status of a page of a peer is a free value, one for all the lanes `first` names, and nothing is sent to the
peer. -/
def migrOne (s : State) (first a : Nat) : Nat × State :=
  match xlatePlace s a with
  | none => ((Config.freeValue (s.free + first)).toNat % 4, s)
  | some (h, o, off) =>
    let m (kind : Nat) : MissRec := missOf s s.slotNo h o (off / 256) kind 1 s.g.core 0
    match xlate s s.slotNo h o off with
    | .leaf l =>
      if !l.rd then (3, s)
      else if l.copy then (1, startMigration s s.slotNo h o (off / 256) (m 1))
      else (0, s)
    | _ => (2, addMiss s (m 0) (off / 256))

/-- The lanes in turn; `all` says which lane is the first of its 64 KiB page. -/
def migrAll (all : List (Nat × Nat)) (s : State) : List (Nat × Nat) → List (Nat × Nat) × State
  | [] => ([], s)
  | (lane, a) :: r =>
    let first := ((all.find? (fun e => e.2 / 2 ^ 16 == a / 2 ^ 16)).map (fun e => e.1)).getD lane
    let x := migrOne s first a
    let y := migrAll all x.2 r
    ((lane, x.1) :: y.1, y.2)

def bodyMigr (w : MWord) (s : State) : Act :=
  let i := Instr.migr w
  let as := globalLanes s i w
  let bad := (as.filter (fun e => (place s e.2).isNone)).map (fun e => e.1)
  let odd := (as.filter (fun e => e.2 % 4 != 0)).map (fun e => e.1)
  if as.isEmpty then .done s
  else if !bad.isEmpty then .trap 0x0B (meetM s i (onceM w) bad)
  else if !odd.isEmpty then .trap 0x0C (meetM s i (onceM w) odd)
  else
    let r := migrAll as s as
    let s := if as.any (fun e => (xlatePlace s e.2).isNone) then { r.2 with free := r.2.free + 32 } else r.2
    .done (longWrite s (wrDst w.d 1 r.1) (regsOf w.d 1) 2)
def execMigr (w : MWord) (s : State) : Host.Outcome State Fault Refusal := core (.migr w) (bodyMigr w) s

/-! ### sld and sst (R348, R349) -/

/-- The element of a lane: its word's address and its digit. -/
def symAt (s : State) (a : Alpha) (w : MWord) (lane : Nat) : Nat × Nat :=
  let e := wrap 64 ((s.regs.src w.b 1 lane : Int) + off9 w)
  (wrap 64 ((s.regs.src w.a 2 lane : Int) + (e / a.n) * (a.w / 8)), e % a.n)

/-- R335.1: a zero register, or a size that is not W's code. -/
def symBad (a : Alpha) (w : MWord) : Bool := a.r == 0 || a.w != 8 * szB w.size

def bodySld (w : MWord) (s : State) : Act :=
  let i := Instr.sld w
  let a := alphaAt s.regs w.sub.toNat
  let ls := memLanes s i w
  if ls.isEmpty then .done s
  else if symBad a w then .trap 0x12 (s.exec i)
  else
    globalRead i (onceM w) (a.w / 8) (ls.map (fun l => (l, (symAt s a w l).1))) s (fun s vals =>
      let rs := vals.map (fun e => (e.1, a.check e.2))
      let tr := (rs.filter (fun e => e.2.trap)).map (fun e => e.1)
      if !tr.isEmpty then .trap 0x0A (meetM s i (onceM w) tr)
      else
        let s' := if rs.any (fun e => e.2.flag) then raiseFlags s fICW else s
        .done (longWrite s' (wrDst w.d 1 (rs.map (fun e =>
          (e.1, valueOut w.d (a.val (a.digit e.2.x (symAt s a w e.1).2)))))) (regsOf w.d 1) 2))
def execSld (w : MWord) (s : State) : Host.Outcome State Fault Refusal := core (.sld w) (bodySld w) s

/-- The words as the lanes leave them, in increasing lane order (R337): each lane's word before it, checked, with its
digit. -/
def symFold (a : Alpha) (words : List (Nat × Nat)) : List (Nat × Nat × Nat × Chk) → List (Nat × Nat) × List (Nat × Chk)
  | [] => (words, [])
  | (lane, addr, j, g) :: r =>
    let x := ((words.find? (fun e => e.1 == addr)).map (fun e => e.2)).getD 0
    let c := a.check x
    let words' := if c.trap then words else (addr, a.replace c.x j g.x) :: words.filter (fun e => e.1 != addr)
    let rest := symFold a words' r
    (rest.1, (lane, c) :: rest.2)

/-- The lanes of an `sst` with their words, digit indices and symbols. -/
def symPlan (s : State) (a : Alpha) (w : MWord) (ls : List Nat) : List (Nat × Nat × Nat × Chk) :=
  ls.map (fun l => (l, (symAt s a w l).1, (symAt s a w l).2, a.orNeutral (a.enc (valueIn s w.d l))))

/-- R337: in a chunk `sst` reads its words and buffers them whole; a word has one name (R254, R276). -/
def sstChunked (i : Instr) (w : MWord) (a : Alpha) (ls : List Nat) (s : State) : Act :=
  let once := onceM w
  let n := a.w / 8
  let need := leaveNeed s 2 (ls.map (fun l => (l, (symAt s a w l).1)))
  if !need.isEmpty then .wait .peer (need.foldl (askLeave 2) s)
  else globalRead i once n (ls.map (fun l => (l, (symAt s a w l).1))) s (fun s vals =>
    let plan := (symPlan s a w ls).map (fun e => (e.1, normal s e.2.1, e.2.2))
    let words := vals.map (fun e => (normal s (symAt s a w e.1).1, e.2))
    let r := symFold a words plan
    let meet := (plan.filter (fun e => e.2.2.2.trap)).map (fun e => e.1) ++ (r.2.filter (fun e => e.2.trap)).map (fun e => e.1)
    let flag := plan.any (fun e => e.2.2.2.flag) || r.2.any (fun e => e.2.flag)
    let outs := (plan.map (fun e => e.2.1)).eraseDups.map (fun ad =>
      (ad, ((r.1.find? (fun e => e.1 == ad)).map (fun e => e.2)).getD 0))
    if !meet.isEmpty then .trap 0x0A (meetM s i once meet)
    else storeAct (if flag then raiseFlags s fICW else s) (outs.map (fun e => StoreOp.bytes e.1 (leBytes n e.2)))
      (outs.flatMap (fun e => linesOf e.1 n)))

/-- R338: in relaxed mode each lane acts at its word's home, after every lane's value has been encoded; the split goes on when
every home has replied. -/
def sstRelaxed (i : Instr) (w : MWord) (a : Alpha) (ls : List Nat) (started : Bool) (s : State) : Act :=
  let once := onceM w
  let n := a.w / 8
  let plan := symPlan s a w ls
  let unenc := (plan.filter (fun e => e.2.2.2.trap)).map (fun e => e.1)
  let need := leaveNeed s 2 (plan.map (fun e => (e.1, e.2.1)))
  let al := (s.regs.alget w.sub.toNat).toNat
  if !started && plan.any (fun e => (ownOps s).any (fun op => op.hits (normal s e.2.1) n)) then .wait .stores s
  else if !started && !need.isEmpty then .wait .peer (need.foldl (askLeave 2) s)
  else if !started && !unenc.isEmpty then .trap 0x0A (meetM s i once unenc)
  else
    let s := if started then s
      else beginLanes s (plan.map (fun e =>
        (e.1, e.2.1, e.2.2.1 + 256 * e.2.2.2.x + 2 ^ 32 * a.neutral, al + (if e.2.2.2.flag then 2 ^ 64 else 0))))
    match atomAdvance i once symCode n 33 s with
    | .done s =>
      let vals := s.sp.feVals.map (fun e => (e.1, a.check (e.2 % 2 ^ 64), decide (2 ^ 64 ≤ e.2)))
      let inv := (vals.filter (fun e => e.2.1.trap)).map (fun e => e.1)
      let s := endLanes s
      if !inv.isEmpty then .part 0x0A (meetM s i once inv) s
      else .done (if vals.any (fun e => e.2.1.flag || e.2.2) then raiseFlags s fICW else s)
    | x => endPart x

def bodySst (w : MWord) (s : State) : Act :=
  let i := Instr.sst w
  let a := alphaAt s.regs w.sub.toNat
  let ls := memLanes s i w
  let started := !s.sp.plan.isEmpty || s.sp.feDone != 0
  if started then sstRelaxed i w a ls true s
  else if ls.isEmpty then .done s
  else if symBad a w then .trap 0x12 (s.exec i)
  else if sysRelease s i w (ls.map (fun l => (l, (symAt s a w l).1))) && !s.chunkedMode && batchesOwed s then .wait .drain s
  else
    -- in a chunk it is a read that misses (R337); the home makes the change in relaxed mode (R338)
    match checkGlobal s i (onceM w) .atomic (a.w / 8) true (ls.map (fun l => (l, (symAt s a w l).1)))
        (if s.chunkedMode then .read else .atomic) with
    | .stop x => x
    | .ok s => if s.chunkedMode then sstChunked i w a ls s else sstRelaxed i w a ls false s
def execSst (w : MWord) (s : State) : Host.Outcome State Fault Refusal := core (.sst w) (bodySst w) s

end Sys2Proof.Machine
end

