-- ==== Sys2Proof/Machine/Int.lean ====
section
/-! DEFINITION. The integer instructions 0x20 to 0x3A (R171, R172, R188, R192 to R207). -/

namespace Sys2Proof.Machine

open Sys2Proof

/-- The clamp of `.sat` (R192) and `isat` (R196). -/
def satRes (dt : Ty) (r : Int) : FRes :=
  if dt.maxInt < r then ⟨wrap dt.width dt.maxInt, fSAT⟩
  else if r < dt.minInt then ⟨wrap dt.width dt.minInt, fSAT⟩
  else ⟨wrap dt.width r, 0⟩

/-- A two-operand instruction whose exact result may be clamped (R192). -/
def satBody (i : Instr) (w : RWord) (op : Int → Int → Int) (s : State) : Act :=
  let tc := mTc w.m
  let t := Ty.ofCode tc
  fpLanes i s w.d (tyN tc) 0 (fun _ l =>
    let r := op (t.ival (srcT s w.a tc l)) (t.ival (srcT s w.b tc l))
    if mBit0 w.m then satRes t r else ⟨wrap t.width r, 0⟩)

/-- A two-operand instruction on typed values, its result modulo 2^W. -/
def binBody (i : Instr) (w : RWord) (op : Ty → Nat → Nat → Int) (s : State) : Act :=
  let tc := mTc w.m
  let t := Ty.ofCode tc
  intLanes i s w.d (tyN tc) (fun l => wrap t.width (op t (srcT s w.a tc l) (srcT s w.b tc l)))

/-- A three-operand instruction. -/
def triBody (i : Instr) (w : RWord) (op : Ty → Nat → Nat → Nat → Int) (s : State) : Act :=
  let tc := mTc w.m
  let t := Ty.ofCode tc
  intLanes i s w.d (tyN tc) (fun l => wrap t.width (op t (srcT s w.a tc l) (srcT s w.b tc l) (srcT s w.c tc l)))

/-- A one-operand instruction on W bits. -/
def unBody (i : Instr) (w : RWord) (op : Nat → Nat → Nat) (s : State) : Act :=
  let tc := mTc w.m
  let t := Ty.ofCode tc
  intLanes i s w.d (tyN tc) (fun l => op t.width (srcT s w.a tc l))

/-- Division and remainder (R194). -/
def idivVal (t : Ty) (rem : Bool) (x y : Int) : Int :=
  if y = 0 then (if rem then x else if t.signed then -1 else t.maxInt)
  else if t.signed && x == t.minInt && y == -1 then (if rem then 0 else t.minInt)
  else if rem then x.tmod y else x.tdiv y

/-- A bit field of bits 7:0 position and 15:8 length (R200, R201). -/
def bfxVal (t : Ty) (x ctl : Nat) : Int :=
  let pos := min (ctl % 256) t.width
  let len := min (ctl / 256 % 256) t.width
  let f : Int := (t.ival x / (2 ^ pos : Nat)) % (2 ^ len : Nat)
  if t.signed && 0 < len && ((2 ^ (len - 1) : Nat) : Int) ≤ f then f - (2 ^ len : Nat) else f

def bfiVal (t : Ty) (a b ctl : Nat) : Int :=
  let pos := min (ctl % 256) t.width
  let len := min (ctl / 256 % 256) (t.width - pos)
  let mask := (2 ^ len - 1) * 2 ^ pos
  (((a &&& (2 ^ t.width - 1 - mask)) ||| ((b * 2 ^ pos) &&& mask) : Nat) : Int)

/-- Bits counted and reversed (R202). -/
def popVal (w x : Nat) : Nat := ((List.range w).filter (fun k => bitAt x k)).length
def clzVal (w x : Nat) : Nat := if x = 0 then w else w - 1 - Nat.log2 x
def brevVal (w x : Nat) : Nat := (List.range w).foldl (fun r k => if bitAt x (w - 1 - k) then r + 2 ^ k else r) 0

/-- The six comparisons (R203). -/
def icmpVal (cc : Nat) (x y : Int) : Bool :=
  match cc with
  | 0 => x == y
  | 1 => x != y
  | 2 => x < y
  | 3 => x ≤ y
  | 4 => y < x
  | _ => y ≤ x

def execIadd (w : RWord) (s : State) : Host.Outcome State Fault Refusal :=
  core (.iadd w) (satBody (.iadd w) w (fun x y => x + y)) s
def execIsub (w : RWord) (s : State) : Host.Outcome State Fault Refusal :=
  core (.isub w) (satBody (.isub w) w (fun x y => x - y)) s
def execImul (w : RWord) (s : State) : Host.Outcome State Fault Refusal :=
  core (.imul w) (satBody (.imul w) w (fun x y => x * y)) s
/-- The high W bits of the product: floor (R192). -/
def execImulh (w : RWord) (s : State) : Host.Outcome State Fault Refusal :=
  core (.imulh w) (binBody (.imulh w) w (fun t x y => (t.ival x * t.ival y) / (2 ^ t.width : Nat))) s
def execImad (w : RWord) (s : State) : Host.Outcome State Fault Refusal :=
  core (.imad w) (triBody (.imad w) w (fun t x y z => t.ival x * t.ival y + t.ival z)) s
def execIdiv (w : RWord) (s : State) : Host.Outcome State Fault Refusal :=
  core (.idiv w) (binBody (.idiv w) w (fun t x y => idivVal t (mBit0 w.m) (t.ival x) (t.ival y))) s
def execImin (w : RWord) (s : State) : Host.Outcome State Fault Refusal :=
  core (.imin w) (binBody (.imin w) w (fun t x y => min (t.ival x) (t.ival y))) s
def execImax (w : RWord) (s : State) : Host.Outcome State Fault Refusal :=
  core (.imax w) (binBody (.imax w) w (fun t x y => max (t.ival x) (t.ival y))) s

/-- R196: b<3:0> is the source type, m<7:4> the destination type. -/
def bodyIsat (w : RWord) (s : State) : Act :=
  let st := w.b.toNat
  let dt := mTc w.m
  fpLanes (.isat w) s w.d (tyN dt) 0 (fun _ l => satRes (Ty.ofCode dt) ((Ty.ofCode st).ival (srcT s w.a st l)))
def execIsat (w : RWord) (s : State) : Host.Outcome State Fault Refusal := core (.isat w) (bodyIsat w) s

def execAnd (w : RWord) (s : State) : Host.Outcome State Fault Refusal :=
  core (.and w) (binBody (.and w) w (fun _ x y => ((x &&& y : Nat) : Int))) s
def execOr (w : RWord) (s : State) : Host.Outcome State Fault Refusal :=
  core (.or w) (binBody (.or w) w (fun _ x y => ((x ||| y : Nat) : Int))) s
def execXor (w : RWord) (s : State) : Host.Outcome State Fault Refusal :=
  core (.xor w) (binBody (.xor w) w (fun _ x y => ((x ^^^ y : Nat) : Int))) s
def execAndn (w : RWord) (s : State) : Host.Outcome State Fault Refusal :=
  core (.andn w) (binBody (.andn w) w (fun t x y => ((x &&& (2 ^ t.width - 1 - y) : Nat) : Int))) s

/-- Shifts by src(b)<31:0> (R198): 0 for a left shift by W or more, the sign for an arithmetic right shift. -/
def bodyShl (w : RWord) (s : State) : Act :=
  let tc := mTc w.m
  let t := Ty.ofCode tc
  intLanes (.shl w) s w.d (tyN tc) (fun l =>
    let n := src32 s w.b l
    if t.width ≤ n then 0 else wrap t.width ((srcT s w.a tc l * 2 ^ n : Nat) : Int))
def execShl (w : RWord) (s : State) : Host.Outcome State Fault Refusal := core (.shl w) (bodyShl w) s

def bodyShr (w : RWord) (s : State) : Act :=
  let tc := mTc w.m
  let t := Ty.ofCode tc
  intLanes (.shr w) s w.d (tyN tc) (fun l =>
    wrap t.width (t.ival (srcT s w.a tc l) / (2 ^ min (src32 s w.b l) t.width : Nat)))
def execShr (w : RWord) (s : State) : Host.Outcome State Fault Refusal := core (.shr w) (bodyShr w) s

/-- R199: a is the high half; m<0> = 1 shifts right. -/
def bodyFshf (w : RWord) (s : State) : Act :=
  let tc := mTc w.m
  let t := Ty.ofCode tc
  intLanes (.fshf w) s w.d (tyN tc) (fun l =>
    let x := srcT s w.a tc l * 2 ^ t.width + srcT s w.b tc l
    let n := src32 s w.c l % t.width
    (if mBit0 w.m then x / 2 ^ n else x * 2 ^ n / 2 ^ t.width) % 2 ^ t.width)
def execFshf (w : RWord) (s : State) : Host.Outcome State Fault Refusal := core (.fshf w) (bodyFshf w) s

def bodyBfx (w : RWord) (s : State) : Act :=
  let tc := mTc w.m
  let t := Ty.ofCode tc
  intLanes (.bfx w) s w.d (tyN tc) (fun l => wrap t.width (bfxVal t (srcT s w.a tc l) (src32 s w.b l)))
def execBfx (w : RWord) (s : State) : Host.Outcome State Fault Refusal := core (.bfx w) (bodyBfx w) s

def bodyBfi (w : RWord) (s : State) : Act :=
  let tc := mTc w.m
  let t := Ty.ofCode tc
  intLanes (.bfi w) s w.d (tyN tc) (fun l =>
    wrap t.width (bfiVal t (srcT s w.a tc l) (srcT s w.b tc l) (src32 s w.c l)))
def execBfi (w : RWord) (s : State) : Host.Outcome State Fault Refusal := core (.bfi w) (bodyBfi w) s

def execPopc (w : RWord) (s : State) : Host.Outcome State Fault Refusal :=
  core (.popc w) (unBody (.popc w) w popVal) s
def execClz (w : RWord) (s : State) : Host.Outcome State Fault Refusal :=
  core (.clz w) (unBody (.clz w) w clzVal) s
def execBrev (w : RWord) (s : State) : Host.Outcome State Fault Refusal :=
  core (.brev w) (unBody (.brev w) w brevVal) s

def bodyIcmp (w : RWord) (s : State) : Act :=
  let tc := mTc w.m
  let t := Ty.ofCode tc
  cmpLanes (.icmp w) s w.d (fun l => (icmpVal w.c.toNat (t.ival (srcT s w.a tc l)) (t.ival (srcT s w.b tc l)), 0))
def execIcmp (w : RWord) (s : State) : Host.Outcome State Fault Refusal := core (.icmp w) (bodyIcmp w) s

/-- R171: copies all 32 or 64 bits; for scalars the lowest executing lane's predicate decides. A scalar holds 64
bits, so a 32-bit type copies its low bits (R69). -/
def bodySel (w : RWord) (s : State) : Act :=
  let tc := mTc w.m
  intLanes (.sel w) s w.d (tyN tc) (fun l => if srcP s w.c l then srcT s w.a tc l else srcT s w.b tc l)
def execSel (w : RWord) (s : State) : Host.Outcome State Fault Refusal := core (.sel w) (bodySel w) s

/-- R172. -/
def bodyMov (w : IWord) (s : State) : Act :=
  let n := if w.m4.getLsbD 1 then 2 else 1
  intLanes (.mov w) s w.d n (fun l => if w.m4.getLsbD 0 then s.regs.src w.a n l else w.imm.toNat)
def execMov (w : IWord) (s : State) : Host.Outcome State Fault Refusal := core (.mov w) (bodyMov w) s

/-- R204: m4<2:0> is the shift; W is 64 for a scalar or `.64`. -/
def bodyLea (w : IWord) (s : State) : Act :=
  let n := if w.m4.getLsbD 3 then 2 else 1
  intLanes (.lea w) s w.d n (fun l => (s.regs.src w.a n l * 2 ^ (w.m4.toNat % 8) + w.imm.toNat) % 2 ^ 64)
def execLea (w : IWord) (s : State) : Host.Outcome State Fault Refusal := core (.lea w) (bodyLea w) s

/-- R205: the sum or difference with carry, and the carry out. -/
def addc (sub : Bool) (w a b : Nat) (ci : Bool) : Nat × Bool :=
  let c : Nat := if ci then 1 else 0
  if sub then (wrap w ((a : Int) - b - c), decide ((a : Int) - b - c < 0))
  else ((a + b + c) % 2 ^ w, decide (2 ^ w ≤ a + b + c))

def bodyIaddc (w : RWord) (s : State) : Act :=
  let tc := mTc w.m
  let m := s.exec (.iaddc w)
  let rs := (actLanes s (.iaddc w) w.d).map (fun l =>
    (l, addc (mBit0 w.m) (Ty.ofCode tc).width (srcT s w.a tc l) (srcT s w.b tc l) (srcP s w.c l)))
  let wr := wrDst w.d (tyN tc) (rs.map (fun e => (e.1, e.2.1)))
  let bits := if isS w.d then (if rs.any (fun e => e.2.2) then m else 0)
    else maskOf ((rs.filter (fun e => e.2.2)).map (fun e => e.1))
  wrote s { wr with p := [(w.c.toNat % 16, m, bits)] }
def execIaddc (w : RWord) (s : State) : Host.Outcome State Fault Refusal := core (.iaddc w) (bodyIaddc w) s

/-- The ordered merge of two sequences of (key, tag) pairs (R207): on equal keys, a comes first. -/
def mergeSeq (a : List (Int × Nat)) : List (Int × Nat) → List (Int × Nat) :=
  match a with
  | [] => fun b => b
  | x :: xs => fun b => go x (mergeSeq xs) (x :: xs) b
where
  go (x : Int × Nat) (rest : List (Int × Nat) → List (Int × Nat)) (all : List (Int × Nat)) :
      List (Int × Nat) → List (Int × Nat)
    | [] => all
    | y :: ys => if x.1 ≤ y.1 then x :: rest (y :: ys) else y :: go x rest all ys

def bodyMerge (w : RWord) (s : State) : Act :=
  let tc := mTc w.m
  let t := Ty.ofCode tc
  let ls := lanesOf (s.exec (.merge w))
  let a := ls.map (fun l => (t.ival (srcT s w.a tc l), l))
  let b := ls.map (fun l => (t.ival (srcT s w.b tc l), 32 + l))
  let out := (mergeSeq a b).drop (if mBit0 w.m then ls.length else 0)
  let src := w.c.getLsbD 0
  let vals := (ls.zip out).map (fun e => (e.1, if src then e.2.2 else wrap t.width e.2.1))
  wrote s (wrDst w.d (if src then 1 else tyN tc) vals)
def execMerge (w : RWord) (s : State) : Host.Outcome State Fault Refusal := core (.merge w) (bodyMerge w) s

end Sys2Proof.Machine
end

