-- ==== Sys2Proof/Machine/Issue.lean ====
section
/-! DEFINITION. Instructions whose effect outside the split waits for their chunk (R291): spawn and launch (R140 to R143),
the engine and matrix commands at issue (R292, R368, R369, R405, R412), oprdy and mrel (R430, R433), and the event matrix
and xcancel (R398, R401). -/

namespace Sys2Proof.Machine

open Sys2Proof

/-- The counter that ctr names: none for s0 (R369). -/
def ctrOf (s : State) (w : XWord) : Option Nat := if isS0 w.ctr then none else some (srcS s w.ctr)

/-- The checks of a counter address (R141, R369). -/
def ctrTrap (s : State) (m : Mask) (c : Option Nat) : Option Act :=
  match c with
  | none => none
  | some a => if a % 4 != 0 then some (.trap 0x0C m) else if localSize s 3 < a + 4 then some (.trap 0x0B m) else none

/-- The four arguments at crd. -/
def xArgs (s : State) (w : XWord) : List Nat := (List.range 4).map (fun k => srcSn s w.crd k)

/-- R140, R141. -/
def bodySpawn (w : XWord) (s : State) : Act :=
  let m := s.exec (.spawn w)
  let entry := srcS s w.rcd
  let c := ctrOf s w
  if m == 0 then .done s
  else if entry % (if s.ctl.portable then 4 else 8) != 0 then .trap 0x03 m
  else if s.t.vregs < 8 then .trap 0x01 s.ctl.mask
  else match ctrTrap s m c with
    | some a => a
    | none =>
      match binFor s s.g.core s.g.tid (BitVec.ofNat 64 entry) with
      | none => .wait .bin s
      | some b => .done (effect s (.spawn b (BitVec.ofNat 64 entry) ((xArgs s w).map (BitVec.ofNat 64)) c (w.code.getLsbD 0)))
def execSpawn (w : XWord) (s : State) : Host.Outcome State Fault Refusal := core (.spawn w) (bodySpawn w) s

/-- The page that reading a launch record misses: its own, or its kernel table entry's. -/
def launchMiss (s : State) (rcd : Nat) (args : List Nat) : Option MissAt :=
  match rdGlobal s s.slotNo rcd 64 with
  | .ok b =>
    (match readRecord s b (.device s.g.tid none) (some (s.gr, args.map (BitVec.ofNat 64), false)) with
      | .miss h o p k => some ⟨h, o, p, k⟩
      | _ => (modeUnread s (some s.slotNo)).map (fun m => m.2))
  | .miss h o p k => some ⟨h, o, p, k⟩
  | .bad => none

/-- R142, R143. -/
def bodyLaunch (w : XWord) (s : State) : Act :=
  let m := s.exec (.launch w)
  let rcd := srcS s w.rcd
  let c := ctrOf s w
  if m == 0 then .done s
  else if (place s rcd).isNone then .trap 0x0B m
  else if rcd % 64 != 0 then .trap 0x0C m
  else match rdGlobal s s.slotNo rcd 64 with
    | .bad => .trap 0x0B m
    | .miss h o p k => .wait .parked (park s s.cur s.slotNo s.g.core none .read h o p k)
    | .ok _ =>
      match ctrTrap s m c with
      | some a => a
      | none =>
        if 4096 ≤ queueUsed s + launchReserved s then .wait .launchQueue s
        else match if s.chunkedMode then none else launchMiss s rcd (xArgs s w) with
        | some m => .wait .parked (park s s.cur s.slotNo s.g.core none .read m.host m.owner m.block m.kind)
        | none => .done (effect s (.launch rcd ((xArgs s w).map (BitVec.ofNat 64)) c))
def execLaunch (w : XWord) (s : State) : Host.Outcome State Fault Refusal := core (.launch w) (bodyLaunch w) s

/-! ### Commands (R368, R369) -/

/-- The commands that the chunks of a core's groups have reserved entries for. -/
def reservedCmds (s : State) (core : Nat) : List Cmd :=
  s.groups.flatMap (fun g => if g.core != core then [] else g.splits.flatMap (fun p => match p.chunk with
    | some c => c.effs.filterMap (fun e => match e with | .command k => some k | _ => none)
    | none => []))

/-- Entries of a core's command port in use, reserved ones included (R368); a graph walker sends its commands past it. -/
def portUsed (s : State) (core : Nat) : Nat :=
  (s.cmds.filter (fun c => c.cmd.core == core && c.stage == .port && c.cmd.node.isNone)).length + (reservedCmds s core).length
/-- Entries of its held pool in use (R368, R384). -/
def heldUsed (s : State) (core : Nat) : Nat :=
  (s.cmds.filter (fun c => c.cmd.core == core && (c.stage == .held || (c.stage == .port && c.cmd.gate.isSome)))).length
    + ((reservedCmds s core).filter (fun k => k.gate.isSome)).length

/-- Send a command: it reserves its entries, or the split waits. -/
def sendCmd (s : State) (c : Cmd) : Act :=
  let k := s.g.core
  if 16 ≤ portUsed s k || (c.gate.isSome && 16 ≤ heldUsed s k) then .wait .port s
  else .done (effect s (.command c))

/-- The fields of a command that its group and split give (R372, R410). -/
def baseCmd (s : State) (opc code : Nat) : Cmd :=
  { opc := opc, code := code, gid := s.g.gid, tid := s.g.tid, core := s.g.core, slot := s.slotNo
    fpmode := s.regs.fpmode, repro := reproOn s, srseed := s.regs.srseed, sp := s.cur.2
    tile := if isMatrixCmd opc then [(s.g.index, [], s.regs.nv)] else [] }

/-- The gate of an aux register (R384). -/
def auxGate (s : State) (w : XWord) : Option Nat :=
  let v := srcS s w.aux
  if isS0 w.aux || !bitAt v 4 then none else some (v % 16)

/-- A command of format X: the checks of R369, the wait of R412 for a matrix command, and the sending. -/
def bodyX (i : Instr) (w : XWord) (aligned : Bool) (s : State) : Act :=
  let m := s.exec i
  let rcd := srcS s w.rcd
  let c := ctrOf s w
  let o := opcodeOf i
  if m == 0 then .done s
  else if aligned && rcd % 64 != 0 then .trap 0x0C m
  else match ctrTrap s m c with
    | some a => a
    | none =>
      if isMatrixCmd o && !s.g.ll.isEmpty then .wait .dest s
      else
        let k := baseCmd s o w.code.toNat
        sendCmd s { k with rcd := rcd, args := xArgs s w, ctr := c, gate := auxGate s w }

def execNzscan (w : XWord) (s : State) : Host.Outcome State Fault Refusal := core (.nzscan w) (bodyX (.nzscan w) w false) s
def execXcopy (w : XWord) (s : State) : Host.Outcome State Fault Refusal := core (.xcopy w) (bodyX (.xcopy w) w true) s
def execXform (w : XWord) (s : State) : Host.Outcome State Fault Refusal := core (.xform w) (bodyX (.xform w) w true) s
def execXgath (w : XWord) (s : State) : Host.Outcome State Fault Refusal := core (.xgath w) (bodyX (.xgath w) w true) s
def execXscat (w : XWord) (s : State) : Host.Outcome State Fault Refusal := core (.xscat w) (bodyX (.xscat w) w true) s
def execGnode (w : XWord) (s : State) : Host.Outcome State Fault Refusal := core (.gnode w) (bodyX (.gnode w) w true) s
def execGrun (w : XWord) (s : State) : Host.Outcome State Fault Refusal := core (.grun w) (bodyX (.grun w) w true) s
def execXfill (w : XWord) (s : State) : Host.Outcome State Fault Refusal := core (.xfill w) (bodyX (.xfill w) w true) s
def execXpeer (w : XWord) (s : State) : Host.Outcome State Fault Refusal := core (.xpeer w) (bodyX (.xpeer w) w true) s
def execEbb (w : XWord) (s : State) : Host.Outcome State Fault Refusal := core (.ebb w) (bodyX (.ebb w) w true) s
def execMzero (w : XWord) (s : State) : Host.Outcome State Fault Refusal := core (.mzero w) (bodyX (.mzero w) w true) s
def execMscale (w : XWord) (s : State) : Host.Outcome State Fault Refusal := core (.mscale w) (bodyX (.mscale w) w true) s
def execMconv (w : XWord) (s : State) : Host.Outcome State Fault Refusal := core (.mconv w) (bodyX (.mconv w) w true) s
def execAttn (w : XWord) (s : State) : Host.Outcome State Fault Refusal := core (.attn w) (bodyX (.attn w) w true) s

/-- A command of format Q (R405, R406, R412). -/
def bodyQ (i : Instr) (w : QWord) (s : State) : Act :=
  let m := s.exec i
  let sw := srcS s w.s
  let c := if bitAt sw 21 then some (sw % 2 ^ 20) else none
  if m == 0 then .done s
  else match ctrTrap s m c with
    | some a => a
    | none =>
      if !s.g.ll.isEmpty then .wait .dest s
      else
        let k := baseCmd s (opcodeOf i) 0
        sendCmd s { k with
          areg := rnum w.a, m := w.m.toNat, sw := sw, lw := srcSn s w.s 1, pw := srcSn s w.s 2
          bw := srcS s w.b, cw := srcS s w.c, ctr := c
          gate := if bitAt sw 28 then some (slice sw 27 24) else none }

def execMma (w : QWord) (s : State) : Host.Outcome State Fault Refusal := core (.mma w) (bodyQ (.mma w) w) s
def execMloop (w : QWord) (s : State) : Host.Outcome State Fault Refusal := core (.mloop w) (bodyQ (.mloop w) w) s
def execMsparse (w : QWord) (s : State) : Host.Outcome State Fault Refusal := core (.msparse w) (bodyQ (.msparse w) w) s
def execMchk (w : QWord) (s : State) : Host.Outcome State Fault Refusal := core (.mchk w) (bodyQ (.mchk w) w) s

/-- R430: the credit waits for the group's long-latency writes, and is given when the chunk commits. -/
def bodyOprdy (w : RWord) (s : State) : Act :=
  if s.exec (.oprdy w) == 0 then .done s
  else if !s.g.ll.isEmpty then .wait .dest s
  else .done (effect s (.credit s.regs.nv))
def execOprdy (w : RWord) (s : State) : Host.Outcome State Fault Refusal := core (.oprdy w) (bodyOprdy w) s

/-- R433. -/
def bodyMrel (w : RWord) (s : State) : Act := .done (if s.exec (.mrel w) == 0 then s else effect s .mrel)
def execMrel (w : RWord) (s : State) : Host.Outcome State Fault Refusal := core (.mrel w) (bodyMrel w) s

/-! ### The event matrix and xcancel (R398, R401) -/

/-- An operation of the event matrix: 0 map, 1 pulse, 2 clear, with its source and the value of rec. -/
def bodyEvmap (i : Instr) (op : Nat) (w : XWord) (s : State) : Act :=
  .done (if s.exec i == 0 then s else effect s (.evmap op (w.code.toNat / 16) (BitVec.ofNat 64 (srcS s w.rcd))))
def execEvmapMap (w : XWord) (s : State) : Host.Outcome State Fault Refusal := core (.evmapMap w) (bodyEvmap (.evmapMap w) 0 w) s
def execEvmapPulse (w : XWord) (s : State) : Host.Outcome State Fault Refusal :=
  core (.evmapPulse w) (bodyEvmap (.evmapPulse w) 1 w) s
def execEvmapClear (w : XWord) (s : State) : Host.Outcome State Fault Refusal :=
  core (.evmapClear w) (bodyEvmap (.evmapClear w) 2 w) s

def bodyXcancel (w : XWord) (s : State) : Act :=
  let m := s.exec (.xcancel w)
  let a := srcS s w.ctr
  if m == 0 then .done s
  else match ctrTrap s m (some a) with
    | some x => x
    | none => .done (effect s (.cancel a))
def execXcancel (w : XWord) (s : State) : Host.Outcome State Fault Refusal := core (.xcancel w) (bodyXcancel w) s

end Sys2Proof.Machine
end

