-- ==== Sys2Proof/Machine/Lanes.lean ====
section
/-! DEFINITION. The lane instructions: elect and vote (R148, R149), 0x60 to 0x67 (R173 to R182) and rebal (R389). -/

namespace Sys2Proof.Machine

open Sys2Proof

/-- R148. -/
def bodyElect (w : RWord) (s : State) : Act :=
  let m := s.exec (.elect w)
  wrote s (wrPred w.d m (if m == 0 then 0 else BitVec.ofNat 32 (2 ^ lowest m)))
def execElect (w : RWord) (s : State) : Host.Outcome State Fault Refusal := core (.elect w) (bodyElect w) s

/-- R149: B is the executing lanes in which pa is 1. -/
def bodyVote (w : RWord) (s : State) : Act :=
  let m := s.exec (.vote w)
  let b := m &&& s.regs.pget (w.a.toNat % 16)
  let all (x : Bool) : Mask := if x then m else 0
  if m == 0 then wrote s {}
  else match w.m.toNat % 8 with
    | 0 => wrote s (wrPred w.d m (all (b != 0)))
    | 1 => wrote s (wrPred w.d m (all (b == m)))
    | 2 => wrote s (wrPred w.d m (all (b == 0 || b == m)))
    | 3 => wrote s { s := [(rnum w.d, b.setWidth 64)] }
    | _ => wrote s (wrPred w.d m (all (popcount b % 2 == 1)))
def execVote (w : RWord) (s : State) : Host.Outcome State Fault Refusal := core (.vote w) (bodyVote w) s

/-- The source lane of a shuffle (R174); none keeps the lane's own value. -/
def shflLane (mode n i : Nat) : Option Nat :=
  match mode with
  | 0 => some (n % 32)
  | 1 => if n ≤ i then some (i - n) else none
  | 2 => if i + n ≤ 31 then some (i + n) else none
  | _ => some (i ^^^ (n % 32))

/-- R174: long-latency where the group holds more than one split (R160). -/
def bodyShfl (w : RWord) (s : State) : Act :=
  let n := if w.m.getLsbD 4 then 2 else 1
  let vals := (lanesOf (s.exec (.shfl w))).map (fun i =>
    (i, match shflLane (w.m.toNat % 4) (src32 s w.b i) i with
      | some j => laneVal s w.a n j
      | none => s.regs.src w.a n i))
  if 1 < s.g.splits.length && !vals.isEmpty then .done (longWrite s (wrDst w.d n vals) (regsOf w.d n) 0)
  else wrote s (wrDst w.d n vals)
def execShfl (w : RWord) (s : State) : Host.Outcome State Fault Refusal := core (.shfl w) (bodyShfl w) s

/-- One byte of a permutation (R175). -/
def permByte (x c k : Nat) : Nat := if bitAt c (4 * k + 3) then 0 else x / 2 ^ (8 * (c / 2 ^ (4 * k) % 8)) % 256

/-- R175. -/
def bodyPerm (w : RWord) (s : State) : Act :=
  intLanes (.perm w) s w.d 1 (fun l =>
    let x := src32 s w.b l * 2 ^ 32 + src32 s w.a l
    let c := src32 s w.c l
    permByte x c 0 + 2 ^ 8 * permByte x c 1 + 2 ^ 16 * permByte x c 2 + 2 ^ 24 * permByte x c 3)
def execPerm (w : RWord) (s : State) : Host.Outcome State Fault Refusal := core (.perm w) (bodyPerm w) s

/-- R176: m is the truth table. -/
def bodyPlog (w : RWord) (s : State) : Act :=
  let m := s.exec (.plog w)
  let bit (f : BitVec 10) (l k : Nat) : Nat := if srcP s f l then k else 0
  wrote s (wrPred w.d m (maskOf ((lanesOf m).filter (fun l =>
    w.m.getLsbD (bit w.a l 4 + bit w.b l 2 + bit w.c l 1)))))
def execPlog (w : RWord) (s : State) : Host.Outcome State Fault Refusal := core (.plog w) (bodyPlog w) s

/-- R177. -/
def bodyPcnt (w : RWord) (s : State) : Act :=
  let m := s.exec (.pcnt w)
  let sel := m &&& s.regs.pget (w.a.toNat % 16)
  if m == 0 then wrote s {}
  else if mBit0 w.m then
    wrote s (wrDst w.d 1 ((lanesOf m).map (fun i => (i, ((lanesOf sel).filter (fun j => j < i)).length))))
  else wrote s { s := [(rnum w.d, BitVec.ofNat 64 (popcount sel))] }
def execPcnt (w : RWord) (s : State) : Host.Outcome State Fault Refusal := core (.pcnt w) (bodyPcnt w) s

/-- The identity of a prefix combination, as a code (R179): 0 add, 1 min, 2 max. -/
def scanId (t : Ty) (op : Nat) : Nat :=
  match op with
  | 0 => 0
  | 1 => if t.isInt then wrap t.width t.maxInt else t.fmt.infCode false
  | _ => if t.isInt then wrap t.width t.minInt else t.fmt.infCode true

/-- One combination of an accumulator with a source value (R179): FTZI flushes the source value alone. -/
def scanComb (t : Ty) (env : FpEnv) (op acc x : Nat) : FRes :=
  if t.isInt then
    let a := t.ival acc
    let b := t.ival x
    ⟨wrap t.width (match op with | 0 => a + b | 1 => min a b | _ => max a b), 0⟩
  else t.fmt.combine { env with ftzi := false } op false (t.fmt.decode acc) (t.fmt.flushIn env (t.fmt.decode x))

/-- The combinations in lane order: each lane's result with the flags of its step. -/
def scanGo (t : Ty) (env : FpEnv) (op : Nat) (excl : Bool) : Nat → List (Nat × Nat) → List (Nat × FRes)
  | _, [] => []
  | acc, (l, x) :: r =>
    let c := scanComb t env op acc x
    (l, ⟨if excl then acc else c.code, c.fl⟩) :: scanGo t env op excl c.code r

/-- R179. -/
def bodyScan (w : RWord) (s : State) : Act :=
  let tc := mTc w.m
  let t := Ty.ofCode tc
  let op := w.m.toNat / 4 % 4
  let m := s.exec (.scan w)
  let rs := scanGo t (fpEnv s 0 0) op (w.m.getLsbD 1) (scanId t op) ((lanesOf m).map (fun l => (l, srcT s w.a tc l)))
  let wr := wrDst w.d (tyN tc) (rs.map (fun e => (e.1, e.2.code)))
  finishFlags s { wr with fl := rs.map (fun e => (e.1, e.2.fl)) } false m
def execScan (w : RWord) (s : State) : Host.Outcome State Fault Refusal := core (.scan w) (bodyScan w) s

/-- The lane that `vtos` and `stov` name (R180). -/
def namedLane (s : State) (w : RWord) : Nat := if w.m.getLsbD 5 then srcS s w.b % 32 else w.m.toNat % 32

/-- R180. -/
def bodyVtos (w : RWord) (s : State) : Act :=
  let n := if w.m.getLsbD 6 then 2 else 1
  if s.exec (.vtos w) == 0 then wrote s {}
  else .done (longWrite s { s := [(rnum w.d, BitVec.ofNat 64 (laneVal s w.a n (namedLane s w)))] } (regsOf w.d 1) 0)
def execVtos (w : RWord) (s : State) : Host.Outcome State Fault Refusal := core (.vtos w) (bodyVtos w) s

/-- R181. -/
def bodyStov (w : RWord) (s : State) : Act :=
  let n := if w.m.getLsbD 6 then 2 else 1
  let l := namedLane s w
  if (s.exec (.stov w)).getLsbD l then wrote s (wrDst w.d n [(l, srcS s w.a)]) else wrote s {}
def execStov (w : RWord) (s : State) : Host.Outcome State Fault Refusal := core (.stov w) (bodyStov w) s

/-- R182. -/
def bodyCompact (w : RWord) (s : State) : Act :=
  let n := if w.m.getLsbD 4 then 2 else 1
  let ls := lanesOf (s.exec (.compact w))
  let xs := (ls.filter (fun l => srcP s w.b l)).map (fun l => s.regs.src w.a n l)
  wrote s (wrDst w.d n (ls.zip (xs ++ List.replicate 32 0)))
def execCompact (w : RWord) (s : State) : Host.Outcome State Fault Refusal := core (.compact w) (bodyCompact w) s

/-- The row and offset of an item among rows of given lengths (R389). -/
def rebalItem : List (Nat × Nat) → Nat → Nat × Nat
  | [], _ => (32, 0)
  | (lane, len) :: r, x => if x < len then (lane, x) else rebalItem r (x - len)

/-- R389. -/
def bodyRebal (w : RWord) (s : State) : Act :=
  let ls := lanesOf (s.exec (.rebal w))
  let rows := ls.map (fun l => (l, src32 s w.a l))
  let vals := ls.zipIdx.map (fun e =>
    let r := rebalItem rows (srcS s w.b + e.2)
    (e.1, r.1 + r.2 * 2 ^ 32))
  wrote s (wrDst w.d 2 vals)
def execRebal (w : RWord) (s : State) : Host.Outcome State Fault Refusal := core (.rebal w) (bodyRebal w) s

end Sys2Proof.Machine
end

