-- ==== Sys2Proof/Machine/Scratch.lean ====
section
/-! DEFINITION. The scratchpad and cluster instructions (R240 to R251): plain loads and stores, full/empty operations,
feset, atomics and block accesses; and sld's neighbours in C, mrd and mwr (R427, R428). -/

namespace Sys2Proof.Machine

open Sys2Proof

/-- The lanes of a scratchpad or cluster word with their offsets. -/
def localLanes (s : State) (i : Instr) (w : MWord) : List (Nat × Nat) :=
  (memLanes s i w).map (fun l => (l, eaLocal s w l))

/-- The data of a store: the low bytes of d (R241). -/
def dataOf (s : State) (w : MWord) (lane : Nat) : Nat := s.regs.src w.d (szN w.size) lane % 2 ^ (8 * szB w.size)

/-- R240, R241. -/
def bodyLds (w : MWord) (s : State) : Act :=
  localLoad (.lds w) w.d (onceM w) w.sub.toNat (szB w.size) (localLanes s (.lds w) w) s
def execLds (w : MWord) (s : State) : Host.Outcome State Fault Refusal := core (.lds w) (bodyLds w) s
def bodySts (w : MWord) (s : State) : Act :=
  localStore (.sts w) (onceM w) w.sub.toNat (szB w.size) (localLanes s (.sts w) w) (dataOf s w) s
def execSts (w : MWord) (s : State) : Host.Outcome State Fault Refusal := core (.sts w) (bodySts w) s

/-- R249. -/
def bodyLdc (w : MWord) (s : State) : Act :=
  localLoad (.ldc w) w.d (onceM w) 4 (szB w.size) (localLanes s (.ldc w) w) s
def execLdc (w : MWord) (s : State) : Host.Outcome State Fault Refusal := core (.ldc w) (bodyLdc w) s
def bodyStc (w : MWord) (s : State) : Act :=
  localStore (.stc w) (onceM w) 4 (szB w.size) (localLanes s (.stc w) w) (dataOf s w) s
def execStc (w : MWord) (s : State) : Host.Outcome State Fault Refusal := core (.stc w) (bodyStc w) s

/-- The lanes of a block access: lane i at a + sext(off9) * S + i * S (R251). -/
def blockLanes (s : State) (i : Instr) (w : MWord) : List (Nat × Nat) :=
  (lanesOf (s.exec i)).map (fun l =>
    (l, wrap 64 ((srcS s w.a : Int) + off9 w * szB w.size + l * szB w.size)))

/-- R251. -/
def bodyLdsx (w : MWord) (s : State) : Act :=
  localLoad (.ldsx w) w.d false w.sub.toNat (szB w.size) (blockLanes s (.ldsx w) w) s
def execLdsx (w : MWord) (s : State) : Host.Outcome State Fault Refusal := core (.ldsx w) (bodyLdsx w) s
def bodyStsx (w : MWord) (s : State) : Act :=
  localStore (.stsx w) false w.sub.toNat (szB w.size) (blockLanes s (.stsx w) w) (dataOf s w) s
def execStsx (w : MWord) (s : State) : Host.Outcome State Fault Refusal := core (.stsx w) (bodyStsx w) s

/-! ### Full/empty operations (R230, R231, R242, R243) -/

/-- Send the request of the first lane that remains, and go on while requests are served at once. -/
def feAdvance (w : MWord) (fill keep : Bool) : Nat → State → State
  | 0, s => s
  | n + 1, s =>
    match s.sp.plan with
    | [] => s
    | e :: _ =>
      let q : FeReq := ⟨w.sub.toNat, e.2.1, wordsOf e.2.1 (szB w.size), fill, keep,
        if fill then [] else leBytes (szB w.size) e.2.2.1, s.cur.1, s.cur.2, e.1⟩
      let s := if s.t.feq.any (fun x => x.gid == s.cur.1 && x.sp == s.cur.2) then s
        else s.modTeam s.g.tid (fun t => { t with feq := t.feq ++ [q] })
      let s' := feWake s s.g.tid
      if s'.sp.plan.length < s.sp.plan.length then feAdvance w fill keep n s' else s'

/-- The operation has completed in every executing lane: its destination is written and full (R231). -/
def feFinish (w : MWord) (fill : Bool) (s : State) : Act :=
  let vals := s.sp.feVals
  let s := s.modSp (fun p => { p with feDone := 0, feVals := [] })
  let s := s.modG (fun g => { g with ll := g.ll.filter (fun l => !(l.sp == s.cur.2 && l.load == 3)) })
  if fill then .done (applyWr s (wrDst w.d (szN w.size) vals)) else .done s

/-- ldsf, stse and ldsp: the requests are made lane by lane, and the split stays at the word until the last has been
served; meanwhile the destination is empty. -/
def bodyFe (i : Instr) (fill keep : Bool) (w : MWord) (s : State) : Act :=
  let started := !s.sp.plan.isEmpty || s.sp.feDone != 0
  let as := localLanes s i w
  match if started then none else checkLocal s i (onceM w) w.sub.toNat (szB w.size) as with
  | some a => a
  | none =>
    if !started && as.isEmpty then .done s
    else
      let s := if started then s
        else
          let s := s.modSp (fun p => { p with plan := as.map (fun e => (e.1, e.2, if fill then 0 else dataOf s w e.1, 0)) })
          if fill then longWrite s {} (regsOf w.d (szN w.size)) 3 else s
      let s := feAdvance w fill keep 33 s
      if s.sp.plan.isEmpty then feFinish w fill s else .wait .fullEmpty s

def execLdsf (w : MWord) (s : State) : Host.Outcome State Fault Refusal := core (.ldsf w) (bodyFe (.ldsf w) true false w) s
def execStse (w : MWord) (s : State) : Host.Outcome State Fault Refusal := core (.stse w) (bodyFe (.stse w) false false w) s
def execLdsp (w : MWord) (s : State) : Host.Outcome State Fault Refusal := core (.ldsp w) (bodyFe (.ldsp w) true true w) s

/-- R244, R245. -/
def bodyFeset (w : MWord) (s : State) : Act :=
  let i := Instr.feset w
  let start := wrap 64 ((srcS s w.a : Int) + off9 w * 4)
  let len := srcS s w.b
  let buf := w.sub.toNat % 4
  let m := s.exec i
  if m == 0 then .done s
  else if len % 4 != 0 || start % 4 != 0 then .trap 0x0C m
  else if len == 0 then .done s
  else if localSize s buf < start + len then .trap 0x0B m
  else
    let ws := (List.range (len / 4)).map (fun k => start / 4 + k)
    let full := w.sub.getLsbD 2
    let s := s.modTeam s.g.tid (fun t =>
      let x := t.buf buf
      t.setBuf buf { x with full := ws.foldl (fun f k => f.set k (if full then 1 else 0)) x.full })
    .done (feWake s s.g.tid)
def execFeset (w : MWord) (s : State) : Host.Outcome State Fault Refusal := core (.feset w) (bodyFeset w) s

/-! ### Atomics (R246 to R250) -/

/-- The lanes of an atomic with their offsets: for `cas` b is the comparand and there is no index. -/
def atomLanes (s : State) (i : Instr) (w : MWord) : List (Nat × Nat) :=
  (memLanes s i w).map (fun l =>
    (l, if w.sub.toNat == 9 then wrap 64 ((s.regs.src w.a 1 l : Int) + off9 w * szB w.size) else eaLocal s w l))

/-- One lane: read old, write the new value; the bits stay (R229), and the write squashes what it conflicts with
(R233). -/
def atomLane (w : MWord) (buf : Nat) (r : State × List (Nat × Nat)) (e : Nat × Nat) : State × List (Nat × Nat) :=
  let s := r.1
  let n := szB w.size
  let old := ofBytes (localBytes s buf e.2 n)
  let res := atomOp w.sub.toNat (8 * n) old (dataOf s w e.1) (s.regs.src w.b (szN w.size) e.1 % 2 ^ (8 * n))
  let s := directFlags s res.2
  match res.1 with
  | none => (s, r.2 ++ [(e.1, old)])
  | some v =>
    let s := if buf < 4 then
        (raceMark s s.g.tid buf e.2 n).modTeam s.g.tid (fun t => t.setBuf buf ((t.buf buf).putRaw e.2 (leBytes n v)))
      else s.modCluster s.cl.cid (fun c => { c with sram := Cells.write c.sram e.2 (leBytes n v) })
    (conflict s (linesOf (localLoc buf e.2) n) s.g.tid s.cl.cid s.cur none, r.2 ++ [(e.1, old)])

/-- atoms on G and atomc on cluster SRAM. -/
def bodyAtom (i : Instr) (buf : Nat) (w : MWord) (s : State) : Act :=
  let as := atomLanes s i w
  let n := szB w.size
  match checkLocal s i (onceM w) buf n as with
  | some a => a
  | none =>
    if as.isEmpty then .done s
    else if reservedBlocks s (as.flatMap (fun e => linesOf (localLoc buf e.2) n)) s.g.core s.cur none then .wait .line s
    else
      let r := as.foldl (atomLane w buf) (s, [])
      .done (longWrite r.1 (wrDst w.d (szN w.size) r.2) (regsOf w.d (szN w.size)) 1)

def execAtoms (w : MWord) (s : State) : Host.Outcome State Fault Refusal := core (.atoms w) (bodyAtom (.atoms w) 3 w) s
def execAtomc (w : MWord) (s : State) : Host.Outcome State Fault Refusal := core (.atomc w) (bodyAtom (.atomc w) 4 w) s

/-! ### mrd and mwr (R427, R428) -/

/-- The offset that lane L of `mrd` reads by mode, if it reads one. -/
def mrdAt (mode base lane : Nat) : Option Nat :=
  match mode with
  | 0 => some (base + 4 * lane)
  | 1 => if lane < 16 then some (base + 1024 + 4 * lane) else if lane == 16 then some (base + 1088) else none
  | 2 => if lane < 16 then some (base + 1092 + 4 * lane) else if lane == 16 then some (base + 1088) else none
  | _ => if lane < 16 then some (base + 1280 + 4 * lane) else some (base + 1344 + 4 * (lane - 16))

/-- The alignment and range checks of `mrd` and `mwr`. -/
def checkC (s : State) (mode n : Nat) (base : Nat) (as : List (Nat × Nat)) (ls : List Nat) : Option Act :=
  let al := if mode == 0 then n else 2048
  let out := (as.filter (fun e => localSize s 2 < e.2 + n)).map (fun e => e.1)
  if ls.isEmpty then none
  else if base % al != 0 then some (.trap 0x0C (maskOf ls))
  else if !out.isEmpty then some (.trap 0x0B (maskOf out))
  else none

def bodyMrd (w : RWord) (s : State) : Act :=
  let n := if w.m.getLsbD 4 then 8 else 4
  let mode := w.m.toNat % 4
  let base := srcS s w.a
  let ls := lanesOf (s.exec (.mrd w))
  let as := ls.filterMap (fun l => (if n == 8 then some (base + 8 * l) else mrdAt mode base l).map (fun a => (l, a)))
  match checkC s mode n base as ls with
  | some a => a
  | none =>
    let keys := as.flatMap (fun e => linesOf (localLoc 2 e.2) n)
    if ls.isEmpty then .done s
    else if !readRoom s keys then .cut
    else
      let vals := as.map (fun e => (e.1, ofBytes (localBytes s 2 e.2 n)))
      let r := spoil s s.g.tid 2 n as vals
      let all := ls.map (fun l => (l, ((r.1.find? (fun e => e.1 == l)).map (fun e => e.2 % 2 ^ (8 * n))).getD 0))
      .done (longWrite (noteReads r.2 keys) (wrDst w.d (n / 4) all) (regsOf w.d (n / 4)) 1)
def execMrd (w : RWord) (s : State) : Host.Outcome State Fault Refusal := core (.mrd w) (bodyMrd w) s

def bodyMwr (w : RWord) (s : State) : Act :=
  let n := if w.m.getLsbD 4 then 8 else 4
  let base := srcS s w.a
  let ls := lanesOf (s.exec (.mwr w))
  let as := ls.map (fun l => (l, base + n * l))
  match checkC s 0 n base as ls with
  | some a => a
  | none =>
    if ls.isEmpty then .done s
    else storeAct s (as.map (fun e => .bytes (localLoc 2 e.2) (leBytes n (s.regs.src w.b (n / 4) e.1))))
      (as.flatMap (fun e => linesOf (localLoc 2 e.2) n))
def execMwr (w : RWord) (s : State) : Host.Outcome State Fault Refusal := core (.mwr w) (bodyMwr w) s

end Sys2Proof.Machine
end

