-- ==== Sys2Proof/Machine/System.lean ====
section
/-! DEFINITION. System registers (R126 to R129, R146, R147) with the events of their writes, extended blocks (R156, R168
to R170), and completion counters (R237 to R239). -/

namespace Sys2Proof.Machine

open Sys2Proof

/-! ### Reading (R128, R146) -/

/-- A held write of a flag register in the current chunk (R191). -/
def heldFlag (s : State) (n : Nat) : Option HeldFlags := s.sp.chunk.bind (fun c => c.held.find? (fun h => h.reg == n))

/-- A flag register as the split reads it (R191). -/
def flagReg (s : State) (n : Nat) (own : Word) (pending : Word) : Word :=
  match heldFlag s n with
  | some h => h.val ||| h.later
  | none => own ||| pending

/-- The position of a team's core in its cluster (R95). -/
def teamCol (t : Team) (c : Cluster) : Nat := t.index % c.cx
def teamRow (t : Team) (c : Cluster) : Nat := t.index / c.cx

/-- The value of a system register, in a lane (R128, R311). -/
def sysValue (s : State) (n lane : Nat) : Word :=
  let g := s.g
  let t := s.t
  let c := s.cl
  let gr := s.gr
  let k := s.coreAt g.core
  let x : Nat := match n with
    | 0x000 => lane
    | 0x001 => (if g.spawned then 2 ^ 16 else 0) + g.slot * 2 ^ 8 + g.index
    | 0x002 => teamRow t c * 2 ^ 12 + teamCol t c * 2 ^ 8 + t.index
    | 0x003 => c.linear
    | 0x004 => (if gr.test then 2 ^ 57 else 0) + (if gr.service then 2 ^ 56 else 0) + gr.prio * 2 ^ 48 + gr.kit * 2 ^ 32
        + gr.serial
    | 0x005 => g.core
    | 0x006 => State.dieOf g.core
    | 0x007 => c.cy * 2 ^ 16 + c.cx * 2 ^ 12 + c.cx * c.cy * 2 ^ 8 + t.groups
    | 0x008 => s.ctl.mask.toNat
    | 0x014 => (if g.chunked then 256 else 0)
        + (match gr.bound with
          | some b => (if !g.chunked && b.hdr.rev == 0 then 4 else 0) + b.hdr.rev
          | none => 0)
    | 0x030 => s.clock
    | 0x031 => s.time
    | _ => 0
  match n with
  | 0x010 => g.regs.fpmode
  | 0x011 => flagReg s n g.fpflags (match s.sp.chunk with | some c => c.flags.setWidth 64 | none => 0)
  | 0x012 => g.regs.repro
  | 0x013 => g.regs.srseed
  | 0x018 => flagReg s n g.mxflags 0
  | 0x019 => flagReg s n g.xflags 0
  | 0x01A => k.bintimer
  | 0x020 => s.ctl.trapPc
  | 0x021 => s.ctl.trapCause
  | 0x022 => s.ctl.trapMask
  | 0x023 => s.ctl.trapInfo
  | 0x024 => s.ctl.trapVec
  | 0x025 => s.ctl.trapSave
  | 0x050 => g.chunksq
  | 0x060 => k.faultinj
  | _ =>
    if 0x040 ≤ n && n ≤ 0x047 then k.evsel.getD (n - 0x040) 0
    else if 0x048 ≤ n && n ≤ 0x04F then k.evcnt.getD (n - 0x048) 0
    else BitVec.ofNat 64 x

/-- R146: a scalar receives what the lowest executing lane sees; a vector each lane's value. -/
def bodySysrd (w : IWord) (s : State) : Act :=
  let m := s.exec (.sysrd w)
  let n := w.imm.toNat
  let ls := if isS w.d then (if m == 0 then [] else [lowest m]) else lanesOf m
  wrote s (wrDst w.d (if w.m4 == 1 then 2 else 1) (ls.map (fun l => (l, (sysValue s n l).toNat))))
def execSysrd (w : IWord) (s : State) : Host.Outcome State Fault Refusal := core (.sysrd w) (bodySysrd w) s

/-! ### Writing (R70, R74, R78, R147, R191, R421, R472, R522) -/

/-- The low n bits of a value. -/
def lowBits (n : Nat) (v : Word) : Word := v &&& BitVec.ofNat 64 (2 ^ n - 1)

/-- A write of SRSEED sets the count to 0 (R78). -/
def writeSrseed (v : Word) (s : State) : State := s.modRegs (fun r => { r with srseed := v, srcount := 0 })

/-- A write of a flag register is held with its chunk (R191), and takes effect at once outside one. -/
def writeFlags (n : Nat) (v : Word) (s : State) : State :=
  let v := lowBits (if n == 0x011 then 7 else 8) v
  if s.sp.chunk.isSome then
    s.modChunk (fun c => { c with held := c.held.filter (fun h => h.reg != n) ++ [⟨n, v, 0⟩] })
  else s.modG (fun g => match n with
    | 0x011 => { g with fpflags := v }
    | 0x018 => { g with mxflags := v }
    | _ => { g with xflags := v })

/-- A write of FAULTINJ arms or disarms one flip for the writing group's team (R421). -/
def writeFaultinj (v : Word) (s : State) : State :=
  let c := s.g.core
  let k := s.coreAt c
  let keep : Word := BitVec.ofNat 64 (2 ^ 63 + 2 ^ 25 - 1)
  s.setCore c { k with faultinj := v &&& keep, fiTeam := s.g.tid, fiCmd := none }

/-- R472: a write of TRAPPC voids the set-aside resume state. -/
def writeTrappc (v : Word) (s : State) : State :=
  s.modCtl (fun c => { c with trapPc := v &&& ~~~3, resume := none })

/-- R472: a write of TRAPCAUSE that sets INTRAP while it is 0 voids the resume state. -/
def writeTrapcause (v : Word) (s : State) : State :=
  s.modCtl (fun c => { c with trapCause := v &&& BitVec.ofNat 64 (2 ^ 63 + 0x3FF)
                              resume := if v.getLsbD 63 && !c.trapCause.getLsbD 63 then none else c.resume })

/-- The effect of a write of a system register, with its reserved bits dropped (R6). DESIGN CHOICE, log 108: the other splits
of the group see a write of FPMODE, REPRO or SRSEED at once. -/
def sysWrite (n : Nat) (v : Word) (s : State) : State :=
  let c := s.g.core
  let k := s.coreAt c
  match n with
  | 0x010 =>
    let rm := if 6 ≤ v.toNat % 8 then v &&& ~~~7 else v
    s.modRegs (fun r => { r with fpmode := lowBits 9 rm })
  | 0x011 | 0x018 | 0x019 => writeFlags n v s
  | 0x012 => s.modRegs (fun r => { r with repro := lowBits 1 v })
  | 0x013 => writeSrseed v s
  | 0x01A => s.setCore c { k with bintimer := lowBits 16 v }
  | 0x020 => writeTrappc v s
  | 0x021 => writeTrapcause v s
  | 0x022 => s.modCtl (fun c => { c with trapMask := lowBits 32 v })
  | 0x023 => s.modCtl (fun c => { c with trapInfo := v })
  | 0x024 => s.modCtl (fun c => { c with trapVec := v &&& ~~~3 })
  | 0x025 => s.modCtl (fun c => { c with trapSave := v })
  | 0x050 => s.modG (fun g => { g with chunksq := v })
  | 0x060 => writeFaultinj v s
  | _ =>
    if 0x040 ≤ n && n ≤ 0x047 then
      s.setCore c { k with evsel := putAt 8 0 k.evsel (n - 0x040) (lowBits 18 v), evteam := putAt 8 0 k.evteam (n - 0x040) s.g.tid }
    else if 0x048 ≤ n && n ≤ 0x04F then s.setCore c { k with evcnt := putAt 8 0 k.evcnt (n - 0x048) v }
    else s

/-- R147. -/
def bodySyswr (w : IWord) (s : State) : Act :=
  .done (if s.exec (.syswr w) == 0 then s else sysWrite w.imm.toNat (s.regs.sget (rnum w.a)) s)
def execSyswr (w : IWord) (s : State) : Host.Outcome State Fault Refusal := core (.syswr w) (bodySyswr w) s

/-- The writes that the opcode table lists as steps of their own, by the current split. -/
def execSrseedWrite (v : Word) (s : State) : Host.Outcome State Fault Refusal := event s.hasCur (writeSrseed v) s
def execFlagsRegisterWrite (n : BitVec 12) (v : Word) (s : State) : Host.Outcome State Fault Refusal :=
  event (s.hasCur && (n == 0x011 || n == 0x018 || n == 0x019)) (writeFlags n.toNat v) s
def execFaultinjArm (v : Word) (s : State) : Host.Outcome State Fault Refusal :=
  event (s.hasCur && s.gr.test && v.getLsbD 63) (writeFaultinj v) s
def execFaultinjDisarm (v : Word) (s : State) : Host.Outcome State Fault Refusal :=
  event (s.hasCur && s.gr.test && !v.getLsbD 63) (writeFaultinj v) s
def execTrappcWrite (v : Word) (s : State) : Host.Outcome State Fault Refusal := event s.hasCur (writeTrappc v) s
def execTrapcauseWrite (v : Word) (s : State) : Host.Outcome State Fault Refusal := event s.hasCur (writeTrapcause v) s

/-! ### Extended blocks (R155 to R159, R168 to R170) -/

/-- The slots of a mask. -/
def slotsOf (m : Nat) : List Nat := (List.range 6).filter (fun k => bitAt m k)

/-- Free blocks of a core's pool of 128. -/
def freeBlocks (s : State) (core : Nat) : Nat :=
  128 - (s.groups.filter (fun g => g.core == core && !g.saved)).foldl (fun n g => n + g.ext.length) 0

/-- The slots of a request that the group neither holds nor has requested (R156). -/
def newSlots (s : State) (g : Group) (slots : List Nat) : List Nat :=
  slots.filter (fun k => !g.ext.contains k && !s.requested g k)

/-- The cells of an extended slot are lost (R157). -/
def dropSlot (c : Cells 32) (k : Nat) : Cells 32 := c.filter (fun e => !(32 * (64 + 32 * k) ≤ e.1 && e.1 < 32 * (96 + 32 * k)))

/-- A group takes slots: their registers read 0 (R157), also in the checkpoints of its chunks in progress. -/
def grantSlots (s : State) (gid : Nat) (slots : List Nat) : State :=
  let clear (c : Cells 32) : Cells 32 := slots.foldl dropSlot c
  let ckpt (c : Chunk) : Chunk := { c with ckRegs := { c.ckRegs with v := clear c.ckRegs.v } }
  let inSplit (p : Split) : Split := { p with chunk := p.chunk.map ckpt }
  s.modGroup gid (fun g =>
    { g with ext := g.ext ++ slots, regs := { g.regs with v := clear g.regs.v }, splits := g.splits.map inSplit })

/-- The head request of a core's queue. The requests of saved groups stand in no queue until they resume (R166). -/
def blockHead (s : State) (core : Nat) : Option BlockReq :=
  if core == noCore then none else s.blockQ.find? (fun r => r.core == core)

/-- R169: wait, try, and post. DESIGN CHOICE, log 126: a try whose slots are all held or requested succeeds at once (R156), whatever
stands in the queue. -/
def bodyAcqx (w : IWord) (s : State) : Act :=
  let g := s.g
  let m := s.exec (.acqx w)
  let slots := newSlots s g (slotsOf w.imm.toNat)
  let mine := s.blockQ.any (fun r => r.gid == g.gid && r.sp == s.cur.2 && !r.posted)
  if m == 0 then .done s
  else match w.m4.toNat with
    | 0 =>
      if s.sp.acqDone then .done (s.modSp (fun p => { p with acqDone := false }))
      else if mine then .wait .blocks s
      else if slots.isEmpty then .done s
      else .wait .blocks { s with blockQ := s.blockQ ++ [⟨g.core, g.gid, s.cur.2, slots, false⟩] }
    | 1 =>
      let ok := slots.isEmpty || ((blockHead s g.core).isNone && slots.length ≤ freeBlocks s g.core)
      .done (applyWr (if ok then grantSlots s g.gid slots else s) (wrPred w.d m (if ok then m else 0)))
    | _ =>
      if slots.isEmpty then .done s
      else .done ({ s with blockQ := s.blockQ ++ [(⟨g.core, g.gid, s.cur.2, slots, true⟩ : BlockReq)] }.modSp
        (fun p => { p with posted := p.posted ++ slots }))
def execAcqx (w : IWord) (s : State) : Host.Outcome State Fault Refusal := core (.acqx w) (bodyAcqx w) s

/-- R170. A released register counts as overwritten for a matrix command that has yet to read it. -/
def bodyRelx (w : IWord) (s : State) : Act :=
  let g := s.g
  let slots := (slotsOf w.imm.toNat).filter (fun k => g.ext.contains k)
  if s.exec (.relx w) == 0 then .done s
  else if slots.any (fun k => (List.range 32).any (fun r => g.emptyReg (.v (64 + 32 * k + r)))) then .wait .dest s
  else .done (s.modG (fun g =>
    { g with ext := g.ext.filter (fun k => !slots.contains k)
             regs := g.regs.touch (slots.flatMap (fun k => (List.range 32).map (fun r => 64 + 32 * k + r))) }))
def execRelx (w : IWord) (s : State) : Host.Outcome State Fault Refusal := core (.relx w) (bodyRelx w) s

/-- R156: the request at the head is granted whole when enough blocks are free. -/
def grantHead (core : Nat) (s : State) : State :=
  match blockHead s core with
  | none => s
  | some r =>
    let s := grantSlots { s with blockQ := s.blockQ.erase r } r.gid r.slots
    s.modSplitOf r.gid r.sp (fun p => { p with
      acqDone := p.acqDone || !r.posted, posted := p.posted.filter (fun k => !(r.posted && r.slots.contains k)) })

/-- XBLOCK_GRANT. -/
def execXblockGrant (core : Nat) (s : State) : Host.Outcome State Fault Refusal :=
  event (match blockHead s core with | some r => r.slots.length ≤ freeBlocks s core | none => false) (grantHead core) s

/-! ### Completion counters (R237 to R239) -/

/-- A counter word satisfies a target (R237). -/
def satisfied (w t : Nat) : Bool := w / 2 ^ 24 != 0 || (w % 2 ^ 24 + 2 ^ 24 - t % 2 ^ 24) % 2 ^ 24 < 2 ^ 23

/-- R238, R239. -/
def bodyWaitc (w : RWord) (s : State) : Act :=
  let m := s.exec (.waitc w)
  let a := srcS s w.a
  if m == 0 then .done s
  else if a % 4 != 0 then .trap 0x0C m
  else if localSize s 3 < a + 4 then .trap 0x0B m
  else
    let x := ofBytes (localBytes s 3 a 4)
    if satisfied x (srcS s w.b) || mBit0 w.m then wrote s (wrDst w.d 1 [(0, x)]) else .wait .counter s
def execWaitc (w : RWord) (s : State) : Host.Outcome State Fault Refusal := core (.waitc w) (bodyWaitc w) s

end Sys2Proof.Machine
end

