-- ==== Sys2Proof/Machine/Portable.lean ====
section
/-! DEFINITION. krepl and the mode of a context (R309, R499), portable words (R494 to R496), the safe-point marker (R498), and
words that form no instruction (R48). -/

namespace Sys2Proof.Machine

open Sys2Proof

/-! ### krepl (R499) -/

/-- The image is malformed, or its header, read in the chunk (R490). None where the header is not mapped. -/
def imageCheck (s : State) (b : List Byte) : Option (Option KitEntry) :=
  let e := kitEntry b
  if e.selfBad then some none
  else match rdGlobal s s.slotNo e.desc 64 with
    | .miss _ _ _ _ => none
    | .bad => some none
    | .ok _ =>
      let h := codeHdr (gBytes s e.desc 64)
      if !h.2 || h.1.form != (if e.portable then 1 else 0) || h.1.rev != e.rev then some none else some (some e)

/-- The entries that the current split's chunk has swapped, with whether to revision 2. -/
def chunkSwaps (s : State) : List (Nat × Bool) := match s.sp.chunk with | some c => c.swaps | none => []

/-- The status of a swap (R499). -/
def kreplStatus (s : State) (slot idx expected : Nat) (img : Option KitEntry) (cur : KitEntry) : Nat :=
  match img with
  | none => 2
  | some e =>
    if 4096 ≤ idx then 2
    else if cur.version != expected % 2 ^ 32 then 1
    else if wantWith s slot idx (e.rev == 2) (chunkSwaps s) != s.chunkedMode then 3
    else 0

/-- The chunk keeps what a `krepl` has judged of the mode, and its swap (R499). -/
def noteJudged (s : State) (slot idx st : Nat) (e : KitEntry) : State :=
  let j : Judged := { idx := idx, rev2 := e.rev == 2, before := chunkSwaps s, want := wantWith s slot idx (e.rev == 2) (chunkSwaps s) }
  s.modChunk (fun c => { c with
    judged := c.judged ++ [j]
    swaps := if st == 0 then c.swaps.filter (fun x => x.1 != idx) ++ [(idx, e.rev == 2)] else c.swaps })

/-- The image is installed: a portable one without a translation goes to the translator unit (R497). -/
def noteInstall (s : State) (slot kit : Nat) (e : KitEntry) : State :=
  if e.portable && e.native == 0 then { s with transls := s.transls ++ [⟨slot, kit, e.desc, e.version⟩] } else s

/-- An installed entry calls for a translation, unless one of it is in progress. -/
def noteEntry (s : State) (slot k : Nat) : State :=
  match rdGlobal s slot (kitAddr s slot k) 64 with
  | .ok b =>
    let e := kitEntry b
    let s := touch s slot .read (kitAddr s slot k)
    if e.valid && !e.selfBad && !s.transls.any (fun t => t.slot == slot && t.kit == k && t.desc == e.desc && t.version == e.version) then
      noteInstall s slot k e
    else s
  | _ => s

/-- The entries of a context that call for a translation; a table with a missing page is looked at again. -/
def scanKit (s : State) (slot : Nat) : State :=
  let ps := kitPieces s slot
  let s := ps.foldl (fun s p => (List.range p.2.1).foldl (fun s k => noteEntry s slot (p.1 + k)) s) s
  if ps.any (fun p => match p.2.2 with | .miss _ _ _ _ => true | _ => false) && !s.scanDue.contains slot then
    { s with scanDue := s.scanDue ++ [slot] }
  else s

/-- A table whose missing page has come may be looked at again. -/
def rescanOk (s : State) (slot : Nat) : Bool :=
  s.ctxValid slot && !(kitPieces s slot).any (fun p => match p.2.2 with | .miss _ _ _ _ => true | _ => false)

/-- Look again at the tables with missing pages. -/
def rescan (s : State) : State :=
  s.scanDue.foldl (fun s slot => if rescanOk s slot then scanKit { s with scanDue := s.scanDue.erase slot } slot else s) s

/-- The entries that a write of physical bytes installs. -/
def kitWritten (s : State) (k n : Nat) : State :=
  ((List.range 64).filter s.ctxValid).foldl (fun s slot => (kitPieces s slot).foldl (fun s p => match p.2.2 with
    | .hit false o inPage l =>
      let at_ := phys o (l.frame + inPage)
      if at_ < k + n && k < at_ + 64 * p.2.1 then
        (List.range ((k + n + 63 - at_) / 64 - (k - at_) / 64)).foldl (fun s j =>
          if (k - at_) / 64 + j < p.2.1 then noteEntry s slot (p.1 + (k - at_) / 64 + j) else s) s
      else s
    | _ => s) s) s

/-- The swap at a peer's kernel table, which its home makes (R499): the reply gives the entry as it was. -/
def kreplPeer (w : RWord) (m : Mask) (ka : Nat) (q : PeerReq) (s : State) : Act :=
  match q.reply with
  | none => .wait .peer s
  | some (b, _) =>
    let cur := kitEntry b
    let same := cur.version == srcS s w.c % 2 ^ 32
    let t := readDone { s with peerReqs := s.peerReqs.erase q }
    let out (s : State) : Act := .done (applyWr s (wrDst w.d 1 [(0, cur.version * 2 ^ 32 + (if same then 0 else 1))]))
    if b.isEmpty then .trap 0x0B m
    else if !same then out t
    else if batchRoom s then out (sendBatch t (s.asid s.slotNo) [] (linesOf (normal s ka) 64) none)
    else .wait .peer s

/-- R499; d is written with the effect. A compressed page's entry cannot be written (R264). -/
def bodyKrepl (w : RWord) (s : State) : Act :=
  let i := Instr.krepl w
  let m := s.exec i
  let idx := srcS s w.a
  let b := srcS s w.b
  let slot := s.slotNo
  let ka := kitAddr s slot idx
  if m == 0 then .done s
  else if (place s b).isNone || (place s ka).isNone then .trap 0x0B m
  else if b % 64 != 0 then .trap 0x0C m
  else match peerReply s with
  | some q => kreplPeer w m ka q s
  | none =>
    readAll i [(b, 64), (ka, 64)] s (fun s =>
      let img := gBytes s b 64
      let cur := kitEntry (gBytes s ka 64)
      let desc := (kitEntry img).desc
      if access s slot .own ka == .viol then .trap 0x0B m
      else if !(kitEntry img).selfBad && redHits s (normal s desc) 64 then (if s.sp.chunk.isSome then .cut else .wait .stores s)
      else match imageCheck s img with
      | none =>
        match rdGlobal s slot desc 64 with
        | .miss h o p k => .wait .parked (park s s.cur slot s.g.core none .read h o p k)
        | _ => .done (readDone s)
      | some r =>
        let s := if (kitEntry img).selfBad then s else noteReads (touch s slot .read desc) (linesOf (normal s desc) 64)
        let st := kreplStatus s slot idx (srcS s w.c) r cur
        let keys := linesOf (normal s ka) 64
        let out (s : State) : Act := .done (applyWr (readDone s) (wrDst w.d 1 [(0, cur.version * 2 ^ 32 + st)]))
        let s := match r with
          | some e => if st == 0 || st == 3 then noteJudged s slot idx st e else s
          | none => s
        if st != 0 && st != 3 then out s
        else match kitUnread s slot with
        | some m => .wait .parked (park s s.cur slot s.g.core none .read m.host m.owner m.block m.kind)
        | none =>
        if st != 0 then out s
        else if s.chunkedMode then (match storeAct s [.kit (normal s ka) img] keys with | .done s => out s | a => a)
        else match access s slot .own ka with
          | .hit h o inPage l =>
            out (noteInstall (conflict (pageWrite s h o l inPage img) keys s.g.tid s.cl.cid s.cur none) slot idx (kitEntry img))
          | .peer _ => .wait .peer (askAtom s ka 64 kitCode (ofBytes img) (srcS s w.c % 2 ^ 32))
          | _ => out s)
def execKrepl (w : RWord) (s : State) : Host.Outcome State Fault Refusal := core (.krepl w) (bodyKrepl w) s

/-! ### Words that form no instruction (R21, R45, R48) -/

def nopWord : RWord := ⟨⟨false, 0, 0⟩, 0, 0, 0, 0, 0⟩

/-- The word traps at decode: PREFIX for a stray prefix word, ILLOP for any other. -/
def execUnassignedOpcode (w : Word) (s : State) : Host.Outcome State Fault Refusal :=
  let c := if w.toNat / 2 ^ 56 == 0xE0 && w.toNat / 2 ^ 40 % 2 ^ 16 == 0 then 0x02 else 0x01
  core (.nop nopWord) (fun s => .trap c s.ctl.mask) s

/-! ### Portable code (R494 to R498) -/

/-- The native header paired with a marker in a safe-point map of n pairs. -/
def mapFind (s : State) (slot base marker : Nat) : Nat → Nat → Option Nat
  | 0, _ => none
  | n + 1, k =>
    match rdGlobal s slot (base + 8 + 16 * k) 8, rdGlobal s slot (base + 16 + 16 * k) 8 with
    | .ok a, .ok h =>
      if ofBytes a == marker then some (ofBytes h)
      else if marker < ofBytes a then none
      else mapFind s slot base marker n (k + 1)
    | _, _ => none

/-- The native header at which a portable split continues after a marker (R498). -/
def switchAt (s : State) : Option Nat :=
  let gr := s.gr
  let lanes := lanesOf s.ctl.mask
  if !s.ctl.stack.isEmpty || s.ctl.trapCause.getLsbD 63 || lanes.any (fun l => !(s.regs.retsOf l).isEmpty) then none
  else
    match gr.bound, rdGlobal s gr.slot (kitAddr s gr.slot gr.kit) 64 with
    | some b, .ok eb =>
      let e := kitEntry eb
      if b.portable && e.valid && e.desc == b.desc && e.native != 0 && e.spmap != 0 then
        match rdGlobal s gr.slot e.spmap 4 with
        | .ok c => mapFind s gr.slot e.spmap s.ctl.pc.toNat (ofBytes c) 0
        | _ => none
      else none
    | _, _ => none

/-- R495, R498. -/
def bodyMarker (s : State) : Act :=
  match if s.ctl.portable then switchAt s else none with
  | none => .done s
  | some h =>
    let a : Word := BitVec.ofNat 64 h
    .jump (s.modCtl (fun c => { c with portable := false, pc := a, hdrAddr := a, hdr := 0, atHdr := true, skipLeft := 0 }))
def execSafePointMarker (s : State) : Host.Outcome State Fault Refusal := core (.nop nopWord) bodyMarker s

/-- A native core instruction by its own meaning. -/
def nativeExec (i : Instr) (s : State) : Host.Outcome State Fault Refusal :=
  match i with
  | .nop w => execNop w s
  | .bra w => execBra w s
  | .skip w => execSkip w s
  | .brx w => execBrx w s
  | .call w => execCall w s
  | .ret w => execRet w s
  | .loop w => execLoop w s
  | .exit w => execExit w s
  | .yield w => execYield w s
  | .spawn w => execSpawn w s
  | .launch w => execLaunch w s
  | .bar w => execBar w s
  | .barw w => execBarw w s
  | .trap w => execTrap w s
  | .rte w => execRte w s
  | .sysrd w => execSysrd w s
  | .syswr w => execSyswr w s
  | .chunk w => execChunk w s
  | .fence w => execFence w s
  | .ifence w => execIfence w s
  | .elect w => execElect w s
  | .vote w => execVote w s
  | .acqx w => execAcqx w s
  | .relx w => execRelx w s
  | .waitc w => execWaitc w s
  | .clock w => execClock w s
  | .krepl w => execKrepl w s
  | .brk w => execBrk w s
  | .iadd w => execIadd w s
  | .isub w => execIsub w s
  | .imul w => execImul w s
  | .imulh w => execImulh w s
  | .imad w => execImad w s
  | .idiv w => execIdiv w s
  | .imin w => execImin w s
  | .imax w => execImax w s
  | .isat w => execIsat w s
  | .and w => execAnd w s
  | .or w => execOr w s
  | .xor w => execXor w s
  | .andn w => execAndn w s
  | .shl w => execShl w s
  | .shr w => execShr w s
  | .fshf w => execFshf w s
  | .bfx w => execBfx w s
  | .bfi w => execBfi w s
  | .popc w => execPopc w s
  | .clz w => execClz w s
  | .brev w => execBrev w s
  | .icmp w => execIcmp w s
  | .sel w => execSel w s
  | .mov w => execMov w s
  | .lea w => execLea w s
  | .iaddc w => execIaddc w s
  | .merge w => execMerge w s
  | .fadd w => execFadd w s
  | .fsub w => execFsub w s
  | .fmul w => execFmul w s
  | .ffma w => execFfma w s
  | .fmin w => execFmin w s
  | .fmax w => execFmax w s
  | .frcp w => execFrcp w s
  | .frsq w => execFrsq w s
  | .fsqrt w => execFsqrt w s
  | .fexp2 w => execFexp2 w s
  | .flog2 w => execFlog2 w s
  | .fcmp w => execFcmp w s
  | .fclass w => execFclass w s
  | .fsgn w => execFsgn w s
  | .cvt w => execCvt w s
  | .qnt w => execQnt w s
  | .dqnt w => execDqnt w s
  | .fdot2 w => execFdot2 w s
  | .frnd w => execFrnd w s
  | .fscale w => execFscale w s
  | .fredu w => execFredu w s
  | .shfl w => execShfl w s
  | .perm w => execPerm w s
  | .plog w => execPlog w s
  | .pcnt w => execPcnt w s
  | .scan w => execScan w s
  | .vtos w => execVtos w s
  | .stov w => execStov w s
  | .compact w => execCompact w s
  | .rebal w => execRebal w s
  | .nzscan w => execNzscan w s
  | .alset w => execAlset w s
  | .alget w => execAlget w s
  | .sunpk w => execSunpk w s
  | .spack w => execSpack w s
  | .sld w => execSld w s
  | .sst w => execSst w s
  | .sdot w => execSdot w s
  | .smap w => execSmap w s
  | .schk w => execSchk w s
  | .scvt w => execScvt w s
  | .smadd w => execSmadd w s
  | .scnt w => execScnt w s
  | .lds w => execLds w s
  | .sts w => execSts w s
  | .ldsf w => execLdsf w s
  | .stse w => execStse w s
  | .ldsp w => execLdsp w s
  | .feset w => execFeset w s
  | .atoms w => execAtoms w s
  | .ldc w => execLdc w s
  | .stc w => execStc w s
  | .atomc w => execAtomc w s
  | .ldsx w => execLdsx w s
  | .stsx w => execStsx w s
  | .ldg w => execLdg w s
  | .stg w => execStg w s
  | .atomg w => execAtomg w s
  | .casg w => execCasg w s
  | .pref w => execPref w s
  | .ldgc w => execLdgc w s
  | .stgs w => execStgs w s
  | .red w => execRed w s
  | .probe w => execProbe w s
  | .migr w => execMigr w s
  | .xcopy w => execXcopy w s
  | .xform w => execXform w s
  | .xgath w => execXgath w s
  | .xscat w => execXscat w s
  | .gnode w => execGnode w s
  | .grun w => execGrun w s
  | .evmapMap w => execEvmapMap w s
  | .evmapPulse w => execEvmapPulse w s
  | .evmapClear w => execEvmapClear w s
  | .xfill w => execXfill w s
  | .xpeer w => execXpeer w s
  | .xcancel w => execXcancel w s
  | .ebb w => execEbb w s
  | .kvmap w => execKvmap w s
  | .mma w => execMma w s
  | .mloop w => execMloop w s
  | .msparse w => execMsparse w s
  | .mzero w => execMzero w s
  | .mrd w => execMrd w s
  | .mwr w => execMwr w s
  | .mscale w => execMscale w s
  | .oprdy w => execOprdy w s
  | .mchk w => execMchk w s
  | .attn w => execAttn w s
  | .mconv w => execMconv w s
  | .mrel w => execMrel w s
  | .unassignedOpcode w => execUnassignedOpcode w s
  | _ => .next s

/-- A portable word executes the native instruction that it forms (R495), or traps ILLOP. -/
def execPortableInstruction (w : Word) (s : State) : Host.Outcome State Fault Refusal :=
  match portableWord (w.toNat % 2 ^ 32) (w.toNat / 2 ^ 32) with
  | some n => nativeExec (decodeWord n none) s
  | none => execUnassignedOpcode 0 s

end Sys2Proof.Machine
end

