-- ==== Sys2Proof/Machine/Fetch.lean ====
section
/-! DEFINITION. Fetching a split's next instruction (R20, R21, R44, R45, R264, R493 to R496), the selection of splits
(R29, R111), and the passing of time (R129). -/

namespace Sys2Proof.Machine

open Sys2Proof

/-! ### Time (R129, R523) -/

/-- A counter selects, enabled, the event whose count the manual leaves to the implementation: L1 misses. -/
def openEvent (sel : Nat) : Bool := bitAt sel 16 && sel % 2 ^ 16 == 0x07

/-- The counts of a core after n cycles (R523): event 0x00 counts the cycles, and an open event a free value. -/
def coreCounts (s : State) (n : Nat) (e : Nat × Core) : Nat × Core :=
  let k := e.2
  (e.1, { k with evcnt := (List.range 8).map (fun j =>
    let sel := (k.evsel.getD j 0).toNat
    let v := k.evcnt.getD j 0
    if bitAt sel 16 && sel % 2 ^ 16 == 0 then v + BitVec.ofNat 64 n
    else if openEvent sel then v + Config.freeValue (s.free + 8 * e.1 + j)
    else v) })

/-- n cycles pass (R129). -/
def advance (s : State) (n : Nat) : State :=
  let drew := s.cores.any (fun e => e.2.evsel.any (fun v => openEvent v.toNat))
  let s := { s with clock := s.clock + n, issued := if n == 0 then s.issued else [], cores := s.cores.map (coreCounts s n)
                    free := if drew then s.free + 2048 else s.free }
  drainDue (if s.bar0.any (fun e => 0x10000 ≤ e.1 && e.1 < 0x15000) then (List.range 5).foldl (fun s d => s.countDie d 0x00 n) s else s)

/-! ### Instruction words -/

/-- What comes of the current split's next issue: an instruction in a state, or only a state. -/
inductive Move where
  | run (i : Instr) (s : State)
  | rest (s : State)
  deriving Repr

/-- The split of a served request has still to make its access: it stands at its word, and none of its requests is parked. -/
def servingLive (s : State) (e : Serving) : Bool :=
  match s.group? e.who.1 with
  | some g => !g.saved && !(s.clusterOf g).toSave && !s.parked.any (fun q => q.who == e.who) && (match g.split? e.who.2 with
    | some p => p.wait == some .parked || p.wait == some .ready
    | none => false)
  | none => false

/-- Two served requests have an order: they stood in one queue (R260), or name one page (R267, R277). -/
def Serving.ordered (x y : Serving) : Bool :=
  x.die == y.die && (x.slice == y.slice || (x.asid == y.asid && x.host == y.host && x.base == y.base))

/-- An access that was accepted before a split's own is still to be made. -/
def servedBehind (s : State) (who : Nat × Nat) : Bool :=
  let before := s.serving.takeWhile (fun e => e.who != who)
  before.length < s.serving.length
    && before.any (fun x => servingLive s x && s.serving.any (fun e => e.who == who && x.ordered e))

/-- What keeps the current split from its next word, whatever that is. DESIGN CHOICE, log 122: a chunk that has ended keeps its split
from the next one until it commits, whatever ended it. -/
def heldBack (s : State) : Option Wait :=
  let p := s.sp
  if p.pend.isSome then some .trap
  else if p.born.isSome then some .born
  else if p.bar.isSome then some .barrier
  else if p.chunkClosed then some .commit
  else if s.parked.any (fun q => q.who == s.cur) || servedBehind s s.cur then some .parked
  else none

/-- The split waits for the page of an instruction word. -/
def fetchMiss (s : State) (host : Bool) (owner page kind : Nat) : State :=
  dropEmptyChunk ((park s s.cur s.slotNo s.g.core none .fetch host owner page kind).modSp
    (fun p => { p with wait := some .parked }))

/-- The word at hand: its length in bytes, and the word that TRAPINFO receives. -/
def atHand (s : State) (len info : Nat) : State :=
  s.modSp (fun p => { p with irLen := len, irInfo := BitVec.ofNat 64 info })

/-- The last word of the current clause is at this address. -/
def clauseEnd (s : State) : Nat := s.ctl.hdrAddr.toNat + 8 * hdrLen s.ctl.hdr

/-- A violating fetch traps ACCESS at the fetched word, with TRAPINFO 0 (R264, R468). -/
def fetchViol (s : State) (addr : Nat) : State :=
  raiseTrapAt s 0x0B s.ctl.mask (BitVec.ofNat 64 addr) 0 false false {} (s.ctl.portable || addr == clauseEnd s)

/-- A native word, with the word after a prefix (R44); a stray prefix goes on as a word that forms no instruction, its
bits 55:40 cleared (R45), and so does a prefix whose bits 55:40 are not zero. -/
def fetchNative (s : State) : Move :=
  let a := s.ctl.pc.toNat
  match fetchAt s s.g a 8 with
  | (.miss h o p k, s) => .rest (fetchMiss s h o p k)
  | (.viol, s) => .rest (fetchViol s a)
  | (.word w, s) =>
    if w / 2 ^ 56 != 0xE0 then .run (decodeWord (BitVec.ofNat 64 w) none) (atHand s 8 w)
    else
      let stray : Instr := .unassignedOpcode (BitVec.ofNat 64 (0xE0 * 2 ^ 56 + w % 2 ^ 40))
      if clauseEnd s ≤ a then .run stray (atHand s 8 w)
      else
        match fetchAt s s.g (a + 8) 8 with
        | (.miss h o p k, s) => .rest (fetchMiss s h o p k)
        | (.viol, s) => .rest (fetchViol s (a + 8))
        | (.word v, s) =>
          match decodeNative (BitVec.ofNat 64 w) (BitVec.ofNat 64 v) with
          | none => .run stray (atHand s 8 w)
          | some i =>
            if w / 2 ^ 40 % 2 ^ 16 != 0 then .run (.unassignedOpcode (BitVec.ofNat 64 w)) (atHand s 16 v)
            else .run i (atHand s 16 v)

/-- A portable word 0 with its extension word (R494 to R496). -/
def fetchPortable (s : State) : Move :=
  let a := s.ctl.pc.toNat
  match fetchAt s s.g a 4 with
  | (.miss h o p k, s) => .rest (fetchMiss s h o p k)
  | (.viol, s) => .rest (fetchViol s a)
  | (.word w, s) =>
    if !bitAt w 23 then .run (decodeAtPortable w 0) (atHand s 4 w)
    else
      match fetchAt s s.g (a + 4) 4 with
      | (.miss h o p k, s) => .rest (fetchMiss s h o p k)
      | (.viol, s) => .rest (fetchViol s (a + 4))
      | (.word e, s) => .run (decodeAtPortable w e) (atHand s 8 (w + e * 2 ^ 32))

/-- The current split issues: its clause header first where one is due. -/
def fetchInstr (s : State) : Move :=
  if !s.hasCur then .rest s
  else match heldBack s with
  | some w => .rest (s.modSp (fun p => { p with wait := some w }))
  | none =>
    if s.ctl.atHdr then .run .clauseHeaderFetch s
    else if s.ctl.portable then fetchPortable s
    else fetchNative s

/-! ### Selection (R29, R111) -/

/-- A clause of the split is issuing. -/
def midClause (p : Split) : Bool :=
  !p.ctl.atHdr && !p.ctl.portable && p.wait.isNone && p.ctl.pc.toNat != p.ctl.hdrAddr.toNat + 8

/-- The groups of a cluster. -/
def clusterGroups (s : State) (cid : Nat) : List Group := s.groups.filter (fun g => (s.teamOf g).cid == cid)

/-- An unfinished matrix command has yet to read the group's registers (R412). -/
def readsLater (s : State) (g : Group) : Bool :=
  s.cmds.any (fun c => c.mxOf g.tid && isMul c.cmd.opc && !c.aRead
    && (c.cmd.gid == g.gid || ((contributors c.cmd).contains g.index && !g.credits.isEmpty)))

/-- The groups of a chosen cluster stop, unless a matrix command has yet to read the registers of one (R477). -/
def stopped (s : State) (g : Group) : Bool :=
  let c := s.clusterOf g
  c.toSave && !(clusterGroups s c.cid).any (readsLater s)

/-- A split may issue: its group is resident and not stopped, and no clause of another split of the group is issuing. -/
def mayIssue (s : State) (gid id : Nat) : Bool :=
  match s.group? gid with
  | some g => !g.saved && (g.split? id).isSome && !g.splits.any (fun p => p.id != id && midClause p) && !stopped s g
  | none => false

/-- A split is ready, as far as it has been looked at (R111): a wait in which it was found lasts until it is looked at again. -/
def Split.isReady (p : Split) : Bool :=
  (p.wait.isNone || p.wait == some .ready) && p.pend.isNone && p.bar.isNone && p.born.isNone

/-- A candidate that has been passed over for 256 cycles is selected before the others (R112). -/
def Split.first (now : Nat) (p : Split) : Bool := p.promoted || p.since + 256 ≤ now

/-- The better of two by a key. -/
def leastBy (f : Split → Nat) : List Split → Option Split
  | [] => none
  | p :: r => match leastBy f r with
    | some q => if f q < f p then some q else some p
    | none => some p

/-- The candidate of a group (R111): the split whose clause is issuing, or the ready one at the lowest clause address. DESIGN
CHOICE, log 9: one passed over for 512 cycles comes before those of lower addresses, so that R113 holds. -/
def candidate (s : State) (g : Group) : Option Split :=
  let ps := g.splits.filter (fun p => p.isReady && !p.ctl.atHdr)
  match ps.find? midClause with
  | some p => some p
  | none => match leastBy Split.since (ps.filter (fun p => p.since + 512 ≤ s.clock)) with
    | some p => some p
    | none => leastBy (fun p => p.ctl.hdrAddr.toNat) ps

/-- The pipe of a split's next word; none where the word is not at hand. -/
def pipeNext (s : State) (gid id : Nat) : Option Nat :=
  match fetchInstr { s with cur := (gid, id) } with
  | .run (.portableInstruction w) _ =>
    (portableWord (w.toNat % 2 ^ 32) (w.toNat / 2 ^ 32)).map (fun n => pipeOf (decodeWord n none))
  | .run i _ => some (pipeOf i)
  | .rest _ => none

/-- Candidate q of group x is selected before candidate p of group g (R111, R112). -/
def ahead (s : State) (x g : Group) (q p : Split) : Bool :=
  let a := q.first s.clock
  if a != p.first s.clock then a else q.stamp < p.stamp || (q.stamp == p.stamp && x.slot < g.slot)

/-- The candidates of the other groups of the core that come before a split. -/
def rivals (s : State) (g : Group) (p : Split) : List (Nat × Nat) :=
  s.groups.filterMap (fun x =>
    if x.core == g.core && x.gid != g.gid && !x.saved && !s.issued.any (fun e => e.2.2 == x.gid) && !stopped s x then
      (match candidate s x with
        | some q => if ahead s x g q p then some (x.gid, q.id) else none
        | none => none)
    else none)

/-- Cores issue in this cycle: at throttle level k in 8 - k of every 8 cycles (R529). DESIGN CHOICE, log 8: the first ones. -/
def issuing (s : State) : Bool := s.clock % 8 + s.throttle < 8

/-- The issuing cycles from a cycle to the present one, at the present level. -/
def issuingSince (s : State) (t : Nat) : Nat :=
  let upTo (x : Nat) : Nat := x / 8 * (8 - s.throttle) + min (x % 8) (8 - s.throttle)
  upTo s.clock - upTo t

/-- The core selects a ready split in this cycle (R110, R111): cores issue, it is its group's candidate, no word of the group has
issued, and its pipe has room beside those that come before it. -/
def selected (s : State) (gid id : Nat) : Bool :=
  match s.group? gid with
  | none => false
  | some g => match candidate s g with
    | none => false
    | some p =>
      let rs := rivals s g p
      issuing s && p.id == id && !s.issued.any (fun e => e.2.2 == gid)
        && ((rs.isEmpty && s.issued.isEmpty)
          || (match pipeNext s gid id with
            | none => true
            | some k => (s.issued.filter (fun e => e.1 == g.core && e.2.1 == k)).length
                + (rs.filter (fun r => pipeNext s r.1 r.2 == some k)).length < pipeWidth k))

/-- The word of a split that has waited goes on waiting. -/
def stillWaits (i : Instr) (s : State) : Bool :=
  match (match i with | .portableInstruction w => execPortableInstruction w s | .safePointMarker => execSafePointMarker s | _ => nativeExec i s) with
  | .next t => (match (t.group? s.cur.1).bind (fun g => g.split? s.cur.2) with
    | some q => q.wait.isSome && q.wait != some .ready && q.pend.isNone && q.bar.isNone
    | none => false)
  | _ => false

/-- A split whose wait is over becomes ready in this cycle (R111): it enters its clause, or may go on at its word. -/
def settleOne (s : State) (e : Nat × Nat) : State :=
  let t := { s with cur := e }
  if t.sp.wait.isNone || t.sp.wait == some .ready || stopped s t.g || (heldBack t).isSome then s
  else if t.ctl.atHdr then
    let u := fetchHeader t
    if u.hasCur && u.sp.wait.isNone && u.sp.pend.isNone then { u with cur := if s.cur == e then u.cur else s.cur } else s
  else match fetchInstr t with
    | .run i u => if stillWaits i u then s else s.modSplitOf e.1 e.2 (Split.wake s.clock)
    | .rest _ => s

/-- The splits of resident groups. -/
def liveSplits (s : State) : List (Nat × Nat) :=
  s.groups.flatMap (fun g => if g.saved then [] else g.splits.map (fun p => (g.gid, p.id)))

/-- The splits whose waits are over become ready; served requests whose accesses have been made are forgotten. -/
def settle (s : State) : State :=
  (liveSplits s).foldl settleOne (if s.serving.isEmpty then s
    else { s with serving := s.serving.filter (fun e => servingLive s e || s.parked.any (fun q => q.who == e.who)) })

/-- A chosen split issues: its clause header is fetched where one is due, a ready one issues where the core selects it, and one
that waits is looked at again. Nothing happens where it may not. -/
def issueOf (s : State) (gid id : Nat) : Move :=
  if !mayIssue s gid id then .rest s
  else
    let t := { s with cur := (gid, id) }
    let p := t.sp
    if p.ctl.atHdr then fetchInstr t
    else if p.isReady then (if selected s gid id then fetchInstr t else .rest s)
    else
      let w := t.modSp (Split.wake s.clock)
      match fetchInstr t with
      | .rest u => .rest u
      | .run i u => if selected w gid id || stillWaits i u then .run i u else .rest w

/-- The splits in the order in which they take their turns, those after the current one first. -/
def turns (s : State) : List (Nat × Nat) :=
  let l := liveSplits s
  (l.dropWhile (fun e => e != s.cur)).drop 1 ++ l.takeWhile (fun e => e != s.cur) ++ (if l.contains s.cur then [s.cur] else [])

/-- A split that may issue has something to do in this cycle: a header to fetch, a wait to be looked at, or a word that the core
selects. -/
def hasTurn (s : State) (e : Nat × Nat) : Bool :=
  mayIssue s e.1 e.2 && (match (s.group? e.1).bind (fun g => g.split? e.2) with
    | some p => p.ctl.atHdr || !p.isReady || selected s e.1 e.2
    | none => false)

/-- The next split by turn. -/
def nextTurn (s : State) : Option (Nat × Nat) := (turns s).find? (hasTurn s)

/-- What a ready split waits for to issue: itself, within 1,024 issuing cycles, or the clause of another split of its group,
which is to end early enough. -/
def passedBy (g : Group) (p : Split) : Nat × Nat :=
  match g.splits.find? (fun q => q.id != p.id && midClause q) with
  | some q => (q.id, 992)
  | none => (p.id, 1024)

/-- The splits that ready splits wait for, with the cycles since which those have been passed over and within how many these are to
issue (R113). -/
def passedOver (s : State) : List (Nat × Nat × Nat × Nat) :=
  s.groups.flatMap (fun g => if g.saved || stopped s g then [] else
    (g.splits.filter (fun p => p.isReady && !p.ctl.atHdr)).map (fun p => (g.gid, (passedBy g p).1, p.since, (passedBy g p).2)))

/-- A split passed over for 256 cycles can issue in this cycle, or one whose clause it waits for: it does before time passes (R112,
R113). -/
def overdue (s : State) : Option (Nat × Nat) :=
  ((passedOver s).find? (fun e => e.2.2.1 + 256 ≤ s.clock && hasTurn s (e.1, e.2.1))).map (fun e => (e.1, e.2.1))

/-- The current split goes on without waiting; every 256 cycles another has a turn. -/
def goesOn (s : State) : Bool :=
  s.hasCur && s.sp.wait.isNone && mayIssue s s.cur.1 s.cur.2 && (s.ctl.atHdr || selected s s.cur.1 s.cur.2)
    && s.clock % 256 != 255

end Sys2Proof.Machine
end

