-- ==== Sys2Proof/Machine/Commit.lean ====
section
/-! DEFINITION. Chunk commit (R191, R291, R299 to R304, R316), the rounds of the commit sequencers (R300), performed stores
of relaxed mode (R310), the writeback of long-latency results (R160, R163), promotion (R112), and trap delivery (R468). -/

namespace Sys2Proof.Machine

open Sys2Proof

/-! ### Store operations -/

/-- The need of a buffered operation at its home (R264); a kernel table entry needs no permission (log 48). -/
def StoreOp.need : StoreOp → Need
  | .bytes _ _ => .write
  | .red _ _ _ _ _ => .red
  | .kit _ _ => .own

/-- What the home answers to a buffered operation; scratchpad and cluster SRAM need none. -/
def StoreOp.at (s : State) (slot : Nat) (op : StoreOp) : Option Xl :=
  if (localBase op.range.1).isSome then none else some (access s slot op.need op.range.1)

/-- The sums of a slice. -/
def sliceSums (s : State) (sl : Nat × Nat) : List Accum := s.accums.filter (fun a => a.slice == sl)

/-- A canonical reduction joins the sum of its word, or begins one in its slice (R285); a slice whose 256 sums are all in use
folds its oldest first. -/
def addAccum (s : State) (k size : Nat) (sl : Nat × Nat) (rid x : Nat) : State :=
  match s.accums.find? (fun a => a.addr == k && a.size == size) with
  | some a => { s with accums := s.accums.map (fun b => if b == a then { a with vals := a.vals ++ [(rid, x)] } else b) }
  | none =>
    let hit := s.accums.filter (fun a => a.addr < k + size && k < a.addr + a.size)
    let s := hit.foldl State.foldAccum s
    let s := if (sliceSums s sl).length < 256 then s
      else match (sliceSums s sl).head? with
        | some a => s.foldAccum a
        | none => s
    { s with accums := s.accums ++ [⟨k, size, sl, [(rid, x)]⟩] }

/-- A reduction takes effect at its home (R284, R285). -/
def applyRed (s : State) (h : Bool) (o inPage : Nat) (l : Leaf) (op size x : Nat) (canon : Option Nat) : State :=
  match if h then none else canon with
  | some rid => addAccum s (phys o (l.frame + inPage)) size (o, homeSlice o (l.base + inPage)) rid x
  | none =>
    let old := ofBytes ((pageRead s h o l inPage size).getD [])
    let s := if h then { s with out := s.out ++ [.hostAtomic (l.frame + inPage)] } else s
    match (atomOp op (8 * size) old x 0).1 with
    | some v => pageWrite s h o l inPage (leBytes size v)
    | none => s

/-- One buffered operation takes effect; the bytes of a peer go with the batch, and are seen in the package's own copy of their
line until then. -/
def applyOp (s : State) (tid slot : Nat) (op : StoreOp) : State :=
  let s := if (localBase op.range.1).isSome then s else touch s slot op.need op.range.1
  match localBase op.range.1, op with
  | some (b, off), .bytes _ d => putLocal s tid b off d
  | some _, _ => s
  | none, .bytes loc d =>
    (match access s slot .write loc with
      | .hit h o inPage l => pageWrite s h o l inPage d
      | .peer _ => { s with peerLines := s.peerLines.map (fun l => (l.1, op.over l.1 l.2)) }
      | _ => s)
  | none, .kit loc d =>
    (match access s slot .own loc with
      | .hit h o inPage l =>
        noteInstall (pageWrite s h o l inPage d) slot ((loc + 2 ^ 64 - normal s (kitBase s slot)) % 2 ^ 64 / 64) (kitEntry d)
      | .peer _ => { s with peerLines := s.peerLines.map (fun l => (l.1, op.over l.1 l.2)) }
      | _ => s)
  | none, .red loc op size x canon =>
    match access s slot .red loc with
    | .hit h o inPage l => applyRed s h o inPage l op size x canon
    | _ => s

/-- What operations write at peers. -/
def peerWrites (ops : List StoreOp) : List PeerOp :=
  ops.filterMap (fun op => match op with
    | .bytes loc d => if vaSpace loc == 1 then some { addr := loc, data := d } else none
    | .red loc o size x canon => if vaSpace loc == 1 then some { addr := loc, data := leBytes size x, red := some (o, canon) } else none
    | .kit loc d => if vaSpace loc == 1 then some { addr := loc, data := d } else none)

/-- The keys of lines of other packages. -/
def peerKeys (keys : List Nat) : List Nat := keys.filter (fun k => isGlobalKey k && vaSpace (64 * k) == 1)

/-- The operations take effect in order. -/
def landOps (s : State) (tid slot : Nat) (ops : List StoreOp) : State := ops.foldl (fun s op => applyOp s tid slot op) s

/-- One batch carries what operations write at peers (R316). -/
def batchOps (s : State) (slot : Nat) (ops : List StoreOp) (keys : List Nat) : State :=
  if (peerKeys keys).isEmpty then s else sendBatch s (s.asid slot) (peerWrites ops) (peerKeys keys) none

/-- The words with their slices of the canonical reductions of operations, but for those whose sums there are. -/
def newSums (s : State) (slot : Nat) (ops : List StoreOp) : List (Nat × Nat × Nat × Nat) :=
  (ops.filterMap (fun op => match op with
    | .red loc _ size _ (some _) =>
      (match access s slot .red loc with
        | .hit false o inPage l =>
          let k := phys o (l.frame + inPage)
          if s.accums.any (fun a => a.addr == k && a.size == size) then none else some (k, size, o, homeSlice o (l.base + inPage))
        | _ => none)
    | _ => none)).eraseDups

/-- The canonical reductions of operations find places (R285): 256 in a slice, or a slice with no sum, which folds its oldest
as it goes. -/
def opsRoom (s : State) (slot : Nat) (ops : List StoreOp) : Bool :=
  let new := newSums s slot ops
  new.all (fun e =>
    let have_ := (sliceSums s e.2.2).length
    have_ == 0 || have_ + (new.filter (fun x => x.2.2 == e.2.2)).length ≤ 256)

/-! ### Readiness (R299, R304, R318) -/

/-- The split of a group with its chunk. -/
def chunkAt (s : State) (gid id : Nat) : Option (Group × Split × Chunk) :=
  match s.group? gid with
  | none => none
  | some g => match g.split? id with
    | none => none
    | some p => p.chunk.map (fun c => (g, p, c))

/-- The pages that the chunk's stores miss. -/
def opMisses (s : State) (slot : Nat) (ops : List StoreOp) : List (Need × MissAt) :=
  ops.filterMap (fun op => match op.at s slot with
    | some (.miss h o p k) => some (op.need, ⟨h, o, p, k⟩)
    | _ => none)

/-- The launch records of a chunk, as its dispatcher reads them once its stores have taken effect (R142). -/
def launchReads (s : State) (g : Group) (c : Chunk) : List Rd :=
  if !c.effs.any Effect.isLaunch then [] else
  let slot := (s.gridOf g).slot
  let t := landOps s g.tid slot c.ops
  c.effs.filterMap (fun e => match e with
    | .launch rcd args _ => some (match rdGlobal t slot rcd 64 with
      | .ok b => (match readRecord t b (.device g.tid none) (some (s.gridOf g, args, false)) with
        | .miss h o p k => .miss h o p k
        | _ => (match modeUnread t (some slot) with
          | some m => .miss m.2.host m.2.owner m.2.block m.2.kind
          | none => .ok b))
      | r => r)
    | _ => none)

/-- The pages that the chunk's stores and launches miss. -/
def commitMisses (s : State) (g : Group) (c : Chunk) : List (Need × MissAt) :=
  let ms := opMisses s (s.gridOf g).slot c.ops
  if !ms.isEmpty then ms
  else (launchReads s g c).filterMap (fun r => match r with
    | .miss h o p k => some (.read, ⟨h, o, p, k⟩)
    | _ => none)

/-- A store's or a launch's page no longer permits it, or a `krepl` would judge the mode otherwise (R499): the chunk executes again,
and traps where it finds that (R264). A `red` that fails at its home has no effect there, and none reports it (R284, R475). -/
def commitViol (s : State) (g : Group) (c : Chunk) : Bool :=
  let slot := (s.gridOf g).slot
  c.ops.any (fun op => !op.isRed && match op.at s slot with
    | some .viol | some .bad | some .noStore => true
    | _ => false)
  || (launchReads s g c).any (fun r => r == .bad)
  || c.judged.any (fun j => wantWith s slot j.idx j.rev2 j.before != j.want)

/-- R299: the last instruction has issued and every load has returned. -/
def chunkClosed (g : Group) (p : Split) (c : Chunk) : Bool :=
  !g.saved && c.closed && !g.ll.any (fun l => l.sp == p.id && l.cid == c.cid)

/-- Nothing but the key is missing. -/
def chunkReady (s : State) (g : Group) (p : Split) (c : Chunk) : Bool :=
  chunkClosed g p c && !reservedBlocks s c.writes g.core (g.gid, p.id) p.ticket
    && opsRoom s (s.gridOf g).slot c.ops && ((peerKeys c.writes).isEmpty || batchRoom s)

/-! ### Commit (R301) -/

/-- The held writes of flag registers and the pending flags of a committed chunk (R191). -/
def commitFlags (c : Chunk) (g : Group) : Group :=
  c.held.foldl (fun g h => match h.reg with
    | 0x011 => { g with fpflags := h.val ||| h.later }
    | 0x018 => { g with mxflags := h.val ||| h.later }
    | _ => { g with xflags := h.val ||| h.later })
    { g with fpflags := g.fpflags ||| c.flags.setWidth 64 }

/-- What the commit leaves of the split's chunk state. -/
def Split.committed (now : Nat) (p : Split) : Split :=
  { (if p.wait == some .commit then p.wake now else p) with chunk := none, squashes := 0, ticket := none, resHomes := [] }

/-- A split that the chunk made may issue (R119). -/
def Split.release (maker : Nat) (p : Split) : Split := if p.born == some maker then { p with born := none } else p

/-- The chunk takes effect at its key. -/
def commitChunk (s : State) (g : Group) (p : Split) (c : Chunk) (key : Nat × Nat × Nat) : State :=
  let slot := (s.gridOf g).slot
  let s := takeKey s key
  let s := s.modGroup g.gid (fun g =>
    { commitFlags c g with splits := (g.splits.map (Split.release p.id)).map (fun q => if q.id == p.id then q.committed s.clock else q) })
  let s := conflict (landOps s g.tid slot c.ops) c.writes g.tid (s.clusterOf g).cid (g.gid, p.id) p.ticket c.keys
  let s := (feWake s g.tid).countEv g.core g.tid 0x02 1 |>.countDie (State.dieOf g.core) 0x02 1
  let s := c.effs.foldl (fun s e => applyEffect s g.gid p.id e) s
  batchOps s slot c.ops c.writes

/-- The commit of a ready chunk: misses park, a violation executes it again, several dies report in phase one. -/
def tryCommit (s : State) (g : Group) (p : Split) (c : Chunk) : State :=
  let ms := commitMisses s g c
  let slot := (s.gridOf g).slot
  if !ms.isEmpty then
    ms.foldl (fun s m => park s (g.gid, p.id) slot g.core none m.1 m.2.host m.2.owner m.2.block m.2.kind) s
  else if commitViol s g c then redoChunk s g.gid p.id
  else
    let dies := footprint (State.dieOf g.core) c.writes
    match keyIn s s.round dies with
    | none => s
    | some k =>
      if 1 < dies.length then
        s.modSplitOf g.gid p.id (fun p => { p with chunk := p.chunk.map (fun c => { c with phase := some s.round }) })
      else commitChunk s g p c k

/-- R300: phase two takes the reported round. None where its key would not be greater than the last one granted, or where
another chunk in phase two comes first. -/
def phaseKey (s : State) (g : Group) (c : Chunk) : Option (Nat × Nat × Nat) :=
  match c.phase with
  | none => none
  | some r =>
    let d := (footprint (State.dieOf g.core) c.writes).headD 4
    let k := s.lastKey
    let key := (r, d, if k.1 == r && k.2.1 == d then k.2.2 + 1 else 0)
    if (k.1 < r || (k.1 == r && k.2.1 ≤ d)) && !phaseBlocks s key then some key else none

/-- A report of phase one has been passed by the keys granted since: the chunk reports again, so that its key is greater than
its split's previous one (R300). -/
def phasePassed (s : State) (g : Group) (c : Chunk) : Bool :=
  match c.phase with
  | none => true
  | some r =>
    let k := s.lastKey
    !(k.1 < r || (k.1 == r && k.2.1 ≤ (footprint (State.dieOf g.core) c.writes).headD 4))

/-- A chunk may be granted: it is ready, it has no report of phase one in force, its page misses are not parked already, and no
storage that it needs has failed (R525); one that has reported parks for a page that is missing since. -/
def commitOk (s : State) (gid id : Nat) : Bool :=
  match chunkAt s gid id with
  | none => false
  | some (g, p, c) =>
    chunkReady s g p c && (phasePassed s g c || !(commitMisses s g c).isEmpty) && !s.parked.any (fun q => q.who == (gid, id))
      && (!(commitMisses s g c).isEmpty || commitViol s g c
        || (keyIn s s.round (footprint (State.dieOf g.core) c.writes)).isSome)
      && (commitMisses s g c).all (fun m => m.2.kind != failedKind)

/-- CHUNK_COMMIT. -/
def execChunkCommit (gid sp : Nat) (s : State) : Host.Outcome State Fault Refusal :=
  event (commitOk s gid sp) (fun s => match chunkAt s gid sp with
    | some (g, p, c) => tryCommit s g p c
    | none => s) s

/-- A chunk that has reported may take its key. -/
def phaseOk (s : State) (gid id : Nat) : Bool :=
  match chunkAt s gid id with
  | none => false
  | some (g, p, c) => chunkReady s g p c && (commitMisses s g c).isEmpty && ((phaseKey s g c).isSome || commitViol s g c)

/-- The chunk takes its key in phase two. -/
def phaseTwo (s : State) (gid id : Nat) : State :=
  match chunkAt s gid id with
  | none => s
  | some (g, p, c) =>
    if commitViol s g c then redoChunk s gid id
    else match phaseKey s g c with
      | some k => commitChunk s g p c k
      | none => s

/-- PHASE_TWO. -/
def execPhaseTwo (gid sp : Nat) (s : State) : Host.Outcome State Fault Refusal :=
  event (phaseOk s gid sp) (fun s => phaseTwo s gid sp) s

/-- COMMIT_ROUND_CLOSE: the open round closes at each 64th cycle, and sequence numbers start again (R300). -/
def closeRound (s : State) : State :=
  rescan (drainUsers (drainDue { s with round := s.clock / 64, seqs := [0, 0, 0, 0, 0], badLines := [] }))
def execCommitRoundClose (s : State) : Host.Outcome State Fault Refusal := event (s.round < s.clock / 64) closeRound s

/-! ### Relaxed mode (R310) -/

/-- The stores of a split that have not been performed: those of a group that has ended stand by themselves (R473). -/
def storesOf (s : State) (gid id : Nat) : List Loose :=
  match (s.group? gid).bind (fun g => (g.split? id).map (fun p => (g, p))) with
  | some (g, p) =>
    if g.saved then [] else p.pst.map (fun op => ⟨gid, id, g.tid, (s.clusterOf g).cid, (s.gridOf g).slot, g.core, op⟩)
  | none => if (s.group? gid).isNone then s.loose.filter (fun l => l.gid == gid && l.sp == id) else []

/-- A store of the split that may be performed: none before it covers its bytes, its page is there, no reserved chunk
holds its home, and a batch can be sent. A `red` that fails at its home goes without effect (R475). -/
def performOk (s : State) (gid id idx : Nat) : Bool :=
  let l := storesOf s gid id
  match l[idx]? with
  | none => false
  | some e =>
    let keys := linesOf e.op.range.1 e.op.range.2
    !(l.take idx).any (fun x => x.op.hits e.op.range.1 e.op.range.2)
      && !reservedBlocks s keys e.core (gid, id) none && opsRoom s e.slot [e.op] && ((peerKeys keys).isEmpty || batchRoom s)
      && !s.parked.any (fun q => q.who == (gid, id))
      && (match e.op.at s e.slot with
          | none | some (.hit _ _ _ _) | some (.peer _) => true
          | some (.miss _ _ _ k) => k != failedKind
          | _ => e.op.isRed)

/-- A store is performed at its home; one whose page is missing parks. -/
def performStore (s : State) (gid id idx : Nat) : State :=
  match (storesOf s gid id)[idx]? with
  | none => s
  | some e =>
    let keys := linesOf e.op.range.1 e.op.range.2
    match e.op.at s e.slot with
    | some (.miss h o pg k) => park s (gid, id) e.slot e.core none e.op.need h o pg k
    | _ =>
      let s := { s.modSplitOf gid id (fun p => { p with pst := p.pst.eraseIdx idx }) with loose := s.loose.erase e }
      let s := conflict (landOps s e.tid e.slot [e.op]) keys e.tid e.cid (gid, id) none
      batchOps (feWake s e.tid) e.slot [e.op] keys

/-- STORE_PERFORMED. -/
def execStorePerformed (gid sp idx : Nat) (s : State) : Host.Outcome State Fault Refusal :=
  event (performOk s gid sp idx) (fun s => performStore s gid sp idx) s

/-! ### Long-latency results (R160, R163) -/

/-- Registers with a long-latency result written. -/
def LongWrite.into (l : LongWrite) (r : Regs) : Regs := r.apply { v := l.vw, s := l.sw }

/-- The result is written, also into the checkpoint of every chunk but its own, and its registers are full. -/
def writeback (gid idx : Nat) (s : State) : State :=
  s.modGroup gid (fun g => match g.ll[idx]? with
    | none => g
    | some l =>
      let inChunk (c : Chunk) : Chunk := if c.cid == l.cid then c else { c with ckRegs := l.into c.ckRegs }
      let inSplit (p : Split) : Split := { p with chunk := p.chunk.map inChunk }
      { g with ll := g.ll.eraseIdx idx, regs := l.into g.regs, splits := g.splits.map inSplit })

/-- The result is there: it is not that of an operation which its split still drives (R231). -/
def writebackOk (s : State) (gid idx : Nat) : Bool :=
  match (s.group? gid).bind (fun g => g.ll[idx]?) with
  | some l => l.load != 3
  | none => false

/-- LONG_LATENCY_WRITEBACK. -/
def execLongLatencyWriteback (gid idx : Nat) (s : State) : Host.Outcome State Fault Refusal :=
  event (writebackOk s gid idx) (writeback gid idx) s

/-! ### Promotion and traps (R112, R468) -/

/-- A candidate has been ready and passed over for 256 cycles. -/
def promoteOk (s : State) (gid id : Nat) : Bool :=
  match s.group? gid with
  | some g => !g.saved && (candidate s g).any (fun p => p.id == id && !p.promoted && p.since + 256 ≤ s.clock)
  | none => false

/-- CANDIDATE_PROMOTION. -/
def execCandidatePromotion (gid sp : Nat) (s : State) : Host.Outcome State Fault Refusal :=
  event (promoteOk s gid sp) (fun s => s.modSplitOf gid sp (fun p => { p with promoted := true })) s

/-- A pending trap whose prefix is done. -/
def trapReady (s : State) (gid id : Nat) : Bool :=
  match (s.group? gid).bind (fun g => (g.split? id).map (fun p => (g, p))) with
  | some (g, p) => !g.saved && p.pend.isSome && prefixDone s g p && !s.parked.any (fun q => q.who == (gid, id))
  | none => false

/-- TRAP_DELIVERY. -/
def execTrapDelivery (gid sp : Nat) (s : State) : Host.Outcome State Fault Refusal :=
  event (trapReady s gid sp) (fun s => deliverTrap { s with cur := (gid, sp) }) s

end Sys2Proof.Machine
end

