-- ==== Sys2Proof/Machine/Distrib.lean ====
section
/-! DEFINITION. The grid dispatcher and the work distributor: what a core has free (R100, R152, R153, R222, R226), where a
cluster goes (R100 to R103), binding (R491), the heads of the priority levels (R98, R479), placement and the state in
which a group begins (R97), bins (R106), and the release of teams, clusters and grids (R104, R388). -/

namespace Sys2Proof.Machine

open Sys2Proof

/-! ### What is free (R100) -/

/-- What one team needs of its core; `bins` and `held` are a saved team's (R108, R388). -/
structure Needs where
  groups : Nat
  vb : Nat
  sb : Nat
  bufs : List Nat
  ext : Nat := 0
  bins : Nat := 0
  held : Nat := 0
  deriving DecidableEq, Repr

/-- The groups that are resident on a core. -/
def onCore (s : State) (core : Nat) : List Group := s.groups.filter (fun g => g.core == core && !g.saved)

/-- The base blocks of a group (R152). -/
def vBlocksOf (s : State) (g : Group) : Nat := ((s.teamOf g).vregs + 7) / 8
def sBlocksOf (s : State) (g : Group) : Nat := ((s.teamOf g).sregs + 63) / 64
def sumOf (l : List Nat) : Nat := l.foldl (· + ·) 0

/-- The resident slots of a core that are free, in increasing order. -/
def freeGroupSlots (s : State) (core : Nat) : List Nat :=
  (List.range 64).filter (fun n => !(onCore s core).any (fun g => g.slot == n))

/-- The saved state of a team's cluster. -/
def teamSaved (s : State) (t : Team) : Bool := ((s.cluster? t.cid).getD noCluster).saved

/-- KiB in use of W, A, C and G on a core. -/
def kibUsed (s : State) (core : Nat) : List Nat :=
  let ts := s.teams.filter (fun t => t.core == core && !teamSaved s t)
  [sumOf (ts.map (fun t => t.w.kib)), sumOf (ts.map (fun t => t.a.kib)), sumOf (ts.map (fun t => t.c.kib)),
    sumOf (ts.map (fun t => t.g.kib))]

/-- Keyed bins of a core. -/
def binsUsed (s : State) (core : Nat) : Nat := (s.bins.filter (fun b => b.core == core)).length

/-- Bins of a core that are keyed, or reserved by a `spawn` whose chunk has not committed (R140). -/
def binsTaken (s : State) (core : Nat) : Nat := ((List.range 16).filter (fun b => (binState s core b).isSome)).length

/-- Free slices of a die's pool (R226). -/
def slicesFree (s : State) (die : Nat) : Nat :=
  256 - sumOf ((s.clusters.filter (fun c => State.dieOf c.origin == die && !c.saved)).map (fun c => c.slices))

/-- A team fits a core (R100, R153). -/
def fitsCore (s : State) (core : Nat) (n : Needs) : Bool :=
  let gs := onCore s core
  n.groups ≤ (freeGroupSlots s core).length
    && n.vb + sumOf (gs.map (vBlocksOf s)) ≤ 256 && n.sb + sumOf (gs.map (sBlocksOf s)) ≤ 256
    && ((n.bufs.zip (kibUsed s core)).zip bufKib).all (fun e => e.1.1 + e.1.2 ≤ e.2)
    && n.ext ≤ freeBlocks s core && n.bins + binsTaken s core ≤ 16 && n.held + heldUsed s core ≤ 16

/-- The load of a core: resident groups, extended blocks in use, keyed bins, compared in this order. -/
def coreLoad (s : State) (core : Nat) : Nat :=
  let gs := onCore s core
  gs.length * 2 ^ 16 + sumOf (gs.map (fun g => g.ext.length)) * 2 ^ 8 + binsUsed s core

/-! ### Places (R95, R101, R102) -/

/-- The cores of a rectangle, by team index. -/
def rectCores (origin cx cy : Nat) : List Nat := (List.range (cx * cy)).map (fun k => origin + 8 * (k / cx) + k % cx)

/-- The origins at which a shape lies within a die, in increasing order. -/
def origins (cx cy : Nat) : List Nat :=
  (List.range 192).filter (fun o => o % 48 % 8 + cx ≤ 8 && o % 48 / 8 + cy ≤ 6)

/-- A cluster's teams fit a rectangle, and its slices the die's pool. -/
def fitsRect (s : State) (origin cx cy slices : Nat) (needs : List Needs) : Bool :=
  slices ≤ slicesFree s (State.dieOf origin)
    && ((rectCores origin cx cy).zip needs).all (fun e => fitsCore s e.1 e.2)

/-- The load of a rectangle's most-loaded core. -/
def rectLoad (s : State) (origin cx cy : Nat) : Nat := (rectCores origin cx cy).foldl (fun m c => max m (coreLoad s c)) 0

/-- The fitting rectangle whose most-loaded core is least loaded, with ties to the lowest origin. -/
def bestRect (s : State) (cx cy slices : Nat) (needs : List Needs) : Option Nat :=
  ((origins cx cy).filter (fun o => fitsRect s o cx cy slices needs)).foldl (fun b o => match b with
    | none => some o
    | some x => if rectLoad s o cx cy < rectLoad s x cx cy then some o else some x) none

/-- What a header's kernel needs, for each team. -/
def hdrNeeds (h : CodeHdr) : List Needs :=
  List.replicate (h.cx * h.cy) { groups := h.team, vb := h.team * h.vBlocks, sb := h.team * h.sBlocks, bufs := h.bufs }

/-- The teams of a cluster, by index. -/
def teamsOf (s : State) (cid : Nat) : List Team :=
  let ts := s.teams.filter (fun t => t.cid == cid)
  (List.range 12).filterMap (fun k => ts.find? (fun t => t.index == k))

/-- What a saved team needs (R479). A released team of the cluster needs nothing. -/
def savedNeeds (s : State) (t : Team) : Needs :=
  let gs := s.groups.filter (fun g => g.tid == t.tid)
  { groups := gs.length, vb := sumOf (gs.map (vBlocksOf s)), sb := sumOf (gs.map (sBlocksOf s))
    bufs := [t.w.kib, t.a.kib, t.c.kib, t.g.kib], ext := sumOf (gs.map (fun g => g.ext.length))
    bins := (s.bins.filter (fun b => b.tid == t.tid)).length
    held := (s.cmds.filter (fun c => c.cmd.tid == t.tid && c.stage == .held)).length }

/-- The needs of a saved cluster by team index. -/
def clusterNeeds (s : State) (c : Cluster) : List Needs :=
  (List.range (c.cx * c.cy)).map (fun k => match (teamsOf s c.cid).find? (fun t => t.index == k) with
    | some t => savedNeeds s t
    | none => { groups := 0, vb := 0, sb := 0, bufs := [0, 0, 0, 0] })

/-! ### Binding (R491) -/

/-- The binding that an entry gives. -/
def bindingOf (e : KitEntry) (h : CodeHdr) : Binding :=
  { desc := e.desc, entry := if e.native != 0 then e.native else e.code, portable := e.portable && e.native == 0
    spmap := e.spmap, hdr := h }

/-! ### The heads of the levels (R98, R479) -/

/-- A head: a saved cluster comes before the unplaced clusters of its level. -/
inductive Head where
  | saved (c : Cluster) (g : Grid)
  | next (g : Grid)
  deriving DecidableEq, Repr

def Head.grid : Head → Grid
  | .saved _ g => g
  | .next g => g

/-- The grid of a cluster. -/
def gridOfCluster (s : State) (c : Cluster) : Grid := (s.grid? c.grid).getD noGrid

/-- The head of a level. -/
def headOf (s : State) (level : Nat) : Option Head :=
  match s.clusters.find? (fun c => c.saved && (gridOfCluster s c).prio == level) with
  | some c => some (.saved c (gridOfCluster s c))
  | none => (s.grids.find? (fun g => g.prio == level && g.next < g.gx * g.gy * g.gz)).map Head.next

/-- What the dispatcher can do with a head. -/
inductive HeadAct where
  | place (origin : Nat)
  | bind (b : Binding) (origin : Nat)
  | refuse (code : Nat)
  | miss (m : MissAt)
  | stuck
  deriving DecidableEq, Repr

/-- The dispatcher's answer for a head: an unbound grid is checked at its binding (R491). -/
def headAct (s : State) : Head → HeadAct
  | .saved c _ => match bestRect s c.cx c.cy c.slices (clusterNeeds s c) with
    | some o => .place o
    | none => .stuck
  | .next g =>
    match g.bound with
    | some b => (match bestRect s b.hdr.cx b.hdr.cy g.slices (hdrNeeds b.hdr) with
      | some o => .place o
      | none => .stuck)
    | none => match kitAt s g.slot g.kit with
      | .malformed => .refuse 0x40
      | .miss h o p k => .miss ⟨h, o, p, k⟩
      | .ok e h =>
        if h.tooBig g.slices then .refuse 0x42
        else match bestRect s h.cx h.cy g.slices (hdrNeeds h) with
          | some o => .bind (bindingOf e h) o
          | none => .stuck

def HeadAct.acts : HeadAct → Bool
  | .place _ | .bind _ _ | .refuse _ => true
  | _ => false

/-- A head has been unable to place for 2^20 cycles (R98). -/
def stuckLong (s : State) (g : Grid) : Bool := g.starved || (match g.stuck with | some t => t + 2 ^ 20 ≤ s.clock | none => false)

/-- The highest level whose head can be served; one that has been stuck too long blocks the levels below (R98). -/
def servedFrom (s : State) : List Nat → Option (Head × HeadAct)
  | [] => none
  | p :: r => match headOf s p with
    | none => servedFrom s r
    | some h =>
      let a := headAct s h
      if a.acts then some (h, a) else if stuckLong s h.grid then none else servedFrom s r

/-- The dispatcher places while the package is in D0 (R528). -/
def served (s : State) : Option (Head × HeadAct) :=
  if s.d3hot || !s.powered then none else servedFrom s [7, 6, 5, 4, 3, 2, 1, 0]

/-! ### Placement (R97, R102, R491) -/

/-- The registers with which a group starts (R97, R86). -/
def startRegs (g : Grid) : Regs :=
  let w (n : Nat) : Word := BitVec.ofNat 64 n
  let vals := [g.argBlock, w g.gx, w g.gy, w g.gz] ++ (List.range 4).map (fun k => g.args.getD k 0)
  { s := (List.range 8).foldl (fun (c : Cells 64) k => c.set (k + 1) (vals.getD k 0)) []
    repro := if g.repro then 1 else 0 }

/-- A split at its first clause header. -/
def startSplit (now : Nat) (entry : Word) (mask : Mask) (portable : Bool) : Split :=
  { id := 0, stamp := now, since := now, ctl := { pc := entry, mask := mask, portable := portable } }

/-- One team of a cluster with its groups, in the lowest free slots of its core. -/
def placeTeam (gr : Grid) (b : Binding) (cid index core : Nat) (s : State) : State :=
  let tid := s.nextId
  let kib (k : Nat) : Scratch := { kib := b.hdr.bufs.getD k 0 }
  let t : Team := { tid := tid, cid := cid, core := core, index := index, w := kib 0, a := kib 1, c := kib 2, g := kib 3
                    groups := b.hdr.team, vregs := b.hdr.vregs, sregs := b.hdr.sregs }
  let gs := ((freeGroupSlots s core).take b.hdr.team).zipIdx.map (fun e =>
    ({ gid := tid + 1 + e.2, tid := tid, core := core, slot := e.1, index := e.2
       chunked := s.chunkedSlots.contains gr.slot, regs := startRegs gr
       splits := [startSplit s.clock (BitVec.ofNat 64 b.entry) (BitVec.allOnes 32) b.portable] } : Group))
  { s with teams := s.teams ++ [t], groups := s.groups ++ gs, nextId := tid + 1 + b.hdr.team }

/-- All teams of a grid's next cluster are placed in one step; a core on which no group of the grid has started performs
an `ifence` first (R493). -/
def placeCluster (s : State) (gr : Grid) (b : Binding) (origin : Nat) : State :=
  let cores := rectCores origin b.hdr.cx b.hdr.cy
  let cid := s.nextId
  let c : Cluster := { cid := cid, grid := gr.grid, linear := gr.next, origin := origin, cx := b.hdr.cx, cy := b.hdr.cy
                       slices := gr.slices }
  let s := { s with clusters := s.clusters ++ [c], nextId := cid + 1 }
  let s := (cores.filter (fun k => !gr.cores.contains k)).foldl coreIfence s
  let s := cores.zipIdx.foldl (fun s e => placeTeam gr b cid e.2 e.1 s) s
  s.modGrid gr.grid (fun g => { g with next := g.next + 1, bound := some b, starved := false, stuck := none
                                       cores := g.cores ++ cores.filter (fun k => !g.cores.contains k) })

/-- A grid leaves the queue refused at its binding (R491). -/
def refuseGrid (s : State) (g : Grid) (code : Nat) : State :=
  reportGrid { s with grids := s.grids.filter (fun x => x.grid != g.grid) } g.src g.serial (s.asid g.slot) g.kit code

/-- The heads that cannot be served are marked from now on, and the marks of others go. -/
def markHeads (s : State) : State :=
  (List.range 8).foldl (fun s p => match headOf s p with
    | none => s
    | some h => s.modGrid h.grid.grid (fun g =>
        { g with stuck := if (headAct s h).acts then none else some (g.stuck.getD s.clock) })) s

/-- A head's mark is out of date. -/
def marksDue (s : State) : Bool :=
  (List.range 8).any (fun p => match headOf s p with
    | none => false
    | some h => (headAct s h).acts == h.grid.stuck.isSome)

/-- The heads whose binding misses translation park (R490). The dispatcher has no engine number (R262): SOURCE is a free
value. -/
def parkHeads (s : State) : State :=
  (List.range 8).foldl (fun s p => match headOf s p with
    | none => s
    | some h => match headAct s h with
      | .miss m =>
        let who := (0, h.grid.grid)
        if s.waitsFor who || m.kind == failedKind then s
        else
          let d := s.draw
          park d.2 who h.grid.slot (freeSource d.1) none .read m.host m.owner m.block m.kind
      | _ => s) s

/-- A head waits for a page and is not parked. -/
def parksDue (s : State) : Bool :=
  (List.range 8).any (fun p => match headOf s p with
    | none => false
    | some h => match headAct s h with
      | .miss m => !s.waitsFor (0, h.grid.grid) && m.kind != failedKind
      | _ => false)

/-- The dispatcher's turn at the heads. -/
def placeNext (s : State) : State :=
  let s := parkHeads (markHeads s)
  match served s with
  | some (.next g, .place o) => (match g.bound with | some b => placeCluster s g b o | none => s)
  | some (.next g, .bind b o) => placeCluster (addUsers (touchKit s g.slot g.kit) g.slot b.desc true) g b o
  | some (.next g, .refuse c) => refuseGrid s g c
  | _ => s

/-- The dispatcher has something to do for an unplaced cluster, or a mark to set. -/
def placeOk (s : State) : Bool :=
  (match served s with | some (.next _, _) => true | _ => false) || marksDue s || parksDue s

/-- CLUSTER_PLACEMENT. -/
def execClusterPlacement (s : State) : Host.Outcome State Fault Refusal := event (placeOk s) placeNext s

/-- R98: a head unable to place for 2^20 cycles. -/
def starveOk (s : State) (level : Nat) : Bool :=
  match headOf s level with
  | some h => !h.grid.starved && !(headAct s h).acts && (match h.grid.stuck with | some t => t + 2 ^ 20 ≤ s.clock | none => false)
  | none => false

/-- LEVEL_HEAD_STARVATION. -/
def execLevelHeadStarvation (level : Nat) (s : State) : Host.Outcome State Fault Refusal :=
  event (starveOk s level) (fun s => match headOf s level with
    | some h => s.modGrid h.grid.grid (fun g => { g with starved := true })
    | none => s) s

/-! ### Bins (R106) -/

/-- The bin of a core. -/
def binAt (s : State) (core bin : Nat) : Option Bin := s.bins.find? (fun b => b.core == core && b.bin == bin)

/-- The timer has run for BINTIMER cycles; 0 expires in the cycle after the first thread enters (R109). -/
def timerOk (s : State) (core bin : Nat) : Bool :=
  match binAt s core bin with
  | some b => core != noCore && !b.expired && b.since + (s.coreAt core).bintimer.toNat ≤ s.clock && b.since < s.clock
  | none => false

/-- BIN_TIMER_EXPIRY. -/
def execBinTimerExpiry (core bin : Nat) (s : State) : Host.Outcome State Fault Refusal :=
  event (timerOk s core bin) (fun s => { s with bins := s.bins.map (fun b =>
    if b.core == core && b.bin == bin then { b with expired := true } else b) }) s

/-- The instances of team and cluster barriers that are open for a team (R121). -/
def openBars (s : State) (t : Team) : List (Nat × Nat) :=
  let waiting (g : Group) (scope : Nat) : List (Nat × Nat) :=
    g.splits.filterMap (fun p => p.bar.bind (fun b => if b.scope == scope then some (scope, b.id) else none))
  (s.groups.flatMap (fun g => if g.tid == t.tid then waiting g 1 else [])
    ++ s.groups.flatMap (fun g => if (s.teamOf g).cid == t.cid then waiting g 2 else [])).eraseDups

/-- The lowest group index of a team that no group of it has. -/
def freeIndex (s : State) (tid : Nat) : Option Nat :=
  (List.range 32).find? (fun k => !s.groups.any (fun g => g.tid == tid && g.index == k))

/-- A bin may launch: its condition holds, and a slot, base blocks and a place in the team are free (R106). -/
def binOk (s : State) (core bin : Nat) : Bool :=
  match binAt s core bin with
  | none => false
  | some b => match s.team? b.tid with
    | none => false
    | some t =>
      (b.threads.length == 32 || b.expired || b.flush) && !teamSaved s t
        && (s.groups.filter (fun g => g.tid == b.tid)).length < 32
        && fitsCore s core { groups := 1, vb := (t.vregs + 7) / 8, sb := (t.sregs + 63) / 64, bufs := [0, 0, 0, 0] }

/-- The argument registers of a bin's threads: v0:v1 to v6:v7 by lane (R97). -/
def binVecs (b : Bin) : Cells 32 :=
  b.threads.zipIdx.foldl (fun c e => (List.range 4).foldl (fun (c : Cells 32) k =>
    let x := (e.1.1.getD k 0).toNat
    (c.set (32 * (2 * k) + e.2) (BitVec.ofNat 32 x)).set (32 * (2 * k + 1) + e.2) (BitVec.ofNat 32 (x / 2 ^ 32))) c) []

/-- The group that a bin starts. -/
def launchBin (s : State) (b : Bin) (t : Team) (slot index : Nat) : State :=
  let gr := gridOfCluster s ((s.cluster? t.cid).getD noCluster)
  let n := b.threads.length
  let g : Group :=
    { gid := s.nextId, tid := t.tid, core := b.core, slot := slot, index := index, spawned := true
      chunked := s.chunkedSlots.contains gr.slot, regs := { startRegs gr with v := binVecs b }
      splits := [startSplit s.clock b.entry (maskOf (List.range n)) b.portable]
      laneCtr := b.threads.zipIdx.filterMap (fun e => e.1.2.map (fun c => (e.2, c)))
      exempt := openBars s t }
  let s := { s with
    groups := s.groups ++ [g], nextId := s.nextId + 1
    bins := s.bins.filter (fun x => !(x.core == b.core && x.bin == b.bin)) }
  s.modTeam t.tid (fun t => { t with ended := t.ended.filter (fun e => e.1 != index) })

/-- BIN_LAUNCH. -/
def execBinLaunch (core bin : Nat) (s : State) : Host.Outcome State Fault Refusal :=
  event (binOk s core bin) (fun s =>
    match binAt s core bin with
    | none => s
    | some b => match s.team? b.tid, freeGroupSlots s core, freeIndex s b.tid with
      | some t, slot :: _, some k => launchBin s b t slot k
      | _, _, _ => s) s

/-! ### Release (R104, R388) -/

/-- Nothing of a team is left: groups, threads in bins, commands and walks. -/
def releaseOk (s : State) (tid : Nat) : Bool :=
  match s.team? tid with
  | none => false
  | some t => !teamSaved s t && !s.groups.any (fun g => g.tid == tid) && !s.bins.any (fun b => b.tid == tid)
      && !s.cmds.any (fun c => c.cmd.tid == tid) && !s.walks.any (fun w => w.tid == tid) && !s.due.any (fun d => d.tid == tid)

/-- KIND of PREEMPT reads 0 once every named cluster has been saved or has ended (R510). -/
def requestDone (s : State) : State :=
  if s.bar 0x48 % 4 != 0 && !s.clusters.any (fun c => c.named) then s.setBar 0x48 (s.bar 0x48 / 4 * 4) else s

/-- A request of PREEMPT names no cluster any longer: those chosen are saved all the same. -/
def unname (s : State) : State := { s with clusters := s.clusters.map (fun c => { c with named := false }) }

/-- The team's allotment goes; the cluster goes with its last team. -/
def releaseTeam (s : State) (tid : Nat) : State :=
  match s.team? tid with
  | none => s
  | some t =>
    let s := { s with teams := s.teams.filter (fun x => x.tid != tid) }
    if s.teams.any (fun x => x.cid == t.cid) then s
    else match s.cluster? t.cid with
      | none => s
      | some c => requestDone ({ s with clusters := s.clusters.filter (fun x => x.cid != t.cid) }.modGrid c.grid
          (fun g => { g with done := g.done + 1 }))

/-- TEAM_ALLOTMENT_RELEASE. -/
def execTeamAllotmentRelease (tid : Nat) (s : State) : Host.Outcome State Fault Refusal :=
  event (releaseOk s tid) (fun s => releaseTeam s tid) s

/-- The last cluster has released. -/
def gridDone (s : State) (grid : Nat) : Bool :=
  match s.grid? grid with
  | some g => g.done == g.gx * g.gy * g.gz
  | none => false

/-- The grid's completion is reported, and its binding ends. -/
def completeGrid (s : State) (grid : Nat) : State :=
  match s.grid? grid with
  | none => s
  | some g =>
    let s := match g.bound with | some b => addUsers s g.slot b.desc false | none => s
    reportGrid { s with grids := s.grids.filter (fun x => x.grid != grid) } g.src g.serial (s.asid g.slot) g.kit g.status

/-- GRID_COMPLETION. -/
def execGridCompletion (grid : Nat) (s : State) : Host.Outcome State Fault Refusal :=
  event (gridDone s grid) (fun s => completeGrid s grid) s

end Sys2Proof.Machine
end

