-- ==== Sys2Proof/Machine/Preempt.lean ====
section
/-! DEFINITION. Pre-emption (R166, R476 to R480): which clusters are chosen, their records in the save region, the save and
the resume of a cluster, and the requests that name clusters (R510, R528). -/

namespace Sys2Proof.Machine

open Sys2Proof

/-! ### The save region (R478) -/

/-- The bytes of a cluster's record. -/
def recordLen (s : State) (c : Cluster) : Nat :=
  let ts := s.teams.filter (fun t => t.cid == c.cid)
  sumOf ((s.groups.filter (fun g => (s.teamOf g).cid == c.cid)).map (fun g =>
      4096 + 128 * (8 * vBlocksOf s g + 32 * g.ext.length) + 512 * sBlocksOf s g + 704))
    + sumOf (ts.map (fun t => 1024 * (t.w.kib + t.a.kib + t.c.kib + t.g.kib) + 1536))
    + 262144 * c.slices

/-- The parts of a context's region that records hold or have reserved. -/
def regionTaken (s : State) (slot cid : Nat) : List (Nat × Nat) :=
  (s.clusters.filter (fun c => c.cid != cid && (c.saved || c.toSave) && (gridOfCluster s c).slot == slot)).map
    (fun c => (c.saveAt, c.saveLen))

/-- The first place of the region where n bytes are free: its start, or the end of a record. -/
def regionPlace (s : State) (slot cid n : Nat) : Option Nat :=
  let taken := regionTaken s slot cid
  let base := s.ctx slot 0x48
  let last := base + s.ctx slot 0x50
  (base :: taken.map (fun r => r.1 + r.2)).find? (fun a =>
    base ≤ a && a + n ≤ last && taken.all (fun r => r.1 + r.2 ≤ a || a + n ≤ r.1))

/-- Choose a cluster to be saved: its record has a place. None where the region lacks room. -/
def chooseCluster (s : State) (named : Bool) (c : Cluster) : Option State :=
  let n := recordLen s c
  (regionPlace s (gridOfCluster s c).slot c.cid n).map (fun a =>
    s.modCluster c.cid (fun c => { c with toSave := true, saveAt := a, saveLen := n, named := c.named || named }))

/-- Choose clusters; none where the region of one lacks room. -/
def chooseAll (named : Bool) : List Cluster → State → Option State
  | [], s => some s
  | c :: r, s => (chooseCluster s named c).bind (chooseAll named r)

/-! ### Making room for a level's head (R476) -/

/-- Insert a cluster behind those of no greater key. -/
def insertCluster (key : Cluster → Nat) (x : Cluster) : List Cluster → List Cluster
  | [] => [x]
  | c :: r => if key c ≤ key x then c :: insertCluster key x r else x :: c :: r

/-- The resident clusters of lower levels in the order in which they are taken: lower levels first, then higher serials,
then lower origins. -/
def lowerClusters (s : State) (level : Nat) : List Cluster :=
  let key (c : Cluster) : Nat :=
    let g := gridOfCluster s c
    (g.prio * 2 ^ 32 + (2 ^ 32 - 1 - g.serial % 2 ^ 32)) * 256 + c.origin
  (s.clusters.filter (fun c => !c.saved && !c.toSave && (gridOfCluster s c).prio < level)).foldl
    (fun (l : List Cluster) c => insertCluster key c l) []

/-- The sublists of a list, those with earlier members before those without. -/
def subsets : List Cluster → List (List Cluster)
  | [] => [[]]
  | c :: r => (subsets r).map (fun l => c :: l) ++ subsets r

/-- The groups of clusters. -/
def groupCount (s : State) (cs : List Cluster) : Nat :=
  (s.groups.filter (fun g => cs.any (fun c => c.cid == (s.teamOf g).cid))).length

/-- The state without clusters, as far as placement looks at it. -/
def without (s : State) (cs : List Cluster) : State :=
  let has (cid : Nat) : Bool := cs.any (fun c => c.cid == cid)
  { s with
    groups := s.groups.filter (fun g => !has (s.teamOf g).cid)
    bins := s.bins.filter (fun b => !has ((s.team? b.tid).getD noTeam).cid)
    cmds := s.cmds.filter (fun c => !has ((s.team? c.cmd.tid).getD noTeam).cid)
    teams := s.teams.filter (fun t => !has t.cid)
    clusters := s.clusters.filter (fun c => !has c.cid) }

/-- The clusters whose removal makes room for a head with the fewest groups saved, and for whose records there is
room. -/
def roomFor (s : State) (level : Nat) (h : Head) : Option State :=
  let ok (cs : List Cluster) : Bool := !cs.isEmpty && (headAct (without s cs) h).acts
  let best := ((subsets (lowerClusters s level)).filter ok).foldl (fun b cs => match b with
    | none => some cs
    | some x => if groupCount s cs < groupCount s x then some cs else some x) none
  best.bind (fun cs => chooseAll false cs s)

/-- The head of a level has been unable to place for 2^16 cycles, and saving lower clusters lets it. -/
def starvedHead (s : State) (level : Nat) : Option State :=
  match headOf s level with
  | none => none
  | some h =>
    match h.grid.stuck with
    | none => none
    | some t =>
      if t + 2 ^ 16 ≤ s.clock && !(headAct s h).acts
          && !s.clusters.any (fun c => c.toSave && (gridOfCluster s c).prio < level) then roomFor s level h
      else none

/-- PREEMPT_STARVATION. -/
def execPreemptStarvation (level : Nat) (s : State) : Host.Outcome State Fault Refusal :=
  event true (fun s => (starvedHead s level).getD s) s

/-! ### Saving (R166, R223, R388, R412, R477) -/

/-- A split is at a point where it can be stopped: in relaxed mode all it has issued has completed. -/
def canStop (g : Group) (p : Split) : Bool :=
  if g.chunked then !g.ll.any (fun l => l.load != 3 && l.sp == p.id && (match p.chunk with | some c => c.cid != l.cid | none => true))
  else p.pst.isEmpty && !g.ll.any (fun l => l.sp == p.id && l.load != 3)

/-- A reserved chunk of another cluster holds lines of the record that a cluster would write (R304). -/
def recordHeld (s : State) (c : Cluster) : Bool :=
  let mine := clusterGroups s c.cid
  let t := { s with groups := s.groups.filter (fun g => !mine.any (fun x => x.gid == g.gid)) }
  let n := recordLen s c
  t.groups.any (fun g => g.splits.any (fun p => p.ticket.isSome))
    && (match regionPlace s (gridOfCluster s c).slot c.cid n with
      | some a => reservedBlocks t (linesOf (normal s a) n) 191 (0, 0) none
      | none => false)

/-- A chosen cluster can be saved. -/
def saveOk (s : State) (cid : Nat) : Bool :=
  match s.cluster? cid with
  | none => false
  | some c => c.toSave && !c.saved && !recordHeld s c
      && (clusterGroups s cid).all (fun g => !readsLater s g && g.splits.all (canStop g)
        && !s.peerReqs.any (fun q => q.gid == g.gid && q.op.isSome && q.reply.isNone))
      && (s.teams.filter (fun t => t.cid == cid)).all (fun t =>
        s.cmds.all (fun k => k.cmd.tid != t.tid || k.stage == .held) && !s.walks.any (fun w => w.tid == t.tid)
          && !s.due.any (fun d => d.tid == t.tid))

/-- A group is saved: chunks in progress are squashed and not counted, waits are entered again, the latch is released. -/
def saveGroup (s : State) (g : Group) : State :=
  let s := g.splits.foldl (fun s p => squashSplit s g.gid p.id false true) s
  let stop (p : Split) : Split :=
    { p with pend := none, acqDone := false, promoted := false, wait := some (if p.bar.isSome then .barrier else .ready)
             peerData := [], bad := [], ticket := none, resHomes := [] }
  let s := s.modGroup g.gid (fun g =>
    { g with saved := true, core := noCore, latch := none, mrel := [], splits := g.splits.map stop })
  { s with
    blockQ := (s.blockQ.filter (fun r => r.gid != g.gid || r.posted)).map (fun r => if r.gid == g.gid then { r with core := noCore } else r)
    parked := dropParked (fun w => w.1 == g.gid) s.parked
    serving := s.serving.filter (fun e => e.who.1 != g.gid)
    peerReqs := dropReqs (fun q => q.gid == g.gid && q.op.isNone) s.peerReqs }

/-- The bytes of a record, whose layout is not stated: free values. -/
def recordBytes (n0 : Nat) (n : Nat) : List Byte := (List.range n).map (fun k => (Config.freeValue (n0 + k)).truncate 8)

/-- Write a record page by page; the physical pieces it lies in. -/
def writeRecord (slot : Nat) : Nat → Nat → List Byte → State → State × List (Nat × Nat)
  | 0, _, _, s => (s, [])
  | k + 1, a, d, s =>
    let n := min d.length (65536 - a % 65536)
    if n == 0 then (s, [])
    else
      let r := match access s slot .write a with
        | .hit h o inPage l =>
          (conflict (pageWrite (touch s slot .write a) h o l inPage (d.take n)) (linesOf (normal s a) n) 0 0 (0, 0) none,
            if h then [] else [(phys o (l.frame + inPage), n)])
        | _ => (s, [])
      let rest := writeRecord slot k (a + n) (d.drop n) r.1
      (rest.1, r.2 ++ rest.2)

/-- A chosen cluster whose record has grown finds no room for it any more: it is chosen no longer, and the request that names
it fails (R510). -/
def dropChoice (s : State) (c : Cluster) : State :=
  let s := s.modCluster c.cid (fun c => { c with toSave := false, named := false })
  requestDone (if c.named then s.setBar 0x48 (s.bar 0x48 % 256 + s.bar 0x48 / 2 ^ 32 * 2 ^ 32 + 256) else s)

/-- R477: the cluster is saved with what it holds now (R478), and its resources are free. -/
def saveCluster (s : State) (cid : Nat) : State :=
  match s.cluster? cid with
  | none => s
  | some c =>
    let slot := (gridOfCluster s c).slot
    let n := recordLen s c
    match regionPlace s slot cid n with
    | none => dropChoice s c
    | some at_ =>
    let s := (clusterGroups s cid).foldl saveGroup s
    let ts := (s.teams.filter (fun t => t.cid == cid)).map (fun t => t.tid)
    let offT (t : Team) : Team := if t.cid == cid then { t with core := noCore, feq := [] } else t
    let offB (b : Bin) : Bin := if ts.contains b.tid then { b with core := noCore } else b
    let offK (k : SentCmd) : SentCmd := if ts.contains k.cmd.tid then { k with cmd := { k.cmd with core := noCore } } else k
    let s := { s with teams := s.teams.map offT, bins := s.bins.map offB, cmds := s.cmds.map offK }
    let r := writeRecord slot (n / 65536 + 2) at_ (recordBytes s.free n) { s with free := s.free + n }
    let s := r.1.modCluster cid (fun c =>
      { c with saved := true, toSave := false, named := false, corrupt := false, saveAt := at_, saveLen := n, savePages := r.2 })
    requestDone s

/-- CLUSTER_SAVE. -/
def execClusterSave (cid : Nat) (s : State) : Host.Outcome State Fault Refusal :=
  event (saveOk s cid) (fun s => saveCluster s cid) s

/-! ### Resuming (R479, R478) -/

/-- Cells with a free value at each of n keys. -/
def freeCells (w n0 n : Nat) : Cells w :=
  (List.range n).foldl (fun (c : Cells w) k => c.set k ((Config.freeValue (n0 + k)).truncate w)) []

/-- A return stack as free values: its depth, and its addresses. -/
def freeRets (n0 : Nat) : List Word :=
  (List.range ((Config.freeValue n0).toNat % 17)).map (fun k => Config.freeValue (n0 + 1 + k) &&& ~~~3)

/-- The registers of a group whose record has been written: free values (R478). DESIGN CHOICE, log 124: an RM of 6 or 7, for which R70 has
no mode, is 0, as where it is written. -/
def freeRegs (n0 : Nat) : Regs :=
  let fv (k : Nat) : Word := Config.freeValue (n0 + 16384 + k)
  let mode := fv 0 &&& 0x1FF
  { v := freeCells 32 n0 8192, s := freeCells 64 (n0 + 8192) 512, p := freeCells 32 (n0 + 8704) 16
    al := freeCells 64 (n0 + 8720) 16, map := freeCells 16 (n0 + 8736) 256
    rets := (List.range 32).filterMap (fun l => let r := freeRets (n0 + 9000 + 17 * l); if r.isEmpty then none else some (l, r))
    fpmode := if 6 ≤ mode.toNat % 8 then mode &&& 0x1F8 else mode, repro := fv 1 &&& 1, srseed := fv 2, srcount := fv 3 }

/-- The saved state of a group as free values. -/
def spoilGroup (n0 : Nat) (g : Group) : Group :=
  let fv (k : Nat) : Word := Config.freeValue (n0 + 16400 + k)
  let one (p : Split) : Split :=
    let b := 16 + 8 * p.id
    { p with ctl := { p.ctl with
        pc := fv b, trapPc := fv (b + 1) &&& ~~~3, trapCause := fv (b + 2) &&& BitVec.ofNat 64 (2 ^ 63 + 0x3FF)
        trapMask := fv (b + 3) &&& 0xFFFFFFFF, trapInfo := fv (b + 4), trapVec := fv (b + 5) &&& ~~~3, trapSave := fv (b + 6) } }
  { g with regs := freeRegs n0, fpflags := fv 0 &&& 0x7F, mxflags := fv 1 &&& 0xFF, xflags := fv 2 &&& 0xFF
           chunksq := fv 3, splits := g.splits.map one }

/-- An allotment as free values. -/
def spoilBuf (n0 : Nat) (x : Scratch) : Scratch := { x with bytes := freeCells 8 n0 x.size, full := freeCells 1 (n0 + x.size) (x.size / 4) }

/-- The saved registers and words of a cluster whose record has been written are undefined (R478). -/
def spoilCluster (s : State) (cid : Nat) : State :=
  match s.cluster? cid with
  | none => s
  | some c =>
    if !c.corrupt then s
    else
      let s := (clusterGroups s cid).foldl (fun s g =>
        { s.modGroup g.gid (spoilGroup s.free) with free := s.free + 16500 }) s
      let s := (s.teams.filter (fun t => t.cid == cid)).foldl (fun s t =>
        [0, 1, 2, 3].foldl (fun s k =>
          { s.modTeam t.tid (fun t => t.setBuf k (spoilBuf s.free (t.buf k))) with free := s.free + 2 * (t.buf k).size }) s) s
      { s.modCluster cid (fun c => { c with sram := freeCells 8 s.free c.size, corrupt := false }) with free := s.free + c.size }

/-- One team resumes on a core: its groups in the lowest free slots, its bins in the lowest free bins with their timers
at 0, its held commands in the core's pool, its posted requests at the end of the core's queue. -/
def resumeTeam (s : State) (t : Team) (core : Nat) : State :=
  let s := coreIfence s core
  let gs := s.groups.filter (fun g => g.tid == t.tid)
  let slots := (gs.zip (freeGroupSlots s core)).map (fun e => (e.1.gid, e.2))
  let freeBins := (List.range 16).filter (fun b => (binState s core b).isNone)
  let bins := ((s.bins.filter (fun b => b.tid == t.tid)).zip freeBins).map (fun e =>
    { e.1 with core := core, bin := e.2, since := s.clock, expired := false })
  let back (g : Group) : Group :=
    { g with saved := false, core := core, slot := ((slots.find? (fun e => e.1 == g.gid)).map (fun e => e.2)).getD g.slot
             splits := g.splits.map (fun p => { p with stamp := s.clock, since := s.clock }) }
  let mine := s.blockQ.filter (fun r => gs.any (fun g => g.gid == r.gid))
  { s with
    groups := s.groups.map (fun g => if g.tid == t.tid then back g else g)
    bins := s.bins.filter (fun b => b.tid != t.tid) ++ bins
    cmds := s.cmds.map (fun k => if k.cmd.tid == t.tid then { k with cmd := { k.cmd with core := core } } else k)
    blockQ := s.blockQ.filter (fun r => !mine.contains r) ++ mine.map (fun r => { r with core := core })
    teams := s.teams.map (fun x => if x.tid == t.tid then { x with core := core } else x) }

/-- R479. -/
def resumeCluster (s : State) (c : Cluster) (origin : Nat) : State :=
  let s := spoilCluster s c.cid
  let cores := rectCores origin c.cx c.cy
  let s := (teamsOf s c.cid).foldl (fun s t => resumeTeam s t (cores.getD t.index 0)) s
  (s.modCluster c.cid (fun c => { c with saved := false, origin := origin, savePages := [] })).modGrid c.grid
    (fun g => { g with starved := false, stuck := none })

/-- CLUSTER_RESUME: the saved cluster is the served head. -/
def execClusterResume (cid : Nat) (s : State) : Host.Outcome State Fault Refusal :=
  event (match served s with | some (.saved c _, .place _) => c.cid == cid | _ => false) (fun s => match served s with
    | some (.saved c _, .place o) => resumeCluster s c o
    | _ => s) s

/-! ### Requests of the management window (R510) -/

/-- The resident clusters that a request names. -/
def namedClusters (s : State) (v : Word) : List Cluster :=
  let n := v.toNat
  let slot := n / 4 % 64
  let res := s.clusters.filter (fun c => !c.saved)
  match n % 4 with
  | 1 => res.filter (fun c => (gridOfCluster s c).slot == slot)
  | 2 => res.filter (fun c => (gridOfCluster s c).slot == slot && (gridOfCluster s c).serial == n / 2 ^ 32)
  | 3 => res.filter (fun c => s.teams.any (fun t => t.cid == c.cid && t.core == n / 2 ^ 32 % 256))
  | _ => []

/-- A write of PREEMPT: the named clusters are chosen, or the request fails. An earlier request names its clusters no longer. -/
def requestPreempt (v : Word) (s : State) : State :=
  let n := v.toNat
  let word := n / 2 ^ 32 * 2 ^ 32 + n % 256
  let cs := namedClusters s v
  let fresh := cs.filter (fun c => !c.toSave)
  let s := (unname s).setBar 0x48 word
  let s := { s with clusters := s.clusters.map (fun c => if cs.any (fun x => x.cid == c.cid) && c.toSave then { c with named := true } else c) }
  if cs.isEmpty then s.setBar 0x48 (word / 4 * 4)
  else match chooseAll true fresh s with
    | some s => s
    | none => (unname s).setBar 0x48 (word / 4 * 4 + 256)

/-- A request of a kind by the owner. -/
def preemptReq (kind fn : Nat) (v : Word) (s : State) : Host.Outcome State Fault Refusal :=
  event (owns s fn && v.toNat % 4 == kind) (requestPreempt v) s

def execPreemptContext (fn : Nat) (v : Word) (s : State) : Host.Outcome State Fault Refusal := preemptReq 1 fn v s
def execPreemptGrid (fn : Nat) (v : Word) (s : State) : Host.Outcome State Fault Refusal := preemptReq 2 fn v s
def execPreemptCore (fn : Nat) (v : Word) (s : State) : Host.Outcome State Fault Refusal := preemptReq 3 fn v s

/-- D3HOT_ENTRY: every resident cluster whose save region has room is pre-empted (R528). -/
def enterD3 (s : State) : State :=
  (s.clusters.filter (fun c => !c.saved && !c.toSave)).foldl (fun s c => (chooseCluster s false c).getD s) { s with d3hot := true }
def execD3hotEntry (s : State) : Host.Outcome State Fault Refusal := event (!s.d3hot) enterD3 s

/-- D0_ENTRY. -/
def execD0Entry (s : State) : Host.Outcome State Fault Refusal := event s.d3hot (fun s => { s with d3hot := false }) s

end Sys2Proof.Machine
end

