-- ==== Sys2Proof/Machine/Walks.lean ====
section
/-! DEFINITION. Translation behind the accesses: the miss queues and their records (R260, R261), walks (R259), notices
(R263, R507) with aperture registrations (R508), migration (R267) and free frames (R507), and the folding of canonical
sums (R285). -/

namespace Sys2Proof.Machine

open Sys2Proof

/-! ### Miss queues (R260, R261) -/

/-- A returned request may be accepted: its home's queue has a place. -/
def retryOk (s : State) (idx : Nat) : Bool :=
  match s.parked[idx]? with
  | some p => !p.accepted && (queued s p.die p.slice true).length < 256
  | none => false

/-- It takes its place behind those already accepted. -/
def retryMiss (s : State) (idx : Nat) : State :=
  match s.parked[idx]? with
  | some p => { s with parked := s.parked.eraseIdx idx ++ [{ p with accepted := true }] }
  | none => s

/-- MISS_QUEUE_RETRY. -/
def execMissQueueRetry (idx : Nat) (s : State) : Host.Outcome State Fault Refusal :=
  event (retryOk s idx) (fun s => retryMiss s idx) s

/-- The address that a miss record reports. -/
def MissRec.va (m : MissRec) : Nat := (if m.host then 2 ^ 63 else m.die * 2 ^ 54) + m.page * 2 ^ 16

/-- The 32 bytes of a miss record as it is written (R261). -/
def MissRec.bytes (m : MissRec) (now : Nat) : List Byte :=
  leBytes 8 m.va ++ leBytes 2 m.asid ++ leBytes 1 m.kind ++ leBytes 1 m.type ++ leBytes 2 m.parked ++ leBytes 2 m.source
    ++ leBytes 8 now ++ leBytes 8 0

/-- The records of a die that wait, by their places in the list. -/
def waitingMisses (s : State) (die : Nat) : List Nat :=
  (s.misses.zipIdx.filter (fun e => e.1.die == die && !e.1.written)).map (fun e => e.2)

/-- A record's ring has an owner and room. -/
def missRoom (s : State) (die : Nat) : Bool := s.host != 0xF && !s.ringFull (State.dieBlk die)

/-- The oldest waiting record of a die can be written, or one beyond the 64 that wait is dropped (R505). -/
def missOk (s : State) (idx : Nat) : Bool :=
  match s.misses[idx]? with
  | some m => !m.written && (if missRoom s m.die then (waitingMisses s m.die).head? == some idx
      else 64 ≤ ((waitingMisses s m.die).takeWhile (fun k => k != idx)).length)
  | none => false

/-- Write a miss record at TAIL, or count it as lost; one that is no longer pending then goes. -/
def putMiss (s : State) (idx : Nat) : State :=
  match s.misses[idx]? with
  | some m =>
    let s := { s with misses := if m.ended then s.misses.eraseIdx idx else s.misses.set idx { m with written := true } }
    if missRoom s m.die then s.ringPut (State.dieBlk m.die) s.host (m.bytes s.time) else s.ringLost (State.dieBlk m.die)
  | none => s

/-- MISS_LOG_RECORD: the record is written, and the die's vector is signalled. -/
def execMissLogRecord (idx : Nat) (s : State) : Host.Outcome State Fault Refusal :=
  event (missOk s idx) (fun s => match s.misses[idx]? with
    | some m => if missRoom s m.die then (putMiss s idx).signal s.host (4 + m.die) else putMiss s idx
    | none => s) s

/-! ### Walks (R259) -/

/-- What the translation of a parked request now finds. -/
def parkedWalk (s : State) (p : Parked) : Option (Nat × Walked) :=
  (s.slotOf p.asid).map (fun c => (c, xlate s c p.host p.die (p.block * 256)))

/-- The leaf that a parked request now finds. -/
def parkedLeaf (s : State) (p : Parked) : Option (Nat × Leaf) :=
  match parkedWalk s p with
  | some (c, .leaf l) => some (c, l)
  | _ => none

/-- A request can be served: its page is there. -/
def servable (s : State) (p : Parked) : Bool :=
  p.accepted && (match parkedLeaf s p with
    | some (_, l) => !l.copy
    | none => false)

/-- A migration of a page is in progress. -/
def migrating (s : State) (p : Parked) (l : Leaf) : Bool :=
  s.migrations.any (fun g => g.die == p.die && g.asid == p.asid && g.host == p.host && g.base == l.base)

/-- Two requests name one page. -/
def Parked.samePage (p q : Parked) (l : Leaf) : Bool :=
  q.die == p.die && q.asid == p.asid && q.host == p.host && inLeaf l.base l.size q.block

/-- A walk for a parked request finds a leaf, and no request that can be served was accepted before it into its queue (R260),
or parked before it on its page (R267). -/
def walkOk (s : State) (idx : Nat) : Bool :=
  match s.parked[idx]? with
  | none => false
  | some p => p.accepted && (match parkedLeaf s p with
    | some (_, l) =>
      if l.copy then !migrating s p l
      else !(s.parked.take idx).any (fun q => ((q.die == p.die && q.slice == p.slice) || p.samePage q l) && servable s q)
    | none => false)

/-- A served request of a split keeps its place until the split has made its access (R260, R267). -/
def servingOf (p : Parked) (l : Leaf) : Serving := ⟨p.who, p.die, p.slice, p.asid, p.host, l.base, l.size⟩

/-- The leaf is installed, the page's records are no longer pending, and the request is served: its requester goes on, a split
in its turn. A copy-only leaf starts its migration. -/
def walkDone (s : State) (idx : Nat) : State :=
  match s.parked[idx]? with
  | none => s
  | some p => match parkedLeaf s p with
    | none => s
    | some (c, l) =>
      let s := install s c p.host p.die (p.block * 256) l
      if l.copy then startMigration s c p.host p.die p.block (missOf s c p.host p.die p.block 1 p.type p.source)
      else
        { endMisses s p.die p.asid p.host l.base l.size with
          parked := s.parked.eraseIdx idx
          serving := if (s.group? p.who.1).isSome then s.serving ++ [servingOf p l] else s.serving }

/-- TABLE_WALK_COMPLETE. -/
def execTableWalkComplete (idx : Nat) (s : State) : Host.Outcome State Fault Refusal :=
  event (walkOk s idx) (fun s => walkDone s idx) s

/-! ### Notices (R263, R507) -/

/-- What a notice names: its ASID, whether host pages, and its range; none for every page of the ASID. -/
structure NoticeOf where
  asid : Nat
  host : Bool
  range : Option (Nat × Nat)
  deriving DecidableEq, Repr

def noticeOf (die : Nat) (v : Word) : NoticeOf :=
  let n := v.toNat
  let size := match n / 2 ^ 62 with | 0 => 2 ^ 16 | 1 => 2 ^ 21 | _ => 2 ^ 30
  { asid := n % 2 ^ 16, host := die == 4 && bitAt n 61
    range := if n / 2 ^ 62 == 3 then none else some (slice n 53 16 * 2 ^ 16 / size * size, size) }

/-- The notice names bytes of a page. -/
def NoticeOf.names (k : NoticeOf) (asid : Nat) (host : Bool) (base size : Nat) : Bool :=
  k.asid == asid && k.host == host && (match k.range with
    | none => true
    | some (b, n) => b < base + size && base < b + n)

/-- R263 step 2: the stores of relaxed mode that an old entry has translated are performed. -/
def performOld (s : State) (die : Nat) (k : NoticeOf) : State :=
  s.groups.foldl (fun s g =>
    let slot := (s.gridOf g).slot
    g.splits.foldl (fun s p =>
      let old (op : StoreOp) : Bool := s.asid slot == k.asid && (match place s op.range.1 with
        | some (.dev o off) => o == die && k.names k.asid false off op.range.2
        | some (.host off) => die == 4 && k.names k.asid true off op.range.2
        | _ => false)
      if p.pst.any old then p.pst.foldl (fun s _ => performStore s g.gid p.id 0) s else s) s) s

/-- An access that an old entry has translated has not been performed yet: a lane of an atomic or `sst` in progress. -/
def openLanes (s : State) (die : Nat) (k : NoticeOf) : Bool :=
  s.groups.any (fun g => s.asid (s.gridOf g).slot == k.asid && g.splits.any (fun p =>
    p.plan.any (fun e => p.places.any (fun x => x.1 == e.1) && (match place s e.2.1 with
      | some (.dev o off) => o == die && k.names k.asid false off 16
      | some (.host off) => die == 4 && k.names k.asid true off 16
      | _ => false))))

/-- R263 steps 1 and 2: the TLB entries go. -/
def startNotice (s : State) (die : Nat) (v : Word) : State :=
  let k := noticeOf die v
  let s := performOld s die k
  { s with tlb := s.tlb.filter (fun t => !(t.die == die && k.names t.asid t.host t.base t.size)) }

/-- The notice that a die is carrying out. -/
def noticeNow (s : State) (die : Nat) : Option Word := (s.notices.find? (fun e => e.1 == die)).map (fun e => e.2)

/-- A write of NOTICE: it starts, or waits until BUSY clears. -/
def writeNotice (s : State) (die : Nat) (v : Word) : State :=
  let busy := (noticeNow s die).isSome
  let s := { s with notices := s.notices ++ [(die, v)] }
  if busy then s
  else
    let r := State.dieBlk die + 0x28
    (startNotice s die v).setBar r (s.bar r % 2 ^ 32 + 2 ^ 63)

/-- NOTICE. -/
def execNotice (fn die : Nat) (v : Word) (s : State) : Host.Outcome State Fault Refusal :=
  event (owns s fn && die < 5) (fun s => writeNotice s die v) s

/-! Aperture registrations (R275, R508) -/

/-- A registration of a die as its four words give it: VALID with its fields. -/
def aperAt (s : State) (die r : Nat) : Bool × Aper × Nat :=
  let a := State.dieBlk die + 0x800 + 32 * r
  let w := s.bar (a + 24)
  (bitAt w 63, ⟨die, r, s.bar a, s.bar (a + 8), s.bar (a + 16), w % 2 ^ 32, slice w 48 32⟩, slice w 62 49)

/-- A page at or above an offset and below another is mapped, in a table that lies `n` entries wide at each level. -/
def anyLeaf (s : State) (slot owner lo : Nat) : Nat → Bool
  | 0 => false
  | n + 1 => (match walk s slot owner (lo + n * 2 ^ 16) with | .leaf _ => true | _ => false) || anyLeaf s slot owner lo n

/-- A page of a valid context is mapped in the range of an aperture (R275). -/
def aperMapped (s : State) (die : Nat) (x : Aper) : Bool :=
  let pages := (64 * x.rows * x.cells + 2 ^ 16 - 1) / 2 ^ 16
  (List.range 64).any (fun c => s.ctxValid c && (s.roots.get (8 * c + die)).toNat != 0 && anyLeaf s c die (x.aper % 2 ^ 54) pages)

/-- The fields lie within R275's limits. -/
def aperFits (die : Nat) (x : Aper) (rsv : Nat) : Bool :=
  let own (a : Nat) : Bool := vaSpace a == 0 && vaPkg a == 0 && vaOwner a == die
  own x.base && x.base % 64 == 0 && own x.aper && x.aper % 2 ^ 16 == 0 && x.pitch % 64 == 0
    && 1 ≤ x.rows && x.rows ≤ 2 ^ 20 && 1 ≤ x.cells && x.cells ≤ 2 ^ 16 && rsv == 0

/-- Two aperture ranges overlap. -/
def aperHits (x y : Aper) : Bool := x.aper < y.aper + 64 * y.rows * y.cells && y.aper < x.aper + 64 * x.rows * x.cells

/-- A notice looks at one registration: an illegal or overlapping one loses VALID and is logged. -/
def checkAper (s : State) (die r : Nat) : State :=
  let x := aperAt s die r
  let others := (List.range 64).filter (fun k => k != r && (aperAt s die k).1)
  if x.1 && (!aperFits die x.2.1 x.2.2 || aperMapped s die x.2.1 || others.any (fun k => aperHits x.2.1 (aperAt s die k).2.1)) then
    let a := State.dieBlk die + 0x800 + 32 * r + 24
    (s.setBar a (s.bar a % 2 ^ 63)).errLog 2 die 0 r 0
  else s

/-- The registrations of a die take effect. -/
def takeApers (s : State) (die : Nat) : State :=
  if die == 4 then s
  else
    let s := (List.range 64).foldl (fun s r => checkAper s die r) s
    let mine := ((List.range 64).map (fun r => aperAt s die r)).filterMap (fun x => if x.1 then some x.2.1 else none)
    { s with apers := s.apers.filter (fun a => a.die != die) ++ mine }

/-- The root of a context for an owner takes effect at a notice of SCOPE 3 (R506). -/
def takeRoot (s : State) (die : Nat) (k : NoticeOf) : State :=
  match k.range, s.slotOf k.asid with
  | none, some c => { s with roots := s.roots.set (8 * c + die) (BitVec.ofNat 64 (slice (s.ctx c (8 + 8 * die)) 51 12 * 2 ^ 12)) }
  | _, _ => s

/-- A parked request walks again (R263 step 4): one that still misses makes a new record, and a copy-only page its
migration. -/
def walkAgain (s : State) (p : Parked) : State :=
  match parkedWalk s p with
  | none => s
  | some (c, w) =>
    let m (kind : Nat) : MissRec := missOf s c p.host p.die p.block (if p.engine then 4 else kind) p.type p.source
    match w with
    | .none => addMiss s (m 0) p.block
    | .malformed => addMiss s (m 3) p.block
    | .leaf l => if l.copy then startMigration (addMiss s (m 1) p.block) c p.host p.die p.block (m 1) else s

/-- R263 steps 3 and 4: the notice reports complete, the records of its pages are no longer pending, and the requests parked on
them walk again. The next notice starts. -/
def finishNotice (s : State) (die : Nat) (v : Word) : State :=
  let k := noticeOf die v
  let r := State.dieBlk die + 0x28
  let s := takeApers (takeRoot s die k) die
  let s := { endRecords s (fun m => m.die == die && k.names m.asid m.host m.base m.size) with
    tlb := s.tlb.filter (fun t => !(t.die == die && k.names t.asid t.host t.base t.size))
    notices := s.notices.erase (die, v) }
  let again := s.parked.filter (fun q => q.die == die && k.names q.asid q.host (q.block * 256) 256)
  let s := again.foldl walkAgain s
  let done := (s.bar r + 1) % 2 ^ 32
  match noticeNow s die with
  | none => s.setBar r done
  | some v' => (startNotice s die v').setBar r (done + 2 ^ 63)

/-- A notice may report complete: every access that an old entry has translated is performed. -/
def noticeDone (s : State) (die : Nat) : Bool :=
  match noticeNow s die with
  | some v => die < 5 && !openLanes s die (noticeOf die v)
  | none => false

/-- NOTICE_COMPLETE. -/
def execNoticeComplete (die : Nat) (s : State) : Host.Outcome State Fault Refusal :=
  event (noticeDone s die) (fun s => match noticeNow s die with
    | some v => finishNotice s die v
    | none => s) s

/-! ### Migration (R267) -/

/-- The bytes of a page as stored: a compressed page holds 320 bytes for each 256 (R271). -/
def storedSize (g : Migration) : Nat := if slice g.leaf 7 6 == 0 then g.size else g.size / 4 * 5

/-- The source of a migration: a host bus address, or the address of a peer's memory. -/
def migrSource (g : Migration) : Nat ⊕ Nat :=
  if bitAt g.leaf 63 then .inl (slice g.leaf 62 16 * 2 ^ 16) else .inr (2 ^ 62 + slice g.leaf 62 16 * 2 ^ 16 % 2 ^ 62)

/-- Who asks for the lines of a peer's source. -/
def migrWho (asid : Nat) : Nat × Nat := (0, 2 ^ 72 + asid)

/-- A copier with a frame asks for the lines of a peer's source that have not come (R267, R319), 64 at a time. -/
def askSource (s : State) (g : Migration) : State :=
  match migrSource g, s.slotOf g.asid with
  | .inr a, some c =>
    let due := ((List.range (storedSize g / 64)).filter (fun k => !g.lines.any (fun l => l.1 == a + 64 * k))).take 64
    if g.frame.isNone then s else due.foldl (fun s k => askPeer s (migrWho g.asid) c (a + 64 * k) 0) s
  | _, _ => s

/-- The copiers ask for what they still need. -/
def askSources (s : State) : State := s.migrations.foldl askSource s

/-- A line of a peer's source comes. -/
def takeLine (asid ln : Nat) (d : List Byte) (g : Migration) : Migration :=
  match migrSource g with
  | .inr a =>
    if g.asid == asid && a ≤ ln && ln < a + storedSize g && !g.lines.any (fun l => l.1 == ln) then { g with lines := g.lines ++ [(ln, d)] }
    else g
  | .inl _ => g

/-- The lines of a peer's source that have come, from first to last. -/
def migrLines (g : Migration) (a : Nat) : Option (List Byte) :=
  ((List.range (storedSize g / 64)).mapM (fun k =>
    (g.lines.find? (fun l => l.1 == a + 64 * k)).map (fun l => l.2))).map List.flatten

/-- The data that the copier has read: host memory's own, or what the peer has answered; none while lines are to come. -/
def migrData (s : State) (g : Migration) : Option (List Byte) :=
  match migrSource g with
  | .inl a => some (Cells.read s.hostMem a (storedSize g))
  | .inr a => migrLines g a

/-- The lines of each engine chunk of a migration copy: 4 KiB of the page (R306). -/
def copyChunks (g : Migration) : List (List Nat) :=
  let a := (if g.host then 2 ^ 63 else g.die * 2 ^ 54) + g.base
  (List.range (g.size / 4096)).map (fun k => linesOf (a + 4096 * k) 4096)

/-- The copy has ended, the page has its frame, and its engine chunks may be granted (R304, R306). -/
def migrateOk (s : State) (idx : Nat) : Bool :=
  match s.migrations[idx]? with
  | some g => g.frame.isSome && (migrData s g).isSome && (copyChunks g).all (fun ks => engineMay s g.die 191 ks)
  | none => false

/-- One engine chunk of a copy takes its key, and squashes what conflicts with it. -/
def copyChunk (die : Nat) (s : State) (keys : List Nat) : State := conflict (engineKey s die keys) keys 0 0 (0, 0) none

/-- The page is copied, its leaf is rewritten unless it has changed, and R263's steps follow: the requests parked on the page
are then served in their order, by walks. -/
def migrateDone (s : State) (idx : Nat) : State :=
  match s.migrations[idx]? with
  | none => s
  | some g =>
    let d := (migrData s g).getD []
    let s := (copyChunks g).foldl (copyChunk g.die) (s.memWrite (phys g.die (g.frame.getD 0)) d)
    let same := ofBytes (s.memRead g.leafAt 8) == g.leaf
    let leaf := g.leaf % 2 ^ 8 + (g.leaf / 2 ^ 9 % 2) * 2 ^ 9 + g.frame.getD 0
    let s := if same then s.memWrite g.leafAt (leBytes 8 leaf) else s
    let s := { s with
      migrations := s.migrations.eraseIdx idx
      tlb := s.tlb.filter (fun t => !(t.die == g.die && t.asid == g.asid && t.host == g.host && t.base == g.base)) }
    endMisses s g.die g.asid g.host g.base g.size

/-- What a completion may say of the data that the copier has read: nothing, or what it is. -/
def migrSaid (s : State) (idx : Nat) (data : List Byte) : Bool :=
  data.isEmpty || ((s.migrations[idx]?).bind (migrData s)) == some data

/-- MIGRATION_COMPLETE. -/
def execMigrationComplete (idx : Nat) (data : List Byte) (s : State) : Host.Outcome State Fault Refusal :=
  event (migrateOk s idx && migrSaid s idx data) (fun s => migrateDone s idx) s

/-- Migrations that wait for a frame take one each, in their order. -/
def feedMigrations (s : State) (die : Nat) : State :=
  (List.range s.migrations.length).foldl (fun s k => match s.migrations[k]? with
    | some g =>
      if g.die == die && g.frame.isNone then
        let f := nextFrame s die g.size
        { f.2 with migrations := f.2.migrations.set k { g with frame := f.1 } }
      else s
    | none => s) s

/-- The die of a free-frame ring's TAIL register. -/
def freeTailDie (off : Nat) : Option Nat :=
  (List.range 5).find? (fun d => [0x58, 0x78, 0x98].contains (off - State.dieBlk d) && State.dieBlk d ≤ off)

/-- FREE_FRAME_TAIL. -/
def execFreeFrameTail (fn off : Nat) (v : Word) (s : State) : Host.Outcome State Fault Refusal :=
  event (owns s fn && (freeTailDie off).isSome) (fun s =>
    feedMigrations (s.setBar off (v.toNat % 2 ^ 32)) ((freeTailDie off).getD 0)) s

/-! ### Canonical sums (R285) -/

/-- The sum is its slice's oldest. -/
def foldOk (s : State) (idx : Nat) : Bool :=
  match s.accums[idx]? with
  | some a => !(s.accums.take idx).any (fun b => b.slice == a.slice)
  | none => false

/-- RED_FOLD. -/
def execRedFold (idx : Nat) (s : State) : Host.Outcome State Fault Refusal :=
  event (foldOk s idx) (fun s => match s.accums[idx]? with
    | some a => s.foldAccum a
    | none => s) s

end Sys2Proof.Machine
end

