-- ==== Sys2Proof/Machine/Manage.lean ====
section
/-! DEFINITION. The host's side (23_host_links_management.md): CXL.mem and AtomicOp requests (R501, R502), the launch port
and the reading of records (R309, R514, R516), rings (R505), ownership (R512, R513), the registers of the management
window (R503 to R509), the translator unit (R497), resets and start-up (R526, R527), and errors, power and temperature
(R524, R525, R528, R529). -/

namespace Sys2Proof.Machine

open Sys2Proof

/-! ### The translator unit (R497) -/

/-- The entry still holds the DESC and VERSION with which the translation began. -/
def translSame (s : State) (t : Transl) : Bool :=
  match rdGlobal s t.slot (kitAddr s t.slot t.kit) 64 with
  | .ok b => let e := kitEntry b; e.desc == t.desc && e.version == t.version && e.valid && e.portable
  | _ => false

/-- n bytes of code, as the translator reads them (R264): a peer's from the lines that have been fetched. -/
def codeRead (s : State) (slot a n : Nat) : Rd :=
  match access s slot .fetch a with
  | .peer _ =>
    let mark := lineAddr a + 2 ^ 64
    if s.badLines.contains (badMark (s.asid slot) mark) then .bad
    else (match cachedLine s mark with
      | some d => .ok ((d.drop (a % 64)).take n)
      | none => .miss false 0 (lineAddr a) 5)
  | .hit h o inPage l => (match pageRead s h o l inPage n with | some b => .ok b | none => .bad)
  | .miss h o b k => .miss h o b k
  | _ => .bad

/-- The first portable instruction of an object: one word, or two where X = 1 (R495). -/
def codeHead (s : State) (slot code : Nat) : Rd :=
  match codeRead s slot code 4 with
  | .ok b =>
    if ofBytes b != 1 && bitAt (ofBytes b) 23 then
      (match codeRead s slot (wrap 64 ((code : Int) + 4)) 4 with
        | .ok e => .ok (b ++ e)
        | r => r)
    else .ok b
  | r => r

/-- The first portable instruction of an object does not trap at decode (R497); that of a page that is missing is waited for. -/
def codeDecodes (s : State) (slot code : Nat) : Bool :=
  match codeHead s slot code with
  | .ok b => ofBytes b == 1 || (match portableWord (ofBytes (b.take 4)) (ofBytes (b.drop 4)) with
    | some n => legal (decodeWord n none)
    | none => false)
  | .miss _ _ _ _ => true
  | .bad => false

/-- Bytes from an address on, cut where a multiple of `size` begins. -/
def pieces (size : Nat) : Nat → Nat → List Byte → List (Nat × List Byte)
  | 0, _, _ => []
  | k + 1, a, d =>
    let n := min d.length (size - a % size)
    if n == 0 then [] else (a, d.take n) :: pieces size k (a + n) (d.drop n)

/-- What the end of a translation writes into its entry: NATIVE and SPMAP. -/
def entryPart (s : State) (t : Transl) (native spmap : Word) : List (Nat × List Byte) :=
  [(kitAddr s t.slot t.kit + 16, leBytes 8 native.toNat ++ leBytes 8 spmap.toNat)]

/-- What it writes, page by page: the image, and the entry. -/
def translParts (s : State) (t : Transl) (h : CodeHdr) (native spmap : Word) (image : List Byte) : List (Nat × List Byte) :=
  pieces 65536 (image.length / 65536 + 2) h.trans image ++ entryPart s t native spmap

/-- The lines of what the Headland writes at virtual addresses. -/
def partKeys (s : State) (parts : List (Nat × List Byte)) : List Nat :=
  parts.flatMap (fun e => linesOf (normal s e.1) e.2.length)

/-- A part lies in a page that the Headland can write, or that is missing. -/
def canPut (s : State) (slot : Nat) (e : Nat × List Byte) : Bool :=
  match access s slot .own e.1 with
  | .hit _ _ _ _ | .peer _ | .miss _ _ _ _ => true
  | _ => false

/-- A part lies at a peer. -/
def partAtPeer (s : State) (slot : Nat) (e : Nat × List Byte) : Bool :=
  match access s slot .own e.1 with | .peer _ => true | _ => false

/-- A translation that ends with an image: its region holds the image, the entry and the map lie in the image, and the Headland can
write them. -/
def translFits (s : State) (t : Transl) (e : KitEntry) (h : CodeHdr) (native spmap : Word) (image : List Byte) : Bool :=
  let inside (a : Nat) : Bool := h.trans ≤ a && a < h.trans + image.length
  h.trans != 0 && image.length ≤ h.transLen && codeDecodes s t.slot e.code
    && native.toNat % 8 == 0 && inside native.toNat && (spmap == 0 || inside spmap.toNat)
    && (translParts s t h native spmap image).all (canPut s t.slot)

/-- The writes may be made: no reserved chunk holds their lines (R304), a key is free for the engine chunk that writes the entry
(R306), and a batch can be sent for what lies at a peer (R318). The translator stands on the I/O die. -/
def mayPut (s : State) (slot : Nat) (parts : List (Nat × List Byte)) : Bool :=
  engineMay s 4 191 (partKeys s parts) && (batchRoom s || !parts.any (partAtPeer s slot))

/-- A translation may end: with an image that fits, or, its entry being another by now, with none. -/
def translOk (s : State) (idx : Nat) (native spmap : Word) (image : List Byte) : Bool :=
  match s.transls[idx]? with
  | some t => match kitAt s t.slot t.kit with
    | .ok e h => !translSame s t
        || (translFits s t e h native spmap image && mayPut s t.slot (translParts s t h native spmap image))
    | .malformed | .miss _ _ _ _ => true
  | none => false

/-- The Headland itself writes a part that lies in this package. -/
def putPart (slot : Nat) (s : State) (e : Nat × List Byte) : State :=
  match access s slot .own e.1 with
  | .hit h o inPage l =>
    conflict (pageWrite (touch s slot .own e.1) h o l inPage e.2) (linesOf (normal s e.1) e.2.length) 0 0 (0, 0) none
  | _ => s

/-- The Headland writes at virtual addresses: here, and at peers by one batch. -/
def putVirtual (s : State) (slot : Nat) (parts : List (Nat × List Byte)) : State :=
  let there := parts.filter (partAtPeer s slot)
  let s := parts.foldl (putPart slot) s
  if there.isEmpty then s
  else sendBatch s (s.asid slot)
    ((there.flatMap (fun e => pieces 64 (e.2.length / 64 + 2) e.1 e.2)).map (fun e => { addr := e.1, data := e.2 }))
    (partKeys s there) none

/-- The pages that the end of a translation needs and that are missing. -/
def translMisses (s : State) (t : Transl) (code : Nat) (parts : List (Nat × List Byte)) : List (Need × MissAt) :=
  (match codeHead s t.slot code with | .miss h o b k => [(.fetch, ⟨h, o, b, k⟩)] | _ => [])
    ++ parts.filterMap (fun e => match access s t.slot .own e.1 with
      | .miss h o p k => some (.own, ⟨h, o, p, k⟩)
      | _ => none)

/-- Who the translator of a context is, to its requests. -/
def translWho (slot : Nat) : Nat × Nat := (0, 2 ^ 73 + slot)

/-- The translator waits for pages; it has no engine number (R262): SOURCE is a free value. -/
def parkTransl (s : State) (slot : Nat) (ms : List (Need × MissAt)) : State :=
  ms.foldl (fun s m =>
    let d := s.draw
    park d.2 (translWho slot) slot (freeSource d.1) none m.1 m.2.host m.2.owner m.2.block m.2.kind) s

/-- R497: the image is in its region, and NATIVE and SPMAP are written if the entry is the same; else it is discarded. A missing
page is waited for. -/
def translDone (s : State) (idx : Nat) (native spmap : Word) (image : List Byte) : State :=
  match s.transls[idx]? with
  | none => s
  | some t =>
    match kitAt s t.slot t.kit with
    | .miss h o p k => parkTransl s t.slot [(.read, ⟨h, o, p, k⟩)]
    | .malformed => { s with transls := s.transls.eraseIdx idx }
    | .ok e h =>
      if !translSame s t then { s with transls := s.transls.eraseIdx idx }
      else
        let parts := translParts s t h native spmap image
        let ms := translMisses s t e.code parts
        if !ms.isEmpty then parkTransl s t.slot ms
        else
          let s := engineKey s 4 (partKeys s (entryPart s t native spmap))
          putVirtual { s with transls := s.transls.eraseIdx idx } t.slot parts

/-- TRANSLATION_COMPLETE. -/
def execTranslationComplete (idx : Nat) (native spmap : Word) (image : List Byte) (s : State) :
    Host.Outcome State Fault Refusal :=
  event (translOk s idx native spmap image) (fun s => translDone s idx native spmap image) s

/-! ### CXL.mem and AtomicOps (R501, R502) -/

/-- The line keys of chunks in progress that lie in physical bytes. -/
def keysIn (s : State) (k n : Nat) : List Nat :=
  (s.groups.flatMap (fun g => g.splits.flatMap (fun p => match p.chunk with
    | some c => (c.reads ++ c.writes).filter (fun key => isGlobalKey key
        && (match access s (s.gridOf g).slot .read (64 * key) with
          | .hit false o inPage l => phys o (l.frame + inPage) < k + n && k < phys o (l.frame + inPage) + 64
          | _ => false))
    | none => []))).eraseDups

/-- The lines that a host's request writes, which names no virtual address: those of the address with the same owner and
offset, and those by which chunks in progress have reached the bytes (log 40). -/
def keysAt (s : State) (k n : Nat) : List Nat := addKeys (linesOf k n) (keysIn s k n)

/-- Where a function's host physical address leads, n bytes in one decoder's range: owner and offset (R502). -/
def hdmAt (s : State) (fn addr n : Nat) : Option (Nat × Nat) :=
  (s.hdm.find? (fun d => d.fn == fn && d.base ≤ addr && addr + n ≤ d.base + d.size)).map (fun d => (d.owner, d.off + (addr - d.base)))

/-- A function's host sets one of its 8 decoders (R501), on memory that the package has; size 0 takes it out of force. -/
def setHdm (s : State) (d : Hdm) : State :=
  if d.fn < 8 && d.idx < 8 && d.owner < 5 && (d.size == 0 || physOk d.owner (d.off + d.size - 1)) then
    let l := s.hdm.filter (fun e => !(e.fn == d.fn && e.idx == d.idx))
    { s with hdm := if d.size == 0 then l else l ++ [d] }
  else s

/-- The lines that a request writes. -/
def cxlKeys (s : State) (k len : Nat) (data : Option (List Byte)) : List Nat := if data.isSome then keysAt s k len else []

/-- A request to device memory may take its place in the order, as an engine chunk of the I/O die (R306); `failed` is for reads. -/
def cxlOk (s : State) (fn addr len : Nat) (data : Option (List Byte)) (failed : Bool) : Bool :=
  started s && 0 < len && (match data with | some d => d.length == len && !failed | none => true)
    && (match hdmAt s fn addr len with
      | some (o, off) => engineMay s 4 0 (cxlKeys s (phys o off) len data)
      | none => false)

/-- A line of the bytes has lost its data. -/
def State.failedIn (s : State) (k n : Nat) : Bool := s.failed.any (fun f => 64 * f < k + n && k < 64 * f + 64)

/-- One engine chunk on memory as it stands at its key (R502). A read that meets an uncorrectable error returns all ones (R525). -/
def cxlRequest (s : State) (fn addr len : Nat) (data : Option (List Byte)) (failed : Bool) : State :=
  match hdmAt s fn addr len with
  | none => s
  | some (o, off) =>
    let k := phys o off
    let keys := cxlKeys s k len data
    let s := engineKey s 4 keys
    match data with
    | none => { s with out := s.out ++ [.cxlData (if failed || s.failedIn k len then List.replicate len 0xFF else s.memRead k len)] }
    | some d => kitWritten (conflict (s.memWrite k d) keys 0 0 (0, 0) none) k len

/-- HOST_CXL_MEM_REQUEST. -/
def execHostCxlMemRequest (fn addr len : Nat) (data : Option (List Byte)) (failed : Bool) (s : State) :
    Host.Outcome State Fault Refusal :=
  event (cxlOk s fn addr len data failed) (fun s => cxlRequest s fn addr len data failed) s

/-- HOST_ATOMICOP_REQUEST: Unsupported Request. -/
def execHostAtomicopRequest (fn : Nat) (s : State) : Host.Outcome State Fault Refusal :=
  event (started s && fn < 8) (fun s => { s with out := s.out ++ [.unsupported fn] }) s

/-- CONFIGURATION_REQUEST: Request Retry Status until READY. -/
def execConfigurationRequest (fn : Nat) (s : State) : Host.Outcome State Fault Refusal :=
  event (s.powered && fn < 8) (fun s => { s with out := s.out ++ [.config fn (!bitAt (s.bar 0) 0)] }) s

/-! ### The launch port (R514, R516) -/

/-- A write to the port: a record, or a discarded write that is logged. A full port withholds credits, and the write
waits in the host's fabric. -/
def portWrite (s : State) (fn addr : Nat) (data : List Byte) : State :=
  if fn == s.host && data.length == 64 && addr % 64 == 0 then { s with port := s.port ++ [(fn, data)] }
  else s.errLog 1 fn 0 0 0

/-- LAUNCH_PORT_WRITE. -/
def execLaunchPortWrite (fn addr : Nat) (data : List Byte) (s : State) : Host.Outcome State Fault Refusal :=
  event (started s && fn < 8 && s.port.length < 256) (fun s => portWrite s fn addr data) s

/-- The first held grid whose context has drained (R309). -/
def heldNext (s : State) : Option Grid := s.heldGrids.find? (fun g => !modeHolds s (some g.slot))

/-- What the dispatcher lacks for the held grid that it is to queue, or for the record at the port's head: the page and its
context. -/
def readMiss (s : State) : Option (Nat × MissAt) :=
  match heldNext s, s.port with
  | some g, _ => modeUnread s (some g.slot)
  | none, [] => none
  | none, (fn, b) :: _ =>
    let slot? := recSlot s b none
    (modeUnread s slot?).or (match readRecord s b (.host fn) none, slot? with
      | .miss h o p k, some c => some (c, ⟨h, o, p, k⟩)
      | _, _ => none)

/-- A held grid may be queued, or the record at the port's head read: the queue has a place, its context's mode does not hold
it, and the dispatcher does not wait for a page already (R490, R514). -/
def recordOk (s : State) : Bool :=
  ((heldNext s).isSome || match s.port with
    | [] => false
    | (_, b) :: _ => queueUsed s + launchReserved s < 4096 && !modeHolds s (recSlot s b none))
  && !s.waitsFor (0, 0) && (match readMiss s with | some m => m.2.kind != failedKind | none => true)

/-- The dispatcher reads the record at the port's head. -/
def readPort (s : State) : State :=
  match s.port with
  | [] => s
  | (fn, b) :: r =>
    let s := match recSlot s b none with | some c => setMode s c | none => s
    (takeRecord { s with port := r } b (.host fn) none).getD s

/-- The dispatcher queues a grid that has been held, or else reads the record at the port's head; where a page is missing it parks
there, with a free value for SOURCE. -/
def readNext (s : State) : State :=
  match readMiss s with
  | some (c, m) =>
    let d := s.draw
    park d.2 (0, 0) c (freeSource d.1) none .read m.host m.owner m.block m.kind
  | none => match heldNext s with
    | some g => let s := setMode s g.slot; { s with heldGrids := s.heldGrids.erase g, grids := s.grids ++ [g] }
    | none => readPort s

/-- LAUNCH_RECORD_READ. -/
def execLaunchRecordRead (s : State) : Host.Outcome State Fault Refusal := event (recordOk s) readNext s

/-! ### Rings (R505) -/

/-- The rings whose entries the package produces. -/
def isLogRing (r : Nat) : Bool :=
  (State.isCompl r && r % 32 == 0) || r == 0x200 || (0x1000 ≤ r && r < 0x5000 && r % 256 == 0x58)
    || (0x10000 ≤ r && r < 0x15000 && r % 4096 == 0)
/-- The free-frame rings. -/
def isFreeRing (r : Nat) : Bool :=
  0x10000 ≤ r && r < 0x15000 && (r % 4096 == 0x40 || r % 4096 == 0x60 || r % 4096 == 0x80)

/-- Write what waits for a ring while it has room. -/
def drainRing (r : Nat) (s : State) : State := State.ringDrain r false s.ringWait s

/-- A write of HEAD that keeps TAIL - HEAD within SIZE (R505). -/
def headOk (s : State) (fn off : Nat) (v : Word) : Bool :=
  let r := off - 0x10
  0x10 ≤ off && isLogRing r && started s && (fn == s.host || r == 0x100 + 32 * fn) && fn < 8
    && (s.ringTail r + 2 ^ 32 - v.toNat % 2 ^ 32) % 2 ^ 32 ≤ s.ringSize r

/-- RING_HEAD_WRITE. -/
def execRingHeadWrite (fn off : Nat) (v : Word) (s : State) : Host.Outcome State Fault Refusal :=
  event (headOk s fn off v) (fun s => drainRing (off - 0x10) (s.setBar off (v.toNat % 2 ^ 32))) s

/-! ### Ownership (R512, R513) -/

/-- OWNER after a change of host. -/
def setOwner (s : State) (h : Nat) : State := { s.setBar 0x10 ((s.epoch + 1) % 2 ^ 32 * 2 ^ 32 + h) with beat := s.clock }

/-- The waiting records of a log ring are written to the new owner, with one signal. -/
def claimRing (s : State) (r vec : Nat) : State :=
  let n := s.ringWait.length
  let s := State.ringDrain r true s.ringWait s
  if s.ringWait.length < n then s.signal s.host vec else s

/-- The waiting miss records of a die are written to the new owner, with one signal. -/
def claimMisses (s : State) (die : Nat) : State :=
  let n := (waitingMisses s die).length
  let s := (List.range n).foldl (fun s _ => match (waitingMisses s die).head? with
    | some k => if missRoom s die then putMiss s k else s
    | none => s) s
  if (waitingMisses s die).length < n then s.signal s.host (4 + die) else s

/-- The records that wait for an owner. -/
def claimRings (s : State) : State :=
  if s.host == 0xF then s
  else
    let s := claimRing s 0x200 1
    let s := (List.range 64).foldl (fun s c => claimRing s (0x1000 + 256 * c + 0x58) 2) s
    (List.range 5).foldl claimMisses s

/-- A write of OWNCLAIM succeeds (R513): the lapse time is in ms, and CLOCK counts 3,000,000 cycles in one. -/
def claimOk (s : State) (fn : Nat) (v : Word) : Bool :=
  let new := v.toNat % 16
  started s && fn < 8 && v.toNat / 2 ^ 32 == s.epoch
    && ((s.host == 0xF && new == fn) || (fn == s.host && (new < 8 || new == 0xF))
      || (s.beat + s.bar 0x28 * 3000000 ≤ s.clock && new == fn))

/-- OWNCLAIM. -/
def execOwnclaim (fn : Nat) (v : Word) (s : State) : Host.Outcome State Fault Refusal :=
  event (claimOk s fn v) (fun s => claimRings (setOwner s (v.toNat % 16))) s

/-- HEARTBEAT. -/
def execHeartbeat (fn : Nat) (s : State) : Host.Outcome State Fault Refusal :=
  event (owns s fn) (fun s => { s with beat := s.clock }) s

/-! ### Registers of the window (R503 to R509) -/

/-- SIZE of a ring: a power of 2 from 16 to 2^20, else 0. -/
def sizeField (v : Nat) : Nat := if (List.range 17).any (fun k => v == 2 ^ (k + 4)) then v else 0

/-- BASE of a ring has bits 5:0 zero. -/
def low6 (v : Nat) : Nat := v / 64 * 64

/-- A context slot's register, from the offset in its block (R506). -/
def slotField (o v : Nat) : Option Nat :=
  if 0x08 ≤ o && o ≤ 0x28 && o % 8 == 0 then some (slice v 51 12 * 2 ^ 12)
  else if o == 0x40 then some (v % 2 ^ 32)
  else if o == 0x30 || o == 0x38 || o == 0x48 || o == 0x50 then some v
  else if o == 0x58 then some (low6 v)
  else if o == 0x60 then some (sizeField v)
  else none

/-- A die block's register, from the offset in the block (R507, R508). -/
def dieField (die o v : Nat) : Option Nat :=
  if o == 0 || o == 0x40 || o == 0x60 || o == 0x80 then some (low6 v)
  else if o == 8 || o == 0x48 || o == 0x68 || o == 0x88 then some (sizeField v)
  else if 0x100 ≤ o && o < 0x200 then some (if o % 16 == 0 then v % 2 ^ 18 else v)
  else if 0x800 ≤ o && o < 0x1000 && die < 4 then some v
  else none

/-- The value that a register takes from a write (R6); none where the offset has no register without a row of its own. REACH of a lost package stays 0 until its warm reset (R521). -/
def regField (s : State) (off v : Nat) : Option Nat :=
  if off % 8 != 0 then none
  else if off == 0x08 then some (v % 32)
  else if off == 0x28 then some (if 10 ≤ v && v ≤ 60000 then v else 1000)
  else if off == 0x38 then some (v % 4096)
  else if off == 0x48 then (if v % 4 == 0 then some (v / 2 ^ 32 * 2 ^ 32 + v % 256) else none)
  else if 0x100 ≤ off && off < 0x220 then (match off % 32 with | 0 => some (low6 v) | 8 => some (sizeField v) | _ => none)
  else if 0x1000 ≤ off && off < 0x5000 then slotField (off % 256) v
  else if 0x10000 ≤ off && off < 0x15000 then dieField (off / 4096 - 16) (off % 4096) v
  else if 0x30000 ≤ off && off < 0x30100 then some (v % (if s.lost.contains ((off - 0x30000) / 8) then 2 ^ 12 else 2 ^ 13))
  else none

/-- A wire-tree count; a value above 64 stores 64. It takes effect at the tag's next instance, at once where none is
open (R125). -/
def writeWire (s : State) (k v : Nat) : State :=
  let tag := k / 256
  let n : BitVec 8 := BitVec.ofNat 8 (min (v % 256) 64)
  let idle := !wireAny s tag
  let s := { s with wireCount := s.wireCount.set k n }
  if !idle then s
  else if n == 0 then { s with wireForce := s.wireForce.set k 0 }
  else wireApart { s with wireForce := s.wireForce.set k n } tag

/-- What follows from a register's new value: waiting records, the context's mode and the translator, and the end of a request
of PREEMPT. -/
def afterWrite (s : State) (off : Nat) : State :=
  let r := off / 32 * 32
  if off == 0x48 then unname s
  else if isLogRing r && (State.isCompl r || r == 0x200) then drainRing r s
  else if 0x1000 ≤ off && off < 0x5000 then
    let o := off % 256
    if o == 0x58 || o == 0x60 then drainRing (off / 256 * 256 + 0x58) s
    else if o == 0x30 then scanKit s ((off - 0x1000) / 256)
    else s
  else s

/-- A write to a register without a row of its own. -/
def writeReg (s : State) (off : Nat) (v : Word) : State :=
  if 0x20000 ≤ off && off < 0x20800 then
    (if off % 256 ≤ 192 then writeWire s (off - 0x20000) v.toNat else s)
  else match regField s off v.toNat with
    | some x => afterWrite (s.setBar off x) off
    | none => s

/-- MANAGEMENT_REGISTER_WRITE. -/
def execManagementRegisterWrite (fn off : Nat) (v : Word) (s : State) : Host.Outcome State Fault Refusal :=
  event (owns s fn) (fun s => writeReg s off v) s

/-- A write of a context slot's CTL (R506). -/
def writeCtl (s : State) (slot : Nat) (v : Word) : State :=
  let n := v.toNat % 2 ^ 19
  let a := 0x1000 + 256 * slot
  if s.ctxValid slot then
    (if bitAt n 16 && n % 2 ^ 16 == s.asid slot then s.setBar a n else s)
  else if bitAt n 16 then
    (match s.slotOf (n % 2 ^ 16) with
      | some _ => s.errLog 7 slot 0 0 0
      | none => scanKit (s.setBar a n) slot)
  else s.setBar a n

/-- CONTEXT_SLOT_CTL. -/
def execContextSlotCtl (fn slot : Nat) (v : Word) (s : State) : Host.Outcome State Fault Refusal :=
  event (owns s fn && slot < 64) (fun s => writeCtl s slot v) s

/-! ### Ending contexts (R525, R527) -/

/-- The groups, teams, clusters, bins, commands and walks of some grids go. -/
def dropGrids (s : State) (ids : List Nat) : State :=
  let cids := (s.clusters.filter (fun c => ids.contains c.grid)).map (fun c => c.cid)
  let tids := (s.teams.filter (fun t => cids.contains t.cid)).map (fun t => t.tid)
  let gids := (s.groups.filter (fun g => tids.contains g.tid)).map (fun g => g.gid)
  let kids := (s.cmds.filter (fun c => tids.contains c.cmd.tid)).map (fun c => c.cmd.kid)
  requestDone { s with
    groups := s.groups.filter (fun g => !gids.contains g.gid)
    teams := s.teams.filter (fun t => !tids.contains t.tid)
    clusters := s.clusters.filter (fun c => !cids.contains c.cid)
    grids := s.grids.filter (fun g => !ids.contains g.grid)
    heldGrids := s.heldGrids.filter (fun g => !ids.contains g.grid)
    bins := s.bins.filter (fun b => !tids.contains b.tid)
    cmds := s.cmds.filter (fun c => !kids.contains c.cmd.kid)
    walks := s.walks.filter (fun w => !tids.contains w.tid)
    blockQ := s.blockQ.filter (fun r => !gids.contains r.gid)
    peerReqs := dropReqs (fun q => gids.contains q.gid || (q.gid == 0 && (kids ++ ids).contains q.sp)) s.peerReqs
    serving := s.serving.filter (fun e => !gids.contains e.who.1)
    parked := dropParked (fun w => gids.contains w.1 || (w.1 == 0 && (kids ++ ids).contains w.2)) s.parked }

/-- The queued and resident grids of a context end with status 0x44; their bindings end. -/
def endContext (s : State) (slot : Nat) : State :=
  let gs := (s.grids ++ s.heldGrids).filter (fun g => g.slot == slot)
  let s := gs.foldl (fun s g => match g.bound with | some b => addUsers s slot b.desc false | none => s) s
  let s := dropGrids s (gs.map (fun g => g.grid))
  gs.foldl (fun s g => reportGrid s g.src g.serial (s.asid slot) g.kit 0x44) s

/-- RESETCTL = 2 + 256c: the slot's grids end, its resources are free, and it is cleared. What its ASID names goes with it where
the slot is valid; miss records that have still to be written are written all the same (R505). -/
def removeSlot (s : State) (slot : Nat) : State :=
  let live := s.ctxValid slot
  let a := s.asid slot
  let mine (x : Nat) : Bool := live && x == a
  let s := endRecords (endContext s slot) (fun m => mine m.asid)
  let lo := 0x1000 + 256 * slot
  { s with
    bar0 := s.bar0.filter (fun e => !(lo ≤ e.1 && e.1 < lo + 256))
    roots := s.roots.filter (fun e => !(8 * slot ≤ e.1 && e.1 < 8 * slot + 8))
    tlb := s.tlb.filter (fun t => !mine t.asid)
    parked := s.parked.filter (fun q => !mine q.asid)
    migrations := s.migrations.filter (fun m => !mine m.asid)
    peerReqs := dropReqs (fun q => mine q.asid) s.peerReqs
    transls := s.transls.filter (fun t => t.slot != slot)
    serials := s.serials.set slot 0
    usersDue := s.usersDue.filter (fun e => e.1 != slot)
    scanDue := s.scanDue.filter (fun c => c != slot)
    ringWait := s.ringWait.filter (fun w => w.ring != lo + 0x58)
    chunkedSlots := s.chunkedSlots.filter (fun c => c != slot) }

/-- CONTEXT_SLOT_REMOVE. -/
def execContextSlotRemove (fn slot : Nat) (s : State) : Host.Outcome State Fault Refusal :=
  event (owns s fn && slot < 64) (fun s => removeSlot s slot) s

/-! ### Resets and start-up (R526, R527) -/

/-- Everything of the package but its memory at its reset value; host memory is not the package's. -/
def packageReset (s : State) : State :=
  { State.reset with schedule := s.schedule, free := s.free, hostMem := s.hostMem, out := s.out }

/-- WARM_RESET: RESETCTL = 1 by the owner, or PERST#. What device memory then holds is not stated: it keeps its
contents. -/
def execWarmReset (fn : Option Nat) (s : State) : Host.Outcome State Fault Refusal :=
  event (s.powered && (match fn with | some f => owns s f | none => true)) (fun s => { packageReset s with mem := s.mem }) s

/-- COLD_RESET: power applied. -/
def execColdReset (s : State) : Host.Outcome State Fault Refusal := event true packageReset s

/-- STARTUP_READY. -/
def execStartupReady (s : State) : Host.Outcome State Fault Refusal :=
  event (s.powered && !bitAt (s.bar 0) 0) (fun s => s.setBar 0 (s.bar 0 + 1)) s

/-- A function's completion ring is cleared; an owner loses control (R527). -/
def flr (s : State) (fn : Nat) : State :=
  let r := 0x100 + 32 * fn
  let s := { s with bar0 := s.bar0.filter (fun e => !(r ≤ e.1 && e.1 < r + 32)) }
  if fn == s.host then setOwner s 0xF else s

/-- FUNCTION_LEVEL_RESET. -/
def execFunctionLevelReset (fn : Nat) (s : State) : Host.Outcome State Fault Refusal :=
  event (s.powered && fn < 8) (fun s => flr s fn) s

/-! ### Errors, power and temperature (R524, R525, R528, R529) -/

/-- The slots of a mask. -/
def slotsIn (m : Word) : List Nat := (List.range 64).filter (fun c => m.getLsbD c)

/-- R525: the entry, whose ADDR is 0 for SRAM and registers (R511), then the end of each affected context. The line of device
memory that has failed is delivered to no one from now on. -/
def machineError (s : State) (store unit : Nat) (addr ctxs : Word) : State :=
  let s := s.errLog 5 unit store (if 2 ≤ store then 0 else addr.toNat) ctxs.toNat
  (slotsIn ctxs).foldl endContext
    (if store < 2 then { s with failed := addKeys s.failed [phys unit addr.toNat / 64] } else s)

/-- MACHINE_ERROR. -/
def execMachineError (store unit : Nat) (addr ctxs : Word) (s : State) : Host.Outcome State Fault Refusal :=
  event (s.powered && store < 4 && unit < 5) (fun s => machineError s store unit addr ctxs) s

/-- CORRECTED_SOFT_ERROR. -/
def execCorrectedSoftError (die : Nat) (s : State) : Host.Outcome State Fault Refusal :=
  event (s.powered && die < 5) (fun s => s.countDie die 0x13 1) s

/-- The hottest junction (R503). -/
def junction (s : State) : Nat := s.bar 0x40 % 256

/-- The throttle level may change by 1: up at any time, since the package's power is no part of State, and down once power and
temperature have been below their limits for 1 ms (R529); CLOCK counts 3,000,000 cycles in one. -/
def throttleOk (s : State) (level : Nat) : Bool :=
  s.powered && level < 8 && (level == s.throttle + 1
    || (level + 1 == s.throttle && junction s ≤ 100 && s.hotAt + 3000000 ≤ s.clock))

/-- THROTTLE_LEVEL_CHANGE: THERMAL shows the level; only timing changes. -/
def execThrottleLevelChange (level : Nat) (s : State) : Host.Outcome State Fault Refusal :=
  event (throttleOk s level) (fun s =>
    { s.setBar 0x40 (s.bar 0x40 % 256 + 256 * level) with
      throttle := level, hotAt := if s.throttle < level then s.clock else s.hotAt }) s

/-- THERMAL shows the hottest junction in bits 7:0 (R503); above 100 degrees it is beyond its limit (R529). -/
def setJunction (s : State) (celsius : Nat) : State :=
  { s.setBar 0x40 (s.bar 0x40 / 256 * 256 + celsius % 256) with
    hotAt := if 100 < junction s || 100 < celsius % 256 then s.clock else s.hotAt }

/-- The hottest junction has reached 110 degrees (R529). -/
def tooHot (s : State) : Bool := s.powered && 110 ≤ junction s

/-- R529: every context is ended as by a machine error, and the package powers down. -/
def shutDown (s : State) : State :=
  let live := (List.range 64).filter s.ctxValid
  let s := s.errLog 6 0xFF 0 0 (sumOf (live.map (fun c => 2 ^ c)))
  { live.foldl endContext s with powered := false }

/-- THERMAL_SHUTDOWN. -/
def execThermalShutdown (s : State) : Host.Outcome State Fault Refusal := event (tooHot s) shutDown s

end Sys2Proof.Machine
end

