-- ==== Sys2Proof/Machine/LinkEvents.lean ====
section
/-! DEFINITION. The Dalcor Link as it is received (R519 to R521): flits, replays, ports that go down and come up; the batches
applied (R317, R318); and the peer reads and atomics served and delivered (R269, R319, R320). -/

namespace Sys2Proof.Machine

open Sys2Proof

/-! ### Clocks (R318) -/

/-- Entry a is at least b. -/
def clockGe (a b : BitVec 32) : Bool := (a - b).toNat < 2 ^ 31

/-- Every entry of a clock is at least that of another; entries 32 to 63 are ignored. -/
def clockCovers (a b : List (BitVec 32)) : Bool := (List.range 32).all (fun k => clockGe (a.getD k 0) (b.getD k 0))

/-! ### Port status (R509) -/

/-- PORTSTAT of a port as it stands. -/
def syncPort (s : State) (j : Nat) : State :=
  let p := s.ports.getD j {}
  s.setBar (0x30100 + 8 * j)
    ((if p.up then 1 else 0) + (if p.down then 2 else 0) + p.far * 2 ^ 8 + p.replays % 2 ^ 32 * 2 ^ 32)

def modPort (s : State) (j : Nat) (f : Port → Port) : State := { s with ports := s.ports.set j (f (s.ports.getD j {})) }

/-! ### Messages -/

/-- A reply kept in a port's replay cache of 64 (R520). -/
def keepReply (src tag : Nat) (m : Msg) (p : Port) : Port :=
  let c := p.cache.filter (fun e => !(e.1 == src && e.2.1 == tag))
  { p with cache := (c ++ [(src, tag, m)]).drop (c.length + 1 - 64) }

/-- The cached reply to a request; one that carries FAILOVER is looked for in every port's cache (R521). -/
def cachedReply (s : State) (port src tag : Nat) (failover : Bool) : Option Msg :=
  let look (p : Port) : Option Msg := (p.cache.find? (fun e => e.1 == src && e.2.1 == tag)).map (fun e => e.2.2)
  if failover then s.ports.findSome? look else look (s.ports.getD port {})

/-- A request: answered from the cache, or queued once. -/
def takeRequest (s : State) (q : PeerServe) (failover : Bool) : State :=
  match cachedReply s q.port q.src q.tag failover with
  | some m => sendTo s q.src 2 m
  | none =>
    if s.peerServes.any (fun x => x.src == q.src && x.tag == q.tag) then s else { s with peerServes := s.peerServes ++ [q] }

/-- A package reports a batch as applied (R318). -/
def reportApplied (s : State) (src : Nat) (count : BitVec 32) : State := sendTo s src 2 (.applied s.pkg count.toNat)

/-- One message of an accepted flit. The reply to an atomic that nothing waits for is of no use. -/
def takeMsg (port : Nat) (s : State) (m : Msg) : State :=
  match m with
  | .readReq src tag addr len asid clock need failover =>
    takeRequest s { src := src, tag := tag, port := port, addr := addr, len := len, asid := asid, clock := clock, need := need }
      failover
  | .atomReq src tag addr op size asid operand cmp failover =>
    takeRequest s { src := src, tag := tag, port := port, addr := addr, len := size, asid := asid, clock := []
                    op := some (op, operand, cmp) } failover
  | .readReply src tag data clock =>
    { s with peerReqs := s.peerReqs.map (fun q =>
        if q.pkg == src && q.tag == tag && q.op.isNone && q.reply.isNone then { q with reply := some (data, clock) } else q) }
  | .atomReply src tag old =>
    let hit (q : PeerReq) : Bool := q.pkg == src && q.tag == tag && q.op.isSome && q.reply.isNone
    { s with peerReqs := (s.peerReqs.filter (fun q => !(hit q && q.stale))).map (fun q =>
        if hit q then { q with reply := some (old, []) } else q) }
  | .batch src asid stamp writes keys incr =>
    let b : Batch := { src := src, asid := asid, stamp := stamp, writes := writes, keys := keys, incr := incr }
    if clockGe (s.vc.getD src 0) (stamp.getD src 0) then reportApplied s src (stamp.getD src 0)
    else if s.inbox.any (fun x => x.src == src && x.stamp.getD src 0 == stamp.getD src 0) then s
    else { s with inbox := s.inbox ++ [b] }
  | .applied src count =>
    let mark (b : Batch) : Batch :=
      if (b.stamp.getD s.pkg 0).toNat == count then { b with owed := b.owed.filter (fun k => k != src) } else b
    { s with sent := (s.sent.map mark).filter (fun b => !b.owed.isEmpty) }
  | .management _ => s

/-! ### Requests that go out again (R520, R521) -/

/-- The port number of a request that waits to be sent again. -/
def noPort : Nat := 12

/-- A request is sent again on another port, with its tag and a FAILOVER mark; it waits while 64 are outstanding there. -/
def resend (s : State) (q : PeerReq) : State :=
  match s.portTo q.pkg with
  | none => s
  | some port =>
    let full := 64 ≤ (s.peerReqs.filter (fun x => x.port == port && x.reply.isNone)).length
    let s := { s with peerReqs := s.peerReqs.map (fun x => if x == q then { q with port := if full then noPort else port } else x) }
    if full then s
    else match q.op with
      | none => sendFlit s port 1 [.readReq s.pkg q.tag q.addr q.len q.asid q.clock q.need true]
      | some (op, x, c) => sendFlit s port 1 [.atomReq s.pkg q.tag q.addr op q.len q.asid x c true]

/-- The requests that wait to be sent again. -/
def resendWaiting (s : State) : State := (s.peerReqs.filter (fun q => q.port == noPort && q.reply.isNone)).foldl resend s

/-- The package sends an idle flit, which carries an ACK alone, or a management flit (R518). -/
def ownFlit (s : State) (port kind : Nat) (data : List Byte) : State :=
  if s.powered && port < 12 && (s.ports.getD port {}).up && (kind == 0 || kind == 4) then
    sendFlit s port kind (if kind == 4 then [.management data] else [])
  else s

/-! ### Flits (R519) -/

/-- A flit is accepted in sequence with a good CRC; it acknowledges every held flit up to its ACK, and what waited for room goes
out. -/
def takeFlit (s : State) (port : Nat) (f : Flit) : State :=
  let p := s.ports.getD port {}
  if !p.up || !f.crcOk || f.seq != p.rxSeq then s
  else
    let keep := (p.heldFlits.zip p.heldAt).filter (fun e => !((f.ack - e.1.seq).toNat < 2 ^ 15))
    let s := modPort s port (fun p =>
      { p with rxSeq := p.rxSeq + 1, heldFlits := keep.map (fun e => e.1), heldAt := keep.map (fun e => e.2) })
    resendWaiting (f.msgs.foldl (takeMsg port) (drainOut s port))

/-- FLIT_RECEIVE. -/
def execFlitReceive (port : Nat) (flit : Flit) (s : State) : Host.Outcome State Fault Refusal :=
  event (s.powered && port < 12) (fun s => takeFlit s port flit) s

/-- The oldest held flit has gone unacknowledged for 2 µs, 6,000 cycles. -/
def replayOk (s : State) (port : Nat) : Bool :=
  let p := s.ports.getD port {}
  port < 12 && p.up && (match p.heldAt.head? with | some t => t + 6000 ≤ s.clock | none => false)

/-- Every held flit is sent again and counted. -/
def replay (s : State) (port : Nat) : State :=
  let p := s.ports.getD port {}
  let s := { s with out := s.out ++ p.heldFlits.map (fun f => .flit port f) }
  let s := modPort s port (fun p => { p with heldAt := p.heldAt.map (fun _ => s.clock), replays := p.replays + p.heldFlits.length })
  (syncPort s port).countDie 4 0x14 p.heldFlits.length

/-- FLIT_REPLAY. -/
def execFlitReplay (port : Nat) (s : State) : Host.Outcome State Fault Refusal :=
  event (replayOk s port) (fun s => replay s port) s

/-! ### Batches (R317, R318) -/

/-- The clock conditions of a received batch. -/
def batchDue (s : State) (b : Batch) : Bool :=
  s.vc.getD b.src 0 + 1 == b.stamp.getD b.src 0
    && (List.range 32).all (fun k => k == b.src || clockGe (s.vc.getD k 0) (b.stamp.getD k 0))

/-- The answer of this home to a peer's access; its leaf must grant PEER (R264). None where the context is not here. -/
def peerAccess (s : State) (asid : Nat) (need : Need) (a : Nat) : Option Xl :=
  (s.slotOf asid).map (fun c => match access s c need a with
    | .hit h o inPage l => if l.peer then .hit h o inPage l else .viol
    | x => x)

/-- The leaf that a peer's access finds is installed (R259). -/
def touchPeer (s : State) (asid : Nat) (need : Need) (a : Nat) : State :=
  match s.slotOf asid with
  | some c => touch s c need a
  | none => s

/-- Where a batch writes here: its writes and its counter word. -/
def batchPlaces (b : Batch) : List Nat := b.writes.map (fun w => w.addr) ++ b.incr.toList

/-- The pages that a batch misses. -/
def batchMisses (s : State) (b : Batch) : List (Nat × MissAt) :=
  (batchPlaces b).filterMap (fun a => match peerAccess s b.asid .write a, s.slotOf b.asid with
    | some (.miss h o p k), some c => some (c, ⟨h, o, p, k⟩)
    | _, _ => none)

/-- The lines that a batch writes here. -/
def batchLines (s : State) (b : Batch) : List Nat :=
  b.writes.flatMap (fun w => linesOf (normal s w.addr) w.data.length) ++ b.incr.toList.flatMap (fun a => linesOf (normal s a) 8)

/-- Who waits for a page on behalf of a peer. -/
def peerWho (src n : Nat) : Nat × Nat := (0, 2 ^ 64 + src * 2 ^ 32 + n)

/-- The canonical sums of a batch find places (R285). -/
def batchSums (s : State) (b : Batch) : Bool :=
  match s.slotOf b.asid with
  | some c => opsRoom s c (b.writes.filterMap (fun w => w.red.map (fun r => .red (normal s w.addr) r.1 w.data.length 0 r.2)))
  | none => true

/-- A batch may be looked at: its conditions hold, it is not parked, its engine chunk may be granted (R304, R306), and no storage
that it writes has failed (R525). -/
def batchOk (s : State) (idx : Nat) : Bool :=
  match s.inbox[idx]? with
  | some b => batchDue s b && !s.parked.any (fun q => q.who == peerWho b.src (b.stamp.getD b.src 0).toNat)
      && engineMay s 4 191 (batchLines s b) && batchSums s b && (batchMisses s b).all (fun m => m.2.kind != failedKind)
  | none => false

/-- One write of a batch; one that this home's leaf does not permit is discarded. The requester id of a canonical `red` says
its package too. -/
def batchWrite (src asid : Nat) (s : State) (w : PeerOp) : State :=
  let s := touchPeer s asid .write w.addr
  match peerAccess s asid .write w.addr, w.red with
  | some (.hit h o inPage l), none => pageWrite s h o l inPage w.data
  | some (.hit h o inPage l), some (op, canon) =>
    applyRed s h o inPage l op w.data.length (ofBytes w.data) (canon.map (fun r => 256 * (src + 1) + r))
  | _, _ => s

/-- The counter word of an `xpeer` is incremented modulo 2^64 (R400). -/
def batchIncr (asid : Nat) (s : State) (a : Nat) : State :=
  let s := touchPeer s asid .atomic a
  match peerAccess s asid .atomic a with
  | some (.hit h o inPage l) =>
    pageWrite s h o l inPage (leBytes 8 (ofBytes ((pageRead s h o l inPage 8).getD []) + 1))
  | _ => s

/-- The batch takes effect as one engine chunk; a page that it misses parks, with a free value for SOURCE. -/
def applyBatch (s : State) (idx : Nat) : State :=
  match s.inbox[idx]? with
  | none => s
  | some b =>
    let ms := batchMisses s b
    if !ms.isEmpty then
      ms.foldl (fun s m =>
        let d := s.draw
        park d.2 (peerWho b.src (b.stamp.getD b.src 0).toNat) m.1 (freeSource d.1) none .write m.2.host m.2.owner m.2.block m.2.kind) s
    else
      let keys := batchLines s b
      let s := { s with inbox := s.inbox.eraseIdx idx }
      let s := b.incr.toList.foldl (batchIncr b.asid) (b.writes.foldl (batchWrite b.src b.asid) s)
      let s := conflict (engineKey s 4 keys) keys 0 0 (0, 0) none
      let s := { dropLines s b.keys with vc := s.vc.set b.src (b.stamp.getD b.src 0) }
      reportApplied s b.src (b.stamp.getD b.src 0)

/-- BATCH_APPLY. -/
def execBatchApply (idx : Nat) (s : State) : Host.Outcome State Fault Refusal :=
  event (batchOk s idx) (fun s => applyBatch s idx) s

/-! ### Serving peers (R269, R319) -/

/-- What a peer's request needs of its leaf (R264). -/
def PeerServe.asks (q : PeerServe) : Need :=
  if q.op.any (fun o => o.1 == kitCode) then .own
  else if q.op.isSome || q.need == 2 then .atomic else if q.need == 3 then .write else if q.need == 1 then .fetch else .read

/-- A request may be served: this package's clock covers the carried one, it is not parked, and its storage has not failed (R525). -/
def serveOk (s : State) (idx : Nat) : Bool :=
  match s.peerServes[idx]? with
  | some q => (match peerAccess s q.asid q.asks q.addr with | some (.miss _ _ _ k) => k != failedKind | _ => true) && (q.op.isSome || clockCovers s.vc q.clock) && !s.parked.any (fun p => p.who == peerWho q.src (2 ^ 16 + q.tag))
      && (q.op.isNone || !reservedBlocks s (linesOf (normal s q.addr) q.len) 191 (0, 0) none)
  | none => false

/-- Answer a request, and keep the reply. -/
def answer (s : State) (idx : Nat) (q : PeerServe) (m : Msg) : State :=
  sendTo (modPort { s with peerServes := s.peerServes.eraseIdx idx } q.port (keepReply q.src q.tag m)) q.src 2 m

/-- The reply to a request: bytes, or none for a refused access. -/
def replyMsg (s : State) (q : PeerServe) (d : List Byte) : Msg :=
  if q.op.isSome then .atomReply s.pkg q.tag d else .readReply s.pkg q.tag d s.vc

/-- A peer's atomic takes effect here, with the old value; a swap of a kernel table entry installs it. -/
def peerAtom (s : State) (q : PeerServe) (h : Bool) (o inPage : Nat) (l : Leaf) (op : Nat × List Byte × List Byte) :
    State × List Byte :=
  let old := (pageRead s h o l inPage q.len).getD []
  match (homeOp op.1 (8 * q.len) (ofBytes old) (ofBytes op.2.1) (ofBytes op.2.2)).1 with
  | some v =>
    let t := conflict (pageWrite s h o l inPage (leBytes q.len v)) (linesOf (normal s q.addr) q.len) 0 0 (0, 0) none
    (if op.1 == kitCode && !h then kitWritten t (phys o (l.frame + inPage)) q.len else t, old)
  | none => (s, old)

/-- A home serves a peer's request. -/
def servePeer (s : State) (idx : Nat) : State :=
  match s.peerServes[idx]? with
  | none => s
  | some q =>
    let need := q.asks
    match peerAccess s q.asid need q.addr, s.slotOf q.asid with
    | some (.miss h o p k), some c =>
      let d := s.draw
      park d.2 (peerWho q.src (2 ^ 16 + q.tag)) c (freeSource d.1) none need h o p k
    | some (.hit h o inPage l), _ =>
      let s := touchPeer s q.asid need q.addr
      (match q.op with
        | some op => let r := peerAtom s q h o inPage l op; answer r.1 idx q (replyMsg r.1 q r.2)
        | none => answer s idx q (replyMsg s q ((pageRead s h o l inPage q.len).getD [])))
    | _, _ => answer s idx q (replyMsg s q [])

/-- PEER_READ_SERVE. -/
def execPeerReadServe (idx : Nat) (s : State) : Host.Outcome State Fault Refusal :=
  event (serveOk s idx) (fun s => servePeer s idx) s

/-- A reply may be delivered: this package's clock has reached its clock. -/
def deliverOk (s : State) (idx : Nat) : Bool :=
  match s.peerReqs[idx]? with
  | some q => q.op.isNone && (match q.reply with | some r => clockCovers s.vc r.2 | none => false)
  | none => false

/-- A command that asked for a line (R371): it has it, or an error code in its place. -/
def cmdLine (s : State) (q : PeerReq) (f : SentCmd → SentCmd) : State :=
  if q.gid == 0 then { s with cmds := s.cmds.map (fun c => if c.cmd.kid == q.sp then f c else c) } else s

/-- The mark under which a split or the cache holds what came of a request. -/
def PeerReq.mark (q : PeerReq) : Nat := q.addr + q.need * 2 ^ 64

/-- The line goes to its split, command or copier and to the peer line cache of 16 MiB; a refused one is marked, for its context
too, and one that has been written since is not kept. -/
def deliverLine (s : State) (idx : Nat) : State :=
  match s.peerReqs[idx]? with
  | none => s
  | some q =>
    let d := match q.reply with | some r => r.1 | none => []
    let s := { s with peerReqs := s.peerReqs.eraseIdx idx }
    if q.stale then s
    else if d.isEmpty then
      let s := { s with badLines := s.badLines ++ [badMark q.asid q.mark] }
      cmdLine (s.modSplitOf q.gid q.sp (fun p => { p with bad := p.bad ++ [q.mark] })) q
        (fun c => { c with bad := c.bad ++ [(q.mark, 0x24)] })
    else
      let c := s.peerLines.filter (fun l => l.1 != q.mark)
      let s := if 2 ≤ q.need then s else { s with peerLines := (c ++ [(q.mark, d)]).drop (c.length + 1 - 262144) }
      let s := if (q.gid, q.sp) == migrWho q.asid then { s with migrations := s.migrations.map (takeLine q.asid q.addr d) } else s
      cmdLine (s.modSplitOf q.gid q.sp (fun p => { p with peerData := p.peerData ++ [(q.mark, d)] })) q
        (fun c => { c with peerData := c.peerData ++ [(q.mark, d)] })

/-- PEER_READ_DELIVERY. -/
def execPeerReadDelivery (idx : Nat) (s : State) : Host.Outcome State Fault Refusal :=
  event (deliverOk s idx) (fun s => deliverLine s idx) s

/-! ### Ports down and up (R521) -/

/-- A batch sent again to a package that has not reported it. -/
def resendBatch (k : Nat) (s : State) (b : Batch) : State :=
  if !b.owed.contains k then s
  else
    let inc := b.incr.bind (fun a => if vaPkg a == k then some a else none)
    sendTo s k 3 (.batch s.pkg b.asid b.stamp (b.writes.filter (fun w => vaPkg w.addr == k)) b.keys inc)

/-- No port leads to a package any longer: REACH becomes 0, outstanding loads and atomics trap ACCESS, and undelivered
writes and batches are discarded and logged. -/
def unreach (port : Nat) (s : State) (k : Nat) : State :=
  let r := 0x30000 + 8 * k
  let s := { s.setBar r (s.bar r % 2 ^ 12) with lost := if s.lost.contains k then s.lost else s.lost ++ [k] }
  let mine := s.peerReqs.filter (fun q => q.pkg == k && q.reply.isNone)
  let s := mine.foldl (fun s q =>
    match q.op with
      | some _ => { s with peerReqs := s.peerReqs.map (fun x => if x == q then { q with reply := some ([], []) } else x) }
      | none => cmdLine ({ s with peerReqs := s.peerReqs.erase q }.modSplitOf q.gid q.sp
          (fun p => { p with bad := p.bad ++ [q.mark] })) q (fun c => { c with bad := c.bad ++ [(q.mark, 0x2C)] })) s
  let s := (s.sent.filter (fun b => b.owed.contains k)).foldl (fun s b =>
    let ws := b.writes.filter (fun w => vaPkg w.addr == k)
    let n := (b.stamp.getD s.pkg 0).toNat
    let lost (c : SentCmd) : SentCmd :=
      if c.batches.contains n && !ws.isEmpty then { c with err := if c.err == 0 then 0x2C else c.err } else c
    let s := { s with cmds := s.cmds.map lost }
    if ws.isEmpty then s.errLog 4 port 0 0 0 else ws.foldl (fun s w => s.errLog 4 port 0 w.addr 0) s) s
  { s with sent := (s.sent.map (fun b => { b with owed := b.owed.filter (fun x => x != k) })).filter (fun b => !b.owed.isEmpty) }

/-- A batch of this package stands in flits that a port has not had acknowledged or not sent. -/
def batchOn (s : State) (port : Nat) (b : Batch) : Bool :=
  ((s.ports.getD port {}).heldFlits.flatMap (fun f => f.msgs) ++ (s.outbox.filter (fun e => e.1 == port)).flatMap (fun e => e.2.2)).any
    (fun m => match m with | .batch src _ stamp _ _ _ => src == s.pkg && stamp == b.stamp | _ => false)

/-- A port is marked down: its traffic goes by another port, or its packages become unreachable. A batch that was on its way by
the port goes again to every package that has not reported it, whatever its route has been since. -/
def portDown (s : State) (port : Nat) : State :=
  let lost := s.sent.filter (batchOn s port)
  let via := (List.range 32).filter (fun k => k != s.pkg && s.reach k && s.portTo k == some port)
  let s := syncPort (modPort { s with outbox := s.outbox.filter (fun e => e.1 != port) } port
    (fun p => { p with up := false, down := true, heldFlits := [], heldAt := [] })) port
  let s := s.errLog 3 port 0 0 0
  let s := (s.peerReqs.filter (fun q => q.port == port && q.reply.isNone && (s.portTo q.pkg).isSome)).foldl resend s
  let s := via.foldl (fun s k => if (s.portTo k).isSome then s.sent.foldl (resendBatch k) s else unreach port s k) s
  lost.foldl (fun s b => (b.owed.filter (fun k => !via.contains k && (s.portTo k).isSome)).foldl (fun s k => resendBatch k s b) s) s

/-- LINK_PORT_DOWN. -/
def execLinkPortDown (port : Nat) (s : State) : Host.Outcome State Fault Refusal :=
  event (s.powered && port < 12 && (s.ports.getD port {}).up) (fun s => portDown s port) s

/-- A port completes training: both directions start anew; the clock entry of a reset peer returns to 0, and what it sent
before is forgotten. -/
def portUp (s : State) (port pkg : Nat) (peerReset : Bool) : State :=
  let s := syncPort (modPort s port (fun p => { up := true, far := pkg, replays := p.replays })) port
  if peerReset then
    { s with vc := s.vc.set pkg 0, inbox := s.inbox.filter (fun b => b.src != pkg), lost := s.lost.filter (fun k => k != pkg) }
  else s

/-- LINK_PORT_UP. A port marked down is retrained only by a warm reset at either end (R509); one of this package's own leaves none
marked. -/
def execLinkPortUp (port pkg : Nat) (peerReset : Bool) (s : State) : Host.Outcome State Fault Refusal :=
  event (s.powered && port < 12 && pkg < 32 && !(s.ports.getD port {}).up && (!(s.ports.getD port {}).down || peerReset))
    (fun s => portUp s port pkg peerReset) s

end Sys2Proof.Machine
end

