-- ==== Sys2Proof/Machine/EngineMem.lean ====
section
/-! DEFINITION. How a command reads and writes (R265, R306, R370, R371, R376): what stops it, its sides with their
swizzle, its reads of buffers, device memory and peers, and the engine chunk in which its writes take effect. -/

namespace Sys2Proof.Machine

open Sys2Proof

/-- Why a command cannot go on: a page that it waits for (`row`: for a row that a Dredge unit serves), a peer's line, or a
peer's leave to write it, that it waits for (`need`, as a request names it), an access whose leaf the home has still to install
(R259), or an error code (R380). -/
inductive EStop where
  | miss (row : Bool) (need : Need) (m : MissAt)
  | walk (need : Need) (a : Nat)
  | line (a need : Nat)
  | err (code : Nat)
  deriving DecidableEq, Repr

/-- What a step of a command answers. -/
abbrev EM (α : Type) := Except EStop α

/-- A condition whose failure ends the command. -/
def require (code : Nat) (b : Bool) : EM Unit := if b then .ok () else .error (.err code)

/-- An access to a table row (R382). -/
def asRow {α : Type} : EM α → EM α
  | .error (.miss _ need m) => .error (.miss true need m)
  | x => x

/-! ### Sides (R370, R376) -/

/-- A base with the swizzle code that applies to it. -/
structure Side where
  base : Nat
  swz : Nat := 0
  deriving DecidableEq, Repr

/-- The byte offset that swizzle code k gives (R376). -/
def swizzle (k o : Nat) : Nat := o ^^^ (o / 128 % 2 ^ k * 16)

/-- The address of the byte at an offset from a base. -/
def Side.at (d : Side) (o : Int) : Nat :=
  match localBase d.base with
  | some (b, off) => localLoc b (if b < 4 then swizzle d.swz ((off : Int) + o).toNat else ((off : Int) + o).toNat)
  | none => wrap 64 ((d.base : Int) + o)

/-- The error code of an address that R253 bars: one of a well-formed address whose package is unreachable, for `xpeer` (R400)
or where its last port has gone (R521), and else the address error. -/
def addrErr (peerCmd lost : Bool) (a : Nat) : Nat := if vaSpace a == 1 && vaOwner a < 5 && (peerCmd || lost) then 0x2C else 0x23

/-- The error code of an address that a command generates. -/
def SentCmd.addrErr (c : SentCmd) (s : State) (a : Nat) : Nat := Machine.addrErr (c.cmd.opc == 0xA8) (s.lost.contains (vaPkg a)) a

/-- A base at acceptance: a local base, or an address that R253 allows. That the package of an `xpeer` is unreachable shows during
the transfer (R380, 0x2C). -/
def baseOk (s : State) (peerCmd : Bool) (a : Nat) : EM Unit :=
  require 0x23 ((localBase a).isSome || (place s a).isSome || addrErr peerCmd false a == 0x2C)

/-- A leaf that a walk has found is in the TLB of its home (R259). -/
def walked (s : State) (slot : Nat) (need : Need) (a : Nat) (h : Bool) (o inPage : Nat) (l : Leaf) : EM Unit :=
  if inTlb s slot h o (l.base + inPage) then .ok () else .error (.walk need a)

/-- A span of bytes from a base lies in its allotment, if the base is local (R380, 0x25). -/
def spanOk (s : State) (tid base : Nat) (span : Int × Int) : EM Unit :=
  match localBase base with
  | some (b, off) => require 0x25 (0 ≤ (off : Int) + span.1 && (off : Int) + span.2 ≤ (allotSize s tid b : Int))
  | none => .ok ()

/-! ### Reads -/

/-- The pieces of n bytes at an address that lie in one line each. -/
def linePieces (a n : Nat) : List (Nat × Nat) :=
  (List.range ((a % 64 + n + 63) / 64)).map (fun i =>
    let lo := max a (a / 64 * 64 + 64 * i)
    (lo, min (a + n) (a / 64 * 64 + 64 * i + 64) - lo))

/-- A read of bytes of one line at a global address. -/
def readLine (s : State) (c : SentCmd) (a n : Nat) : EM (List Byte) :=
  match place s a with
  | none => .error (.err (c.addrErr s a))
  | some (.peer _ _ _) =>
    let ln := lineAddr a
    (match c.bad.find? (fun e => e.1 == ln), (c.peerData ++ s.peerLines).find? (fun e => e.1 == ln) with
      | some e, _ => .error (.err e.2)
      | none, some l => .ok ((l.2.drop (a % 64)).take n)
      | none, none => .error (.line ln 0))
  | some _ =>
    match access s c.cmd.slot .read a with
    | .hit h o inPage l => do
      walked s c.cmd.slot .read a h o inPage l
      match pageRead s h o l inPage n with | some b => .ok b | none => .error (.err 0x2B)
    | .miss h o p k => .error (.miss false .read ⟨h, o, p, k⟩)
    | .viol => .error (.err 0x24)
    | _ => .error (.err 0x23)

/-- A read of n bytes at a global address. -/
def readGlob (s : State) (c : SentCmd) (a n : Nat) : EM (List Byte) :=
  ((linePieces a n).mapM (fun p => readLine s c (p.1 % 2 ^ 64) p.2)).map List.flatten

/-- A byte of an allotment; C words that an unfinished matrix command writes give free values (R224, R409). -/
def readLocal (s : State) (tid b o n : Nat) : List Byte :=
  spoilBytes s tid b o (s.free + 2 ^ 14 + b * 2 ^ 21 + o) (allotRead s tid b o n)

/-- A read of n bytes at a global address or a local base. -/
def readAt (s : State) (c : SentCmd) (a n : Nat) : EM (List Byte) :=
  match localBase a with
  | some (b, o) => if o + n ≤ allotSize s c.cmd.tid b then .ok (readLocal s c.cmd.tid b o n) else .error (.err 0x25)
  | none => readGlob s c a n

/-- A little-endian number read at an address. -/
def readNum (s : State) (c : SentCmd) (a n : Nat) : EM Nat := (readAt s c a n).map ofBytes

/-! ### Writes -/

/-- A peer's leave to write a line (R264), `need` 3, or to change it, `need` 2. -/
def leaveOk (c : SentCmd) (a need : Nat) : EM Unit :=
  let k := leaveKey need (lineAddr a)
  match c.bad.find? (fun e => e.1 == k) with
  | some e => .error (.err e.2)
  | none => if c.peerData.any (fun e => e.1 == k) then .ok () else .error (.line (lineAddr a) need)

/-- The check of a write of bytes of one line. -/
def writeOk (s : State) (c : SentCmd) (a n : Nat) : EM Unit :=
  match localBase a with
  | some (b, o) => require 0x25 (o + n ≤ allotSize s c.cmd.tid b)
  | none =>
    match access s c.cmd.slot .write a with
    | .hit h o inPage l => walked s c.cmd.slot .write a h o inPage l
    | .peer _ => leaveOk c a 3
    | .miss h o p k => .error (.miss false .write ⟨h, o, p, k⟩)
    | .viol => .error (.err 0x24)
    | .bad => .error (.err (c.addrErr s a))
    | .noStore => .error (.err 0x23)

/-- The lines of n bytes at a global address or a local base. -/
def engineLines (s : State) (a n : Nat) : List Nat := linesOf (if (localBase a).isSome then a else normal s a) n

/-- Bytes in the order of writing, joined into runs that lie in one line each. -/
def joinRuns : List (Nat × Byte) → List (Nat × List Byte)
  | [] => []
  | (a, b) :: r =>
    match joinRuns r with
    | (a', d) :: t => if a' == a + 1 && a' % 64 != 0 then (a, b :: d) :: t else (a, [b]) :: (a', d) :: t
    | [] => [(a, [b])]

/-- Bytes written at an address, one by one. -/
def bytesAt (a : Nat) (d : List Byte) : List (Nat × Byte) := d.zipIdx.map (fun e => (a + e.2, e.1))

/-- Write bytes of an allotment, without waking what waits on them. -/
def putQuiet (s : State) (tid b o : Nat) (d : List Byte) : State :=
  if b < 4 then (raceMark s tid b o d.length).modTeam tid (fun t => t.setBuf b ((t.buf b).put o d))
  else match s.team? tid with
    | some t => s.modCluster t.cid (fun c => { c with sram := Cells.write c.sram o d })
    | none => s

/-- One run takes effect; a peer's goes with the batch. -/
def putRun (c : SentCmd) (s : State) (w : Nat × List Byte) : State :=
  match localBase w.1 with
  | some (b, o) => putQuiet s c.cmd.tid b o w.2
  | none =>
    match access s c.cmd.slot .write w.1 with
    | .hit h o inPage l => pageWrite s h o l inPage w.2
    | _ => s

/-- The runs that go to peers. -/
def peerRuns (s : State) (ws : List (Nat × List Byte)) : List (Nat × List Byte) :=
  ws.filter (fun w => match place s w.1 with | some (.peer _ _ _) => (localBase w.1).isNone | _ => false)

/-! ### Engine chunks (R306) -/

/-- The die of a command's unit. -/
def dieOfCmd (c : SentCmd) : Nat := State.dieOf c.cmd.core

/-- An engine chunk that writes these runs may be granted: no reserved chunk holds its lines (R304), it takes a key, and
its batch can be sent. -/
def chunkMay (s : State) (c : SentCmd) (ws : List (Nat × List Byte)) (keys : List Nat) : Bool :=
  engineMay s (dieOfCmd c) c.cmd.core keys && ((peerRuns s ws).isEmpty || batchRoom s)

/-- The engine chunk takes its key and commits: its writes take effect, and what conflicts with it is squashed. `incr`: the
counter word that goes in its batch (R400). -/
def chunkDone (s : State) (c : SentCmd) (ws : List (Nat × List Byte)) (keys : List Nat) (incr : Option Nat) : State :=
  let s := engineKey s (dieOfCmd c) keys
  let s := ws.foldl (putRun c) s
  let pw := peerRuns s ws
  let s := if pw.isEmpty && incr.isNone then s
    else sendBatch s (s.asid c.cmd.slot) (pw.map (fun w => { addr := w.1, data := w.2 })) (keys.filter (fun k => isGlobalKey k && vaSpace (64 * k) == 1)) incr
  conflict (feWake s c.cmd.tid) keys c.cmd.tid ((s.team? c.cmd.tid).getD noTeam).cid (0, 0) none

/-- Change a command. -/
def modCmd (s : State) (kid : Nat) (f : SentCmd → SentCmd) : State :=
  { s with cmds := s.cmds.map (fun c => if c.cmd.kid == kid then f c else c) }
def cmd? (s : State) (kid : Nat) : Option SentCmd := s.cmds.find? (fun c => c.cmd.kid == kid)

/-- Commit runs as an engine chunk of a command, if it may; the command is then changed by f. The counter word that goes in its
batch is a line that it writes (R400). -/
def engineChunk (s : State) (c : SentCmd) (ws : List (Nat × List Byte)) (incr : Option Nat) (f : SentCmd → SentCmd) :
    Option State :=
  let ends := match incr with | some a => engineLines s a 8 | none => []
  let keys := addKeys (ws.foldl (fun ks w => addKeys ks (engineLines s w.1 w.2.length)) []) ends
  if chunkMay s c ws keys then some (modCmd (chunkDone s c ws keys incr) c.cmd.kid f) else none

/-! ### Stalls (R262, R265) -/

/-- The engine number of a command's unit (R262). -/
def engineNo (c : SentCmd) : Nat :=
  let o := c.cmd.opc
  if o == 0x69 then 4 * c.cmd.core + 2 else if isMatrixCmd o then 4 * c.cmd.core + 3
  else if o == 0xAA then 780 + dieOfCmd c else if o == 0xA4 || o == 0xA5 || c.stage == .done then 776 + dieOfCmd c
  else 4 * c.cmd.core + c.unit

/-- A command stalls on a page. A row of HBM stalls in the Dredge unit of one of its die's two stacks; which one is not
visible, so a free value says it. -/
def stallOn (s : State) (c : SentCmd) (row : Bool) (need : Need) (m : MissAt) : State :=
  let d := s.draw
  let dredge := row && !m.host && m.owner < 4
  let n := if dredge then 768 + 2 * m.owner + (if d.1.getLsbD 0 then 1 else 0) else engineNo c
  park (if dredge then d.2 else s) (0, c.cmd.kid) c.cmd.slot c.cmd.core (some n) need m.host m.owner m.block m.kind

/-- Ask a peer for a line, or for leave to write it, on behalf of a command, unless it is asked for or no place is left
(R520). -/
def askFor (s : State) (c : SentCmd) (a need : Nat) : Option State :=
  if (s.portTo (vaPkg a)).isNone then
    some (modCmd s c.cmd.kid (fun c => { c with bad := c.bad ++ [(leaveKey need a, 0x2C)] }))
  else (askPort s (0, c.cmd.kid) a need).map (fun _ => askPeer s (0, c.cmd.kid) c.cmd.slot a need)

/-- What a command does with the answer of its step: go on, stall, ask, or meet an error. None where nothing can happen
yet. -/
def stepCmd {α : Type} (s : State) (c : SentCmd) (r : EM α) (go : α → Option State) (bad : Nat → Option State) : Option State :=
  match r with
  | .ok x => go x
  | .error (.miss row need m) => if m.kind == failedKind then none else some (stallOn s c row need m)
  | .error (.walk need a) => some (touch s c.cmd.slot need a)
  | .error (.line a need) => askFor s c a need
  | .error (.err e) => bad e

/-- A command that waits for a page. -/
def cmdParked (s : State) (kid : Nat) : Bool := s.parked.any (fun q => q.who == (0, kid))

end Sys2Proof.Machine
end

