-- ==== Sys2Proof/Machine/Shape.lean ====
section
/-! DEFINITION. The shape record (R374 to R377, R379) and the checks at acceptance of the commands that read one (R378,
R380, R390, R394, R399, R400). -/

namespace Sys2Proof.Machine

open Sys2Proof

/-! ### The record -/

/-- A shape record with its alphabet block (R374, R379). `rsv`: a byte that must be 0 is not. -/
structure Shape where
  src : Nat
  dst : Nat
  ty : Nat
  rank : Nat
  swz : Nat
  flags : Nat
  dims : List Nat
  strs : List Int
  rsv : Bool
  imgA : Nat := 0
  imgB : Nat := 0
  tabA : List Int := []
  tabB : List Int := []
  rsvA : Bool := false
  deriving DecidableEq, Repr

def shapeOf (b : List Byte) : Shape :=
  let tab (k : Nat) : List Int := (List.range 16).map (fun i => toSigned 16 (recField b (k + 2 * i) 2))
  { src := recField b 0 8, dst := recField b 8 8, ty := recField b 16 1, rank := recField b 17 1, swz := recField b 18 1
    flags := recField b 19 1
    dims := (List.range 5).map (fun k => recField b (20 + 4 * k) 4)
    strs := (List.range 5).map (fun k => toSigned 32 (recField b (40 + 4 * k) 4))
    rsv := recField b 60 4 != 0
    imgA := recField b 64 8, imgB := recField b 72 8, tabA := tab 80, tabB := tab 112, rsvA := recField b 144 16 != 0 }

namespace Shape

def dstr (r : Shape) : Bool := bitAt r.flags 0
def swzd (r : Shape) : Bool := bitAt r.flags 1
def d (r : Shape) (k : Nat) : Nat := r.dims.getD k 0
def str (r : Shape) (k : Nat) : Int := r.strs.getD k 0
/-- The dimensions in use. -/
def ds (r : Shape) : List Nat := r.dims.take r.rank
/-- E (R375). -/
def elems (r : Shape) : Nat := r.ds.foldl (fun a x => a * x) 1
/-- Rows: E / DIM0. -/
def rows (r : Shape) : Nat := (r.ds.drop 1).foldl (fun a x => a * x) 1
def type (r : Shape) : Ty := Ty.ofCode r.ty
/-- Bits of an element. -/
def bits (r : Shape) : Nat := r.type.width
def alA (r : Shape) : Alpha := alphaOf r.imgA r.tabA
def alB (r : Shape) : Alpha := alphaOf r.imgB r.tabB

/-- The malformations of R376 that hold for every command, but for the swizzle and the 4-bit types. -/
def bad (r : Shape) : Bool :=
  r.ty / 16 != 0 || r.rank == 0 || 5 < r.rank || r.ds.any (fun x => x == 0) || (r.dims.drop r.rank).any (fun x => x != 0)
    || (r.strs.drop r.rank).any (fun x => x != 0) || 2 ^ 40 < r.elems || r.rsv || r.flags / 4 != 0 || 3 < r.swz
/-- STR0 is 1 and every other stride even (R375). -/
def evenStrides (r : Shape) : Bool := r.str 0 == 1 && ((r.strs.take r.rank).drop 1).all (fun x => x % 2 == 0)

end Shape

/-- The digits of a linear index, the first dimension fastest (R375). -/
def digitsOf : List Nat → Nat → List Nat
  | [], _ => []
  | d :: r, l => (l % d) :: digitsOf r (l / d)

/-- Sum of index times stride. -/
def dotStr (is : List Nat) (strs : List Int) : Int := (is.zip strs).foldl (fun (a : Int) e => a + (e.1 : Int) * e.2) 0

/-- The lowest and highest offsets that dimensions with strides reach. -/
def strSpan (ds : List Nat) (strs : List Int) : Int × Int :=
  (ds.zip strs).foldl (fun (a : Int × Int) e =>
    let x : Int := ((e.1 : Int) - 1) * e.2
    (a.1 + min 0 x, a.2 + max 0 x)) (0, 0)

/-- The bytes from the first to the last of a span of elements. -/
def byteSpan (bits : Nat) (e : Int × Int) : Int × Int := (e.1 * bits / 8, ((e.2 + 1) * bits + 7) / 8)
/-- The bytes of n dense elements. -/
def denseSpan (bits n : Nat) : Int × Int := if n == 0 then (0, 0) else byteSpan bits (0, (n : Int) - 1)

/-! ### What a command moves -/

/-- The transform code; the other commands copy (R392 to R400). -/
def Cmd.form (c : Cmd) : Nat := if c.opc == 0xA1 then c.code else 0
/-- The destination type of a conversion or quantisation. -/
def Cmd.dty (c : Cmd) : Nat := c.arg 2 % 16
/-- The rounding code of arg2<6:4>. -/
def Cmd.rc (c : Cmd) : Nat := slice (c.arg 2) 6 4
/-- The permutation of code 0x02. -/
def Cmd.perm (c : Cmd) (rank : Nat) : List Nat := (List.range rank).map (fun k => slice (c.arg 2) (3 * k + 2) (3 * k))

/-- A command that moves elements with their bits unchanged. -/
def Cmd.moves (c : Cmd) : Bool := c.opc != 0xA7 && c.form ≤ 2
/-- DSTR is allowed (R378, R394). -/
def Cmd.dstrOk (c : Cmd) : Bool := c.opc != 0xA2 && c.opc != 0xA3 && (c.form == 0 || c.form == 3)

/-- The effective SRC and DST (R378, R394, R399). -/
def srcBase (c : Cmd) (r : Shape) : Nat :=
  if c.opc == 0xA2 then (if c.arg 2 == 0 then r.src else c.arg 2)
  else if c.opc == 0xA3 then (if c.arg 3 == 0 then r.dst else c.arg 3)
  else if c.arg 0 == 0 then r.src else c.arg 0
def dstBase (c : Cmd) (r : Shape) : Nat :=
  if c.opc == 0xA2 then (if c.arg 3 == 0 then r.dst else c.arg 3)
  else if c.opc == 0xA3 then (if c.arg 2 == 0 then r.src else c.arg 2)
  else if c.arg 1 == 0 then r.dst else c.arg 1
def srcSide (c : Cmd) (r : Shape) : Side := ⟨srcBase c r, if r.swzd then 0 else r.swz⟩
def dstSide (c : Cmd) (r : Shape) : Side := ⟨dstBase c r, if r.swzd then r.swz else 0⟩

/-- Words of a row of symbols (R379). -/
def rowWords (a : Alpha) (n : Nat) : Nat := (n + a.n - 1) / a.n

/-- Bits of an element on the source side and on the destination side. -/
def srcBits (c : Cmd) (r : Shape) : Nat :=
  match c.form with
  | 0x08 => (Ty.ofCode c.dty).width
  | 0x09 | 0x0A => r.alA.w
  | _ => r.bits
def dstBits (c : Cmd) (r : Shape) : Nat :=
  match c.form with
  | 0x03 | 0x04 | 0x09 => (Ty.ofCode c.dty).width
  | 0x05 => 32
  | 0x08 => r.alA.w
  | 0x0A => r.alB.w
  | _ => r.bits

/-- 256-byte blocks of a compressed transform. -/
def blocksOf (r : Shape) : Nat := r.elems * r.bits / 2048

/-- The rows of a scatter or gather's table. -/
def tableSpan (r : Shape) : Int × Int := byteSpan r.bits (strSpan r.ds r.strs)

/-- The bytes from SRC that a command reads, and from DST that it writes. -/
def srcSpan (c : Cmd) (r : Shape) : Int × Int :=
  if c.opc == 0xA3 then denseSpan r.bits (c.arg 1 * r.d 0)
  else match c.form with
    | 0x06 => (0, 320 * (blocksOf r : Int))
    | 0x09 => byteSpan r.alA.w (strSpan (rowWords r.alA (r.d 0) :: r.ds.drop 1) (1 :: r.strs.drop 1))
    | _ => byteSpan (srcBits c r) (strSpan r.ds r.strs)
def dstSpan (c : Cmd) (r : Shape) : Int × Int :=
  if c.opc == 0xA2 then denseSpan r.bits (c.arg 1 * r.d 0)
  else if c.opc == 0xA3 then tableSpan r
  else match c.form with
    | 0x07 => (0, 320 * (blocksOf r : Int))
    | 0x08 => denseSpan r.alA.w (r.rows * rowWords r.alA (r.d 0))
    | _ => if r.dstr then byteSpan (dstBits c r) (strSpan r.ds r.strs) else denseSpan (dstBits c r) r.elems

/-! ### Checks at acceptance (R376 to R380) -/

def isSym (t : Nat) : Bool := t ≤ 2

/-- The bits of arg2 that a transform leaves unassigned are 0 (R378). -/
def arg2Ok (c : Cmd) (r : Shape) : Bool :=
  match c.form with
  | 0x02 => c.arg 2 / 2 ^ (3 * r.rank) == 0
  | 0x03 => c.arg 2 / 2 ^ 7 == 0
  | 0x04 => c.arg 2 / 2 ^ 8 == 0
  | 0x05 => c.arg 2 / 2 ^ 7 == 0 && c.arg 2 % 16 == 0
  | 0x06 | 0x07 => c.arg 2 / 2 == 0
  | 0x08 | 0x09 => c.arg 2 / 16 == 0
  | _ => true

/-- The requirements of a transform's row (R378). -/
def formOk (c : Cmd) (r : Shape) : Bool :=
  arg2Ok c r && (match c.form with
    | 0x01 => r.rank == 2 && r.ty != 0xF
    | 0x02 => (List.range r.rank).all (fun k => (c.perm r.rank).contains k) && (r.ty != 0xF || (c.perm r.rank).getD 0 0 == 0)
    | 0x03 => c.rc ≤ 6
    | 0x04 => r.ty == 9 && 0xC ≤ c.dty && (c.rc == 0 || c.rc == 5 || c.rc == 6) && (!bitAt (c.arg 2) 7 || c.dty == 0xF)
        && r.d 0 % 32 == 0
    | 0x05 => 0xC ≤ r.ty && c.rc ≤ 6 && r.d 0 % 32 == 0
    | 0x06 | 0x07 => r.rank == 1 && r.str 0 == 1 && ((r.ty == 6 && r.d 0 % 64 == 0) || (r.ty == 7 && r.d 0 % 32 == 0))
    | 0x08 => isSym c.dty
    | 0x09 => isSym c.dty && r.ty == 4 + Nat.log2 (r.alA.w / 8) && r.str 0 == 1
    | 0x0A => r.ty == 4 + Nat.log2 (r.alA.w / 8)
    | _ => true)

/-- The rules for 4-bit types (R375). -/
def nibbleOk (c : Cmd) (r : Shape) : Bool :=
  (r.bits != 4 || ((c.opc == 0xA7 || r.evenStrides) && (!r.dstr || r.evenStrides)))
    && (dstBits c r != 4 || !r.dstr || r.evenStrides)
    && (r.ty != 0xF || !c.moves || r.d 0 % 2 == 0)

/-- A swizzle names a side that is a local base (R376); `xfill` has no source side. -/
def swzOk (c : Cmd) (r : Shape) : Bool :=
  r.swz == 0 || (if r.swzd then (localBase (dstBase c r)).isSome else c.opc == 0xA7 || (localBase (srcBase c r)).isSome)

/-- The sides of `xpeer` (R400). -/
def peerSidesOk (c : Cmd) (r : Shape) : Bool :=
  let near (a : Nat) : Bool := (localBase a).isSome || vaSpace a == 0
  if c.opc != 0xA8 then true
  else if c.code == 0 then near (srcBase c r) && vaSpace (dstBase c r) == 1
    && (c.arg 2 == 0 || (vaSpace (c.arg 2) == 1 && vaPkg (c.arg 2) == vaPkg (dstBase c r)))
  else vaSpace (srcBase c r) == 1 && near (dstBase c r)

/-- The types that `xscat.add` accepts (R395). -/
def addOk (c : Cmd) (r : Shape) : Bool :=
  c.opc != 0xA3 || !bitAt c.code 1 || [2, 3, 6, 7, 8, 9].contains r.ty

/-- The table of a gather or scatter (R394). -/
def tableOk (c : Cmd) (r : Shape) : Bool :=
  (c.opc != 0xA2 && c.opc != 0xA3) || (r.rank == 2 && r.str 0 == 1 && r.flags == 0 && r.swz == 0 && c.arg 1 < 2 ^ 32)

/-- A command that takes an alphabet block. -/
def Cmd.packs (c : Cmd) : Bool := c.form == 0x08 || c.form == 0x09 || c.form == 0x0A

/-- The images of a layout record (R379). -/
def imagesOk (c : Cmd) (r : Shape) : Bool :=
  !c.packs || (imgOk r.imgA && (if c.form == 0x0A then imgOk r.imgB else r.imgB == 0))

/-- The span of addresses that a side touches, under its swizzle (R377). -/
def sideSpan (d : Side) (bits : Nat) (offs : List Int) : Nat × Nat :=
  let as := offs.map (fun e => d.at (e * bits / 8))
  (as.foldl min (2 ^ 64), as.foldl max 0 + (bits + 7) / 8)

/-- The spans of a transpose or permute overlap (R377). -/
def spansMeet (c : Cmd) (r : Shape) : Bool :=
  let sp (d : Side) (e : Int × Int) (dense : Bool) : Nat × Nat :=
    if d.swz == 0 then (d.at (e.1), d.at (e.2 - 1) + 1)
    else sideSpan d r.bits ((List.range r.elems).map (fun (l : Nat) =>
      if dense then (l : Int) else dotStr (digitsOf r.ds l) r.strs))
  let a := sp (srcSide c r) (srcSpan c r) false
  let b := sp (dstSide c r) (dstSpan c r) true
  a.1 < b.2 && b.1 < a.2

/-- A base is a multiple of its element size (R376); `arg2` of a put is a multiple of 8 (R400). -/
def alignOk (c : Cmd) (r : Shape) : Bool :=
  (c.opc == 0xA7 || srcBase c r % ((srcBits c r + 7) / 8) == 0) && dstBase c r % ((dstBits c r + 7) / 8) == 0
    && (c.opc != 0xA8 || c.code != 0 || c.arg 2 % 8 == 0)

/-- The bytes of the scales of codes 0x04 and 0x05. -/
def scaleBytes (r : Shape) : Nat := r.rows * (r.d 0 / 32)

/-- The record of a transfer as an engine reads it. -/
def readShape (s : State) (c : SentCmd) : EM (List Byte) := do
  let b ← readAt s c c.cmd.rcd 64
  let x ← if c.cmd.packs then readAt s c (wrap 64 ((c.cmd.rcd : Int) + 64)) 96 else .ok []
  .ok (b ++ x)

/-- The checks of a transfer at acceptance; they answer its record. -/
def checkXfer (s : State) (c : SentCmd) : EM (List Byte) := do
  let k := c.cmd
  require 0x20 (k.form ≤ 0x0A)
  let b ← readShape s c
  let r := shapeOf b
  require 0x22 (!r.bad && !(k.packs && r.rsvA) && (!r.dstr || k.dstrOk))
  require 0x27 (imagesOk k r)
  require 0x22 (formOk k r && nibbleOk k r && swzOk k r && peerSidesOk k r && addOk k r && tableOk k r)
  if k.opc != 0xA7 then baseOk s (k.opc == 0xA8) (srcBase k r)
  baseOk s (k.opc == 0xA8) (dstBase k r)
  require 0x26 (alignOk k r)
  if k.opc != 0xA7 then spanOk s k.tid (srcBase k r) (srcSpan k r)
  spanOk s k.tid (dstBase k r) (dstSpan k r)
  if k.form == 0x04 || k.form == 0x05 then
    baseOk s false (k.arg 3)
    spanOk s k.tid (k.arg 3) (0, (scaleBytes r : Int))
  if k.opc == 0xA2 || k.opc == 0xA3 then
    baseOk s false (k.arg 0)
    spanOk s k.tid (k.arg 0) (0, (k.arg 1 : Int) * (if bitAt k.code 0 then 8 else 4))
  require 0x21 (!((k.form == 0x01 || k.form == 0x02) && spansMeet k r))
  .ok b

end Sys2Proof.Machine
end

