-- ==== Sys2Proof/Machine/Xfer.lean ====
section
/-! DEFINITION. What the asynchronous engines and the NZ scan unit do (R375 to R382, R390 to R400): the writes of each
unit of a transfer, and the engine chunks of 4 KiB of destination that they form (R306). -/

namespace Sys2Proof.Machine

open Sys2Proof

/-! ### Reading elements -/

/-- The byte of an element and whether it is its high nibble. -/
def Side.elem (d : Side) (bits : Nat) (e : Int) : Nat × Bool :=
  if bits == 4 then (d.at (e / 2), e % 2 == 1) else (d.at (e * (bits / 8 : Nat)), false)

/-- The code of an element. -/
def readElem (s : State) (c : SentCmd) (d : Side) (bits : Nat) (e : Int) : EM Nat := do
  let p := d.elem bits e
  let x ← readNum s c p.1 ((bits + 7) / 8)
  .ok (if bits == 4 then (if p.2 then x / 16 else x % 16) else x)

/-- The byte that holds a 4-bit element. -/
def readPair (s : State) (c : SentCmd) (d : Side) (e : Int) : EM Nat := readNum s c (d.elem 4 e).1 1

/-- n bytes from an offset of a side, in words of w bytes. -/
def readBlock (s : State) (c : SentCmd) (d : Side) (o : Int) (w n : Nat) : EM (List Byte) :=
  ((List.range (n / w)).mapM (fun k => readAt s c (d.at (o + (k * w : Nat))) w)).map List.flatten

/-! ### Writes of a unit -/

/-- A write of a transfer: bytes, a nibble of a byte, or an addition (R375, R395). -/
inductive EOp where
  | put (a : Nat) (d : List Byte)
  | nib (a : Nat) (hi : Bool) (v : Nat)
  | add (a : Nat) (t : Ty) (x : Nat)
  deriving DecidableEq, Repr

/-- What a unit of a transfer gives: its writes, its flags, and its destination address in nibbles. -/
structure UnitOut where
  ops : List EOp := []
  fl : BitVec 8 := 0
  key : List Nat := []
  deriving DecidableEq, Repr

/-- The write of an element's code to a side. -/
def putElem (d : Side) (bits : Nat) (e : Int) (v : Nat) : UnitOut :=
  let p := d.elem bits e
  { ops := [if bits == 4 then .nib p.1 p.2 v else .put p.1 (leBytes (bits / 8) v)]
    key := [2 * p.1 + (if p.2 then 1 else 0)] }

/-- The rounding environment of an element: FPMODE, REPRO and SRSEED as they stood at issue (R372); t of R78 with its index
(R378, R432), or a free value with REPRO.ON = 0. -/
def cmdEnv (s : State) (c : Cmd) (rc l : Nat) : FpEnv :=
  let m := if rc == 6 then c.fpmode.toNat % 8 else rc
  { mode := m
    t := if m != 5 then 0 else if c.repro then srT c.srseed.toNat (l % 32) (l / 32)
      else (Config.freeValue (s.free + 2 ^ 23 + 2 ^ 20 + l % 2 ^ 17)).toNat % 65536
    ftzi := c.fpmode.getLsbD 3, ftzo := c.fpmode.getLsbD 4, ftzn := c.fpmode.getLsbD 5 }

/-- The rounding code of a quantisation: a dyn that resolves to neither rne nor sr is rne (R90). -/
def quantRc (c : Cmd) (rc : Nat) : Nat :=
  let m := if rc == 6 then c.fpmode.toNat % 8 else rc
  if m == 5 then 5 else 0

/-- The seven flags of a conversion as XFLAGS and MXFLAGS hold them (R373, R420). -/
def flags8 (f : Flags) : BitVec 8 := f.setWidth 8

/-- An element converted (R76, R79); `byte` and `odd` give an ix4 element with the other slot of its byte (R375). -/
def convElem (st dt : Ty) (env : FpEnv) (x byte : Nat) (odd : Bool) : FRes :=
  if st == .ix4 then
    let p := ix4Byte byte
    let r := convert dt env .convert (if odd then p.2.1 else p.1)
    ⟨r.code, r.fl ||| flagIf (odd && p.2.2) fICW⟩
  else cvtVal st dt env x

/-! ### Compression (R272, R273) -/

/-- The words of a block. -/
def wordsIn (w : Nat) (b : List Byte) : List Nat := (List.range (b.length / w)).map (fun k => recField b (w * k) w)

/-- A slot of 320 bytes with its unused bytes 0. -/
def padSlot (b : List Byte) : List Byte := b ++ List.replicate (320 - b.length) 0

/-- A ZM slot of 64 words. -/
def zmSlot (b : List Byte) : List Byte :=
  let ws := wordsIn 4 b
  let mask := ws.zipIdx.foldl (fun m e => if e.1 != 0 then m + 2 ^ e.2 else m) 0
  padSlot (leBytes 8 mask ++ (ws.filter (fun x => x != 0)).flatMap (leBytes 4))

/-- A D64 slot of 32 words, with the smallest WIDTH that fits every delta (R378). -/
def d64Slot (b : List Byte) : List Byte :=
  let ws := wordsIn 8 b
  let ds := (List.range 31).map (fun k => toSigned 64 (wrap 64 ((ws.getD (k + 1) 0 : Int) - ws.getD k 0)))
  let fits (w : Nat) : Bool := ds.all (fun d => -(2 ^ (8 * 2 ^ w - 1) : Int) ≤ d && d < 2 ^ (8 * 2 ^ w - 1))
  let w := ((List.range 3).find? fits).getD 3
  padSlot (leBytes 8 w ++ leBytes 8 (ws.getD 0 0) ++ ds.flatMap (fun d => leBytes (2 ^ w) (wrap (8 * 2 ^ w) d)))

/-! ### Symbols (R379) -/

/-- A checked result, or the end of the command under ICW 0 (R379). -/
def symOut (c : Chk) : EM (Nat × BitVec 8) :=
  if c.trap then .error (.err 0x28) else .ok (c.x, flags8 (flagIf c.flag fICW))

/-- The value of a digit in a value type; one that the type does not hold is a free value. -/
def symVal (s : State) (t : Ty) (l : Nat) (v : Int) : Nat :=
  if t.minInt ≤ v && v ≤ t.maxInt then wrap t.width v else (Config.freeValue (s.free + l % 2 ^ 13)).toNat % 2 ^ t.width

/-! ### The units of a transfer -/

/-- Bits of destination of one unit, and the number of units. -/
def unitBits (c : Cmd) (r : Shape) : Nat :=
  match c.form with
  | 0x04 => 32 * dstBits c r
  | 0x06 => 2048
  | 0x07 => 512
  | _ => dstBits c r
def unitCount (c : Cmd) (r : Shape) : Nat :=
  if c.opc == 0xA2 || c.opc == 0xA3 then c.arg 1 * r.d 0
  else match c.form with
    | 0x04 => r.elems / 32
    | 0x06 => blocksOf r
    | 0x07 => 5 * blocksOf r
    | 0x08 => r.rows * rowWords r.alA (r.d 0)
    | _ => r.elems

/-- The source offset of element l, and the destination offset (R375, R378). -/
def srcOff (r : Shape) (l : Nat) : Int := dotStr (digitsOf r.ds l) r.strs
def dstOff (c : Cmd) (r : Shape) (l : Nat) : Int :=
  let is := digitsOf r.ds l
  match c.form with
  | 0x01 => (is.getD 1 0 + r.d 1 * is.getD 0 0 : Nat)
  | 0x02 =>
    let p := c.perm r.rank
    -- dense over the permuted dimensions
    ((p.foldl (fun (a : Nat × Nat) k => (a.1 + is.getD k 0 * a.2, a.2 * r.d k)) (0, 1)).1 : Nat)
  | _ => if r.dstr then srcOff r l else l

/-- A word of symbols packed from the values of a row (0x08). -/
def packUnit (s : State) (c : SentCmd) (r : Shape) (u : Nat) : EM UnitOut := do
  let a := r.alA
  let rw := rowWords a (r.d 0)
  let row := u / rw
  let j := u % rw
  let t := Ty.ofCode c.cmd.dty
  let ds ← (List.range a.n).mapM (fun k =>
    let i := j * a.n + k
    if i < r.d 0 then
      (readElem s c (srcSide c.cmd r) t.width (srcOff r (row * r.d 0 + i))).map (fun x => a.orNeutral (a.enc (t.ival x)))
    else .ok { x := a.neutral })
  let w ← symOut (packChk a ds)
  .ok { putElem (dstSide c.cmd r) a.w u w.1 with fl := w.2 }

/-- A symbol unpacked to its value (0x09). -/
def unpackUnit (s : State) (c : SentCmd) (r : Shape) (u : Nat) : EM UnitOut := do
  let a := r.alA
  let is := digitsOf r.ds u
  let off : Int := ((is.getD 0 0 / a.n : Nat) : Int) + dotStr (is.drop 1) (r.strs.drop 1)
  let x ← readElem s c (srcSide c.cmd r) a.w off
  let w ← symOut (a.check x)
  let t := Ty.ofCode c.cmd.dty
  .ok { putElem (dstSide c.cmd r) t.width u (symVal s t u (a.val (a.digit w.1 (is.getD 0 0 % a.n)))) with fl := w.2 }

/-- A word re-radixed (0x0A). -/
def radixUnit (s : State) (c : SentCmd) (r : Shape) (u : Nat) : EM UnitOut := do
  let x ← readElem s c (srcSide c.cmd r) r.alA.w (srcOff r u)
  let w ← symOut (scvtVal r.alA r.alB x)
  .ok { putElem (dstSide c.cmd r) r.alB.w u w.1 with fl := w.2 }

/-- A block of 32 elements quantised along DIM0 (0x04). -/
def quantUnit (s : State) (c : SentCmd) (r : Shape) (u : Nat) : EM UnitOut := do
  let k := c.cmd
  let t := Ty.ofCode k.dty
  let env := cmdEnv s k (quantRc k k.rc) (32 * u)
  let xs ← (List.range 32).mapM (fun i => readElem s c (srcSide k r) 32 (srcOff r (32 * u + i)))
  let f := Ty.f32.fmt
  let q := quantise t env (bitAt (k.arg 2) 7) ((List.range 32).map (fun i => (cmdEnv s k (quantRc k k.rc) (32 * u + i)).t))
    (xs.map (fun x => some (f.flushIn env (f.decode x))))
  let outs := (List.range 32).map (fun i => putElem (dstSide k r) t.width (32 * u + i : Nat) ((q.2.1.getD i none).getD 0))
  .ok { ops := outs.flatMap (fun o => o.ops) ++ [.put (Side.at ⟨k.arg 3, 0⟩ u) (leBytes 1 q.1)], fl := flags8 q.2.2 }

/-- An element dequantised (0x05). -/
def dequantUnit (s : State) (c : SentCmd) (r : Shape) (u : Nat) : EM UnitOut := do
  let k := c.cmd
  let e := srcOff r u
  let sc ← readNum s c (Side.at ⟨k.arg 3, 0⟩ (u / 32)) 1
  let x ← readElem s c (srcSide k r) r.bits e
  let p ← if r.bits == 4 then readPair s c (srcSide k r) e else .ok 0
  let v := dqntVal r.type (cmdEnv s k k.rc u) (e % 2).toNat x (p % 16) (p / 16) sc
  .ok { putElem (dstSide k r) 32 u v.code with fl := flags8 v.fl }

/-- A block decompressed (0x06). -/
def expandUnit (s : State) (c : SentCmd) (r : Shape) (u : Nat) : EM UnitOut := do
  let k := c.cmd
  let slot ← readBlock s c (srcSide k r) (320 * u : Nat) 4 320
  match (List.range 256).mapM (blockByte (k.arg 2 == 1) (fun o n => recField slot o n)) with
  | none => .error (.err 0x2B)
  | some b =>
    .ok { ops := (List.range 64).map (fun i => .put ((dstSide k r).at ((256 * u + 4 * i : Nat) : Int)) ((b.drop (4 * i)).take 4)) }

/-- A 64-byte sector of a compressed slot (0x07): 64 of them make an engine chunk. -/
def squeezeUnit (s : State) (c : SentCmd) (r : Shape) (u : Nat) : EM UnitOut := do
  let k := c.cmd
  let b ← readBlock s c (srcSide k r) (256 * (u / 5) : Nat) 4 256
  let slot := if k.arg 2 == 1 then d64Slot b else zmSlot b
  .ok { ops := (List.range 16).map (fun i =>
          .put ((dstSide k r).at ((64 * u + 4 * i : Nat) : Int)) ((slot.drop (64 * (u % 5) + 4 * i)).take 4)) }

/-- An element converted (0x03). -/
def convUnit (s : State) (c : SentCmd) (r : Shape) (u : Nat) : EM UnitOut := do
  let k := c.cmd
  let e := srcOff r u
  let x ← readElem s c (srcSide k r) r.bits e
  let p ← if r.ty == 0xF then readPair s c (srcSide k r) e else .ok 0
  let v := convElem r.type (Ty.ofCode k.dty) (cmdEnv s k k.rc u) x p (e % 2 == 1)
  .ok { putElem (dstSide k r) (dstBits k r) (dstOff k r u) v.code with fl := flags8 v.fl }

/-- An element of a gathered or scattered row (R394, R395). -/
def rowUnit (s : State) (c : SentCmd) (r : Shape) (u : Nat) : EM UnitOut := do
  let k := c.cmd
  let i := c.idx.getD (u / r.d 0) 0
  let t : Int := ((u % r.d 0 : Nat) : Int) + i * r.str 1
  if k.opc == 0xA2 then
    let x ← asRow (readElem s c (srcSide k r) r.bits t)
    .ok (putElem (dstSide k r) r.bits u x)
  else
    let x ← readElem s c (srcSide k r) r.bits u
    if bitAt k.code 1 then .ok { ops := [.add ((dstSide k r).at (t * (r.bits / 8 : Nat))) r.type x] }
    else .ok (putElem (dstSide k r) r.bits t x)

/-- An element moved with its bits unchanged, or filled (R392, R399, R400). -/
def moveUnit (s : State) (c : SentCmd) (r : Shape) (u : Nat) : EM UnitOut := do
  let k := c.cmd
  let x ← if k.opc == 0xA7 then .ok (k.arg 0 % 2 ^ r.bits) else readElem s c (srcSide k r) r.bits (srcOff r u)
  .ok (putElem (dstSide k r) r.bits (dstOff k r u) x)

/-- One unit of a transfer. -/
def unitOut (s : State) (c : SentCmd) (r : Shape) (u : Nat) : EM UnitOut :=
  if c.cmd.opc == 0xA2 || c.cmd.opc == 0xA3 then rowUnit s c r u
  else match c.cmd.form with
    | 0x03 => convUnit s c r u
    | 0x04 => quantUnit s c r u
    | 0x05 => dequantUnit s c r u
    | 0x06 => expandUnit s c r u
    | 0x07 => squeezeUnit s c r u
    | 0x08 => packUnit s c r u
    | 0x09 => unpackUnit s c r u
    | 0x0A => radixUnit s c r u
    | _ => moveUnit s c r u

/-! ### The writes of an engine chunk -/

/-- A sum of R395: integers modulo 2^W, floats rounded rne with no flushing. -/
def addElem (t : Ty) (x y : Nat) : FRes := if t.isInt then ⟨(x + y) % 2 ^ t.width, 0⟩ else fadd t.fmt {} x y

/-- The latest bytes written to an address in this chunk, or those that memory holds. -/
def heldByte (s : State) (c : SentCmd) (w : List (Nat × Byte)) (a : Nat) : EM Byte :=
  match w.find? (fun e => e.1 == a) with
  | some e => .ok e.2
  | none => (readAt s c a 1).map (fun b => b.headD 0)

/-- Another write of the chunk gives the other nibble of a byte. -/
def otherNib (ops : List EOp) (a : Nat) (hi : Bool) : Bool :=
  ops.any (fun o => match o with | .nib x h _ => x == a && h != hi | _ => false)

/-- One write laid on those before it, latest first, with its flags. -/
def layOp (s : State) (c : SentCmd) (all : List EOp) (w : List (Nat × Byte) × BitVec 8) (o : EOp) :
    EM (List (Nat × Byte) × BitVec 8) :=
  match o with
  | .put a d => .ok ((bytesAt a d).reverse ++ w.1, w.2)
  | .nib a hi v => do
    let b ← if otherNib all a hi && !w.1.any (fun e => e.1 == a) then .ok 0 else heldByte s c w.1 a
    let n := if hi then v % 16 * 16 + b.toNat % 16 else b.toNat / 16 * 16 + v % 16
    .ok ((a, BitVec.ofNat 8 n) :: w.1, w.2)
  | .add a t x => do
    let old ← asRow ((List.range (t.width / 8)).mapM (fun k => heldByte s c w.1 (a + k)))
    let r := addElem t (ofBytes old) x
    .ok ((bytesAt a (leBytes (t.width / 8) r.code)).reverse ++ w.1, w.2 ||| flags8 r.fl)

/-- A destination address is written twice by the command (R377). -/
def collides : List Nat → List Nat → Bool
  | _, [] => false
  | seen, k :: r => seen.contains k || collides (k :: seen) r

/-- What an engine chunk of a transfer does: its runs, its flags, the destination addresses, and the counter word of a
put's last chunk (R400). -/
structure Piece where
  runs : List (Nat × List Byte)
  fl : BitVec 8 := 0
  keys : List Nat := []
  incr : Option Nat := none
  deriving DecidableEq, Repr

/-- The units of a chunk. -/
def perPiece (c : Cmd) (r : Shape) : Nat := max 1 (32768 / unitBits c r)
def pieceCount (c : Cmd) (r : Shape) : Nat := (unitCount c r + perPiece c r - 1) / perPiece c r

/-- A write check of a run; a scatter's rows are served by a Dredge unit. -/
def runOk (s : State) (c : SentCmd) (w : Nat × List Byte) : EM Unit :=
  if c.cmd.opc == 0xA3 then asRow (writeOk s c w.1 w.2.length) else writeOk s c w.1 w.2.length

/-- The counter word of a put in this package is written with the last chunk's runs; a peer's goes with the batch. -/
def putCounter (s : State) (c : SentCmd) (last : Bool) : EM (List (Nat × List Byte) × Option Nat) :=
  let a := c.cmd.arg 2
  if c.cmd.opc != 0xA8 || c.cmd.code != 0 || !last || a == 0 then .ok ([], none)
  else match place s a with
    | some (.peer _ _ _) => (leaveOk c a 2).map (fun _ => ([], some a))
    | some _ => (readNum s c a 8).map (fun v => ([(a, leBytes 8 (v + 1))], none))
    | none => .error (.err (c.addrErr s a))

/-- Engine chunk p of a transfer. -/
def xferPiece (s : State) (c : SentCmd) (p : Nat) : EM Piece := do
  let r := shapeOf c.recb
  let per := perPiece c.cmd r
  let n := unitCount c.cmd r
  let us := (List.range (min per (n - p * per))).map (fun k => p * per + k)
  let outs ← us.mapM (unitOut s c r)
  let ops := outs.flatMap (fun o => o.ops)
  let w ← ops.foldlM (layOp s c ops) ([], outs.foldl (fun a o => a ||| o.fl) 0)
  let inc ← putCounter s c (n ≤ (p + 1) * per)
  let runs := joinRuns w.1.reverse ++ inc.1
  let _ ← runs.mapM (runOk s c)
  let keys := outs.flatMap (fun o => o.key)
  .ok { runs := runs, fl := w.2 ||| (if collides c.written keys then 0x80 else 0), keys := keys, incr := inc.2 }

/-- The index list of a gather or scatter (R394). -/
def indexList (s : State) (c : SentCmd) : EM (List Nat) := do
  let k := c.cmd
  if k.opc != 0xA2 && k.opc != 0xA3 then .ok []
  else
    let w := if bitAt k.code 0 then 8 else 4
    let is ← (List.range (k.arg 1)).mapM (fun j => readNum s c (Side.at ⟨k.arg 0, 0⟩ ((w * j : Nat) : Int)) w)
    require 0x29 (is.all (fun i => i < (shapeOf c.recb).d 1))
    .ok is

/-! ### nzscan (R390, R391) -/

/-- The output of `nzscan`: the list at arg1 and the values at arg2, with nothing but the count where the list is
empty. -/
def nzOut (s : State) (c : SentCmd) : EM (List (Nat × List Byte)) := do
  let k := c.cmd
  let t := Ty.ofCode (k.code / 16)
  let z := t.width / 8
  let n := k.arg 0
  let env := cmdEnv s k 0 0
  let src := readLocal s k.tid 1 k.rcd (z * n)
  let x (i : Nat) : Nat := recField src (z * i) z
  let nz (i : Nat) : Bool := !(tyFlushIn t env (tyValue t (x i))).isZero
  let blk := bitAt k.code 0
  let m := if blk then 32 else 1
  let list := (List.range (n / m)).filter (fun j => (List.range m).any (fun i => nz (m * j + i)))
  let out := leBytes 4 list.length ++ list.flatMap (leBytes 4)
  let vals := if bitAt k.code 1 then list.flatMap (fun j => (src.drop (m * z * j)).take (m * z)) else []
  let g := allotSize s k.tid 3
  require 0x25 (k.arg 1 + out.length ≤ g && (vals.isEmpty || k.arg 2 + vals.length ≤ g))
  .ok ((k.arg 1, out) :: (if vals.isEmpty then [] else [(k.arg 2, vals)]))

/-- The checks of `nzscan` at acceptance. DESIGN CHOICE, log 123: the ranges of the list and of the values are those of the elements as
they stand then; the unit checks them again as it runs. -/
def checkNz (s : State) (c : SentCmd) : EM (List Byte) := do
  let k := c.cmd
  let z := (Ty.ofCode (k.code / 16)).width / 8
  require 0x22 (k.arg 0 ≤ 2 ^ 20 && (!bitAt k.code 0 || k.arg 0 % 32 == 0))
  require 0x26 (k.rcd % z == 0 && k.arg 1 % 4 == 0 && (!bitAt k.code 1 || k.arg 2 % z == 0))
  require 0x25 (k.rcd + z * k.arg 0 ≤ allotSize s k.tid 1)
  let _ ← nzOut s c
  .ok []

/-- Bytes at a place of G cut into chunks of 4 KiB. -/
def cut4k (o : Nat) (d : List Byte) : List (Nat × List Byte) :=
  (List.range ((d.length + 4095) / 4096)).map (fun k => (localLoc 3 (o + 4096 * k), (d.drop (4096 * k)).take 4096))

/-- The engine chunks of `nzscan`. -/
def nzPieces (s : State) (c : SentCmd) : EM (List (Nat × List Byte)) :=
  (nzOut s c).map (fun l => l.flatMap (fun e => cut4k e.1 e.2))

end Sys2Proof.Machine
end

