-- ==== Sys2Proof/Machine/Matrix.lean ====
section
/-! DEFINITION. The matrix engine (15_matrix_engine.md): the checks at acceptance (R410), the start of a command with its
credits and its A tiles (R408, R411 to R413), the products (R82 to R84, R414 to R418), and mchk, mzero, mscale and mconv
(R419, R425 to R432). -/

namespace Sys2Proof.Machine

open Sys2Proof

/-! ### Checks at acceptance (R405 to R407, R410) -/

/-- The scale bindings as the team's earlier commands leave them (R408, R415). -/
def bindScale (c : Cmd) (t : Team) : Team :=
  let v := if bitAt c.code 1 then none else some (c.rcd, c.arg 0)
  if bitAt c.code 0 then { t with scaleB := v } else { t with scaleA := v }

def queuedScales (s : State) (tid : Nat) : State :=
  (s.cmds.filter (fun c => c.cmd.tid == tid && c.cmd.opc == 0xB5 && c.stage != .port && c.stage != .held)).foldl
    (fun s c => s.modTeam tid (bindScale c.cmd)) s

/-- The reserved fields of S, L, P and the B and C words. -/
def mxReservedOk (c : Cmd) : Bool :=
  slice c.sw 31 29 == 0 && slice c.sw 23 22 == 0 && !bitAt c.sw 20 && slice c.bw 63 48 == 0 && slice c.cw 63 48 == 0
    && (c.opc == 0xB0 || c.opc == 0xB7 || slice c.lw 23 16 == 0) && (c.opc != 0xB9 || slice c.pw 63 21 == 0)

/-- The limits of a multiply's words (R406, R407, R423). -/
def mulLimitsOk (c : Cmd) : Bool :=
  let pitch (w dense : Nat) : Bool := slice w 47 32 == 0 || dense ≤ slice w 47 32
  mxReservedOk c && pitch c.bw c.pair.bRow && pitch c.cw c.pair.cRow && (!c.chk || slice c.cw 47 32 == 0)
    && (c.opc != 0xB1 || (c.lw % 2 ^ 16 != 0 && (!c.reuse || c.incA == 0)))
    && (c.opc != 0xB9 || (c.lw % 2 ^ 16 == 0 && slice c.lw 63 48 == 0))

/-- The alignment of offsets and pitches (R407). -/
def mulAlignOk (c : Cmd) : Bool :=
  c.boff % 8 == 0 && slice c.bw 47 32 % 8 == 0 && c.coff % 32 == 0 && slice c.cw 47 32 % 32 == 0
    && (!c.chk || c.coff % 2048 == 0)

/-- The registers of the A tile of a step. -/
def tileRegs (c : Cmd) (t : Nat) : List Nat := (List.range c.pair.regs).map (fun k => c.areg + t * c.incA + k)

/-- The steps whose A tiles differ. -/
def tileSteps (s : State) (c : Cmd) : List Nat := List.range (if c.incA == 0 then min 1 (mxSteps s c) else mxSteps s c)

/-- The group of a team with an index. -/
def groupAt (s : State) (tid k : Nat) : Option Group := s.groups.find? (fun g => g.tid == tid && g.index == k)

/-- Credits that a contributor holds, or left when it ended (R411). -/
def creditsOf (s : State) (tid k : Nat) : Nat :=
  match groupAt s tid k with
  | some g => g.credits.length
  | none => ((((s.team? tid).getD noTeam).ended.find? (fun e => e.1 == k && e.2 != 0)).getD (0, 0)).2

/-- The issuing group's index. -/
def Cmd.issuer (c : Cmd) : Nat := (c.tile.headD (0, [], [])).1

/-- Every contributor is a group of the team, or has ended leaving a credit (0x31). -/
def contribOk (s : State) (c : Cmd) : Bool :=
  (contributors c).all (fun k => k == c.issuer || (groupAt s c.tid k).isSome || creditsOf s c.tid k != 0)

/-- Every register of the A tiles but the issuing group's first tile is held by its group (0x30). -/
def tilesHeld (s : State) (c : Cmd) : Bool :=
  (contributors c).all (fun k => match groupAt s c.tid k with
    | none => true
    | some g => (tileSteps s c).all (fun t => (k == c.issuer && t == 0) || (tileRegs c t).all (fun r => s.hasReg g (.v r))))

/-- The index list of `msparse` lies in G and its count is at most 2^20 (R406, 0x33, 0x35). -/
def listOk (s : State) (c : Cmd) : EM Unit := do
  if c.sparse then
    let g := allotSize s c.tid 3
    require 0x33 (c.listOff + 4 ≤ g)
    require 0x35 (listCount s c ≤ 2 ^ 20)
    require 0x33 (!c.indexed || c.listOff + 4 + 4 * listCount s c ≤ g)

/-- The rows of B lie in W. -/
def rowsOk (s : State) (c : Cmd) : Bool :=
  let w := allotSize s c.tid 0
  (List.range (mxSteps s c)).all (fun t => (livePos s c t).all (fun q =>
      let r := bRowAt s c t q
      0 ≤ r && r + c.pair.bRow ≤ (w : Int)))

/-- Operands, scales and tiles lie in their allotments (0x33). -/
def mulRangesOk (s : State) (c : Cmd) : Bool :=
  rowsOk s c && (tileRanges c).all (fun r => r.2.1 + r.2.2 ≤ allotSize s c.tid 2)
    && (scaleOffs s c).all (fun o => o < allotSize s c.tid 3)

def checkMul (s : State) (c : Cmd) : EM Unit := do
  require 0x34 (mulLimitsOk c)
  require 0x32 (mulAlignOk c)
  listOk s c
  require 0x34 ((tileSteps s c).all (fun t => (tileRegs c t).all (fun r => r ≤ 255)))
  require 0x31 (contribOk s c)
  require 0x30 (tilesHeld s c)
  require 0x33 (mulRangesOk (queuedScales s c.tid) c)

/-- R425. -/
def checkMchk (s : State) (c : Cmd) : EM Unit := do
  require 0x34 (mxReservedOk c && c.contrib == 0 && slice c.cw 47 32 == 0)
  require 0x32 (c.coff % 2048 == 0)
  require 0x33 (c.coff + 1408 ≤ allotSize s c.tid 2)

/-- R426. -/
def checkMzero (s : State) (c : Cmd) : EM Unit := do
  require 0x34 (c.arg 0 % 64 == 0 && 64 ≤ c.arg 0 && c.arg 0 ≤ allotSize s c.tid 2)
  require 0x33 (c.rcd + c.arg 0 ≤ allotSize s c.tid 2)

/-- R429. -/
def checkMscale (c : Cmd) : EM Unit := require 0x34 (bitAt c.code 1 || (1 ≤ c.arg 0 && c.arg 0 ≤ 4096))

/-- Bits of an element that `mconv` writes. -/
def convBits (c : Cmd) : Nat := (Ty.ofCode c.dty).width

/-- R431, R432. -/
def checkMconv (s : State) (c : Cmd) : EM Unit := do
  let q := bitAt c.code 0
  let near (a : Nat) : Bool := match localBase a with | some (b, _) => b == 0 || b == 1 || b == 3 | none => false
  let inside (a n : Nat) : Bool := match localBase a with | some (b, o) => o + n ≤ allotSize s c.tid b | none => false
  let e := c.arg 1
  require 0x34 (near (c.arg 0) && e % 32 == 0 && 32 ≤ e && e ≤ 65536 && c.rc ≤ 6 && c.arg 2 / 2 ^ 8 == 0
    && (!bitAt (c.arg 2) 7 || (q && c.dty == 0xF))
    && (!q || (near (c.arg 3) && 0xC ≤ c.dty && (c.rc == 0 || 5 ≤ c.rc))))
  require 0x33 (c.rcd + e * (if bitAt c.code 1 then 8 else 4) ≤ allotSize s c.tid 2 && inside (c.arg 0) (e * convBits c / 8)
    && (!q || inside (c.arg 3) (e / 32)))

/-! ### The start of a command (R408, R411 to R413) -/

/-- The first unfinished command in a team's matrix order. -/
def mxHead (s : State) (tid : Nat) : Option SentCmd :=
  s.cmds.find? (fun c => c.mxOf tid && c.stage != .port && c.stage != .done)

/-- Every contributor but the issuing group has a credit. -/
def creditsReady (s : State) (c : Cmd) : Bool :=
  !isMul c.opc || (contributors c).all (fun k => k == c.issuer || creditsOf s c.tid k != 0)

def mxStartOk (s : State) (kid : Nat) : Bool :=
  match cmd? s kid with
  | none => false
  | some c => isMatrixCmd c.cmd.opc && c.stage == .queued && (mxHead s c.cmd.tid).map (fun x => x.cmd.kid) == some kid
      && creditsReady s c.cmd

/-- Registers that no group holds any more: their values are free. -/
def endedCells (s : State) (c : Cmd) (k : Nat) : Cells 32 :=
  (tileSteps s c).foldl (fun v t => (tileRegs c t).foldl (fun (v : Cells 32) r => (List.range 32).foldl (fun (v : Cells 32) l =>
    v.set (32 * r + l) ((Config.freeValue (s.free + 8192 * k + 32 * r + l)).truncate 32)) v) v) []

/-- No register of a command's tiles has been written between two counts of a group's register writes. -/
def tilesAgree (s : State) (c : Cmd) (x y : Cells 64) : Bool :=
  (tileSteps s c).all (fun t => (tileRegs c t).all (fun r => x.get r == y.get r))

/-- The lanes of a tile's registers, as a latch holds them. -/
def tileLanes (c : Cmd) (v : Cells 32) : List Lane :=
  (tileRegs c 0).flatMap (fun r => (List.range 32).map (fun l => v.get (32 * r + l)))

/-- R433: every multiply that the group sent before the `mrel` of a mark has read its A operands. -/
def markDue (s : State) (g : Group) (k : Nat) : Bool :=
  !s.cmds.any (fun c => c.cmd.gid == g.gid && isMul c.cmd.opc && c.cmd.kid < k && !c.aRead)

/-- The latch of a group is to be released. -/
def latchOk (s : State) (gid : Nat) : Bool :=
  match s.group? gid with
  | none => false
  | some g => g.mrel.any (markDue s g)

/-- The latch is released, and later marks stay. -/
def releaseLatch (s : State) (g : Group) : Group := { g with latch := none, mrel := g.mrel.filter (fun k => !markDue s g k) }

/-- A tile whose registers have been written since they were named: free values (R409). -/
def freeLanes (s : State) (c : Cmd) (k : Nat) : List Lane :=
  (List.range (32 * (tileRegs c 0).length)).map (fun i => (Config.freeValue (s.free + 8192 * k + i)).truncate 32)

/-- Lay a latched tile over registers. -/
def overLatch (c : Cmd) (v : Cells 32) (ls : List Lane) : Cells 32 :=
  ls.zipIdx.foldl (fun (v : Cells 32) e => v.set (32 * c.areg + e.2) e.1) v

/-- One contributor's operands: the cells that the engine reads with the counts of their writes, whether they came from its latch,
whether one has been written since its credit or issue, and the group as its latch and credits then stand. -/
def takeTile (s : State) (c : Cmd) (k : Nat) : (Cells 32 × Cells 64) × Bool × Bool × State :=
  match groupAt s c.tid k with
  | none =>
    let used (e : Nat × Nat) : Nat × Nat := if e.1 == k && e.2 != 0 then (k, e.2 - 1) else e
    ((endedCells s c k, []), false, false,
      if k == c.issuer then s else s.modTeam c.tid (fun t => { t with ended := t.ended.map used }))
  | some g =>
    let was := if k == c.issuer then (c.tile.headD (0, [], [])).2.2 else g.credits.headD []
    -- a release that is due comes before the read (R433)
    let g := if latchOk s g.gid then releaseLatch s g else g
    let hit := match g.latch with
      | some (a, p, ls) => if c.reuse && a == c.areg && p == c.m / 16 then some ls else none
      | none => none
    let v := g.regs.v
    let same := tilesAgree s c was g.regs.nv
    let latch : Option (Nat × Nat × List Lane) :=
      if c.reuse then some (c.areg, c.m / 16, if same then tileLanes c v else freeLanes s c k) else none
    let s' := s.modGroup g.gid (fun x =>
      { x with credits := if k == c.issuer then x.credits else x.credits.tail
               latch := if hit.isSome then g.latch else latch, mrel := g.mrel })
    match hit with
    | some ls => ((overLatch c v ls, g.regs.nv), true, false, s')
    | none => ((v, g.regs.nv), false, !same, s')

/-- The credits are taken and the A tiles read. -/
def readTiles (s : State) (c : Cmd) : List (Nat × Cells 32 × Cells 64) × List Nat × Bool × State :=
  (contributors c).foldl (fun (a : List (Nat × Cells 32 × Cells 64) × List Nat × Bool × State) k =>
    let r := takeTile a.2.2.2 c k
    (a.1 ++ [(k, r.1)], if r.2.1 then a.2.1 ++ [k] else a.2.1, a.2.2.1 || r.2.2.1, r.2.2.2)) ([], [], false, s)

/-- A matrix command starts. -/
def mxStart (s : State) (kid : Nat) : State :=
  match cmd? s kid with
  | none => s
  | some c =>
    if isMul c.cmd.opc then
      let r := readTiles s c.cmd
      let s := { r.2.2.2 with free := r.2.2.2.free + 2 ^ 18 }
      modCmd s kid (fun c => { c with stage := .running 0, aRead := true, raced := c.raced || r.2.2.1, idx := r.2.1
                                      cmd := { c.cmd with tile := r.1 } })
    else modCmd s kid (fun c => { c with stage := .running 0, aRead := true })

/-- MATRIX_COMMAND_START. -/
def execMatrixCommandStart (kid : Nat) (s : State) : Host.Outcome State Fault Refusal :=
  event (mxStartOk s kid) (fun s => mxStart s kid) s

/-- OPERAND_LATCH_RELEASE. -/
def execOperandLatchRelease (gid : Nat) (s : State) : Host.Outcome State Fault Refusal :=
  event (latchOk s gid) (fun s => s.modGroup gid (releaseLatch s)) s

/-! ### Elements (R403, R404, R67) -/

/-- A code, or an ix4 byte with the slot named, as a flushed value with its ICW flag. -/
def mxElem (t : Ty) (env : FpEnv) (x : Nat) (odd : Bool) : FV × Bool :=
  if t == .ix4 then
    let p := ix4Byte x
    if odd then (p.2.1, p.2.2) else (p.1, false)
  else if t == .e2m1 then (t.fmt.read env (if odd then x / 16 else x % 16), false)
  else (t.fmt.read env x, false)

/-- Element (i, k) of an A tile in registers from r (R403). -/
def aElem (p : MxPair) (env : FpEnv) (v : Cells 32) (r i k : Nat) : FV × Bool :=
  if p.bits == 64 then
    let l := 4 * i + k
    mxElem p.a env ((v.get (32 * r + l)).toNat + (v.get (32 * (r + 1) + l)).toNat * 2 ^ 32) false
  else
    let o := (i * p.k + k) * p.bits / 8
    let w := (v.get (32 * (r + o / 128) + o % 128 / 4)).toNat / 2 ^ (8 * (o % 4))
    mxElem p.a env (w % 2 ^ max 8 p.bits) (k % 2 == 1)

/-- Element j of a row of B. -/
def bElem (p : MxPair) (env : FpEnv) (row : List Byte) (j : Nat) : FV × Bool :=
  if p.bits == 4 then mxElem p.b env (recField row (j / 2) 1) (j % 2 == 1)
  else mxElem p.b env (recField row (j * (p.bits / 8)) (p.bits / 8)) false

/-! ### Products (R82, R83, R418) -/

/-- A product whose A-side factor is zero is exactly zero. -/
def mxMul (x y : FV) : FV := if x.isZero then .fin false 0 0 else (mulV x y).1

/-- An exact sum. -/
def sumV (l : List FV) : FV := l.foldl (fun a x => (addExact {} a x).1) (.fin false 0 0)

/-- A value times a scale (R68). -/
def scaleBy (e : Nat) (v : FV) : FV := if e == 0xFF then .nan false else v.scale ((e : Int) - 127)

/-- The contribution of a block (R83): xs on the A side, ys on the other. -/
def blockSum (xs ys : List FV) (sa sb : Nat) : FV :=
  let ps := (xs.zip ys).filter (fun e => !e.1.isZero)
  if ps.isEmpty then .fin false 0 0
  else scaleBy sa (scaleBy sb (sumV (ps.map (fun e => mxMul e.1 e.2))))

/-- c after a block's contribution (R83). -/
def mxUpdate (env : FpEnv) (c : Nat) (x : FV) : FRes :=
  let f := Ty.f32.fmt
  match x with
  | .nan _ => ⟨f.defNan, fNV⟩
  | .fin _ 0 _ => ⟨c, 0⟩
  | _ => f.addV env (f.decode c) x

/-- The C word of (i, j), from the tile's start (R404, R417): row or column 16 is the checksum arrangement. -/
def cPos (c : Cmd) (i j : Nat) : Nat :=
  if !c.chk then i * c.cPitch + j * c.pair.cBytes
  else if i < 16 && j < 16 then 64 * i + 4 * j
  else if i == 16 then (if j == 16 then 1088 else 1024 + 4 * j)
  else 1092 + 4 * i

/-- What a multiply has made of one contributor's tile: the codes row by row, the flags, the blocks skipped. -/
structure Tile where
  c : List (List Nat)
  fl : BitVec 8 := 0
  skips : Nat := 0
  deriving DecidableEq, Repr

/-- The rows of a tile, each element by a function of its position and code. -/
def Tile.each (x : Tile) (f : Nat → Nat → Nat → FRes) : Tile :=
  let rs := x.c.zipIdx.map (fun r => r.1.zipIdx.map (fun e => f r.2 e.2 e.1))
  { x with c := rs.map (fun r => r.map (fun e => e.code))
           fl := x.fl ||| flags8 (rs.foldl (fun a r => r.foldl (fun a e => a ||| e.fl) a) 0) }

/-- The row of B of position q of a step. -/
def bRow (s : State) (c : Cmd) (t q : Nat) : List Byte := allotRead s c.tid 0 (bRowAt s c t q).toNat c.pair.bRow

/-- The scale byte of a row of A (R415), or of a column of B; unbound is 1.0. -/
def scaleAt (s : State) (c : Cmd) (b : Option (Nat × Nat)) (inc t row blk : Nat) : Nat :=
  if c.m / 16 ≤ 3 then 0x7F
  else match b with
    | some (a, pitch) => ofBytes (allotRead s c.tid 3 (a + t * inc + row * pitch + blk) 1)
    | none => 0x7F

/-- One K index of pairs 0 and 1 (R82). -/
def fmaStep (s : State) (c : Cmd) (env : FpEnv) (v : Cells 32) (t : Nat) (x : Tile) (q : Nat) : Tile :=
  let p := c.pair
  let row := bRow s c t q
  x.each (fun i j z => p.a.fmt.fmaV env (aElem p env v (c.areg + t * c.incA) i q).1 (bElem p env row j).1 (p.a.fmt.decode z))

/-- One 32-element block of a step of pairs 2 to 9 (R83, R84, R416, R418), for contributor number u. -/
def blockStep (s : State) (c : Cmd) (env : FpEnv) (v : Cells 32) (u t : Nat) (x : Tile) (b : Nat) : Tile :=
  let p := c.pair
  let tm := (s.team? c.tid).getD noTeam
  let qs := (livePos s c t).filter (fun q => q / 32 == b)
  if qs.isEmpty then x
  else
    let as := (List.range 16).map (fun i => qs.map (fun q => aElem p env v (c.areg + t * c.incA) i q))
    let zero := as.map (fun r => r.all (fun e => e.1.isZero))
    let skips := if c.repro then 0 else (zero.filter (fun z => z)).length
    let icwA := as.any (fun r => r.any (fun e => e.2))
    if skips == 16 then { x with fl := x.fl ||| 0x80 ||| flags8 (flagIf icwA fICW), skips := x.skips + 16 }
    else
      let sa := (List.range 16).map (fun i => scaleAt s c tm.scaleA c.incSA t (16 * u + i) b)
      let sb := (List.range 16).map (fun j => scaleAt s c tm.scaleB c.incSB t j b)
      let rows := qs.map (fun q => bRow s c t q)
      let bs := (List.range 16).map (fun j => rows.map (fun r => bElem p env r j))
      let icw := icwA || bs.any (fun r => r.any (fun e => e.2))
      let xs := as.map (fun r => r.map (fun e => e.1))
      let ys := bs.map (fun r => r.map (fun e => e.1))
      -- a'(k) and b'(k) of R418
      let ap := (List.range qs.length).map (fun n => sumV ((xs.zip sa).map (fun r =>
        let a := r.1.getD n (.fin false 0 0)
        if a.isZero then .fin false 0 0 else scaleBy r.2 a)))
      let bp := (List.range qs.length).map (fun n => sumV ((ys.zip sb).map (fun r => scaleBy r.2 (r.1.getD n (.fin false 0 0)))))
      let side (l : List (List FV)) (sum : List FV) (i : Nat) : List FV := if i == 16 then sum else l.getD i []
      let y := x.each (fun i j z =>
        mxUpdate env z (blockSum (side xs ap i) (side ys bp j) (sa.getD i 0x7F) (sb.getD j 0x7F)))
      { y with fl := y.fl ||| flags8 (flagIf icw fICW) ||| (if skips == 0 then 0 else 0x80), skips := y.skips + skips }

/-- A tile's rows and columns, with the checksum row and column. -/
def tileRows (c : Cmd) : Nat := if c.chk then 17 else c.pair.m
def tileCols (c : Cmd) : Nat := if c.chk then 17 else c.pair.n

/-- The environment of a multiply: rne, with the flushes of FPMODE (R82, R85). -/
def mxEnv (c : Cmd) : FpEnv :=
  { ftzi := c.fpmode.getLsbD 3, ftzo := c.fpmode.getLsbD 4, ftzn := c.fpmode.getLsbD 5 }

/-- A C code as it is stored: FTZO applies (R410, R414). -/
def FFmt.stored (f : FFmt) (env : FpEnv) (c : Nat) : FRes :=
  match f.decode c with
  | .fin s m e => if env.ftzo && m != 0 && f.subnormal m e then ⟨f.signBit s, fUF ||| fNX⟩ else ⟨c, 0⟩
  | _ => ⟨c, 0⟩

/-- Contributor number u's tile (R414). -/
def mulTile (s : State) (c : Cmd) (v : Cells 32) (u : Nat) : Tile :=
  let env := mxEnv c
  let old (i j : Nat) : Nat := if c.acc then ofBytes (allotRead s c.tid 2 (tileOff c u + cPos c i j) c.pair.cBytes) else 0
  let x : Tile := { c := (List.range (tileRows c)).map (fun i => (List.range (tileCols c)).map (old i)) }
  let y := (List.range (mxSteps s c)).foldl (fun x t =>
    if c.m / 16 ≤ 1 then (livePos s c t).foldl (fmaStep s c env v t) x
    else (List.range (c.pair.k / 32)).foldl (blockStep s c env v u t) x) x
  y.each (fun _ _ z => (if c.m / 16 == 0 then Ty.f64 else Ty.f32).fmt.stored env z)

/-! ### Results -/

/-- The matrix engine writes a buffer (R409): its words become full, and no chunk is squashed. -/
def mxPut (tid : Nat) (s : State) (w : Nat × Nat × List Byte) : State :=
  s.modTeam tid (fun t => t.setBuf w.1 ((t.buf w.1).put w.2.1 w.2.2))

/-- What a matrix command answers: its writes as (buffer, offset, bytes), its flags, the blocks it skipped. -/
structure MxOut where
  ws : List (Nat × Nat × List Byte) := []
  fl : BitVec 8 := 0
  skips : Nat := 0
  deriving DecidableEq, Repr

/-- mma, mloop and msparse (R424). -/
def mulOut (s : State) (c : Cmd) : MxOut :=
  let tiles := if c.acc && mxSteps s c == 0 then [] else c.tile.zipIdx.map (fun e => (mulTile s c e.1.2.1 e.2, e.2))
  { ws := tiles.flatMap (fun e => e.1.c.zipIdx.flatMap (fun r => r.1.zipIdx.map (fun x =>
      (2, tileOff c e.2 + cPos c r.2 x.2, leBytes c.pair.cBytes x.1))))
    fl := tiles.foldl (fun a e => a ||| e.1.fl) 0
    skips := tiles.foldl (fun a e => a + e.1.skips) 0 }

/-- mchk (R419). -/
def mchkOut (s : State) (c : Cmd) : MxOut :=
  let env := mxEnv c
  let f := Ty.f32.fmt
  let w (o : Nat) : FV := f.read env (ofBytes (allotRead s c.tid 2 (c.coff + o) 4))
  let one (vs : List FV) (ref : FV) : FRes :=
    let all := vs ++ [ref.negate]
    let t := all.foldl (fun (a : FV × Flags) x => let r := addExact env a.1 x; (r.1, a.2 ||| r.2)) (.fin false 0 0, 0)
    f.deliverV env t.1 (t.2 ||| snanFlags all)
  let col := (List.range 16).map (fun j => one ((List.range 16).map (fun i => w (64 * i + 4 * j))) (w (1024 + 4 * j)))
  let row := (List.range 16).map (fun i => one ((List.range 16).map (fun j => w (64 * i + 4 * j))) (w (1092 + 4 * i)))
  { ws := (col ++ row).zipIdx.map (fun e => (2, c.coff + 1280 + 4 * e.2, leBytes 4 e.1.code))
    fl := flags8 ((col ++ row).foldl (fun a e => a ||| e.fl) 0) }

/-- mzero (R426). -/
def mzeroOut (c : Cmd) : MxOut := { ws := [(2, c.rcd, List.replicate (c.arg 0) 0)] }

/-- Codes packed densely: 4-bit ones in pairs (R67). -/
def packCodes (bits : Nat) (l : List Nat) : List Byte :=
  if bits == 4 then (List.range (l.length / 2)).map (fun k =>
    BitVec.ofNat 8 (l.getD (2 * k) 0 % 16 + l.getD (2 * k + 1) 0 % 16 * 16))
  else l.flatMap (leBytes (bits / 8))

/-- mconv (R431, R432). -/
def mconvOut (s : State) (c : Cmd) : MxOut :=
  let st := if bitAt c.code 1 then Ty.f64 else Ty.f32
  let dt := Ty.ofCode c.dty
  let z := st.width / 8
  let src := allotRead s c.tid 2 c.rcd (c.arg 1 * z)
  let x (e : Nat) : Nat := recField src (z * e) z
  let at_ (a : Nat) (d : List Byte) : List (Nat × Nat × List Byte) :=
    match localBase a with | some (b, o) => [(b, o, d)] | none => []
  if bitAt c.code 0 then
    let rc := quantRc c c.rc
    let q := (List.range (c.arg 1 / 32)).map (fun b =>
      let env := cmdEnv s c rc (32 * b)
      quantise dt env (bitAt (c.arg 2) 7) ((List.range 32).map (fun i => (cmdEnv s c rc (32 * b + i)).t))
        ((List.range 32).map (fun i => some (st.fmt.read env (x (32 * b + i))))))
    { ws := at_ (c.arg 0) (packCodes dt.width (q.flatMap (fun r => r.2.1.map (fun o => o.getD 0))))
        ++ at_ (c.arg 3) (q.map (fun r => BitVec.ofNat 8 r.1))
      fl := flags8 (q.foldl (fun a r => a ||| r.2.2) 0) }
  else
    let r := (List.range (c.arg 1)).map (fun e => cvtVal st dt (cmdEnv s c c.rc e) (x e))
    { ws := at_ (c.arg 0) (packCodes dt.width (r.map (fun e => e.code)))
      fl := flags8 (r.foldl (fun a e => a ||| e.fl) 0) }

/-- The flags that a command may raise (R420): NV, OF, UF and NX where it computes, with SAT for `mconv`, ICW where it reads ix4
and SKIP where it may skip a block. -/
def mxFlags (c : Cmd) : BitVec 8 :=
  match c.opc with
  | 0xB2 | 0xB5 => 0
  | 0xB7 => 0x1D
  | 0xBA => 0x3D
  | _ => 0x1D ||| (if c.m / 16 == 9 then 0x40 else 0) ||| (if 2 ≤ c.m / 16 && !c.repro then 0x80 else 0)

/-- Results that another agent has overwritten (R409): every byte that the command writes is a free value; its flags, which it
raises in computing, stand (R9). -/
def spoilBytesOut (s : State) (o : MxOut) : MxOut :=
  { o with ws := o.ws.map (fun w => (w.1, w.2.1, w.2.2.zipIdx.map (fun e =>
      (Config.freeValue (s.free + 2 ^ 14 + w.1 * 2 ^ 21 + w.2.1 + e.2)).truncate 8))) }

/-- The blocks of A that a multiply may skip. -/
def blockCount (s : State) (c : Cmd) : Nat := 16 * (contributors c).length * mxSteps s c * (c.pair.k / 32)

/-- Undefined operands (R409): what the command computes of them is free, its bytes, its flags and the blocks it skips. -/
def spoilOut (s : State) (c : Cmd) (o : MxOut) : MxOut :=
  let fl := (Config.freeValue s.free).truncate 8 &&& mxFlags c
  { spoilBytesOut s o with
    fl := fl
    skips := if fl.getLsbD 7 then 1 + (Config.freeValue (s.free + 1)).toNat % blockCount s c else 0 }

/-- The registers that a multiply read of a contributor have been written since (R409). -/
def tileChanged (s : State) (c : SentCmd) (e : Nat × Cells 32 × Cells 64) : Bool :=
  !c.idx.contains e.1 && (match groupAt s c.cmd.tid e.1 with
    | some g => !tilesAgree s c.cmd e.2.2 g.regs.nv
    | none => false)
def tilesChanged (s : State) (c : SentCmd) : Bool := isMul c.cmd.opc && c.cmd.tile.any (tileChanged s c)

/-- A latch that the command filled from such registers holds free values. -/
def spoilLatches (s : State) (c : SentCmd) : State :=
  if !(isMul c.cmd.opc && c.cmd.reuse) then s
  else (c.cmd.tile.filter (tileChanged s c)).foldl (fun s e => match groupAt s c.cmd.tid e.1 with
    | some g => s.modGroup g.gid (fun g =>
      { g with latch := g.latch.map (fun l => if l.1 == c.cmd.areg && l.2.1 == c.cmd.m / 16 then (l.1, l.2.1, freeLanes s c.cmd e.1) else l) })
    | none => s) s

/-- An operand of the command is undefined: it has been written by another agent, or its index list, as an earlier command of the
team has left it, names a row outside W (log 114). -/
def operandsLost (s : State) (c : SentCmd) : Bool := c.raced || tilesChanged s c || (isMul c.cmd.opc && !rowsOk s c.cmd)

/-- The armed flip of FAULTINJ (R421), after the last write of the command that it applies to. -/
def flipFault (s : State) (c : Cmd) : State :=
  let k := s.coreAt c.core
  if k.fiCmd == some c.kid && k.faultinj.getLsbD 63 && !k.faultinj.getLsbD 62 then
    let o := k.faultinj.toNat % 2 ^ 20 / 4 * 4
    let w := ofBytes (allotRead s c.tid 2 o 4) ^^^ 2 ^ slice k.faultinj.toNat 24 20
    (mxPut c.tid s (2, o, leBytes 4 w)).setCore c.core { k with faultinj := k.faultinj ||| BitVec.ofNat 64 (2 ^ 62) }
  else s

/-- The result of a running matrix command, but for `attn`. -/
def mxOut (s : State) (c : SentCmd) : MxOut :=
  let o := match c.cmd.opc with
    | 0xB2 => mzeroOut c.cmd
    | 0xB5 => {}
    | 0xB7 => mchkOut s c.cmd
    | 0xBA => mconvOut s c.cmd
    | _ => mulOut s c.cmd
  if operandsLost s c then spoilOut s c.cmd o else if c.lost then spoilBytesOut s o else o

/-- A matrix command but for `attn` finishes: it writes, and then it counts (R409, R410). -/
def mxFinish (s : State) (c : SentCmd) : State :=
  let o := mxOut s c
  let s := o.ws.foldl (mxPut c.cmd.tid) (spoilLatches s c)
  let s := if c.cmd.opc == 0xB5 then s.modTeam c.cmd.tid (bindScale c.cmd) else s
  let s := flipFault s c.cmd
  let s := s.countEv c.cmd.core c.cmd.tid 0x08 o.skips
  let s := feWake { s with free := s.free + 2 ^ 24 } c.cmd.tid
  finishCmd s { c with flags := c.flags ||| o.fl } 0

/-- FAULTINJ's flip takes the first command accepted that writes its word (R421). -/
def armFlip (s : State) (c : SentCmd) : State :=
  let k := s.coreAt c.cmd.core
  let o := k.faultinj.toNat % 2 ^ 20 / 4 * 4
  if k.faultinj.getLsbD 63 && !k.faultinj.getLsbD 62 && k.fiCmd.isNone && k.fiTeam == c.cmd.tid
      && (isMul c.cmd.opc || c.cmd.opc == 0xB2) && overlaps (mxWrites s c.cmd) 2 o 4
  then s.setCore c.cmd.core { k with fiCmd := some c.cmd.kid } else s

end Sys2Proof.Machine
end

