-- ==== Sys2Proof/Machine/Attn.lean ====
section
/-! DEFINITION. attn (R452 to R454, R459): the snapshot chunk, the scores, weights and output, and the release of each
page with its masses and its return to the pool (R449). -/

namespace Sys2Proof.Machine

open Sys2Proof

/-! ### f32 values with their flags (R453) -/

/-- A value rounded rne to f32. -/
def r32 (v : FV) : FV × Flags :=
  let r := Ty.f32.fmt.deliverV {} v 0
  (Ty.f32.fmt.decode r.code, r.fl)

/-- An exact a*b + c*d, with NV where it is invalid. -/
def mulAdd (a b c d : FV) : FV × Flags :=
  let p := mulV a b
  let q := mulV c d
  let t := addExact {} p.1 q.1
  (t.1, p.2 ||| q.2 ||| t.2)

/-- An exact value rounded once, with the flags of forming it. -/
def r32With (x : FV × Flags) : FV × Flags := let r := r32 x.1; (r.1, r.2 ||| x.2)

/-- The quotient of a value by a positive finite one. -/
def divV (x l : FV) : FV :=
  match x, l with
  | .fin s m e, .fin _ n e' => if m == 0 then .fin s 0 0 else let q := divDy m e n e'; .fin s q.1 q.2
  | v, _ => v

/-- exp(a - b) for a <= b, rounded once: 1 at 0 and +0 for a = -inf. -/
def expDiff (a b : FV) : FV × Flags :=
  match a with
  | .inf _ => (.fin false 0 0, 0)
  | _ => r32 (expNegDy (a.dy.sub b.dy))

/-! ### Rotary positions -/

/-- f(i) of R453, from lb. -/
def ropeFreq (d : Nat) (lb : FV) (i : Nat) : FV :=
  match lb with
  | .fin s m e =>
    if i == 0 || m == 0 then .fin false 1 0
    else
      let q := divDy (2 * i * m) e d 0
      (r32 (exp2Dy (r32 (.fin (!s) q.1 q.2)).1.dy)).1
  | v => v

/-- lb of R453. -/
def ropeLog (base : FV) : FV :=
  match base with
  | .fin _ m e => (r32 (log2Dy m e)).1
  | v => v

/-- The rounded cosine and sine of pos times a frequency. -/
def ropeAngle (pos : Nat) (f : FV) : FV × FV :=
  match f with
  | .fin _ m e => let a := cosSinDy (pos * m) e; ((r32 a.1).1, (r32 a.2).1)
  | v => (v, v)

/-- A vector rotated to a position (R453). -/
def rope (base : Option FV) (d pos : Nat) (x : List FV) : List FV × Flags :=
  match base with
  | none => (x, 0)
  | some b =>
    let lb := ropeLog b
    let ys := (List.range (d / 2)).map (fun i =>
      let a := ropeAngle pos (ropeFreq d lb i)
      let x0 := x.getD (2 * i) (.fin false 0 0)
      let x1 := x.getD (2 * i + 1) (.fin false 0 0)
      (r32 (mulAdd x0 a.1 x1.negate a.2).1, r32 (mulAdd x0 a.2 x1 a.1).1))
    (ys.flatMap (fun y => [y.1.1, y.2.1]), ys.foldl (fun a y => a ||| y.1.2 ||| y.2.2) 0)

/-! ### Scores and weights -/

/-- A key of the snapshot: its position, its key and its value as read, with the flags of scaling the value. -/
structure Key where
  pos : Nat
  k : List FV
  v : List FV
  fl : Flags := 0
  deriving DecidableEq, Repr

/-- s(k) of R453. -/
def score (scale : FV) (q k : List FV) : FV × Flags :=
  r32 (mulV scale (sumV ((q.zip k).map (fun e => (mulV e.1 e.2).1)))).1

/-- The running maximum, sum and accumulators of a query. -/
structure Soft where
  m : FV := .inf true
  l : FV := .fin false 0 0
  acc : List FV
  fl : Flags := 0
  deriving DecidableEq, Repr

/-- One unmasked key. -/
def Soft.step (x : Soft) (s : FV) (v : List FV) : Soft :=
  let mn := if x.m.minLt s then s else x.m
  let c := expDiff x.m mn
  let e := expDiff s mn
  let l := r32With (mulAdd x.l c.1 e.1 (.fin false 1 0))
  let acc := (x.acc.zip v).map (fun a => r32With (mulAdd a.1 c.1 e.1 a.2))
  { m := mn, l := l.1, acc := acc.map (fun a => a.1)
    fl := acc.foldl (fun f a => f ||| a.2) (x.fl ||| c.2 ||| e.2 ||| l.2) }

/-- What a query gives: its row of O as codes, its weight of each key, its flags. -/
structure QueryOut where
  o : List Nat
  w : List FV
  fl : Flags
  deriving DecidableEq, Repr

/-- One query (R453): `keys` in logical order with their scores, none where the causal mask hides one. -/
def query (env : FpEnv) (d : Nat) (keys : List (Key × Option (FV × Flags))) : QueryOut :=
  let f := Ty.f32.fmt
  let fl := keys.foldl (fun (a : Flags) e => match e.2 with | some x => a ||| x.2 | none => a) 0
  let wrong := keys.any (fun e => match e.2 with | some (.nan _, _) => true | some (.inf false, _) => true | _ => false)
  if wrong then
    { o := List.replicate d f.defNan, w := keys.map (fun _ => .nan false), fl := fl ||| fNV }
  else
    let open_ (e : Key × Option (FV × Flags)) : Bool := match e.2 with | some (.fin _ _ _, _) => true | _ => false
    let sc (e : Key × Option (FV × Flags)) : FV := match e.2 with | some x => x.1 | none => .inf true
    let t := (keys.filter open_).foldl (fun (x : Soft) e => x.step (sc e) e.1.v)
      { acc := List.replicate d (.fin false 0 0), fl := (keys.filter open_).foldl (fun a e => a ||| e.1.fl) 0 }
    let os := t.acc.map (fun a => if t.l.isZero then ⟨0, 0⟩ else f.deliverV env (divV a t.l) 0)
    let ws := keys.map (fun e => if !open_ e || t.l.isZero then (.fin false 0 0, 0)
      else let x := expDiff (sc e) t.m; let y := r32 (divV x.1 t.l); (y.1, x.2 ||| y.2))
    { o := os.map (fun r => r.code), w := ws.map (fun w => w.1)
      fl := ws.foldl (fun a w => a ||| w.2) (os.foldl (fun a r => a ||| r.fl) (fl ||| t.fl)) }

/-- Insert by a key. -/
def insertBy (k : Nat → Nat) (x : Nat) : List Nat → List Nat
  | [] => [x]
  | y :: r => if k x < k y then x :: y :: r else y :: insertBy k x r

/-- The order of the additions over q (R454): increasing with REPRO.ON = 1, and a free one without it. -/
def queryOrder (s : State) (c : Cmd) (n : Nat) : List Nat :=
  if c.repro then List.range n
  else (List.range n).foldr (insertBy (fun q => (Config.freeValue (s.free + q)).toNat)) []

/-- S(k): each addition rounded rne to f32. -/
def massSum (order : List Nat) (w : Nat → FV) : FV × Flags :=
  match order with
  | [] => (.fin false 0 0, 0)
  | q :: r => r.foldl (fun (a : FV × Flags) q =>
      let t := addExact {} a.1 (w q)
      let x := r32 t.1
      (x.1, a.2 ||| t.2 ||| x.2)) (w q, 0)

/-! ### The snapshot (R452, R455) -/

/-- The record's fields (R459). -/
def recNq (b : List Byte) : Nat := recField b 0 2
def recQ (b : List Byte) : Nat := recField b 4 4
def recO (b : List Byte) : Nat := recField b 8 4

/-- The checks of an attention record at acceptance. -/
def checkAttn (s : State) (c : SentCmd) : EM (List Byte) :=
  match readAt s c c.cmd.rcd 64 with
  | .error (.err 0x25) => .error (.err 0x3A)
  | .error e => .error e
  | .ok b =>
    let base := Ty.f32.fmt.decode (recField b 16 4)
    let above := match base with | .fin false m e => Dy.lt (Dy.ofInt 1) ⟨m, e⟩ | _ => false
    if 1 ≤ recNq b && recNq b ≤ 16 && recField b 2 2 == 0 && recQ b % 64 == 0 && recO b % 64 == 0 && recField b 20 44 == 0
      && (!bitAt c.cmd.code 1 || above) then .ok b else .error (.err 0x3A)

/-- A page address lies in device memory of this package (R445). -/
def pagePlace (s : State) (a : Nat) : EM Unit :=
  match place s a with
  | some (.dev _ _) => .ok ()
  | _ => .error (.err 0x23)

/-- The pages of an entry's list. -/
def readList (s : State) (c : SentCmd) (e : KvEntry) : EM (List Nat) :=
  (List.range e.npages).mapM (fun k => (readGlob s c (wrap 64 ((e.list : Int) + (8 * k : Nat))) 8).map ofBytes)

def hdrLive (h : List Byte) : Nat := recField h 0x200 8
def hdrReaders (h : List Byte) : Nat := recField h 0x208 4
def hdrFlags (h : List Byte) : Nat := recField h 0x210 4
/-- A header that an `attn` or `ebb` refuses (0x39). -/
def hdrBad (h : List Byte) : Bool := bitAt (hdrFlags h) 0 || hdrFlags h / 4 != 0 || recField h 0x214 0x1EC != 0

/-- The pages of an entry with their headers, checked (R455). -/
def readPages (s : State) (c : SentCmd) (e : KvEntry) : EM (List (Nat × List Byte)) := do
  let ps ← readList s c e
  require 0x39 (ps.all (fun p => p % 1024 == 0))
  let _ ← ps.mapM (pagePlace s)
  let hs ← ps.mapM (fun p => (readGlob s c p 1024).map (fun h => (p, h)))
  require 0x38 (hs.foldl (fun n h => n + (liveSlots (hdrLive h.2)).length) 0 == e.nlive)
  require 0x39 (!hs.any (fun h => hdrBad h.2))
  .ok hs

/-- READERS of every listed page goes up by 1, once for each time that the page is listed. -/
def raiseReaders (hs : List (Nat × List Byte)) : List (Nat × List Byte) :=
  hs.zipIdx.map (fun e => (e.1.1 + 0x208,
    leBytes 4 (hdrReaders e.1.2 + ((hs.take (e.2 + 1)).filter (fun x => x.1 == e.1.1)).length)))

/-- Every run may be written. -/
def runsOk (s : State) (c : SentCmd) (ws : List (Nat × List Byte)) : EM Unit := do
  let _ ← ws.mapM (fun w => writeOk s c w.1 w.2.length)
  .ok ()

/-- What the snapshot finds: the record with the entry, and the pages. -/
def snapshot (s : State) (c : SentCmd) : EM (List Byte × List (Nat × List Byte)) := do
  let k := c.cmd
  let r ← if c.checked then .ok c.recb else checkAttn s c
  require 0x38 (prtOk s k.slot (k.arg 0))
  let eb ← readGlob s c (k.arg 0) 64
  let e := kvEntry eb
  require 0x38 (!e.selfBad)
  require 0x3A (recQ r + recNq r * 2 * e.d ≤ allotSize s k.tid 1 && recO r + recNq r * 4 * e.d ≤ allotSize s k.tid 2)
  let hs ← readPages s c e
  runsOk s c (raiseReaders hs)
  .ok (r ++ eb, hs)

/-- A page as the snapshot holds it. -/
def snapPage (h : Nat × List Byte) : SnapPage :=
  let live := hdrLive h.2
  { addr := h.1, live := live, pos := (liveSlots live).map (fun k => (k, recField h.2 (0x100 + 4 * k) 4)), sums := [] }

/-- The snapshot chunk of an `attn` at the head of its team's order. -/
def snapTry (s : State) (kid : Nat) : Option State :=
  match cmd? s kid with
  | none => none
  | some c =>
    if c.cmd.opc != 0xB8 || c.stage != .running 0 || cmdParked s kid then none
    else stepCmd s c (snapshot s c)
      (fun x => engineChunk s c (raiseReaders x.2) none (fun c =>
        { c with recb := x.1, checked := true, snap := x.2.map snapPage, stage := .running 1 }))
      (fun e => some (finishCmd s c e))

/-- ATTN_SNAPSHOT. -/
def execAttnSnapshot (kid : Nat) (s : State) : Host.Outcome State Fault Refusal := .next ((snapTry s kid).getD s)

/-! ### The run (R453) -/

/-- An element of a page with its flags: bf16, or e4m3 times the entry's scale (R446). -/
def kvElem (e : KvEntry) (env : FpEnv) (scale : FV) (b : List Byte) (i : Nat) : FV × Flags :=
  if e.e4m3 then mulV (Ty.e4m3.fmt.read env (recField b i 1)) scale else (Ty.bf16.fmt.read env (recField b (2 * i) 2), 0)

/-- The keys of the snapshot in logical order. -/
def readKeys (s : State) (c : SentCmd) (e : KvEntry) (env : FpEnv) : EM (List Key) := do
  let f := Ty.f32.fmt
  let ks := c.snap.flatMap (fun p => p.pos.map (fun x => (p.addr, x)))
  ks.mapM (fun x => do
    let kb ← readGlob s c (wrap 64 ((x.1 : Int) + (e.kAt x.2.1 : Nat))) (e.d * e.z)
    let vb ← readGlob s c (wrap 64 ((x.1 : Int) + (e.vAt x.2.1 : Nat))) (e.d * e.z)
    let vs := (List.range e.d).map (kvElem e env (f.read env e.vscale) vb)
    .ok { pos := x.2.2, k := (List.range e.d).map (fun i => (kvElem e env (f.read env e.kscale) kb i).1)
          v := vs.map (fun v => v.1), fl := vs.foldl (fun a v => a ||| v.2) 0 })

/-- The queries' results. -/
def attend (s : State) (c : SentCmd) (keys : List Key) : List QueryOut :=
  let k := c.cmd
  let r := c.recb
  let e := kvEntry (r.drop 64)
  let env := mxEnv k
  let f := Ty.f32.fmt
  let base := if bitAt k.code 1 then some (f.read env (recField r 16 4)) else none
  let scale := f.read env (recField r 12 4)
  let ks := keys.map (fun x => (x, rope base e.d x.pos x.k))
  (List.range (recNq r)).map (fun q =>
    let pos := k.arg 1 % 2 ^ 32 + q
    let qb := allotRead s k.tid 1 (recQ r + q * 2 * e.d) (2 * e.d)
    let qv := rope base e.d pos ((List.range e.d).map (fun i => Ty.bf16.fmt.read env (recField qb (2 * i) 2)))
    let o := query env e.d (ks.map (fun x =>
      if bitAt k.code 0 && pos < x.1.pos then (x.1, none)
      else let y := score scale qv.1 x.2.1; (x.1, some (y.1, y.2 ||| x.2.2))))
    { o with fl := o.fl ||| qv.2 })

/-- Cut a list of values into the pages' slots. -/
def dealSums : List SnapPage → List Nat → List SnapPage
  | [], _ => []
  | p :: r, l => { p with sums := (p.pos.map (fun x => x.1)).zip (l.take p.pos.length) } :: dealSums r (l.drop p.pos.length)

/-- Write O: its words become full, and no chunk is squashed (R409). -/
def putO (s : State) (c : SentCmd) (codes : List Nat) : State :=
  feWake (mxPut c.cmd.tid s (2, recO c.recb, codes.flatMap (leBytes 4))) c.cmd.tid

/-- The run of an `attn`: O is written and the weight sums are formed. Where Q or O has been written by another agent, or a
K or V read ends in an error, O is undefined (R409, R455). -/
def attnRun (s : State) (c : SentCmd) : Option State :=
  let k := c.cmd
  let e := kvEntry (c.recb.drop 64)
  let n := recNq c.recb * e.d
  let free (i : Nat) : Nat := (Config.freeValue (s.free + 2 ^ 14 + i)).toNat % 2 ^ 32
  let s1 := { s with free := s.free + 2 ^ 24 }
  let done (s : State) (sn : List SnapPage) (fl : BitVec 8) (err : Nat) : State :=
    modCmd s k.kid (fun c => { c with stage := .releasing 0, snap := sn, flags := c.flags ||| fl, err := err })
  stepCmd s c (readKeys s c e (mxEnv k))
    (fun keys =>
      let qs := attend s c keys
      let o := queryOrder s k qs.length
      let sums := (List.range keys.length).map (fun i =>
        massSum o (fun q => match qs[q]? with | some x => x.w.getD i (.fin false 0 0) | none => .fin false 0 0))
      let codes := if c.raced || c.lost then (List.range n).map free else qs.flatMap (fun q => q.o)
      let ss := if c.raced then (List.range keys.length).map (fun i => free (n + i)) else sums.map (fun x => Ty.f32.fmt.code x.1)
      let fl := if c.raced then (Config.freeValue s.free).truncate 8 &&& 0x1D
        else flags8 (sums.foldl (fun a x => a ||| x.2) (qs.foldl (fun a q => a ||| q.fl) 0))
      some (done (putO s1 c codes) (dealSums c.snap ss) fl 0))
    (fun err => some (done (putO s1 c ((List.range n).map free)) c.snap 0 err))

/-! ### Release (R449, R454) -/

/-- Return a page to a pool: the writes, or ORPHAN in its header's FLAGS `fl`. -/
def returnPage (s : State) (c : SentCmd) (pool count page fl : Nat) : EM (List (Nat × List Byte) × Nat) := do
  let cap ← (readGlob s c (wrap 64 ((pool : Int) + 4)) 4).map ofBytes
  if count + 1 ≤ cap then
    .ok ([(wrap 64 ((pool : Int) + (16 + 8 * count : Nat)), leBytes 8 page)], count + 1)
  else .ok ([(page + 0x210, leBytes 4 (fl ||| 2))], count)

/-- MASS of a slot after a release. -/
def newMass (env : FpEnv) (decay old x : Nat) : FRes :=
  let f := Ty.f32.fmt
  f.fmaV env (f.read env old) (f.read env decay) (f.decode x)

/-- The release chunk of a page: its writes and flags. -/
def releasePage (s : State) (c : SentCmd) (p : SnapPage) : EM (List (Nat × List Byte) × Flags) := do
  let e := kvEntry (c.recb.drop 64)
  let h ← readGlob s c p.addr 1024
  let retired := bitAt (hdrFlags h) 0
  let ms := if bitAt c.cmd.code 2 && !retired && c.err == 0
    then p.sums.map (fun x => (x.1, newMass (mxEnv c.cmd) e.decay (recField h (4 * x.1) 4) x.2)) else []
  let left := wrap 32 ((hdrReaders h : Int) - 1)
  let back ← if left == 0 && retired then do
      let n ← (readGlob s c e.pool 4).map ofBytes
      let r ← returnPage s c e.pool n p.addr (hdrFlags h)
      .ok (r.1 ++ (if r.2 == n then [] else [(e.pool, leBytes 4 r.2)]))
    else .ok []
  let ws := ms.map (fun x => (p.addr + 4 * x.1, leBytes 4 x.2.code)) ++ [(p.addr + 0x208, leBytes 4 left)] ++ back
  runsOk s c ws
  .ok (ws, ms.foldl (fun a x => a ||| x.2.fl) 0)

/-- One step of the release of an `attn`: its run, and then page by page. -/
def releaseTry (s : State) (kid : Nat) : Option State :=
  match cmd? s kid with
  | none => none
  | some c =>
    if c.cmd.opc != 0xB8 || cmdParked s kid then none
    else match c.stage with
      | .running 1 => attnRun s c
      | .releasing i =>
        (match c.snap[i]? with
          | none => none
          | some p => stepCmd s c (releasePage s c p)
              (fun x => engineChunk s c x.1 none (fun c =>
                { c with stage := .releasing (i + 1), flags := c.flags ||| flags8 x.2 }))
              (fun e => some (modCmd s kid (fun c =>
                { c with stage := .releasing (i + 1), err := if c.err == 0 then e else c.err }))))
      | _ => none

/-- ATTN_RELEASE. -/
def execAttnRelease (kid : Nat) (s : State) : Host.Outcome State Fault Refusal := .next ((releaseTry s kid).getD s)

end Sys2Proof.Machine
end

