-- ==== Sys2Proof/Machine/Ebb.lean ====
section
/-! DEFINITION. The Ebb engine (R456, R457, R460): the claim with its selection, the copy, the swap, and the end of a
command whose copy meets an error. -/

namespace Sys2Proof.Machine

open Sys2Proof

/-! ### Selection (R450, R457) -/

/-- A live token: its page, its slot and its mass. -/
structure Token where
  page : Nat
  slot : Nat
  mass : Nat
  deriving DecidableEq, Repr

/-- The live tokens of the listed pages in logical order. -/
def tokensOf (hs : List (Nat × List Byte)) : List Token :=
  hs.flatMap (fun h => (liveSlots (hdrLive h.2)).map (fun k => ⟨h.1, k, recField h.2 (4 * k) 4⟩))

/-- One mass ranks above another: a NaN ranks above every number. -/
def massAbove (a b : Nat) : Bool :=
  let x := Ty.f32.fmt.decode a
  let y := Ty.f32.fmt.decode b
  if x.isNan then !y.isNan else if y.isNan then false
  else y.minLt x && !(x.isZero && y.isZero)

/-- Logical index t is protected (R450). -/
def shielded (e : KvEntry) (t : Nat) : Bool := t < e.sink || e.nlive ≤ t + e.recent

/-- The logical indices that an `ebb` keeps. -/
def keptIndices (e : KvEntry) (mode arg : Nat) (ts : List Token) : List Nat :=
  let all := List.range ts.length
  let m (t : Nat) : Nat := (ts.getD t ⟨0, 0, 0⟩).mass
  let open_ := all.filter (fun t => !shielded e t)
  match mode with
  | 0 =>
    let b := arg % 2 ^ 32
    let p := ts.length - open_.length
    -- the rank of an unprotected token: those above it, and equal ones of lower index
    let rank (t : Nat) : Nat := (open_.filter (fun u => massAbove (m u) (m t) || (!massAbove (m t) (m u) && u < t))).length
    if ts.length ≤ b then all else all.filter (fun t => shielded e t || rank t < b - p)
  | 1 =>
    let th := Ty.f32.fmt.decode (arg % 2 ^ 32)
    let below (t : Nat) : Bool :=
      let x := Ty.f32.fmt.decode (m t)
      !x.isNan && x.minLt th && !(x.isZero && th.isZero)
    all.filter (fun t => shielded e t || !below t)
  | _ => all

/-! ### Claim -/

/-- The arguments of an `ebb` at acceptance (R457, R460). -/
def checkEbb (c : SentCmd) : EM (List Byte) := do
  let k := c.cmd
  require 0x3B (k.arg 1 != 0 && vaSpace (k.arg 1) != 3)
  require 0x26 (k.arg 1 % 8 == 0)
  require 0x3B (k.code % 4 != 1 || !(Ty.f32.fmt.decode (k.arg 0 % 2 ^ 32)).isNan)
  .ok []

/-- What a claim finds: the entry's bytes, its pages, the kept tokens, the pages taken, and the writes. -/
structure Claim where
  entry : List Byte
  pages : List (Nat × List Byte)
  kept : List (Nat × Nat)
  taken : List Nat
  ws : List (Nat × List Byte)
  deriving DecidableEq, Repr

def claimOf (s : State) (c : SentCmd) : EM Claim := do
  let k := c.cmd
  require 0x38 (prtOk s k.slot k.rcd)
  let eb ← readGlob s c k.rcd 64
  let e := kvEntry eb
  require 0x38 (!e.selfBad)
  require 0x3D (!e.busy)
  let hs ← readPages s c e
  let ts := tokensOf hs
  let kept := (keptIndices e (k.code % 4) (k.arg 0) ts).map (fun t => let x := ts.getD t ⟨0, 0, 0⟩; (x.page, x.slot))
  let n := (kept.length + 63) / 64
  -- a byte may have more than one address (R254, R276)
  let byte (a i : Nat) : Nat := normal s (wrap 64 ((a : Int) + (i : Nat)))
  require 0x3B (!(List.range (8 * n)).any (fun i => (List.range (8 * e.npages)).any (fun j => byte (k.arg 1) i == byte e.list j)))
  let count ← (readGlob s c e.pool 4).map ofBytes
  require 0x3C (n ≤ count)
  let taken ← (List.range n).mapM (fun i => (readGlob s c (wrap 64 ((e.pool : Int) + (16 + 8 * (count - 1 - i) : Nat))) 8).map ofBytes)
  require 0x39 (taken.all (fun p => p % 1024 == 0))
  let _ ← taken.mapM (pagePlace s)
  let ws := [(k.rcd + 36, leBytes 4 (e.flags ||| 2))] ++ (if n == 0 then [] else [(e.pool, leBytes 4 (count - n))])
  runsOk s c ws
  .ok { entry := eb, pages := hs, kept := kept, taken := taken, ws := ws }

/-- An `ebb` may start: it is the first queued of its die, and fewer than 2 are being worked on (R456). -/
def ebbMay (s : State) (c : SentCmd) : Bool :=
  let mine := s.cmds.filter (fun x => x.cmd.opc == 0xAA && dieOfCmd x == dieOfCmd c)
  (mine.find? (fun x => x.stage == .queued)).map (fun x => x.cmd.kid) == some c.cmd.kid
    && (mine.filter (fun x => match x.stage with | .running _ | .releasing _ => true | _ => false)).length < 2

/-- The claim of an `ebb` has started and has still to be made: it has no entry yet. -/
def claiming (c : SentCmd) : Bool := c.stage == .running 0 && c.recb.isEmpty

/-- The claim of an `ebb`: one that stalls has left the queue, and its unit works on it (R265, R456). -/
def claimTry (s : State) (kid : Nat) : Option State :=
  match cmd? s kid with
  | none => none
  | some c =>
    if c.cmd.opc != 0xAA || !(claiming c || (c.stage == .queued && ebbMay s c)) || cmdParked s kid then none
    else
      let begun := modCmd s kid (fun c => { c with stage := .running 0 })
      (stepCmd begun c (claimOf begun c)
        (fun x => engineChunk begun c x.ws none (fun c =>
          { c with recb := x.entry, snap := x.pages.map snapPage, kept := x.kept, taken := x.taken }))
        (fun e => some (finishCmd begun c e))).or (if c.stage == .queued then some begun else none)

/-- EBB_CLAIM. -/
def execEbbClaim (kid : Nat) (s : State) : Host.Outcome State Fault Refusal := .next ((claimTry s kid).getD s)

/-! ### Copy -/

/-- A byte of the copy: its destination, and where it comes from or what it is. -/
inductive CopyByte where
  | from_ (dst src : Nat)
  | const (dst : Nat) (b : Byte)
  deriving DecidableEq, Repr

def constBytes (a : Nat) (d : List Byte) : List CopyByte := d.zipIdx.map (fun e => .const (a + e.2) e.1)

/-- The header of new page n (R456): its masses are written by the swap. -/
def newHeader (c : SentCmd) (e : KvEntry) (n : Nat) : List CopyByte :=
  let p := c.taken.getD n 0
  let used := min 64 (c.kept.length - 64 * n)
  let zeros (a k : Nat) : List CopyByte := constBytes a (List.replicate k 0)
  zeros (p + 4 * used) (4 * (64 - used)) ++ zeros (p + 0x100 + 4 * used) (4 * (64 - used))
    ++ constBytes (p + 0x200) (leBytes 8 (2 ^ used - 1)) ++ constBytes (p + 0x208) (leBytes 4 0)
    ++ constBytes (p + 0x20C) (leBytes 4 (e.gen + 1)) ++ constBytes (p + 0x210) (leBytes 4 0) ++ zeros (p + 0x214) 0x1EC

/-- Everything that the copy writes, in order: the tokens, the headers, the list. -/
def copyStream (c : SentCmd) : List CopyByte :=
  let e := kvEntry c.recb
  let span (d sr n : Nat) : List CopyByte := (List.range n).map (fun i => .from_ (d + i) (sr + i))
  c.kept.zipIdx.flatMap (fun x =>
    let p := c.taken.getD (x.2 / 64) 0
    let k := x.2 % 64
    span (p + e.kAt k) (x.1.1 + e.kAt x.1.2) (e.d * e.z) ++ span (p + e.vAt k) (x.1.1 + e.vAt x.1.2) (e.d * e.z)
      ++ span (p + 0x100 + 4 * k) (x.1.1 + 0x100 + 4 * x.1.2) 4)
  ++ (List.range c.taken.length).flatMap (newHeader c e)
  ++ c.taken.zipIdx.flatMap (fun x => constBytes (c.cmd.arg 1 + 8 * x.2) (leBytes 8 x.1))

/-- The writes of the copy's chunk p. -/
def copyPiece (s : State) (c : SentCmd) (p : Nat) : EM (List (Nat × List Byte)) := do
  let bs ← (((copyStream c).drop (4096 * p)).take 4096).mapM (fun x => match x with
    | .from_ d a => (readGlob s c (a % 2 ^ 64) 1).map (fun b => (d, b.headD 0))
    | .const d b => .ok (d, b))
  let ws := joinRuns bs
  runsOk s c ws
  .ok ws

/-- The end after an error: the taken pages go back to the pool and BUSY is cleared (R456). -/
def undoClaim (s : State) (c : SentCmd) : EM (List (Nat × List Byte)) := do
  let e := kvEntry c.recb
  let fl ← (readGlob s c (c.cmd.rcd + 36) 4).map ofBytes
  let n ← (readGlob s c e.pool 4).map ofBytes
  let r ← c.taken.reverse.foldlM (fun (a : List (Nat × List Byte) × Nat) p => do
    let h ← (readGlob s c (p + 0x210) 4).map ofBytes
    let x ← returnPage s c e.pool a.2 p h
    .ok (a.1 ++ x.1, x.2)) ([], n)
  let ws := r.1 ++ [(e.pool, leBytes 4 r.2), (c.cmd.rcd + 36, leBytes 4 (fl - fl / 2 % 2 * 2))]
  runsOk s c ws
  .ok ws

/-- An error of the copy or of the swap. -/
def ebbFail (s : State) (kid e : Nat) : Option State :=
  some (modCmd s kid (fun c => { c with stage := .releasing 0, err := e }))

/-- A chunk of the copy, or the chunk that ends a failed one. -/
def copyTry (s : State) (kid : Nat) : Option State :=
  match cmd? s kid with
  | none => none
  | some c =>
    if c.cmd.opc != 0xAA || claiming c || cmdParked s kid then none
    else match c.stage with
      | .running p =>
        if (copyStream c).length ≤ 4096 * p then none
        else stepCmd s c (copyPiece s c p)
          (fun ws => engineChunk s c ws none (fun c => { c with stage := .running (p + 1) }))
          (ebbFail s kid)
      | .releasing 0 =>
        stepCmd s c (undoClaim s c)
          (fun ws => engineChunk s c ws none (fun c => { c with stage := .releasing 1 }))
          (fun _ => some (modCmd s kid (fun c => { c with stage := .releasing 1 })))
      | _ => none

/-- EBB_COPY. -/
def execEbbCopy (kid : Nat) (s : State) : Host.Outcome State Fault Refusal := .next ((copyTry s kid).getD s)

/-! ### Swap -/

/-- The writes of the swap chunk. -/
def swapOf (s : State) (c : SentCmd) : EM (List (Nat × List Byte)) := do
  let e := kvEntry c.recb
  let a := c.cmd.rcd
  let now ← readGlob s c a 64
  let ms ← c.kept.zipIdx.mapM (fun x =>
    (readGlob s c (x.1.1 + 4 * x.1.2) 4).map (fun b => (c.taken.getD (x.2 / 64) 0 + 4 * (x.2 % 64), b)))
  let n ← (readGlob s c e.pool 4).map ofBytes
  let olds := (c.snap.map (fun p => p.addr)).eraseDups
  let r ← olds.foldlM (fun (w : List (Nat × List Byte) × Nat) p => do
    let h ← (readGlob s c (p + 0x208) 12)
    let fl := recField h 8 4 ||| 1
    let x ← if recField h 0 4 == 0 then returnPage s c e.pool w.2 p fl else .ok ([], w.2)
    .ok (w.1 ++ [(p + 0x210, leBytes 4 fl)] ++ x.1, x.2)) ([], n)
  let fl := recField now 36 4
  let ws := ms ++ r.1 ++ (if r.2 == n then [] else [(e.pool, leBytes 4 r.2)])
    ++ [(a, leBytes 8 (c.cmd.arg 1)), (a + 16, leBytes 4 c.taken.length), (a + 20, leBytes 4 c.kept.length),
        (a + 32, leBytes 4 (recField now 32 4 + 1)), (a + 36, leBytes 4 (fl - fl / 2 % 2 * 2))]
  runsOk s c ws
  .ok ws

/-- The swap of an `ebb` whose copy is complete. -/
def swapTry (s : State) (kid : Nat) : Option State :=
  match cmd? s kid with
  | none => none
  | some c =>
    if c.cmd.opc != 0xAA || claiming c || cmdParked s kid then none
    else match c.stage with
      | .running p =>
        if 4096 * p < (copyStream c).length then none
        else stepCmd s c (swapOf s c)
          (fun ws => (engineChunk s c ws none (fun c => { c with stage := .releasing 1 })).map (fun s =>
            s.countDie (dieOfCmd c) 0x12 ((kvEntry c.recb).nlive - c.kept.length)))
          (ebbFail s kid)
      | _ => none

/-- EBB_SWAP. -/
def execEbbSwap (kid : Nat) (s : State) : Host.Outcome State Fault Refusal := .next ((swapTry s kid).getD s)

end Sys2Proof.Machine
end

