-- ==== Sys2Proof/Machine/Graph.lean ====
section
/-! DEFINITION. Dependence graphs (R385, R386, R396, R397): the arming of nodes, the launch of a node, the finish of one with
its successors, and the end of a walk. -/

namespace Sys2Proof.Machine

open Sys2Proof

/-! ### Nodes (R385) -/

/-- A node lies in G or in device memory. -/
def nodePlace (s : State) (a : Nat) : EM Unit :=
  match localBase a with
  | some (b, _) => require 0x23 (b == 3)
  | none => pagePlace s a

/-- Nodes from an address, one after another. -/
def nodesPlace (s : State) (tid a n : Nat) : EM Unit := do
  nodePlace s a
  spanOk s tid a (0, 64 * (n : Int))

/-- The byte address that lies a signed number of 64-byte slots from another. -/
def nodeAddr (a : Nat) (k : Int) : Nat := wrap 64 ((a : Int) + 64 * k)

def nodeState (b : List Byte) : Nat := recField b 60 1
def nodeLeft (b : List Byte) : Nat := recField b 3 1
def nodeArmed (b : List Byte) : Bool := bitAt (nodeState b) 0
def nodeFailed (b : List Byte) : Bool := bitAt (nodeState b) 1
def nodeLaunched (b : List Byte) : Bool := bitAt (nodeState b) 2

/-- Its counter; none for 0xFFFF_FFFF. -/
def nodeCtr (b : List Byte) : Option Nat := let c := recField b 4 4; if c == 0xFFFFFFFF then none else some c

/-- A code field that a node's command may have. -/
def nodeCodeOk (opc code : Nat) : Bool :=
  let t := code / 16
  match opc with
  | 0x00 | 0xA1 => true
  | 0x69 => (t ≤ 2 || (4 ≤ t && t ≤ 6) || (9 ≤ t && t ≤ 13)) && code / 4 % 4 == 0
  | 0xA0 | 0xA7 => code == 0
  | 0xA2 | 0xA8 => code ≤ 1
  | 0xA3 => code ≤ 3
  | _ => false

/-- No field of a node is malformed, and its counter passes the checks of R369 (R386). -/
def nodeOk (s : State) (tid : Nat) (b : List Byte) : Bool :=
  let o := recField b 0 1
  nodeCodeOk o (recField b 1 1)
    && (o == 0 || o == 0x69 || recField b 8 8 % 64 == 0)
    && (match nodeCtr b with | some c => c % 4 == 0 && c + 4 ≤ allotSize s tid 3 | none => true)
    && nodeState b / 8 == 0 && recField b 61 3 == 0

/-! ### Walks -/

def walk? (s : State) (wid : Nat) : Option Walk := s.walks.find? (fun w => w.wid == wid)
def modWalk (s : State) (wid : Nat) (f : Walk → Walk) : State :=
  { s with walks := s.walks.map (fun w => if w.wid == wid then f w else w) }

/-- Write an error code into a walk's counter, with nothing counted. -/
def walkErr (s : State) (wid e : Nat) : State :=
  match walk? s wid with
  | some w => (match w.ctr with | some c => if w.cancelled then s else counterPost s ⟨w.tid, c, e, 0, []⟩ | none => s)
  | none => s

/-- A walk with no unfinished node ends: its counter counts 1, unless it has been cancelled (R397, R401). -/
def walkEnd (s : State) (wid : Nat) : State :=
  match walk? s wid with
  | none => s
  | some w =>
    if !w.nodes.isEmpty then s
    else
      let s := { s with walks := s.walks.filter (fun x => x.wid != wid) }
      if w.cancelled then s
      else
        match w.ctr with
        | some c => counterPost s ⟨w.tid, c, 0, 1, [7, 6]⟩
        | none => pulse s w.core w.tid 6

/-- The command of a node, sent with what the walk's group held (R372, R386); split 4 is none. -/
def nodeCmd (w : Walk) (kid a : Nat) (b : List Byte) : Cmd :=
  { kid := kid, opc := recField b 0 1, code := recField b 1 1, gid := w.gid, tid := w.tid, core := w.core, slot := w.slot
    rcd := recField b 8 8, args := (List.range 4).map (fun k => recField b (16 + 8 * k) 8), ctr := nodeCtr b
    fpmode := w.fpmode, repro := w.repro, srseed := w.srseed, sp := 4, node := some (a, w.wid) }

/-- A counter update of a node that runs no command. -/
def nodeCount (s : State) (w : Walk) (c : Option Nat) (e : Nat) : State :=
  match c with
  | some c => counterPost s ⟨w.tid, c, e, 1, [7]⟩
  | none => s

/-- A launched node's command goes to the port; a malformed, failed or empty node finishes at once. `b` is the node before its
LAUNCHED bit. -/
def sendNode (s : State) (w : Walk) (a : Nat) (b : List Byte) (failed : Bool) : State :=
  let k := nodeCmd w s.nextId a b
  let s := modWalk { s with nextId := s.nextId + 1 } w.wid (fun w => { w with nodes := w.nodes ++ [a] })
  let put (s : State) (k : Cmd) (st : Stage) (e : Nat) : State := { s with cmds := s.cmds ++ [{ cmd := k, stage := st, err := e }] }
  if !nodeOk s w.tid b then put (walkErr s w.wid 0x2D) { k with ctr := none } .done 0x2D
  else if failed then put (nodeCount s w k.ctr 0x2E) k .done 0x2E
  else if k.opc == 0 then put (nodeCount s w k.ctr 0) k .done 0
  else put s k .port 0

/-! ### The graph walker: gnode and grun -/

/-- The walker commands of a die. -/
def isWalkerCmd (o : Nat) : Bool := o == 0xA4 || o == 0xA5

/-- Nodes that a `gnode` arms. -/
def armCount (c : Cmd) : Nat := if c.arg 0 == 0 then 1 else c.arg 0

/-- The checks of a walker command at acceptance. -/
def checkWalker (s : State) (c : Cmd) : EM Unit := do
  require 0x22 (c.opc != 0xA4 || c.arg 0 ≤ 4096)
  nodesPlace s c.tid c.rcd (if c.opc == 0xA4 then armCount c else 1)

/-- The walker takes its queue in order; a `grun` waits while 64 walks are in progress. -/
def walkerMay (s : State) (c : SentCmd) : Bool :=
  let d := dieOfCmd c
  let mine := s.cmds.filter (fun x => isWalkerCmd x.cmd.opc && dieOfCmd x == d)
  (mine.find? (fun x => x.stage == .queued)).map (fun x => x.cmd.kid) == some c.cmd.kid
    && mine.all (fun x => match x.stage with | .running _ => false | _ => true)
    && (c.cmd.opc == 0xA4 || (s.walks.filter (fun w => State.dieOf w.core == d)).length < 64)

/-- The writes that arm a node: LEFT becomes NPRED, and STATE ARMED alone. -/
def armNode (s : State) (c : SentCmd) (a : Nat) : EM (List (Nat × List Byte)) := do
  let n ← readNum s c (a + 2) 1
  let ws := [(a + 3, leBytes 1 n), (a + 60, leBytes 1 1)]
  runsOk s c ws
  .ok ws

/-- An error ends a command with its next COMMAND_FINISH. -/
def setErr (s : State) (kid e : Nat) : Option State := some (modCmd s kid (fun c => { c with err := if c.err == 0 then e else c.err }))

/-- A step of a `gnode`. -/
def gnodeTry (s : State) (c : SentCmd) : Option State :=
  match c.stage with
  | .queued => if walkerMay s c then some (modCmd s c.cmd.kid (fun c => { c with stage := .running 0 })) else none
  | .running p =>
    if armCount c.cmd ≤ p || c.err != 0 then none
    else stepCmd s c (armNode s c (nodeAddr c.cmd.rcd p))
      (fun ws => engineChunk s c ws none (fun c => { c with stage := .running (p + 1) }))
      (setErr s c.cmd.kid)
  | _ => none

/-- What a launch finds: the node, and whether it is launched, with the write of STATE. -/
def readNode (s : State) (c : SentCmd) (a : Nat) : EM (List Byte × Bool) := do
  let b ← readAt s c a 64
  let go := nodeArmed b && !nodeLaunched b && nodeLeft b == 0
  if go then runsOk s c [(a + 60, leBytes 1 (nodeState b ||| 4))]
  .ok (b, go)

/-- A `grun` starts: its root is launched, or the walk ends at once. -/
def grunTry (s : State) (c : SentCmd) : Option State :=
  let k := c.cmd
  if c.stage != .queued || !walkerMay s c then none
  else stepCmd s c (readNode s c k.rcd)
    (fun x =>
      if !x.2 then some (finishCmd s c 0)
      else (engineChunk s c [(k.rcd + 60, leBytes 1 (nodeState x.1 ||| 4))] none id).map (fun s =>
        let w : Walk := { wid := k.kid, tid := k.tid, gid := k.gid, core := k.core, slot := k.slot, ctr := k.ctr
                          space := vaSpace k.rcd, nodes := [], fpmode := k.fpmode, repro := k.repro, srseed := k.srseed }
        sendNode { s with cmds := s.cmds.filter (fun x => x.cmd.kid != k.kid), walks := s.walks ++ [w] } w k.rcd x.1
          (nodeFailed x.1)))
    (fun e => some (finishCmd s c e))

/-! ### The finish of a node (R386) -/

/-- A successor as it is found. -/
structure Succ where
  addr : Nat
  node : List Byte
  left : Nat
  state : Nat
  go : Bool
  deriving DecidableEq, Repr

/-- The writes of a successor that change something. -/
def Succ.writes (x : Succ) : List (Nat × List Byte) :=
  let st := if x.go then x.state ||| 4 else x.state
  (if x.left == nodeLeft x.node then [] else [(x.addr + 3, leBytes 1 x.left)])
    ++ (if st == nodeState x.node then [] else [(x.addr + 60, leBytes 1 st)])

/-- Successor number i of a node: LEFT goes down by 1 if it is above 0, and FAILED is set by a failed node. -/
def readSucc (s : State) (c : SentCmd) (a wid i : Nat) : EM (Option Succ) := do
  let k ← readNum s c (a + 48 + 2 * i) 2
  if k == 0 then .ok none
  else
    let t := nodeAddr a (toSigned 16 k)
    nodePlace s t
    let b ← readAt s c t 64
    let left := nodeLeft b - 1
    let st := if c.err != 0 then nodeState b ||| 2 else nodeState b
    let live := match walk? s wid with | some w => !w.cancelled | none => false
    let x : Succ := { addr := t, node := b, left := left, state := st
                      go := live && left == 0 && nodeArmed b && !nodeLaunched b }
    runsOk s c x.writes
    .ok (some x)

/-- The node leaves its walk. -/
def nodeLeave (s : State) (c : SentCmd) (a wid : Nat) : State :=
  walkEnd (modWalk { s with cmds := s.cmds.filter (fun x => x.cmd.kid != c.cmd.kid) } wid
    (fun w => { w with nodes := w.nodes.erase a })) wid

/-- A step of a finished node: its pulse, each successor in turn, and the end. -/
def nodeTry (s : State) (kid : Nat) : Option State :=
  match cmd? s kid with
  | none => none
  | some c =>
    match c.cmd.node with
    | none => none
    | some (a, wid) =>
      if cmdParked s kid then none
      else match c.stage with
        | .done => some (modCmd (pulse s c.cmd.core c.cmd.tid 6) kid (fun c => { c with stage := .releasing 0 }))
        | .releasing i =>
          let next (c : SentCmd) : SentCmd := { c with stage := .releasing (i + 1) }
          if 6 ≤ i then some (nodeLeave s c a wid)
          else stepCmd s c (readSucc s c a wid i)
            (fun x => match x with
              | none => some (modCmd s kid next)
              | some x => (engineChunk s c x.writes none next).map (fun s =>
                  match walk? s wid with
                  | some w => if x.go then sendNode s w x.addr x.node (bitAt x.state 1) else s
                  | none => s))
            (fun e => some (modCmd (walkErr s wid e) kid next))
        | _ => none

/-- GRAPH_NODE_FINISH. -/
def execGraphNodeFinish (kid : Nat) (s : State) : Host.Outcome State Fault Refusal := .next ((nodeTry s kid).getD s)

end Sys2Proof.Machine
end

