-- ==== Sys2Proof/Machine/Engine.lean ====
section
/-! DEFINITION. A command's way through the machine (R306, R367, R368, R384, R236): its acceptance into a unit's queue or the
held pool, its release at a gate, its engine chunks, and its finish. -/

namespace Sys2Proof.Machine

open Sys2Proof

/-! ### Queues (R367, R368) -/

/-- Accepted, unfinished commands of an asynchronous engine, those only queued or all. -/
def engineLoad (s : State) (core u : Nat) (queued : Bool) : Nat :=
  (s.cmds.filter (fun c => isAsyncCmd c.cmd.opc && c.cmd.core == core && c.unit == u
    && (match c.stage with | .queued => true | .running _ => !queued | _ => false))).length

/-- The engine that an asynchronous command goes to. -/
def pickEngine (s : State) (core : Nat) : Nat := if engineLoad s core 1 false < engineLoad s core 0 false then 1 else 0

/-- The queued commands of a unit: those that a test picks. -/
def queuedOf (s : State) (f : SentCmd → Bool) : Nat := (s.cmds.filter (fun c => c.stage == .queued && f c)).length

/-- The queue of a command's unit takes it. -/
def unitRoom (s : State) (c : SentCmd) : Bool :=
  let o := c.cmd.opc
  let k := c.cmd.core
  if isAsyncCmd o then engineLoad s k (pickEngine s k) true < 32
  else if o == 0x69 then queuedOf s (fun x => x.cmd.opc == 0x69 && x.cmd.core == k) < 8
  else if o == 0xAA then queuedOf s (fun x => x.cmd.opc == 0xAA && dieOfCmd x == dieOfCmd c) < 16
  else if isWalkerCmd o then queuedOf s (fun x => isWalkerCmd x.cmd.opc && dieOfCmd x == dieOfCmd c) < 64
  else queuedOf s (fun x => isMatrixCmd x.cmd.opc && x.cmd.core == k) < 32

/-- The checks of a command at acceptance; they answer its record. -/
def checkCmd (s : State) (c : SentCmd) : EM (List Byte) :=
  let ok (x : EM Unit) : EM (List Byte) := x.map (fun _ => [])
  match c.cmd.opc with
  | 0x69 => checkNz s c
  | 0xA4 | 0xA5 => ok (checkWalker s c.cmd)
  | 0xAA => checkEbb c
  | 0xB0 | 0xB1 | 0xB9 => ok (checkMul s c.cmd)
  | 0xB2 => ok (checkMzero s c.cmd)
  | 0xB5 => ok (checkMscale c.cmd)
  | 0xB7 => ok (checkMchk s c.cmd)
  | 0xB8 => checkAttn s c
  | 0xBA => ok (checkMconv s c.cmd)
  | _ => checkXfer s c

/-- The operands of a matrix command that was held are its group's as it enters the queue. -/
def retile (s : State) (c : SentCmd) : SentCmd :=
  match s.group? c.cmd.gid with
  | some g =>
    if c.cmd.gate.isSome && isMatrixCmd c.cmd.opc then { c with cmd := { c.cmd with tile := [(g.index, [], g.regs.nv)] } } else c
  | none => c

/-- The checks of a command at acceptance, with the leaves that its reads have installed (R259). -/
def checkWalks : Nat → State → SentCmd → State × EM (List Byte)
  | 0, s, c => (s, checkCmd s c)
  | k + 1, s, c =>
    match checkCmd s c with
    | .error (.walk need a) => checkWalks k (touch s c.cmd.slot need a) c
    | r => (s, r)

/-- A command is accepted (R368): `msparse` reads its list count (R423), and the command is checked, an error ending it; a page that
its checks miss leaves them to its start. -/
def takeCmd (s : State) (c : SentCmd) : State :=
  let c := if c.cmd.opc == 0xB9 then { c with cmd := { c.cmd with n := some (listCount s c.cmd) } } else c
  let r := checkWalks 64 (modCmd s c.cmd.kid (fun _ => c)) c
  let s := r.1
  match r.2 with
  | .error (.err e) => finishCmd s c e
  | .ok b => armFlip (modCmd s c.cmd.kid (fun c => { c with checked := true, recb := b })) c
  | .error _ => armFlip s c

/-- A command takes its place at the end of its unit's queue; one that was held is accepted already. -/
def queueCmd (s : State) (c : SentCmd) : State :=
  let q := retile s { c with stage := .queued, unit := if isAsyncCmd c.cmd.opc then pickEngine s c.cmd.core else 0 }
  let s := { s with cmds := s.cmds.filter (fun x => x.cmd.kid != c.cmd.kid) ++ [q] }
  if c.stage == .held then s else takeCmd s q

/-- The held pool accepts a command, which takes its gate's credit where there is one (R368, R384). -/
def holdCmd (s : State) (c : SentCmd) : State :=
  let h := { c with stage := .held }
  takeCredits (takeCmd (modCmd s c.cmd.kid (fun _ => h)) h) c.cmd.tid

/-! ### Acceptance and gates -/

/-- The port's head goes to the held pool or to its unit; a graph node's command, which passes the port by, to its unit. -/
def acceptTry (s : State) (core : Nat) : Option State :=
  let port := s.cmds.filter (fun c => c.cmd.core == core && c.stage == .port)
  let node := (port.find? (fun c => c.cmd.node.isSome && unitRoom s c)).map (queueCmd s)
  match port.find? (fun c => c.cmd.node.isNone) with
  | none => node
  | some c =>
    if c.cmd.gate.isSome then some (holdCmd s c)
    else if unitRoom s c then some (queueCmd s c)
    else node

/-- COMMAND_ACCEPTANCE. -/
def execCommandAcceptance (core : Nat) (s : State) : Host.Outcome State Fault Refusal := .next ((acceptTry s core).getD s)

/-- A command of a team that a gate has let go enters its queue, the oldest first of those that find room (R384). -/
def gateTry (s : State) (tid gate : Nat) : Option State :=
  (s.cmds.find? (fun c => c.cmd.tid == tid && c.stage == .held && c.credited && c.cmd.gate == some gate && unitRoom s c)).map
    (queueCmd s)

/-- GATE_RELEASE. -/
def execGateRelease (tid gate : Nat) (s : State) : Host.Outcome State Fault Refusal := .next ((gateTry s tid gate).getD s)

/-! ### Engine chunks -/

/-- A command may start: it is the first of its engine's queue, and fewer than n are worked on (R367). -/
def mayStart (s : State) (c : SentCmd) (n : Nat) (f : SentCmd → Bool) : Bool :=
  (s.cmds.find? (fun x => f x && x.stage == .queued)).map (fun x => x.cmd.kid) == some c.cmd.kid
    && (s.cmds.filter (fun x => f x && (match x.stage with | .running _ => true | _ => false))).length < n

/-- It starts. -/
def startCmd (s : State) (c : SentCmd) : State := modCmd s c.cmd.kid (fun c => { c with stage := .running 0 })

/-- Its chunk has committed: the free values that it read are spent, and its flags reach XFLAGS (R372). -/
def afterChunk (c : SentCmd) (fl : BitVec 8) (s : State) : State := orFlags { s with free := s.free + 2 ^ 24 } c.cmd.gid false fl

/-- The count of the batch that an engine chunk sends (R316, R400). -/
def batchOf (s : State) (x : Piece) : List Nat :=
  if (peerRuns s x.runs).isEmpty && x.incr.isNone then [] else [(s.vc.getD s.pkg 0 + 1).toNat]

/-- The index list of the command is still to be read. -/
def listDue (c : SentCmd) : Bool := (c.cmd.opc == 0xA2 || c.cmd.opc == 0xA3) && c.idx.length != c.cmd.arg 1

/-- The bytes that a chunk of a gather or scatter has the Dredge units of a die move, row by row (R382). -/
def dredgeRows (s : State) (c : SentCmd) (p die : Nat) : List Nat :=
  let r := shapeOf c.recb
  let per := perPiece c.cmd r
  let us := (List.range (min per (unitCount c.cmd r - p * per))).map (fun k => p * per + k)
  let side := if c.cmd.opc == 0xA2 then srcSide c.cmd r else dstSide c.cmd r
  ((us.map (fun u => u / r.d 0)).eraseDups).filterMap (fun j =>
    let a := (side.elem r.bits ((c.idx.getD j 0 : Int) * r.str 1)).1
    match place s a with
    | some (.dev o _) => if o == die then some ((us.filter (fun u => u / r.d 0 == j)).length * r.bits / 8) else none
    | _ => none)

/-- Dredge bursts of 256 bytes are counted at their dies (R523). How rows share bursts is not stated but for the packing of consecutive
rows: a free value between as few as hold the bytes, and whole bursts for each row. -/
def countDredge (s0 : State) (c : SentCmd) (p : Nat) (s : State) : State :=
  if c.cmd.opc != 0xA2 && c.cmd.opc != 0xA3 then s
  else (List.range 4).foldl (fun s die =>
    let rows := dredgeRows s0 c p die
    let lo := (rows.sum + 255) / 256
    let hi := (rows.map (fun b => (b + 255) / 256)).sum
    if hi == 0 then s
    else
      let d := s.draw
      d.2.countDie die 0x11 (lo + d.1.toNat % (hi - lo + 1))) s

/-- A step of an asynchronous engine's command: its start, its record, its index list, or its next chunk. -/
def asyncTry (s : State) (c : SentCmd) : Option State :=
  let kid := c.cmd.kid
  match c.stage with
  | .queued =>
    if mayStart s c 4 (fun x => isAsyncCmd x.cmd.opc && x.cmd.core == c.cmd.core && x.unit == c.unit) then some (startCmd s c)
    else none
  | .running p =>
    if c.err != 0 then none
    else if !c.checked then
      stepCmd s c (checkXfer s c) (fun b => some (modCmd s kid (fun c => { c with checked := true, recb := b }))) (setErr s kid)
    else if listDue c then
      stepCmd s c (indexList s c) (fun is => some (modCmd s kid (fun c => { c with idx := is }))) (setErr s kid)
    else if pieceCount c.cmd (shapeOf c.recb) ≤ p then none
    else stepCmd s c (xferPiece s c p)
      (fun x => (engineChunk s c x.runs x.incr (fun c =>
          { c with stage := .running (p + 1), written := c.written ++ x.keys, batches := c.batches ++ batchOf s x
                   peerData := [] })).map (fun t => countDredge s c p (afterChunk c x.fl t)))
      (setErr s kid)
  | _ => none

/-- A step of an `nzscan`. -/
def nzTry (s : State) (c : SentCmd) : Option State :=
  match c.stage with
  | .queued => if mayStart s c 1 (fun x => x.cmd.opc == 0x69 && x.cmd.core == c.cmd.core) then some (startCmd s c) else none
  | .running p =>
    if c.err != 0 then none
    else stepCmd s c (nzPieces s c)
      (fun l => match l[p]? with
        | none => none
        | some r => (engineChunk s c [r] none (fun c => { c with stage := .running (p + 1) })).map (afterChunk c 0))
      (setErr s c.cmd.kid)
  | _ => none

/-- One step of a command of an asynchronous engine, the NZ scan unit or the graph walker. -/
def engineTry (s : State) (kid : Nat) : Option State :=
  match cmd? s kid with
  | none => none
  | some c =>
    if cmdParked s kid then none
    else match c.cmd.opc with
      | 0x69 => nzTry s c
      | 0xA4 => gnodeTry s c
      | 0xA5 => grunTry s c
      | _ => if isAsyncCmd c.cmd.opc then asyncTry s c else none

/-- ENGINE_CHUNK_COMMIT. -/
def execEngineChunkCommit (kid : Nat) (s : State) : Host.Outcome State Fault Refusal := .next ((engineTry s kid).getD s)

/-! ### The finish of a command (R236) -/

/-- The receiver has applied every batch of a put (R400). -/
def batchesApplied (s : State) (c : SentCmd) : Bool :=
  let k := vaPkg (dstBase c.cmd (shapeOf c.recb))
  c.batches.all (fun n => !s.sent.any (fun b => (b.stamp.getD s.pkg 0).toNat == n && b.owed.contains k))

/-- Every engine chunk of a running command has committed. -/
def chunksDone (s : State) (c : SentCmd) (p : Nat) : Bool :=
  match c.cmd.opc with
  | 0x69 => (match nzPieces s c with | .ok l => l.length ≤ p | .error _ => false)
  | 0xA4 => armCount c.cmd ≤ p
  | _ => isAsyncCmd c.cmd.opc && c.checked && !listDue c && pieceCount c.cmd (shapeOf c.recb) ≤ p

/-- The counter of a command may be updated (R304, R306). -/
def counterFree (s : State) (c : SentCmd) : Bool :=
  match c.cmd.ctr with
  | some off => counterMay s c.cmd.tid off && !s.due.any (fun e => e.tid == c.cmd.tid && e.off == off)
  | none => true

/-- A command that is done, or that has met an error, finishes. -/
def finishTry (s : State) (kid : Nat) : Option State :=
  match cmd? s kid with
  | none => none
  | some c =>
    let o := c.cmd.opc
    if cmdParked s kid || !counterFree s c then none
    else match c.stage with
      | .running p =>
        if o == 0xB8 || o == 0xAA then none
        else if isMatrixCmd o then some (mxFinish s c)
        else if (c.err != 0 || chunksDone s c p) && batchesApplied s c then some (finishCmd s c c.err)
        else none
      | .releasing i =>
        if (o == 0xB8 && c.snap.length ≤ i) || (o == 0xAA && i == 1) then some (finishCmd s c c.err) else none
      | _ => none

/-- COMMAND_FINISH. -/
def execCommandFinish (kid : Nat) (s : State) : Host.Outcome State Fault Refusal := .next ((finishTry s kid).getD s)

end Sys2Proof.Machine
end

