-- ==== Sys2Proof/Machine/Background.lean ====
section
/-! DEFINITION. What moves next: the schedule's choices, and where it is empty the current split, the first step of the
machine that can happen, or the next split by turn (log 5). -/

namespace Sys2Proof.Machine

open Sys2Proof

/-! ### The steps outside the splits that can happen -/

/-- The first of a list that can happen. -/
def firstOf {α : Type} (l : List α) (ok : α → Bool) (i : α → Instr) : Option Instr := (l.find? ok).map i

/-- The places of a list. -/
def places {α : Type} (l : List α) : List Nat := List.range l.length

/-- Every split with its group. -/
def allSplits (s : State) : List (Nat × Nat) := s.groups.flatMap (fun g => g.splits.map (fun p => (g.gid, p.id)))

/-- Chunks, stores, results and traps. -/
def bgSplits (s : State) : Option Instr :=
  let ps := allSplits s
  firstOf (s.groups.flatMap (fun g => (places g.ll).map (fun k => (g.gid, k)))) (fun e => writebackOk s e.1 e.2)
      (fun e => .longLatencyWriteback e.1 e.2)
    <|> firstOf ps (fun e => trapReady s e.1 e.2) (fun e => .trapDelivery e.1 e.2)
    <|> firstOf ps (fun e => phaseOk s e.1 e.2) (fun e => .phaseTwo e.1 e.2)
    <|> firstOf ps (fun e => commitOk s e.1 e.2) (fun e => .chunkCommit e.1 e.2)
    <|> firstOf ((ps ++ s.loose.map (fun l => (l.gid, l.sp))).flatMap (fun e => (places (storesOf s e.1 e.2)).map (fun k => (e.1, e.2, k))))
      (fun e => performOk s e.1 e.2.1 e.2.2) (fun e => .storePerformed e.1 e.2.1 e.2.2)
    <|> firstOf ps (fun e => promoteOk s e.1 e.2) (fun e => .candidatePromotion e.1 e.2)
    <|> firstOf (s.blockQ.map (fun r => r.core)) (fun c => match blockHead s c with
        | some r => r.slots.length ≤ freeBlocks s c
        | none => false) .xblockGrant

/-- The barriers at which some split waits. -/
def waitedBars (s : State) : List (Nat × Nat × Nat) :=
  s.groups.flatMap (fun g => g.splits.filterMap (fun p => p.bar.map (fun b =>
    (b.scope, (match b.scope with
      | 0 => g.gid
      | 1 => g.tid
      | 2 => (s.teamOf g).cid
      | _ => (s.clusterOf g).grid), b.id))))

def bgBarriers (s : State) : Option Instr :=
  firstOf (waitedBars s) (fun e => e.1 < 4 && barDone s e.1 e.2.1 e.2.2) (fun e => .barrierRelease e.1 e.2.1 e.2.2)

/-- A chunk, a store of relaxed mode or a batch finds no place for a canonical sum. -/
def sumsWanted (s : State) : Bool :=
  s.groups.any (fun g => g.splits.any (fun p => (match p.chunk with
      | some c => c.closed && !opsRoom s (s.gridOf g).slot c.ops
      | none => false) || p.pst.any (fun op => !opsRoom s (s.gridOf g).slot [op])))
    || s.loose.any (fun l => !opsRoom s l.slot [l.op]) || s.inbox.any (fun b => !batchSums s b)

/-- Translation, migration and canonical sums; a sum is folded by itself where a place is wanted (R285). -/
def bgMemory (s : State) : Option Instr :=
  firstOf (places s.parked) (retryOk s) .missQueueRetry
    <|> firstOf (places s.misses) (missOk s) .missLogRecord
    <|> firstOf (places s.parked) (walkOk s) .tableWalkComplete
    <|> firstOf (List.range 5) (noticeDone s) .noticeComplete
    <|> firstOf (places s.migrations) (migrateOk s) (fun k => .migrationComplete k [])
    <|> (if sumsWanted s then firstOf (places s.accums) (foldOk s) .redFold else none)

def bgLink (s : State) : Option Instr :=
  firstOf (places s.inbox) (batchOk s) .batchApply
    <|> firstOf (places s.peerServes) (serveOk s) .peerReadServe
    <|> firstOf (places s.peerReqs) (deliverOk s) .peerReadDelivery
    <|> firstOf (List.range 12) (replayOk s) .flitReplay

/-- A command's next step. -/
def cmdStep (s : State) (kid : Nat) : Option Instr :=
  let one (x : Option State) (i : Nat → Instr) : Option Instr := x.map (fun _ => i kid)
  (if mxStartOk s kid then some (.matrixCommandStart kid) else none)
    <|> one (finishTry s kid) .commandFinish <|> one (engineTry s kid) .engineChunkCommit
    <|> one (snapTry s kid) .attnSnapshot <|> one (releaseTry s kid) .attnRelease
    <|> one (claimTry s kid) .ebbClaim <|> one (copyTry s kid) .ebbCopy <|> one (swapTry s kid) .ebbSwap
    <|> one (nodeTry s kid) .graphNodeFinish

def bgCommands (s : State) : Option Instr :=
  firstOf (s.cmds.map (fun c => c.cmd.core)) (fun k => (acceptTry s k).isSome) .commandAcceptance
    <|> firstOf (s.cmds.filterMap (fun c => if c.stage == .held then c.cmd.gate.map (fun g => (c.cmd.tid, g)) else none))
      (fun e => (gateTry s e.1 e.2).isSome) (fun e => .gateRelease e.1 e.2)
    <|> firstOf (s.groups.map (fun g => g.gid)) (latchOk s) .operandLatchRelease
    <|> s.cmds.findSome? (fun c => cmdStep s c.cmd.kid)

/-- Clusters and grids. -/
def bgGrids (s : State) : Option Instr :=
  let levels := if s.grids.isEmpty then [] else List.range 8
  (if !s.grids.isEmpty && placeOk s then some .clusterPlacement else none)
    <|> (match if s.clusters.isEmpty then none else served s with
      | some (.saved c _, .place _) => some (.clusterResume c.cid)
      | _ => none)
    <|> firstOf (s.clusters.map (fun c => c.cid)) (saveOk s) .clusterSave
    <|> firstOf (s.teams.map (fun t => t.tid)) (releaseOk s) .teamAllotmentRelease
    <|> firstOf (s.grids.map (fun g => g.grid)) (gridDone s) .gridCompletion
    <|> firstOf levels (starveOk s) .levelHeadStarvation
    <|> firstOf levels (fun p => (starvedHead s p).isSome) .preemptStarvation

/-- The first step of the machine, outside the splits, that can happen. -/
def background (s : State) : Option Instr :=
  if !s.powered then none
  else (if bitAt (s.bar 0) 0 then none else some .startupReady)
    <|> (if s.round < s.clock / 64 then some .commitRoundClose else none)
    <|> bgSplits s <|> bgBarriers s <|> bgMemory s <|> bgLink s <|> bgCommands s
    <|> (if recordOk s then some .launchRecordRead else none)
    <|> bgGrids s

/-! ### The schedule -/

/-- The steps that are no instruction words: what a schedule may name. -/
def isStep (i : Instr) : Bool :=
  match encode i, i with
  | [], .portableInstruction _ => false
  | [], .safePointMarker => false
  | [], .unassignedOpcode _ => false
  | [], _ => true
  | _, _ => false

/-! ### Time -/

/-- A step that is due at once, before any other and before time passes: the shutdown at 110 degrees (R529), a release of the wire
tree (R125), the expiry of a bin's timer, and the launch of a bin that can launch (R106, R109). -/
def dueNow (s : State) : Option Instr :=
  let bins := s.bins.map (fun b => (b.core, b.bin))
  if !s.powered then none
  else (if tooHot s then some .thermalShutdown else none)
    <|> firstOf (List.range 8) (wireOk s) .barwInstanceRelease
    <|> firstOf bins (fun e => timerOk s e.1 e.2) (fun e => .binTimerExpiry e.1 e.2)
    <|> firstOf bins (fun e => binOk s e.1 e.2) (fun e => .binLaunch e.1 e.2)

/-- The cycles until the bin timers that run expire (R106). -/
def binDelays (s : State) : List Nat :=
  s.bins.filterMap (fun b => if b.expired || b.core == noCore then none
    else some (max (b.since + (s.coreAt b.core).bintimer.toNat) (b.since + 1) - s.clock))

/-- The cycles until the wire tree's releases that are to come (R125). -/
def wireDelays (s : State) : List Nat :=
  ((List.range 8).flatMap (fun tag => if wireAny s tag && wireFull s tag then [(s.wireLast.get tag).toNat + 96] else [])
    ++ s.groups.flatMap (fun g => g.splits.filterMap (fun p => p.bar.bind (fun b =>
        if b.scope == 5 || (b.scope == 4 && !wireAny s b.id) then some (b.arrivedAt + 96) else none)))).map (fun t => t - s.clock)

/-- How many of n cycles may pass: none while a step is due, no more than until the next release of the wire tree (R125) or
expiry of a bin's timer (R106); and a ready split issues within 1,024 issuing cycles (R529), unless this cycle has no place
left (R113). -/
def cyclesFree (s : State) (n : Nat) : Nat :=
  if (dueNow s).isSome then 0
  else
    let n := (wireDelays s ++ binDelays s).foldl min n
    let ps := passedOver s
    let m := ps.foldl (fun m e => min m (e.2.2.2 - issuingSince s e.2.2.1)) n
    if m == 0 && !ps.any (fun e => hasTurn s (e.1, e.2.1)) then min n 1 else m

/-- Cycles pass: before them the splits whose waits are over become ready (R111), the heads that cannot place are marked (R98),
and the copiers ask for the lines of their sources (R267). -/
def passTime (s : State) (n : Nat) : State :=
  if n == 0 then s
  else
    let s := settle s
    let s := if marksDue s then markHeads s else s
    advance (if s.migrations.isEmpty then s else askSources s) n

/-- One choice of the schedule. The cycles that may pass are counted once the splits have been looked at. -/
def perform (c : Choice) (s : State) : Move :=
  match c with
  | .issue gid sp => issueOf s gid sp
  | .event i => if isStep i then .run i s else .rest s
  | .tick n => let s := settle s; .rest (passTime s (cyclesFree s n))
  | .tlbDrop k => .rest { s with tlb := s.tlb.eraseIdx k }
  | .mcArrive tag => .rest (if tag < 8 then wireMc s tag else s)
  | .setHdm d => .rest (setHdm s d)
  | .junction c => .rest (setJunction s c)
  | .linkFlit port kind data => .rest (ownFlit s port kind data)

/-- What moves next. -/
def nextMove (s : State) : Move :=
  match dueNow s, s.schedule with
  | some i, _ => .run i s
  | none, c :: r => perform c { s with schedule := r }
  | none, [] =>
    match overdue s with
    | some e => issueOf s e.1 e.2
    | none =>
      let s := passTime s 1
      if goesOn s then fetchInstr s
      else match background s with
        | some i => .run i s
        | none => match nextTurn s with
          | some e => issueOf s e.1 e.2
          | none => .rest s

end Sys2Proof.Machine
end

