-- ==== Sys2Proof/Machine/Dispatch.lean ====
section
/-! DEFINITION. The dispatch of every step of the machine to its meaning. -/

namespace Sys2Proof.Machine

open Sys2Proof

def exec (i : Instr) (s : State) : Host.Outcome State Fault Refusal :=
  match i with
  | .nop w => Sys2Proof.Machine.execNop w s
  | .bra w => Sys2Proof.Machine.execBra w s
  | .skip w => Sys2Proof.Machine.execSkip w s
  | .brx w => Sys2Proof.Machine.execBrx w s
  | .call w => Sys2Proof.Machine.execCall w s
  | .ret w => Sys2Proof.Machine.execRet w s
  | .loop w => Sys2Proof.Machine.execLoop w s
  | .exit w => Sys2Proof.Machine.execExit w s
  | .yield w => Sys2Proof.Machine.execYield w s
  | .spawn w => Sys2Proof.Machine.execSpawn w s
  | .launch w => Sys2Proof.Machine.execLaunch w s
  | .bar w => Sys2Proof.Machine.execBar w s
  | .barw w => Sys2Proof.Machine.execBarw w s
  | .trap w => Sys2Proof.Machine.execTrap w s
  | .rte w => Sys2Proof.Machine.execRte w s
  | .sysrd w => Sys2Proof.Machine.execSysrd w s
  | .syswr w => Sys2Proof.Machine.execSyswr w s
  | .chunk w => Sys2Proof.Machine.execChunk w s
  | .fence w => Sys2Proof.Machine.execFence w s
  | .ifence w => Sys2Proof.Machine.execIfence w s
  | .elect w => Sys2Proof.Machine.execElect w s
  | .vote w => Sys2Proof.Machine.execVote w s
  | .acqx w => Sys2Proof.Machine.execAcqx w s
  | .relx w => Sys2Proof.Machine.execRelx w s
  | .waitc w => Sys2Proof.Machine.execWaitc w s
  | .clock w => Sys2Proof.Machine.execClock w s
  | .krepl w => Sys2Proof.Machine.execKrepl w s
  | .brk w => Sys2Proof.Machine.execBrk w s
  | .iadd w => Sys2Proof.Machine.execIadd w s
  | .isub w => Sys2Proof.Machine.execIsub w s
  | .imul w => Sys2Proof.Machine.execImul w s
  | .imulh w => Sys2Proof.Machine.execImulh w s
  | .imad w => Sys2Proof.Machine.execImad w s
  | .idiv w => Sys2Proof.Machine.execIdiv w s
  | .imin w => Sys2Proof.Machine.execImin w s
  | .imax w => Sys2Proof.Machine.execImax w s
  | .isat w => Sys2Proof.Machine.execIsat w s
  | .and w => Sys2Proof.Machine.execAnd w s
  | .or w => Sys2Proof.Machine.execOr w s
  | .xor w => Sys2Proof.Machine.execXor w s
  | .andn w => Sys2Proof.Machine.execAndn w s
  | .shl w => Sys2Proof.Machine.execShl w s
  | .shr w => Sys2Proof.Machine.execShr w s
  | .fshf w => Sys2Proof.Machine.execFshf w s
  | .bfx w => Sys2Proof.Machine.execBfx w s
  | .bfi w => Sys2Proof.Machine.execBfi w s
  | .popc w => Sys2Proof.Machine.execPopc w s
  | .clz w => Sys2Proof.Machine.execClz w s
  | .brev w => Sys2Proof.Machine.execBrev w s
  | .icmp w => Sys2Proof.Machine.execIcmp w s
  | .sel w => Sys2Proof.Machine.execSel w s
  | .mov w => Sys2Proof.Machine.execMov w s
  | .lea w => Sys2Proof.Machine.execLea w s
  | .iaddc w => Sys2Proof.Machine.execIaddc w s
  | .merge w => Sys2Proof.Machine.execMerge w s
  | .fadd w => Sys2Proof.Machine.execFadd w s
  | .fsub w => Sys2Proof.Machine.execFsub w s
  | .fmul w => Sys2Proof.Machine.execFmul w s
  | .ffma w => Sys2Proof.Machine.execFfma w s
  | .fmin w => Sys2Proof.Machine.execFmin w s
  | .fmax w => Sys2Proof.Machine.execFmax w s
  | .frcp w => Sys2Proof.Machine.execFrcp w s
  | .frsq w => Sys2Proof.Machine.execFrsq w s
  | .fsqrt w => Sys2Proof.Machine.execFsqrt w s
  | .fexp2 w => Sys2Proof.Machine.execFexp2 w s
  | .flog2 w => Sys2Proof.Machine.execFlog2 w s
  | .fcmp w => Sys2Proof.Machine.execFcmp w s
  | .fclass w => Sys2Proof.Machine.execFclass w s
  | .fsgn w => Sys2Proof.Machine.execFsgn w s
  | .cvt w => Sys2Proof.Machine.execCvt w s
  | .qnt w => Sys2Proof.Machine.execQnt w s
  | .dqnt w => Sys2Proof.Machine.execDqnt w s
  | .fdot2 w => Sys2Proof.Machine.execFdot2 w s
  | .frnd w => Sys2Proof.Machine.execFrnd w s
  | .fscale w => Sys2Proof.Machine.execFscale w s
  | .fredu w => Sys2Proof.Machine.execFredu w s
  | .shfl w => Sys2Proof.Machine.execShfl w s
  | .perm w => Sys2Proof.Machine.execPerm w s
  | .plog w => Sys2Proof.Machine.execPlog w s
  | .pcnt w => Sys2Proof.Machine.execPcnt w s
  | .scan w => Sys2Proof.Machine.execScan w s
  | .vtos w => Sys2Proof.Machine.execVtos w s
  | .stov w => Sys2Proof.Machine.execStov w s
  | .compact w => Sys2Proof.Machine.execCompact w s
  | .rebal w => Sys2Proof.Machine.execRebal w s
  | .nzscan w => Sys2Proof.Machine.execNzscan w s
  | .alset w => Sys2Proof.Machine.execAlset w s
  | .alget w => Sys2Proof.Machine.execAlget w s
  | .sunpk w => Sys2Proof.Machine.execSunpk w s
  | .spack w => Sys2Proof.Machine.execSpack w s
  | .sld w => Sys2Proof.Machine.execSld w s
  | .sst w => Sys2Proof.Machine.execSst w s
  | .sdot w => Sys2Proof.Machine.execSdot w s
  | .smap w => Sys2Proof.Machine.execSmap w s
  | .schk w => Sys2Proof.Machine.execSchk w s
  | .scvt w => Sys2Proof.Machine.execScvt w s
  | .smadd w => Sys2Proof.Machine.execSmadd w s
  | .scnt w => Sys2Proof.Machine.execScnt w s
  | .lds w => Sys2Proof.Machine.execLds w s
  | .sts w => Sys2Proof.Machine.execSts w s
  | .ldsf w => Sys2Proof.Machine.execLdsf w s
  | .stse w => Sys2Proof.Machine.execStse w s
  | .ldsp w => Sys2Proof.Machine.execLdsp w s
  | .feset w => Sys2Proof.Machine.execFeset w s
  | .atoms w => Sys2Proof.Machine.execAtoms w s
  | .ldc w => Sys2Proof.Machine.execLdc w s
  | .stc w => Sys2Proof.Machine.execStc w s
  | .atomc w => Sys2Proof.Machine.execAtomc w s
  | .ldsx w => Sys2Proof.Machine.execLdsx w s
  | .stsx w => Sys2Proof.Machine.execStsx w s
  | .ldg w => Sys2Proof.Machine.execLdg w s
  | .stg w => Sys2Proof.Machine.execStg w s
  | .atomg w => Sys2Proof.Machine.execAtomg w s
  | .casg w => Sys2Proof.Machine.execCasg w s
  | .pref w => Sys2Proof.Machine.execPref w s
  | .ldgc w => Sys2Proof.Machine.execLdgc w s
  | .stgs w => Sys2Proof.Machine.execStgs w s
  | .red w => Sys2Proof.Machine.execRed w s
  | .probe w => Sys2Proof.Machine.execProbe w s
  | .migr w => Sys2Proof.Machine.execMigr w s
  | .xcopy w => Sys2Proof.Machine.execXcopy w s
  | .xform w => Sys2Proof.Machine.execXform w s
  | .xgath w => Sys2Proof.Machine.execXgath w s
  | .xscat w => Sys2Proof.Machine.execXscat w s
  | .gnode w => Sys2Proof.Machine.execGnode w s
  | .grun w => Sys2Proof.Machine.execGrun w s
  | .evmapMap w => Sys2Proof.Machine.execEvmapMap w s
  | .evmapPulse w => Sys2Proof.Machine.execEvmapPulse w s
  | .evmapClear w => Sys2Proof.Machine.execEvmapClear w s
  | .xfill w => Sys2Proof.Machine.execXfill w s
  | .xpeer w => Sys2Proof.Machine.execXpeer w s
  | .xcancel w => Sys2Proof.Machine.execXcancel w s
  | .ebb w => Sys2Proof.Machine.execEbb w s
  | .kvmap w => Sys2Proof.Machine.execKvmap w s
  | .mma w => Sys2Proof.Machine.execMma w s
  | .mloop w => Sys2Proof.Machine.execMloop w s
  | .msparse w => Sys2Proof.Machine.execMsparse w s
  | .mzero w => Sys2Proof.Machine.execMzero w s
  | .mrd w => Sys2Proof.Machine.execMrd w s
  | .mwr w => Sys2Proof.Machine.execMwr w s
  | .mscale w => Sys2Proof.Machine.execMscale w s
  | .oprdy w => Sys2Proof.Machine.execOprdy w s
  | .mchk w => Sys2Proof.Machine.execMchk w s
  | .attn w => Sys2Proof.Machine.execAttn w s
  | .mconv w => Sys2Proof.Machine.execMconv w s
  | .mrel w => Sys2Proof.Machine.execMrel w s
  | .safePointMarker => Sys2Proof.Machine.execSafePointMarker s
  | .portableInstruction w => Sys2Proof.Machine.execPortableInstruction w s
  | .srseedWrite v => Sys2Proof.Machine.execSrseedWrite v s
  | .flagsRegisterWrite n v => Sys2Proof.Machine.execFlagsRegisterWrite n v s
  | .faultinjArm v => Sys2Proof.Machine.execFaultinjArm v s
  | .faultinjDisarm v => Sys2Proof.Machine.execFaultinjDisarm v s
  | .trappcWrite v => Sys2Proof.Machine.execTrappcWrite v s
  | .trapcauseWrite v => Sys2Proof.Machine.execTrapcauseWrite v s
  | .clauseHeaderFetch => Sys2Proof.Machine.execClauseHeaderFetch s
  | .candidatePromotion gid sp => Sys2Proof.Machine.execCandidatePromotion gid sp s
  | .chunkCommit gid sp => Sys2Proof.Machine.execChunkCommit gid sp s
  | .commitRoundClose => Sys2Proof.Machine.execCommitRoundClose s
  | .phaseTwo gid sp => Sys2Proof.Machine.execPhaseTwo gid sp s
  | .longLatencyWriteback gid idx => Sys2Proof.Machine.execLongLatencyWriteback gid idx s
  | .missQueueRetry idx => Sys2Proof.Machine.execMissQueueRetry idx s
  | .missLogRecord idx => Sys2Proof.Machine.execMissLogRecord idx s
  | .tableWalkComplete idx => Sys2Proof.Machine.execTableWalkComplete idx s
  | .notice fn die v => Sys2Proof.Machine.execNotice fn die v s
  | .noticeComplete die => Sys2Proof.Machine.execNoticeComplete die s
  | .migrationComplete idx data => Sys2Proof.Machine.execMigrationComplete idx data s
  | .freeFrameTail fn off v => Sys2Proof.Machine.execFreeFrameTail fn off v s
  | .redFold idx => Sys2Proof.Machine.execRedFold idx s
  | .batchApply idx => Sys2Proof.Machine.execBatchApply idx s
  | .peerReadServe idx => Sys2Proof.Machine.execPeerReadServe idx s
  | .peerReadDelivery idx => Sys2Proof.Machine.execPeerReadDelivery idx s
  | .xblockGrant core => Sys2Proof.Machine.execXblockGrant core s
  | .binTimerExpiry core bin => Sys2Proof.Machine.execBinTimerExpiry core bin s
  | .binLaunch core bin => Sys2Proof.Machine.execBinLaunch core bin s
  | .clusterPlacement => Sys2Proof.Machine.execClusterPlacement s
  | .levelHeadStarvation level => Sys2Proof.Machine.execLevelHeadStarvation level s
  | .preemptStarvation level => Sys2Proof.Machine.execPreemptStarvation level s
  | .teamAllotmentRelease tid => Sys2Proof.Machine.execTeamAllotmentRelease tid s
  | .gridCompletion grid => Sys2Proof.Machine.execGridCompletion grid s
  | .barrierRelease scope obj id => Sys2Proof.Machine.execBarrierRelease scope obj id s
  | .barwInstanceRelease tag => Sys2Proof.Machine.execBarwInstanceRelease tag s
  | .commandAcceptance core => Sys2Proof.Machine.execCommandAcceptance core s
  | .gateRelease tid gate => Sys2Proof.Machine.execGateRelease tid gate s
  | .engineChunkCommit kid => Sys2Proof.Machine.execEngineChunkCommit kid s
  | .commandFinish kid => Sys2Proof.Machine.execCommandFinish kid s
  | .matrixCommandStart kid => Sys2Proof.Machine.execMatrixCommandStart kid s
  | .operandLatchRelease gid => Sys2Proof.Machine.execOperandLatchRelease gid s
  | .attnSnapshot kid => Sys2Proof.Machine.execAttnSnapshot kid s
  | .attnRelease kid => Sys2Proof.Machine.execAttnRelease kid s
  | .ebbClaim kid => Sys2Proof.Machine.execEbbClaim kid s
  | .ebbCopy kid => Sys2Proof.Machine.execEbbCopy kid s
  | .ebbSwap kid => Sys2Proof.Machine.execEbbSwap kid s
  | .graphNodeFinish kid => Sys2Proof.Machine.execGraphNodeFinish kid s
  | .trapDelivery gid sp => Sys2Proof.Machine.execTrapDelivery gid sp s
  | .clusterSave cid => Sys2Proof.Machine.execClusterSave cid s
  | .clusterResume cid => Sys2Proof.Machine.execClusterResume cid s
  | .translationComplete idx native spmap image => Sys2Proof.Machine.execTranslationComplete idx native spmap image s
  | .hostCxlMemRequest fn addr len data failed => Sys2Proof.Machine.execHostCxlMemRequest fn addr len data failed s
  | .hostAtomicopRequest fn => Sys2Proof.Machine.execHostAtomicopRequest fn s
  | .launchPortWrite fn addr data => Sys2Proof.Machine.execLaunchPortWrite fn addr data s
  | .launchRecordRead => Sys2Proof.Machine.execLaunchRecordRead s
  | .ringHeadWrite fn off v => Sys2Proof.Machine.execRingHeadWrite fn off v s
  | .ownclaim fn v => Sys2Proof.Machine.execOwnclaim fn v s
  | .heartbeat fn => Sys2Proof.Machine.execHeartbeat fn s
  | .warmReset fn => Sys2Proof.Machine.execWarmReset fn s
  | .contextSlotRemove fn slot => Sys2Proof.Machine.execContextSlotRemove fn slot s
  | .coldReset => Sys2Proof.Machine.execColdReset s
  | .startupReady => Sys2Proof.Machine.execStartupReady s
  | .functionLevelReset fn => Sys2Proof.Machine.execFunctionLevelReset fn s
  | .preemptContext fn v => Sys2Proof.Machine.execPreemptContext fn v s
  | .preemptGrid fn v => Sys2Proof.Machine.execPreemptGrid fn v s
  | .preemptCore fn v => Sys2Proof.Machine.execPreemptCore fn v s
  | .contextSlotCtl fn slot v => Sys2Proof.Machine.execContextSlotCtl fn slot v s
  | .managementRegisterWrite fn off v => Sys2Proof.Machine.execManagementRegisterWrite fn off v s
  | .throttleLevelChange level => Sys2Proof.Machine.execThrottleLevelChange level s
  | .thermalShutdown => Sys2Proof.Machine.execThermalShutdown s
  | .machineError store unit addr ctxs => Sys2Proof.Machine.execMachineError store unit addr ctxs s
  | .correctedSoftError die => Sys2Proof.Machine.execCorrectedSoftError die s
  | .d3hotEntry => Sys2Proof.Machine.execD3hotEntry s
  | .d0Entry => Sys2Proof.Machine.execD0Entry s
  | .flitReceive port flit => Sys2Proof.Machine.execFlitReceive port flit s
  | .flitReplay port => Sys2Proof.Machine.execFlitReplay port s
  | .linkPortDown port => Sys2Proof.Machine.execLinkPortDown port s
  | .unassignedOpcode w => Sys2Proof.Machine.execUnassignedOpcode w s
  | .storePerformed gid sp idx => Sys2Proof.Machine.execStorePerformed gid sp idx s
  | .linkPortUp port pkg peerReset => Sys2Proof.Machine.execLinkPortUp port pkg peerReset s
  | .configurationRequest fn => Sys2Proof.Machine.execConfigurationRequest fn s

end Sys2Proof.Machine
end

