-- ==== Sys2Proof/Machine/Place.lean ====
section
/-! DEFINITION. A group placed by hand with an instruction at its word: what a load from outside the machine leaves
(log 6). -/

namespace Sys2Proof.Machine

open Sys2Proof

/-- The leaf of a page at frame 0 that may be read, written and fetched. -/
def placeLeaf : Nat := 1 + 2 + 4 + 8 + 16

/-- A GEN clause header of sixteen words. -/
def placeHeader : Nat := 0xC5 * 2 ^ 56 + 15 * 2 ^ 48

/-- The bytes of an instruction: a portable word, or a header with native words after it. -/
def placeBytes (nbits w : Nat) : List Byte :=
  if nbits ≤ 32 then leBytes 16 (w % 2 ^ 32)
  else leBytes 8 placeHeader ++ leBytes 16 (w % 2 ^ 128)

/-- A kernel's one group on core 0, of one full split at its instruction at 0x1000 (R97). -/
def placeWord (s : State) (nbits w : Nat) : State :=
  let n := s.nextId
  let port := nbits ≤ 32
  let pc : Word := if port then 0x1000 else 0x1008
  let c : Ctl := { pc := pc, hdrAddr := 0x1000, hdr := if port then 0 else BitVec.ofNat 64 placeHeader, atHdr := false
                   mask := BitVec.allOnes 32, portable := port }
  let g : Group := { gid := n, tid := n, core := 0, slot := 0, index := 0, chunked := s.chunkedSlots.contains 0
                     splits := [{ id := 0, ctl := c, stamp := s.clock, since := s.clock }] }
  let t : Team := { tid := n, cid := n, core := 0, index := 0 }
  let cl : Cluster := { cid := n, grid := n, linear := 0, origin := 0 }
  let gr : Grid := { grid := n, slot := 0, serial := 0, kit := 0, next := 1 }
  let k := s.coreAt 0
  let s := (s.setCore 0 { k with ibuf := [], fenceAt := s.oldSeq + 1 }).memWrite (phys 0 0x1000) (placeBytes nbits w)
  { s with
    nextId := n + 1, groups := g :: s.groups, teams := t :: s.teams, clusters := cl :: s.clusters, grids := gr :: s.grids
    tlb := ⟨0, queueSlice false 0 0x1000, s.asid 0, false, 0, 2 ^ 16, placeLeaf⟩ :: s.tlb
    apers := s.apers.filter (fun a => 0x1020 ≤ a.aper || a.aper + a.rows * a.cells * 64 ≤ 0x1000)
    schedule := .issue n 0 :: s.schedule, cur := (n, 0) }

end Sys2Proof.Machine
end

