-- ==== Sys2Proof/Machine/Step.lean ====
section
/-! DEFINITION. One step of the machine, and the placing of an instruction word where the next step fetches it. -/

namespace Sys2Proof.Machine

open Sys2Proof

/-- One step: what moves next is executed (log 5). -/
def step (s : State) : Host.Outcome State Fault Refusal :=
  match nextMove s with
  | .run i s => exec i s
  | .rest s => .next s

/-- The state with an instruction's words where the next step fetches them. -/
def State.withFetchWord (s : State) (nbits w : Nat) : State := placeWord s nbits w

end Sys2Proof.Machine
end

