-- ==== Sys2Proof/Safety.lean ====
section
/-! DEFINITION. The terms in which the statements speak: when an instruction has its own effect at once, what an
instruction leaves as it was, and the canonical form of the memories. -/

namespace Sys2Proof.Machine

open Sys2Proof

/-- Device memory and host memory keep their canonical form. -/
def State.memOk (s : State) : Bool := s.mem.wf && s.hostMem.wf

/-! ### When an instruction has its own effect -/

/-- The current split waits for nothing: no trap, no operation under way, no page, and its chunk is open. -/
def State.idle (s : State) : Bool :=
  s.sp.pend.isNone && s.sp.plan.isEmpty && s.sp.feDone == 0 && s.sp.born.isNone && s.sp.bar.isNone
    && !s.sp.chunkClosed && s.parked.all (fun q => q.who != s.cur)

/-- None of the conditions 3 to 5 of R51: legal fields, the clause's class, the privilege. -/
def lawful (i : Instr) (s : State) : Bool :=
  legal i && classOk (hdrClass s.sp.ctl.hdr) (opcodeOf i) (lastWord s.sp) && !privBad i (s.gridOf s.g)

/-- None of the conditions 6 and 7 of R51, and none of the waits of R37, R158, R161 and R164: the group has the
registers that the word names, they are full, and no other split holds them. -/
def operandsReady (i : Instr) (s : State) : Bool :=
  let u := usesIn i s.g.regs
  u.regs.all (fun r => s.hasReg s.g r && !s.postedReg s.g r) && u.srcs.all (fun r => !s.g.emptyReg r)
    && u.dst.all (fun r => !s.g.emptyReg r)
    && !(s.chunkedMode && s.heldByOther (scalarsIn u) (u.alR ++ u.alW))

/-- The word may act in its chunk (R289, R294, R295), or, in relaxed mode, its split has performed the stores that it
waits for (R310), or it is a chunk or fence that no lane executes (R322, R323). -/
def mayAct (i : Instr) (s : State) : Bool :=
  if s.chunkedMode then (match s.sp.chunk with | some _ => !boundaryBefore i | none => boundaryBefore i || pairFree s)
  else s.sp.chunk.isNone
    && (!storesFirst i ((s.gridOf s.g).bound.any (fun b => b.hdr.rev == 0)) s.sp || Machine.idle i s)

/-- The instruction meets no condition of R51 before its own entry's, and waits for nothing. -/
def ready (i : Instr) (s : State) : Bool :=
  s.hasCur && s.idle && lawful i s && operandsReady i s && mayAct i s

/-- The state in which a ready instruction acts: a new chunk has begun where one is due (R294). -/
def begun (i : Instr) (s : State) : State :=
  if s.chunkedMode && !boundaryBefore i && s.sp.chunk.isNone then openChunk s else s

/-! ### What an instruction leaves as it was -/

/-- A byte of a team's buffer: 0 W, 1 A, 2 C, 3 G. -/
def State.bufByte (s : State) (tid b k : Nat) : Byte :=
  match s.team? tid with
  | some t => (t.buf b).bytes.get k
  | none => 0

/-- A byte of a cluster's SRAM. -/
def State.sramByte (s : State) (cid k : Nat) : Byte :=
  match s.cluster? cid with
  | some c => c.sram.get k
  | none => 0

/-- Every byte of device memory, host memory, scratchpad buffers and cluster SRAM reads as before. -/
def sameMemory (s t : State) : Prop :=
  ∀ k, t.memByte k = s.memByte k ∧ t.hostMem.get k = s.hostMem.get k
    ∧ (∀ tid b, t.bufByte tid b k = s.bufByte tid b k) ∧ (∀ cid, t.sramByte cid k = s.sramByte cid k)

/-- The vector cells that a field of `n` registers names in some lanes, and the scalar it names. -/
def cellsOf (d : BitVec 10) (n : Nat) (lanes : List Nat) : List Nat :=
  if isS d then [] else lanes.flatMap (fun l => (List.range n).map (fun k => 32 * (rnum d + k) + l))
def scalarOf (d : BitVec 10) (lanes : List Nat) : List Nat := if isS d && !lanes.isEmpty then [rnum d] else []

/-- Every register of the current group is as before, but for the vector cells `v` (32 * register + lane), the scalars
`sc` and the predicates `pr`. -/
def sameRegs (s t : State) (v sc pr : List Nat) : Prop :=
  (∀ n l, l < 32 → 32 * n + l ∉ v → t.regs.vget n l = s.regs.vget n l)
    ∧ (∀ n, n ∉ sc → t.regs.sget n = s.regs.sget n) ∧ (∀ n, n ∉ pr → t.regs.pget n = s.regs.pget n)

/-- The alphabet registers, their tables and the return stacks are as before. -/
def sameAlpha (s t : State) : Prop := t.regs.al = s.regs.al ∧ t.regs.map = s.regs.map ∧ t.regs.rets = s.regs.rets

/-- Every system register that a `sysrd` reads (R127, R128, R191) is as before in every lane, but for `ex` and the event
counters (0x048 to 0x04F). -/
def sameSystem (s t : State) (ex : List Nat) : Prop :=
  ∀ n l, n ∉ ex → ¬(0x048 ≤ n ∧ n ≤ 0x04F) → sysValue t n l = sysValue s n l

/-- FPFLAGS as the split reads it has gained the flags `f` and lost none (R71, R191). -/
def raised (s t : State) (f : Flags7) : Prop := sysValue t 0x011 0 = sysValue s 0x011 0 ||| f.setWidth 64

/-- Nothing outside the current group is changed but the event counters of the cores, the count of free values, and what has
issued in this cycle (R110); in the group, the other splits are as before. -/
def onlyGroup (s t : State) : Prop :=
  { t with groups := s.groups, cores := s.cores, free := s.free, issued := s.issued } = s
    ∧ (∀ x, x ≠ s.cur.1 → t.group? x = s.group? x) ∧ (∀ n, n ≠ s.cur.2 → t.g.split? n = s.g.split? n)

/-- The registers of the cores are as before, but for the event counters (R522). -/
def sameCores (s t : State) : Prop := ∀ c, { t.coreAt c with evcnt := (s.coreAt c).evcnt } = s.coreAt c

/-- The split goes on at the next word of its lanes (R20). -/
def nextWord (s t : State) : Prop :=
  t.ctl.pc = s.ctl.pc + BitVec.ofNat 64 s.sp.irLen ∧ t.ctl.mask = s.ctl.mask ∧ t.ctl.stack = s.ctl.stack
    ∧ t.sp.wait = none ∧ t.sp.pend = none

/-- What an instruction leaves that changes registers and its own split: everything but the named vector cells, scalars
and predicates and the system registers `ex`; the count of R78 goes up by `cnt`. -/
def quietFrame (s t : State) (v sc pr ex : List Nat) (cnt : Nat) : Prop :=
  sameMemory s t ∧ sameRegs s t v sc pr ∧ sameAlpha s t ∧ sameSystem s t ex
    ∧ t.regs.srcount = s.regs.srcount + BitVec.ofNat 64 cnt ∧ t.g.ext = s.g.ext ∧ sameCores s t ∧ onlyGroup s t ∧ nextWord s t

/-- The same of an instruction after which no further register is empty. -/
def registerFrame (s t : State) (v sc pr ex : List Nat) (cnt : Nat) : Prop :=
  quietFrame s t v sc pr ex cnt ∧ t.g.ll = s.g.ll

/-! ### What an instruction gives

A `Result` says which lanes of which destination an instruction writes, with what code and what flags, and by how much
it raises the count of R78. A scalar destination takes the value of the lowest executing lane (R36). -/

structure Result where
  d : BitVec 10
  /-- Registers of a vector destination. -/
  n : Nat
  lanes : State → List Nat
  val : State → Nat → FRes
  cnt : State → Nat := fun _ => 0

/-- The flags that a result raises in all its lanes. -/
def Result.flags (r : Result) (s : State) : Flags7 := (r.lanes s).foldl (fun f l => f ||| (r.val s l).fl) 0

/-- A destination after its lanes have been written: a vector field holds each lane's value, a scalar field the value,
and s0 stays 0 (R35, R69). -/
def holds (t : State) (d : BitVec 10) (n : Nat) (lanes : List Nat) (f : Nat → Nat) : Prop :=
  ∀ l ∈ lanes, if isS d then t.regs.sget (rnum d) = (if rnum d = 0 then 0 else BitVec.ofNat 64 (f l))
    else t.regs.src d n l = f l % 2 ^ (32 * n)

/-- The instruction completes: its destination holds its result, its flags are raised, and nothing else changes. -/
def gives (i : Instr) (s : State) (r : Result) : Prop :=
  ∃ t, exec i s = .next t ∧ holds t r.d r.n (r.lanes s) (fun l => (r.val s l).code) ∧ raised s t (r.flags s)
    ∧ registerFrame s t (cellsOf r.d r.n (r.lanes s)) (scalarOf r.d (r.lanes s)) [] [0x011] (r.cnt s)

/-- The instruction completes: predicate `p` holds `f` in the executing lanes, p0 stays all ones (R35), `fl` is raised,
and nothing else changes. -/
def decides (i : Instr) (s : State) (p : Nat) (f : Nat → Bool) (fl : Flags7) : Prop :=
  ∃ t, exec i s = .next t ∧ raised s t fl ∧ registerFrame s t [] [] [p] [0x011] 0
    ∧ ∀ l, l < 32 → (t.regs.pget p).getLsbD l
        = if p = 0 then true else if (s.exec i).getLsbD l then f l else (s.regs.pget p).getLsbD l

/-- value(t, operand) in a lane, t the type in m<7:4> (R186), and its low W bits. -/
def intOf (s : State) (w : RWord) (f : BitVec 10) (l : Nat) : Int := (Ty.ofCode (mTc w.m)).ival (srcT s f (mTc w.m) l)
def bitsOf (s : State) (w : RWord) (f : BitVec 10) (l : Nat) : Nat := srcT s f (mTc w.m) l
/-- W of R186. -/
def widthOf (w : RWord) : Nat := (Ty.ofCode (mTc w.m)).width

/-- A result without flags, reduced to W bits. -/
def plain (w : RWord) (x : Int) : FRes := ⟨wrap (widthOf w) x, 0⟩

/-- An exact result clamped to a type's range, with SAT outside it (R192, R196). -/
def clamped (t : Ty) (x : Int) : FRes :=
  ⟨wrap t.width (max t.minInt (min t.maxInt x)), if t.minInt ≤ x ∧ x ≤ t.maxInt then 0 else fSAT⟩

/-- A result of a format-R instruction in the lanes of R36. -/
def inLanes (i : Instr) (d : BitVec 10) (n : Nat) (val : State → Nat → FRes) : Result :=
  { d := d, n := n, lanes := fun s => actLanes s i d, val := val }

/-- What the integer instructions give (R171, R172, R192 to R204). -/
def integerResult (i : Instr) : Option Result :=
  let form (w : RWord) (f : State → Nat → FRes) : Option Result := some (inLanes i w.d (tyN (mTc w.m)) f)
  let sat (w : RWord) (x : Int) : FRes := if mBit0 w.m then clamped (Ty.ofCode (mTc w.m)) x else plain w x
  match i with
  | .iadd w => form w (fun s l => sat w (intOf s w w.a l + intOf s w w.b l))
  | .isub w => form w (fun s l => sat w (intOf s w w.a l - intOf s w w.b l))
  | .imul w => form w (fun s l => sat w (intOf s w w.a l * intOf s w w.b l))
  | .imulh w => form w (fun s l => plain w ((intOf s w w.a l * intOf s w w.b l) >>> widthOf w))
  | .imad w => form w (fun s l => plain w (intOf s w w.a l * intOf s w w.b l + intOf s w w.c l))
  | .idiv w => form w (fun s l =>
      let x := intOf s w w.a l
      let y := intOf s w w.b l
      let q := if y = 0 then 2 ^ widthOf w - 1
        else if (Ty.ofCode (mTc w.m)).signed ∧ x = (Ty.ofCode (mTc w.m)).minInt ∧ y = -1 then x else x.tdiv y
      plain w (if mBit0 w.m then (if y = 0 then x else x - x.tdiv y * y) else q))
  | .imin w => form w (fun s l => plain w (min (intOf s w w.a l) (intOf s w w.b l)))
  | .imax w => form w (fun s l => plain w (max (intOf s w w.a l) (intOf s w w.b l)))
  | .isat w => form w (fun s l =>
      clamped (Ty.ofCode (mTc w.m)) ((Ty.ofCode w.b.toNat).ival (srcT s w.a w.b.toNat l)))
  | .and w => form w (fun s l => ⟨bitsOf s w w.a l &&& bitsOf s w w.b l, 0⟩)
  | .or w => form w (fun s l => ⟨bitsOf s w w.a l ||| bitsOf s w w.b l, 0⟩)
  | .xor w => form w (fun s l => ⟨bitsOf s w w.a l ^^^ bitsOf s w w.b l, 0⟩)
  | .andn w => form w (fun s l => ⟨bitsOf s w w.a l &&& (2 ^ widthOf w - 1 - bitsOf s w w.b l), 0⟩)
  | .shl w => form w (fun s l => plain w (intOf s w w.a l * 2 ^ src32 s w.b l))
  | .shr w => form w (fun s l => plain w (intOf s w w.a l >>> src32 s w.b l))
  | .fshf w => form w (fun s l =>
      let x := bitsOf s w w.a l * 2 ^ widthOf w + bitsOf s w w.b l
      let n := src32 s w.c l % widthOf w
      plain w (if mBit0 w.m then x / 2 ^ n else x * 2 ^ n / 2 ^ widthOf w : Nat))
  | .bfx w => form w (fun s l =>
      let pos := min (src32 s w.b l % 2 ^ 8) (widthOf w)
      let len := min (src32 s w.b l / 2 ^ 8 % 2 ^ 8) (widthOf w)
      let f : Int := intOf s w w.a l / 2 ^ pos % 2 ^ len
      plain w (if (Ty.ofCode (mTc w.m)).signed ∧ 0 < len ∧ 2 ^ (len - 1) ≤ f then f - 2 ^ len else f))
  | .bfi w => form w (fun s l =>
      let pos := min (src32 s w.c l % 2 ^ 8) (widthOf w)
      let len := min (src32 s w.c l / 2 ^ 8 % 2 ^ 8) (widthOf w - pos)
      let mask := (2 ^ len - 1) * 2 ^ pos
      plain w ((bitsOf s w w.a l &&& (2 ^ widthOf w - 1 - mask)) ||| ((bitsOf s w w.b l * 2 ^ pos) &&& mask) : Nat))
  | .popc w => form w (fun s l => ⟨(List.range (widthOf w)).countP (fun k => (bitsOf s w w.a l).testBit k), 0⟩)
  | .clz w => form w (fun s l =>
      let x := bitsOf s w w.a l
      ⟨if x = 0 then widthOf w else widthOf w - 1 - Nat.log2 x, 0⟩)
  | .brev w => form w (fun s l =>
      ⟨(List.range (widthOf w)).foldl (fun r k => r + if (bitsOf s w w.a l).testBit (widthOf w - 1 - k) then 2 ^ k else 0) 0, 0⟩)
  | .sel w => form w (fun s l => ⟨if srcP s w.c l then bitsOf s w w.a l else bitsOf s w w.b l, 0⟩)
  | .mov w =>
    let n := if w.m4.getLsbD 1 then 2 else 1
    some (inLanes i w.d n (fun s l => ⟨if w.m4.getLsbD 0 then s.regs.src w.a n l else w.imm.toNat, 0⟩))
  | .lea w =>
    let n := if w.m4.getLsbD 3 then 2 else 1
    some (inLanes i w.d n (fun s l => ⟨(s.regs.src w.a n l * 2 ^ (w.m4.toNat % 8) + w.imm.toNat) % 2 ^ 64, 0⟩))
  | _ => none

/-- What the floating-point instructions and conversions give in each lane, on the codes of their sources (R88 to R93,
R208 to R218). -/
def floatResult (i : Instr) : Option Result :=
  let form (w : RWord) (f : FFmt → FpEnv → Nat → Nat → Nat → FRes) (rc : Nat) : Option Result :=
    let t := Ty.ofCode (mTc w.m)
    some { inLanes i w.d (tyN (mTc w.m)) (fun s l =>
             f t.fmt (fpEnv s rc l) (bitsOf s w w.a l) (bitsOf s w w.b l) (bitsOf s w w.c l)) with
           cnt := fun s => srCount s rc }
  let rnd (w : RWord) (f : FFmt → FpEnv → Nat → Nat → Nat → FRes) : Option Result := form w f (mRnd w.m)
  match i with
  | .fadd w => rnd w (fun f e a b _ => f.addV e (f.read e a) (f.read e b))
  | .fsub w => rnd w (fun f e a b _ => f.addV e (f.read e a) (f.read e b).negate)
  | .fmul w => rnd w (fun f e a b _ => fmul f e a b)
  | .ffma w => rnd w (fun f e a b c => f.fmaV e (f.read e a) (f.read e b) (f.read e c))
  | .fmin w => form w (fun f e a b _ => f.minMaxV false (mBit0 w.m) (f.read e a) (f.read e b)) 0
  | .fmax w => form w (fun f e a b _ => f.minMaxV true (mBit0 w.m) (f.read e a) (f.read e b)) 0
  | .frcp w => rnd w (fun f e a _ _ => frcp f e a)
  | .frsq w => rnd w (fun f e a _ _ => frsq f e a)
  | .fsqrt w => rnd w (fun f e a _ _ => fsqrt f e a)
  | .fexp2 w => form w (fun f e a _ _ => fexp2 f e a) 0
  | .flog2 w => form w (fun f e a _ _ => flog2 f e a) 0
  | .fclass w => some (inLanes i w.d 1 (fun s l => ⟨fclass (Ty.ofCode (mTc w.m)).fmt (bitsOf s w w.a l), 0⟩))
  | .fsgn w => some (inLanes i w.d (tyN (mTc w.m)) (fun s l =>
      ⟨fsgn (Ty.ofCode (mTc w.m)).fmt w.c.toNat (bitsOf s w w.a l) (bitsOf s w w.b l), 0⟩))
  | .fdot2 w => some { inLanes i w.d 1 (fun s l =>
      fdot2 (Ty.ofCode (mTc w.m)) (fpEnv s (mRnd w.m) l) (src32 s w.a l) (src32 s w.b l) (src32 s w.c l)) with
      cnt := fun s => srCount s (mRnd w.m) }
  | .frnd w => rnd w (fun f e a _ _ => frnd f e (mBit0 w.m) a)
  | .fscale w => some { inLanes i w.d (tyN (mTc w.m)) (fun s l =>
      fscale (Ty.ofCode (mTc w.m)).fmt (fpEnv s (mRnd w.m) l) (bitsOf s w w.a l) (src32 s w.b l)) with
      cnt := fun s => srCount s (mRnd w.m) }
  | .cvt w => some { inLanes i w.d (tyN (mTc w.m)) (fun s l =>
      cvtVal (Ty.ofCode w.b.toNat) (Ty.ofCode (mTc w.m)) (fpEnv s (mRnd w.m) l) (srcT s w.a w.b.toNat l)) with
      cnt := fun s => srCount s (mRnd w.m) }
  | .dqnt w => some { inLanes i w.d 1 (fun s l =>
      dqntVal (Ty.ofCode (mTc w.m)) (fpEnv s (mRnd w.m) l) l (bitsOf s w w.a l) (src32 s w.a (l / 2 * 2) % 16)
        (src32 s w.a (l / 2 * 2 + 1) % 16) (src32 s w.b l % 256)) with
      cnt := fun s => srCount s (mRnd w.m) }
  | _ => none

/-- Lane `l` is the k-th executing lane (R179, R182, R207, R389). -/
def rankOf (m : Mask) (l : Nat) : Nat := ((lanesOf m).filter (fun j => j < l)).length

/-- The loop of R207 with k outputs to come, over what is left of both lists of (key, tag). -/
def mergeLoop : Nat → List (Int × Nat) → List (Int × Nat) → List (Int × Nat)
  | 0, _, _ => []
  | k + 1, x :: a, y :: b => if x.1 ≤ y.1 then x :: mergeLoop k a (y :: b) else y :: mergeLoop k (x :: a) b
  | k + 1, x :: a, [] => x :: mergeLoop k a []
  | k + 1, [], y :: b => y :: mergeLoop k [] b
  | _ + 1, [], [] => []

/-- The accumulator of `scan` before lane `l` (R179). -/
def scanAcc (s : State) (w : RWord) (l : Nat) : Nat :=
  ((lanesOf (s.exec (.scan w))).filter (fun j => j < l)).foldl (fun acc j =>
    (scanComb (Ty.ofCode (mTc w.m)) (fpEnv s 0 0) (w.m.toNat / 4 % 4) acc (srcT s w.a (mTc w.m) j)).code)
    (scanId (Ty.ofCode (mTc w.m)) (w.m.toNat / 4 % 4))

/-- j of R174. -/
def shflFrom (mode n i : Nat) : Int :=
  match mode with
  | 0 => (n % 32 : Nat)
  | 1 => (i : Int) - n
  | 2 => (i : Int) + n
  | _ => (i ^^^ (n % 32) : Nat)

/-- What the lane instructions give in vector registers (R174, R175, R177, R179, R181, R182, R207). -/
def laneResult (i : Instr) : Option Result :=
  let vec (d : BitVec 10) (n : Nat) (f : State → Nat → FRes) : Option Result :=
    some { d := d, n := n, lanes := fun s => lanesOf (s.exec i), val := f }
  match i with
  | .shfl w =>
    let n : Nat := if w.m.getLsbD 4 then 2 else 1
    vec w.d n (fun s l =>
      let j := shflFrom (w.m.toNat % 4) (src32 s w.b l) l
      ⟨if j < 0 ∨ 31 < j then s.regs.src w.a n l else s.regs.src w.a n j.toNat, 0⟩)
  | .perm w => vec w.d 1 (fun s l =>
      let x := src32 s w.b l * 2 ^ 32 + src32 s w.a l
      let byte (k : Nat) : Nat :=
        let q := src32 s w.c l / 2 ^ (4 * k) % 16
        if 8 ≤ q then 0 else x / 2 ^ (8 * (q % 8)) % 256
      ⟨byte 0 + 2 ^ 8 * byte 1 + 2 ^ 16 * byte 2 + 2 ^ 24 * byte 3, 0⟩)
  | .scan w => vec w.d (tyN (mTc w.m)) (fun s l =>
      let c := scanComb (Ty.ofCode (mTc w.m)) (fpEnv s 0 0) (w.m.toNat / 4 % 4) (scanAcc s w l) (srcT s w.a (mTc w.m) l)
      ⟨if w.m.getLsbD 1 then scanAcc s w l else c.code, c.fl⟩)
  | .stov w =>
    some { d := w.d, n := if w.m.getLsbD 6 then 2 else 1
           lanes := fun s => if (s.exec i).getLsbD (namedLane s w) then [namedLane s w] else []
           val := fun s _ => ⟨srcS s w.a, 0⟩ }
  | .compact w =>
    let n : Nat := if w.m.getLsbD 4 then 2 else 1
    vec w.d n (fun s l =>
      ⟨(((lanesOf (s.exec i)).filter (fun j => srcP s w.b j)).map (fun j => s.regs.src w.a n j)).getD
        (rankOf (s.exec i) l) 0, 0⟩)
  | .merge w => vec w.d (if w.c.getLsbD 0 then 1 else tyN (mTc w.m)) (fun s l =>
      let e := lanesOf (s.exec i)
      let o := (mergeLoop (2 * e.length) (e.map (fun j => (intOf s w w.a j, j))) (e.map (fun j => (intOf s w w.b j, 32 + j)))).getD
        ((if mBit0 w.m then e.length else 0) + rankOf (s.exec i) l) (0, 0)
      ⟨if w.c.getLsbD 0 then o.2 else wrap (widthOf w) o.1, 0⟩)
  | _ => none

/-! ### Traps (R466 to R474) -/

/-- Something of the split's prefix is outstanding: its chunk has executed a word, a store is not performed, or a load
has not returned (R468). -/
def owed (s : State) : Bool :=
  (match s.sp.chunk with | some c => c.words != 0 | none => false) || !s.sp.pst.isEmpty
    || s.g.ll.any (fun l => l.sp == s.sp.id && l.load != 0)

/-- The trap of the current word: it waits for the prefix, with its cause, its lanes, the word's address and the word, and
no register, no memory and no other split has changed (R466). -/
def trapsLater (s t : State) (cause : Nat) (mask : Mask) (done : Bool) : Prop :=
  (∃ p, t.sp.pend = some p ∧ p.cause = cause ∧ p.mask = mask ∧ p.pc = s.ctl.pc ∧ p.info = s.sp.irInfo
      ∧ p.pair = (s.sp.irLen == (if s.ctl.portable then 8 else 16)) ∧ p.done = done)
    ∧ t.regs = s.regs ∧ t.ctl = s.ctl ∧ sameMemory s t ∧ onlyGroup s t

/-- A completing trap that waits for the prefix (R466, R467): it is set aside with its cause, the word's address and the word,
and with its results to come as `q` says; no register and no memory has changed. -/
def completesLater (i : Instr) (s : State) (q : PendTrap → Prop) : Prop :=
  ∃ t p, exec i s = .next t ∧ t.sp.pend = some p ∧ p.done = true ∧ p.pc = s.ctl.pc ∧ p.info = s.sp.irInfo ∧ q p
    ∧ t.regs = s.regs ∧ sameMemory s t

/-- The cause of a floating-point trap by the flags that trap: FPINV, else FPDZ, else FPOF (R73). -/
def trapCauseOf (f : Flags7) : Nat := if f &&& fNV ≠ 0 then 0x07 else if f &&& fDZ ≠ 0 then 0x08 else 0x09

/-- The handler's first word is there: TRAPVEC names a legal clause header for a split in native code (R468). -/
def handlerThere (s : State) : Bool :=
  !s.ctl.portable && !s.ctl.trapCause.getLsbD 63 && s.ctl.trapVec != 0 && s.ctl.trapVec.toNat % 8 == 0
    && (match (fetchAt s s.g s.ctl.trapVec.toNat 8).1 with | .word w => headerOk w | _ => false)

/-- The trap registers, the program counter and the resume state after a delivery (R468, R472). -/
def delivered (s t : State) (cause : Nat) (mask : Mask) (pc info : Word) (pair done : Bool) : Prop :=
  t.ctl.trapPc = pc ∧ t.ctl.trapInfo = info ∧ t.ctl.trapMask = mask.setWidth 64
    ∧ t.ctl.trapCause = BitVec.ofNat 64 (2 ^ 63 + (if pair then 2 ^ 9 else 0) + (if done then 2 ^ 8 else 0) + cause)
    ∧ t.ctl.trapVec = s.ctl.trapVec ∧ t.ctl.trapSave = s.ctl.trapSave
    ∧ t.ctl.pc = s.ctl.trapVec ∧ t.ctl.atHdr = true ∧ t.ctl.stack = [] ∧ t.ctl.mask = s.ctl.mask ∧ t.ctl.skipLeft = 0
    ∧ (∃ r, t.ctl.resume = some r ∧ r.hdrAddr = s.ctl.hdrAddr ∧ r.skipLeft = s.ctl.skipLeft ∧ r.skipMask = s.ctl.skipMask
        ∧ r.stack = s.ctl.stack ∧ r.mask = s.ctl.mask)
    ∧ t.sp.pend = none ∧ t.sp.wait = none

/-! ### Long-latency results (R160) -/

/-- One further result is outstanding, for the current split: when it is written, `d` holds `f` in the lanes, and no other
register changes. -/
def awaits (s t : State) (d : BitVec 10) (n : Nat) (lanes : List Nat) (f : Nat → Nat) (load : Nat) : Prop :=
  ∃ l, t.g.ll = s.g.ll ++ [l] ∧ l.sp = s.cur.2 ∧ l.load = load
    ∧ (∀ u v : State, v.regs = l.into u.regs →
        holds v d n lanes f ∧ sameRegs u v (cellsOf d n lanes) (scalarOf d lanes) [])
    ∧ ∀ r ∈ regsOf d n, r ≠ .s 0 → t.g.emptyReg r = true

/-- The lines that the split's chunk has recorded as read. -/
def recorded (t : State) (keys : List Nat) : Prop := ∀ c, t.sp.chunk = some c → ∀ k ∈ keys, k ∈ c.reads

/-! ### Effects outside the split (R291) -/

/-- The effects that the current split's chunk holds. -/
def heldEffects (s : State) : List Effect := match s.sp.chunk with | some c => c.effs | none => []

/-- The instruction changes nothing but that the split goes on at the next word. -/
def passes (i : Instr) (s : State) : Prop :=
  ∃ t, exec i s = .next t ∧ heldEffects t = heldEffects s ∧ registerFrame s t [] [] [] [] 0

/-- The lanes of the split that no guard keeps from executing. -/
def acts (i : Instr) (s : State) : Bool := s.exec i != 0

/-- A form of an integer instruction that clamps (R192, R196). -/
def saturates (i : Instr) : Bool :=
  match i with
  | .iadd w | .isub w | .imul w => mBit0 w.m
  | .isat _ => true
  | _ => false

/-! ### Reductions and blocks -/

/-- The pairwise tree of R81 over the values of `2 ^ level` lanes from lane `2 ^ level * i` on: at each level neighbours
combine, the lower one first, and a value without a partner passes. -/
def redTree (comb : Nat → Nat → Nat → FRes) (xs : Nat → Option Nat) : Nat → Nat → Option FRes
  | 0, i => (xs i).map (fun x => ⟨x, 0⟩)
  | level + 1, i =>
    match redTree comb xs level (2 * i), redTree comb xs level (2 * i + 1) with
    | some x, some y =>
      let c := comb (32 - 2 ^ (5 - level) + i) x.code y.code
      some ⟨c.code, c.fl ||| (x.fl ||| y.fl)⟩
    | x, none => x
    | none, y => y

/-- What `fredu` reduces to: the executing lanes' values after FTZI, each node rounded with its own number (R220). -/
def fredResult (s : State) (w : RWord) : Option FRes :=
  let f := (Ty.ofCode (mTc w.m)).fmt
  let lane (l : Nat) : Nat :=
    let x := bitsOf s w w.a l
    match f.decode x, f.flushIn (fpEnv s 0 l) (f.decode x) with
    | .fin _ mg _, .fin sg 0 _ => if mg = 0 then x else f.signBit sg
    | _, _ => x
  redTree (fun node x y =>
      f.combine { fpEnv s (mRnd w.m) node with ftzi := false } w.c.toNat (mBit0 w.m) (f.decode x) (f.decode y))
    (fun l => if (s.exec (.fredu w)).getLsbD l then some (lane l) else none) 5 0

/-- What `qnt` makes of the executing lanes' values, flushed on input: the scale, the codes by lane, and the flags (R80,
R91). -/
def qntResult (s : State) (w : RWord) : Nat × List (Option Nat) × Flags7 :=
  let f := Ty.f32.fmt
  quantise (Ty.ofCode (mTc w.m)) (fpEnv s (qntCode s w) 0) (mBit0 w.m)
    ((List.range 32).map (fun l => (fpEnv s (qntCode s w) l).t))
    ((List.range 32).map (fun l => if (s.exec (.qnt w)).getLsbD l
      then some (f.flushIn (fpEnv s 0 l) (f.decode (src32 s w.a l))) else none))

/-! ### When a split issues -/

/-- A split is chosen in the state `v`, no step being due at once: by the schedule, or, where it is empty, because it has been passed
over (R112). -/
def chosen (s v : State) (gid sp : Nat) : Prop :=
  dueNow s = none ∧ ((∃ r, s.schedule = .issue gid sp :: r ∧ v = { s with schedule := r })
    ∨ (s.schedule = [] ∧ overdue s = some (gid, sp) ∧ v = s))

/-- The current split issues its next word in the state `u`: the schedule is empty, a cycle has passed and the split goes on; or a
chosen split may issue, and it fetches a header, or the core selects it (R110, R111), where a split that waits counts as ready from
this cycle on. -/
def issues (s u : State) : Prop :=
  (s.schedule = [] ∧ dueNow s = none ∧ overdue s = none ∧ u = passTime s 1 ∧ goesOn u = true)
    ∨ ∃ v gid sp, chosen s v gid sp ∧ mayIssue v gid sp = true ∧ u = { v with cur := (gid, sp) }
        ∧ (u.ctl.atHdr || (if u.sp.isReady then selected v gid sp else selected (u.modSp (Split.wake v.clock)) gid sp)) = true

/-- The state after fetching `len` bytes at an address, the word being `w`. -/
def fetches (s : State) (addr len w : Nat) (t : State) : Prop := fetchAt s s.g addr len = (.word w, t)

/-! ### Alphabet instructions (R334, R335, R341 to R355) -/

/-- What an alphabet instruction that writes a value or a word gives: its destination and registers, its condition on
register contents, its condition on a digit index, and each lane's checked result. -/
structure AlphaRule where
  d : BitVec 10
  n : Nat
  bad : State → Bool
  idx : State → Nat → Bool
  val : State → Nat → Chk

/-- The sum of digits times powers of the radix. -/
def wordOf (r : Nat) (g : Nat → Nat) : Nat → Nat
  | 0 => 0
  | n + 1 => wordOf r g n + g n * r ^ n

/-- A checked word or value with another result. -/
def Chk.giving (c : Chk) (x : Nat) : Chk := { c with x := x }
/-- The result `x` of a word packed from n checked digits. -/
def packed (r n : Nat) (g : Nat → Chk) : Chk :=
  ⟨wordOf r (fun j => (g j).x) n, (List.range n).any (fun j => (g j).trap), (List.range n).any (fun j => (g j).flag)⟩

/-- The rules of sunpk, spack, sdot, scvt, smadd and scnt; a register's alphabet is the one that the group holds. -/
def alphaRule (i : Instr) (s : State) : Option AlphaRule :=
  match i with
  | .sunpk w =>
    let a := alA s w
    let spr := w.m.getLsbD 5
    let out (x j : Nat) : Chk := (a.check x).giving
      (if w.m.getLsbD 4 then a.digit (a.check x).x j else valueOut w.d (a.val (a.digit (a.check x).x j)))
    some { d := w.d, n := 1, bad := fun _ => alphBad a [w.a], idx := fun s l => !spr && a.n ≤ src32 s w.b l
           val := fun s l =>
             let e := srcS s w.b % 2 ^ 32 + l
             if !spr then out (wordIn s a w.a l) (src32 s w.b l)
             else if 31 < e / a.n then { x := 0 } else out (laneVal s w.a a.regs (e / a.n) % 2 ^ a.w) (e % a.n) }
  | .spack w =>
    let a := alA s w
    let raw := w.m.getLsbD 4
    let gat := w.m.getLsbD 5
    some { d := w.d, n := a.regs, bad := fun _ => alphBad a (if gat then [w.d] else [w.d, w.a])
           idx := fun s l => !gat && a.n ≤ src32 s w.b l
           val := fun s l =>
             if gat then packed a.r a.n (fun t =>
               let k := srcS s w.b % 2 ^ 32 + l * a.n + t
               if 31 < k then { x := a.neutral }
               else if raw then a.orNeutral (a.encRaw (laneVal s w.a 1 k)) else a.orNeutral (a.enc (toSigned 32 (laneVal s w.a 1 k))))
             else
               let x := a.check (wordIn s a w.a l)
               let g := a.orNeutral (if raw then a.encRaw (s.regs.src w.c 1 l) else a.enc (valueIn s w.c l))
               let j := src32 s w.b l
               ⟨x.x - a.digit x.x j * a.r ^ j + g.x * a.r ^ j, x.trap || g.trap, x.flag || g.flag⟩ }
  | .sdot w =>
    let a := alA s w
    let b := alB s w
    some { d := w.d, n := 1, bad := fun _ => alphBad a [w.a] || alphBad b [w.b] || a.n != b.n, idx := fun _ _ => false
           val := fun s l =>
             let x := a.check (wordIn s a w.a l)
             let y := b.check (wordIn s b w.b l)
             ⟨valueOut w.d (valueIn s w.c l
                + ((List.range a.n).map (fun j => a.val (a.digit x.x j) * b.val (b.digit y.x j))).sum),
               x.trap || y.trap, x.flag || y.flag⟩ }
  | .scvt w =>
    let a := alA s w
    let b := alB s w
    some { d := w.d, n := b.regs, bad := fun _ => alphBad a [w.a] || alphBad b [w.d], idx := fun _ _ => false
           val := fun s l =>
             let x := a.check (wordIn s a w.a l)
             let p := packed b.r b.n (fun j =>
               if j < a.n then b.orNeutral (b.enc (a.val (a.digit x.x j))) else { x := b.neutral })
             ⟨p.x, x.trap || p.trap, x.flag || p.flag⟩ }
  | .smadd w =>
    let a := alA s w
    some { d := w.d, n := a.regs, bad := fun _ => alphBad a [w.a, w.b, w.c, w.d], idx := fun _ _ => false
           val := fun s l =>
             let x := a.check (wordIn s a w.a l)
             let y := a.check (wordIn s a w.b l)
             let z := a.check (wordIn s a w.c l)
             ⟨wordOf a.r (fun j => (a.digit x.x j * a.digit y.x j + a.digit z.x j) % a.r) a.n, x.trap || y.trap || z.trap,
               x.flag || y.flag || z.flag⟩ }
  | .scnt w =>
    let a := alA s w
    some { d := w.d, n := 1, bad := fun _ => alphBad a [w.a], idx := fun _ _ => false
           val := fun s l =>
             let x := a.check (wordIn s a w.a l)
             x.giving ((List.range a.n).countP (fun j => decide (a.val (a.digit x.x j) = valueIn s w.b l) != w.m.getLsbD 4)) }
  | _ => none

/-- The result of an alphabet instruction that meets no condition of its entry. -/
def AlphaRule.result (r : AlphaRule) (i : Instr) : Result :=
  inLanes i r.d r.n (fun s l => ⟨(r.val s l).x, if (r.val s l).flag then fICW else 0⟩)

/-- The lanes that a condition of an entry names: every executing lane of a form that executes once (R467). -/
def named (i : Instr) (s : State) (d : BitVec 10) (p : Nat → Bool) : Mask :=
  if isS d then s.exec i else maskOf ((actLanes s i d).filter p)

/-- The instruction traps with a cause and lanes of its entry's, without any effect. -/
def trapsWith (i : Instr) (s : State) (cause : Nat) (m : Mask) : Prop :=
  exec i s = .next (raiseTrap (begun i s) cause m false {})

/-- Device memory, host memory, buffers, SRAM, registers and alphabets are as before, and so is every split but the
current one; the system registers but for `ex` and, where `cores`, the core's; the split goes on at the next word. -/
def systemFrame (s t : State) (ex : List Nat) : Prop :=
  sameMemory s t ∧ sameRegs s t [] [] [] ∧ sameAlpha s t ∧ sameSystem s t ex ∧ t.g.ext = s.g.ext ∧ t.g.ll = s.g.ll
    ∧ onlyGroup s t ∧ nextWord s t

/-- The bits of a system register that a write sets (R70, R74, R78, R108, R147, R421, R470, R472, R522). -/
def sysMasked (n : Nat) (v : Word) : Word :=
  match n with
  | 0x010 => (if 6 ≤ v.toNat % 8 then v &&& 0x1F8 else v &&& 0x1FF)
  | 0x011 => v &&& 0x7F
  | 0x012 => v &&& 1
  | 0x018 | 0x019 => v &&& 0xFF
  | 0x01A => v &&& 0xFFFF
  | 0x020 | 0x024 => v &&& 0xFFFFFFFFFFFFFFFC
  | 0x021 => v &&& 0x80000000000003FF
  | 0x022 => v &&& 0xFFFFFFFF
  | 0x060 => v &&& 0x8000000001FFFFFF
  | _ => if 0x040 ≤ n && n ≤ 0x047 then v &&& 0x3FFFF else v

/-! ### Branches (R49, R115) -/

/-- A split may go on at an address: its word can be fetched, and in native code it is a clause header (R49). -/
def headerAt (s : State) (a : Word) : Bool :=
  let unit := if s.ctl.portable then 4 else 8
  a.toNat % unit == 0 && (match (fetchAt s s.g a.toNat unit).1 with
    | .word w => if s.ctl.portable then w / 2 ^ 24 != 0xE1 else isHeader w
    | _ => false)

/-- The state of a ready control instruction once the word at its target has been fetched. -/
def reached (i : Instr) (s : State) (a : Word) : State :=
  (fetchAt (begun i s) (begun i s).g a.toNat (if s.ctl.portable then 4 else 8)).2

/-- The word lies inside its clause: what follows it is not its clause's own header. -/
def inClause (s : State) : Prop := s.ctl.pc + BitVec.ofNat 64 s.sp.irLen ≠ s.ctl.hdrAddr

/-- The next word's address. -/
def State.nextPc (s : State) : Word := s.ctl.pc + BitVec.ofNat 64 s.sp.irLen

/-- The split goes on with the lanes `m` at an address, where it fetches a header; its waits are over. -/
def goesTo (t : State) (a : Word) (m : Mask) (stack : List StackEntry) : Prop :=
  t.ctl.pc = a ∧ t.ctl.atHdr = true ∧ t.ctl.mask = m ∧ t.ctl.stack = stack ∧ t.sp.wait = none ∧ t.sp.pend = none

/-- Nothing changes from `u` to `t` but the control state of the current split, the cells `v`, the scalars `sc`, and the
event counters. -/
def controlFrame (u t : State) (v sc : List Nat) : Prop :=
  sameMemory u t ∧ sameRegs u t v sc [] ∧ t.regs.al = u.regs.al ∧ t.regs.map = u.regs.map ∧ t.g.ext = u.g.ext
    ∧ t.g.ll = u.g.ll ∧ sameCores u t ∧ onlyGroup u t

/-- An effect outside its split of a ready instruction: held with its chunk, or, in relaxed mode, taking place at once;
nothing else changes. -/
def sends (i : Instr) (s : State) (e : Effect) : Prop :=
  ∃ t, exec i s = .next t
    ∧ (s.chunkedMode = true → heldEffects t = heldEffects s ++ [e] ∧ registerFrame s t [] [] [] [] 0)
    ∧ (s.chunkedMode = false → registerFrame (applyEffect s s.cur.1 s.cur.2 e) t [] [] [] [] 0)

/-! ### Accesses (R227, R240 to R252, R264, R278 to R284) -/

/-- A plain scratchpad or cluster access: data register, buffer (4 for cluster SRAM), bytes, lanes and offsets. -/
structure LocalForm where
  d : BitVec 10
  buf : Nat
  n : Nat
  lanes : State → List Nat
  addr : State → Nat → Nat

def localOf (i : Instr) (w : MWord) (buf : Nat) (block : Bool) : LocalForm :=
  { d := w.d, buf := buf, n := szB w.size
    lanes := fun s => if block then lanesOf (s.exec i) else memLanes s i w
    addr := fun s l => if block then wrap 64 ((srcS s w.a : Int) + off9 w * szB w.size + l * szB w.size)
      else wrap 64 ((s.regs.src w.a 1 l : Int) + s.regs.src w.b 1 l + off9 w * szB w.size) }

/-- The plain loads, and the plain stores. -/
def localLoadForm (i : Instr) : Option LocalForm :=
  match i with
  | .lds w => some (localOf i w w.sub.toNat false)
  | .ldc w => some (localOf i w 4 false)
  | .ldsx w => some (localOf i w w.sub.toNat true)
  | _ => none
def localStoreForm (i : Instr) : Option LocalForm :=
  match i with
  | .sts w => some (localOf i w w.sub.toNat false)
  | .stc w => some (localOf i w 4 false)
  | .stsx w => some (localOf i w w.sub.toNat true)
  | _ => none

/-- Registers of an operand of n bytes. -/
def regsFor (n : Nat) : Nat := if n ≤ 4 then 1 else n / 4

/-- The lines of ranges of n bytes. -/
def linesAt (n : Nat) (locs : List Nat) : List Nat := locs.flatMap (fun a => linesOf a n)

/-- The store buffer has room for the lines (R293). -/
def storeRoom (s : State) (keys : List Nat) : Bool :=
  match s.sp.chunk with
  | none => true
  | some c => groupLines s.g + ((addKeys c.writes keys).length - c.writes.length) ≤ 128

/-- The split has put stores behind those that have not taken effect, and its chunk has recorded their lines. -/
def stored (s t : State) (ops : List StoreOp) (keys : List Nat) : Prop :=
  ownOps t = ownOps s ++ ops ∧ ∀ c, t.sp.chunk = some c → ∀ k ∈ keys, k ∈ c.writes

/-- No other chunk has read or written the lines, and none that holds its homes. -/
def undisturbed (s : State) (keys : List Nat) : Prop :=
  victims s keys s.g.tid s.cl.cid s.cur none = [] ∧ reservedBlocks s keys s.g.core s.cur none = false

/-- The pending canonical sums cover different bytes (R285). -/
def sumsApart (s : State) : Prop :=
  s.accums.Pairwise (fun a b => a.addr + a.size ≤ b.addr ∨ b.addr + b.size ≤ a.addr)

/-- The lanes of a global access pass its checks: valid addresses (R253), alignment, and a page that permits it and is
there, or a peer that has not refused the line; a chunk's store may miss its page (R260). -/
def reaches (s : State) (need : Need) (n : Nat) (mayMiss : Bool) (as : List Nat) : Bool :=
  as.all (fun a => (place s a).isSome && a % n == 0 && (match access s s.slotNo need a with
    | .hit _ _ _ _ => true
    | .peer _ => [0, 2, 3].all (fun k => !s.sp.bad.contains (leaveKey k (lineAddr a)))
    | .miss _ _ _ _ => mayMiss
    | _ => false))

/-- The state in which the pages of an access have been found (R259). -/
def found (s : State) (need : Need) (as : List Nat) : State := installAll s need (as.map (fun a => (0, a)))

/-- n bytes at an address, as the split reads them. -/
def splitReads (s : State) (n a : Nat) : Nat := ofBytes ((globalBytes s a n).getD [])

/-- A global read of n bytes at some addresses goes through: the pages permit it and are there, no `red` of the split's own
covers the bytes, the chunk may record the lines, and the lines of peers have come; `u` is the state after it. -/
def readsTo (n : Nat) (as : List Nat) (s u : State) : Prop :=
  let g := found s .read as
  let keys := as.flatMap (fun a => linesOf (normal g a) n)
  reaches s .read n false as = true ∧ (∀ a ∈ as, redHits g (normal g a) n = false ∧ (globalBytes g a n).isSome = true)
    ∧ readRoom g keys = true ∧ peerNeed g (as.map (fun a => (0, a))) = []
    ∧ u = (noteReads g keys).modSp (fun p => { p with peerData := [], bad := [] })

/-- The same of bytes that an instruction reads before it reads on: the lines of peers that have come stay with the split. -/
def readsOn (as : List Nat) (s u : State) : Prop := ∃ t, readsTo 1 as s t ∧ u = keepLines s t

/-- The same of places, each an address and a length, that are read whole: none of their bytes is a `red`'s of the split's own. -/
def readsAll (places : List (Nat × Nat)) (s u : State) : Prop :=
  readsOn (places.flatMap (fun p => bothEnds p.1 p.2)) s u ∧ ∀ p ∈ places, redHits s (normal s p.1) p.2 = false

/-- A read changes only what is known of pages and of their misses, the chunk's read lines, and the peers' lines it took; a free
value says which entry a full TLB drops. -/
def readFrame (s u : State) : Prop :=
  { u with groups := s.groups, tlb := s.tlb, misses := s.misses, free := s.free } = s ∧ u.regs = s.regs ∧ u.ctl = s.ctl ∧ u.g.ll = s.g.ll ∧ ownOps u = ownOps s
    ∧ ∀ x, x ≠ s.cur.1 → u.group? x = s.group? x

/-- What lanes that read and change words one after another do (R228, R247): the lanes' old values and the words as they
leave them; `old` gives the words before. -/
def atomRun (op bits : Nat) (x cmp : Nat → Nat) : (Nat → Nat) → List (Nat × Nat) → List (Nat × Nat) × (Nat → Nat) × Flags7
  | old, [] => ([], old, 0)
  | old, (l, a) :: r =>
    let o := atomOp op bits (old a) (x l) (cmp l)
    let rest := atomRun op bits x cmp (fun k => if k = a then o.1.getD (old a) else old k) r
    ((l, old a) :: rest.1, rest.2.1, o.2 ||| rest.2.2)

/-- The value of a lane in a list. -/
def valueOf (l : List (Nat × Nat)) (lane : Nat) : Nat := ((l.find? (fun e => e.1 == lane)).map (fun e => e.2)).getD 0

/-- The key of the device memory word that an access of n bytes reaches, where it is one of this package's memory. -/
def deviceKey (s : State) (need : Need) (n a : Nat) : Option Nat :=
  match access s s.slotNo need a with
  | .hit false o inPage l => if l.comp == 0 && phys o (l.frame + inPage) % n == 0 then some (phys o (l.frame + inPage)) else none
  | _ => none

/-- A word with its digits changed by lanes in increasing order (R337): `es` holds each lane's word, index and digit. -/
def symWord (a : Alpha) (x ad : Nat) (es : List (Nat × Nat × Nat)) : Nat :=
  es.foldl (fun x e => if e.1 = ad then a.replace (a.check x).x e.2.1 e.2.2 else x) x

/-- The status of R287 for an address of this package. -/
def migrStatus (s : State) (a : Nat) : Nat :=
  match xlatePlace s a with
  | none => 0
  | some (h, o, off) => match xlate s s.slotNo h o off with
    | .leaf l => if l.rd then (if l.copy then 1 else 0) else 3
    | _ => 2

/-! ### Commands (R368, R369, R405) -/

/-- The commands of format X, with whether rec must be 64-byte aligned; and those of format Q. -/
def commandForm (i : Instr) : Option (XWord × Bool) :=
  match i with
  | .nzscan w => some (w, false)
  | .xcopy w | .xform w | .xgath w | .xscat w | .gnode w | .grun w | .xfill w | .xpeer w | .ebb w | .mzero w | .mscale w
  | .mconv w | .attn w => some (w, true)
  | _ => none
def multiplyForm (i : Instr) : Option QWord :=
  match i with
  | .mma w | .mloop w | .msparse w | .mchk w => some w
  | _ => none

/-- A counter address that passes its checks, and one that does not (R141, R369). -/
def counterFits (s : State) (c : Option Nat) : Prop := ∀ a, c = some a → a % 4 = 0 ∧ a + 4 ≤ localSize s 3
def counterTraps (i : Instr) (s : State) (c : Option Nat) : Prop :=
  ∀ a, c = some a → (a % 4 ≠ 0 → trapsWith i s 0x0C (s.exec i))
    ∧ (a % 4 = 0 → localSize s 3 < a + 4 → trapsWith i s 0x0B (s.exec i))

/-- The core's command port has an entry free, and its held pool for a gated command (R368, R384). -/
def portTakes (s : State) (gate : Option Nat) : Prop :=
  portUsed s s.g.core < 16 ∧ (gate ≠ none → heldUsed s s.g.core < 16)

/-! ### Stores that take effect (R301, R310) -/

/-- The place of a buffered store in a buffer (0 W, 1 A, 2 C, 3 G) or in cluster SRAM (4). -/
def StoreOp.inBuf (b : Nat) (op : StoreOp) : Option Nat :=
  match localBase op.range.1 with
  | some (x, off) => if x = b then some off else none
  | none => none

/-- A byte after some stores in their order: the last one that covers it gives it. -/
def afterStores (place : StoreOp → Option Nat) (ops : List StoreOp) (k : Nat) (old : Byte) : Byte :=
  ops.foldl (fun b op => match op, place op with
    | .bytes _ d, some a => if a ≤ k ∧ k < a + d.length then d.getD (k - a) 0 else b
    | _, _ => b) old

/-- Stores of a group take effect, and every other byte is as before: stores of bytes to its team's buffers and its
cluster's SRAM; or one store of bytes to device memory. -/
def lands (s t : State) (g : Group) (ops : List StoreOp) : Prop :=
  ((∀ op ∈ ops, ∃ loc d, op = .bytes loc d ∧ (localBase loc).isSome = true) →
      (∀ k, t.memByte k = s.memByte k ∧ t.hostMem.get k = s.hostMem.get k)
        ∧ (∀ tid b k, b < 4 → t.bufByte tid b k
            = if tid = g.tid then afterStores (StoreOp.inBuf b) ops k (s.bufByte tid b k) else s.bufByte tid b k)
        ∧ ∀ cid k, t.sramByte cid k
            = if cid = (s.teamOf g).cid then afterStores (StoreOp.inBuf 4) ops k (s.sramByte cid k) else s.sramByte cid k)
    ∧ ∀ loc d o i l, ops = [.bytes loc d] → localBase loc = none → access s (s.gridOf g).slot .write loc = .hit false o i l →
      let key := phys o (l.frame + i)
      (∀ k, t.memByte k = if key ≤ k ∧ k < key + d.length then d.getD (k - key) 0 else s.memByte k)
        ∧ (∀ k, t.hostMem.get k = s.hostMem.get k) ∧ (∀ tid b k, t.bufByte tid b k = s.bufByte tid b k)
        ∧ ∀ cid k, t.sramByte cid k = s.sramByte cid k

/-- A group's stores of some lines disturb nothing else: no chunk conflicts, no full/empty request waits in its team, the
canonical sums lie apart, and no line is a peer's. -/
def quietStores (s : State) (g : Group) (sp : Nat) (ticket : Option Nat) (keys : List Nat) : Prop :=
  victims s keys g.tid (s.clusterOf g).cid (g.gid, sp) ticket = [] ∧ sumsApart s ∧ peerKeys keys = []
    ∧ ∃ tm, s.team? g.tid = some tm ∧ tm.feq = [] ∧ (s.cluster? tm.cid).isSome = true

/-- The commit of a chunk (R191, R301): its key is the last one, its stores take effect, its flags reach FPFLAGS, its split
has no chunk, and the splits it made may issue. -/
def commits (s t : State) (g : Group) (p : Split) (c : Chunk) (key : Nat × Nat × Nat) : Prop :=
  t.lastKey = key ∧ lands s t g c.ops ∧ ∃ g' p', t.group? g.gid = some g' ∧ g'.split? p.id = some p' ∧ p'.chunk = none
    ∧ p'.ctl = p.ctl ∧ g'.regs = g.regs ∧ g'.fpflags = g.fpflags ||| c.flags.setWidth 64
    ∧ ∀ q ∈ g'.splits, q.born ≠ some p.id

end Sys2Proof.Machine
end

