-- ==== Sys2Proof/Certificates/Slice0/Obligations.lean ====
section
/-! DEFINITION. The statements about the machine. Each docstring says what is stated and on which text of the spec it rests. -/

open Sys2Proof Sys2Proof.Machine

/-- Fourteen words that the spec gives as examples, one or more of every format, decode to the instructions that they
stand for: iadd.sat, mov with a scalar, mov with an immediate, lea, a branch, a loop, sysrd, vote, shfl, alset, stgs,
xcopy, a portable marker, and a prefix with the lea after it. -/
def Obligations.DecodedWords : Prop :=
  decodeTableWord 64 0x20000100200C0021 = some (.iadd ⟨⟨false, 0, 0⟩, 4, 2, 3, 0, 0x21⟩)
    ∧ decodeTableWord 64 0x3700016091000000 = some (.mov ⟨⟨false, 0, 0⟩, 5, 0x209, 1, 0, false⟩)
    ∧ decodeTableWord 64 0x3700804000000003 = some (.mov ⟨⟨false, 0, 0⟩, 0x201, 0, 0, 3, false⟩)
    ∧ decodeTableWord 64 0x38008260A3000040 = some (.lea ⟨⟨false, 0, 0⟩, 0x209, 0x20A, 3, 64, false⟩)
    ∧ decodeTableWord 64 0x0110800000000003 = some (.bra ⟨⟨false, 2, 0⟩, true, 0, 0, 3⟩)
    ∧ decodeTableWord 64 0x060000817FFFFFFC = some (.loop ⟨⟨false, 0, 0⟩, false, 0, 0x205, 0x3FFFFFFC⟩)
    ∧ decodeTableWord 64 0x0F0081C000000005 = some (.sysrd ⟨⟨false, 0, 0⟩, 0x207, 0, 0, 5, false⟩)
    ∧ decodeTableWord 64 0x150080C040000003 = some (.vote ⟨⟨false, 0, 0⟩, 0x203, 4, 0, 0, 3⟩)
    ∧ decodeTableWord 64 0x6000024088300000 = some (.shfl ⟨⟨false, 0, 0⟩, 9, 8, 0x20C, 0, 0⟩)
    ∧ decodeTableWord 64 0x7000002010000003 = some (.alset ⟨⟨false, 0, 0⟩, 0, 0x201, 0, 0, 3⟩)
    ∧ decodeTableWord 64 0x9600004028024000 = some (.stgs ⟨⟨false, 0, 0⟩, 1, 2, 0x200, 2, 2, 0, 0⟩)
    ∧ decodeTableWord 64 0xA0008521887A1F00 = some (.xcopy ⟨⟨false, 0, 0⟩, 0x214, 0x218, 0x21E, 0x21F, 0⟩)
    ∧ decodeTableWord 32 0x00000001 = some .safePointMarker
    ∧ decodeTableWord 128 (0x38008260A3456789 * 2 ^ 64 + 0xE000000000000123)
        = some (.lea ⟨⟨false, 0, 0⟩, 0x209, 0x20A, 3, 0x123456789, true⟩)

/-- For every well-formed instruction that is a native word, decoding the words that the encoder gives it yields the
instruction again, with every operand at every value that the encoding admits, prefix pairs included. -/
def Obligations.EncodeDecode : Prop :=
  ∀ i : Instr, i.wf = true → encode i ≠ [] → decodeWords (encode i) = some i

/-- Every portable word that meets R495 forms one native word of the same opcode, whose predicate guard is p0 to p7.
The portable word 1 is the safe-point marker and every other one an instruction of its own. A portable word whose
opcode is assigned to nothing forms no native word. -/
def Obligations.PortableForms : Prop :=
  (∀ w0 ext n, portableWord w0 ext = some n →
      n.toNat / 2 ^ 56 = w0 / 2 ^ 24 % 256 ∧ n.toNat / 2 ^ 51 % 16 < 8 ∧ assigned (n.toNat / 2 ^ 56) = true)
    ∧ (∀ w0 ext, assigned (w0 / 2 ^ 24 % 256) = false → portableWord w0 ext = none)
    ∧ (∀ w0 ext, w0 < 2 ^ 32 → ext < 2 ^ 32 → w0 ≠ 1 → ∃ w, decodeAtPortable w0 ext = .portableInstruction w
        ∧ w.toNat % 2 ^ 32 = w0)
    ∧ ∀ ext, decodeAtPortable 1 ext = .safePointMarker

/-- Where a split issues and nothing holds it back: at a clause's start its step takes the clause header; inside a
native clause it executes the instruction that the word at the program counter decodes to, or a prefix word and the
word after it together; in portable code the portable word with its extension word; each in the state in which the
words have been fetched and noted as the words at hand. A step that is due at once comes before anything else; where
none is, a scheduled event that is no instruction word is executed as it stands. That order is the model's choice
(log 5), and so is which split issues and when (log 9). -/
def Obligations.StepRunsInstruction : Prop :=
  (∀ s u : State, issues s u → heldBack u = none →
      (u.ctl.atHdr = true → step s = exec .clauseHeaderFetch u)
        ∧ (u.ctl.atHdr = false → u.ctl.portable = false → ∀ w t, fetches u u.ctl.pc.toNat 8 w t →
            (w / 2 ^ 56 ≠ 0xE0 → step s = exec (decodeWord (BitVec.ofNat 64 w) none) (atHand t 8 w))
              ∧ (w / 2 ^ 40 = 0xE0 * 2 ^ 16 → u.ctl.pc.toNat < clauseEnd t → ∀ v t' i, fetches t (u.ctl.pc.toNat + 8) 8 v t' →
                  decodeNative (BitVec.ofNat 64 w) (BitVec.ofNat 64 v) = some i → step s = exec i (atHand t' 16 v)))
        ∧ (u.ctl.atHdr = false → u.ctl.portable = true → ∀ w t, fetches u u.ctl.pc.toNat 4 w t →
            (w.testBit 23 = false → step s = exec (decodeAtPortable w 0) (atHand t 4 w))
              ∧ (w.testBit 23 = true → ∀ e t', fetches t (u.ctl.pc.toNat + 4) 4 e t' →
                  step s = exec (decodeAtPortable w e) (atHand t' 8 (w + e * 2 ^ 32)))))
    ∧ (∀ (s : State) (i : Instr), dueNow s = some i → step s = exec i s)
    ∧ ∀ (s : State) (i : Instr) (r : List Choice), dueNow s = none → s.schedule = .event i :: r → isStep i = true →
        step s = exec i { s with schedule := r }

/-- In the state after reset with a native word that is no prefix placed where a split fetches, the next step executes
the instruction that the word decodes to. The placing by hand is the model's choice (log 6). -/
def Obligations.PlacedWordRuns : Prop :=
  ∀ w : BitVec 64, w.toNat / 2 ^ 56 ≠ 0xE0 →
    ∃ s, step (State.reset.withFetchWord 64 w.toNat) = exec (decodeWord w none) s ∧ s.hasCur = true ∧ s.idle = true
      ∧ s.ctl.pc = 0x1008 ∧ s.ctl.mask = BitVec.allOnes 32

/-- After reset no group is resident, nothing is queued or under way, CLOCK is 0, every entry of the package's vector
clock is 0, no aperture and no translation is held, the package has no owning host, and memory lists nothing. That
device memory then reads 0 is the model's choice (log 1). -/
def Obligations.ResetValues : Prop :=
  State.reset.groups = [] ∧ State.reset.grids = [] ∧ State.reset.cmds = [] ∧ State.reset.clock = 0
    ∧ (∀ k, State.reset.vc.getD k 0 = 0) ∧ State.reset.tlb = [] ∧ State.reset.apers = [] ∧ State.reset.parked = []
    ∧ State.reset.mem = [] ∧ State.reset.hostMem = [] ∧ State.reset.hasCur = false
    ∧ State.reset.bar 0x38 % 16 = 0xF
    ∧ ∀ k, State.reset.memByte k = 0 ∧ State.reset.hostMem.get k = 0

/-- Device memory and host memory are in their canonical form after reset. -/
def Obligations.ResetMemory : Prop := State.reset.memOk = true

/-- From any state whose device memory and host memory are in their canonical form (addresses strictly rising, no
entry equal to what an unlisted address reads as), whatever step the machine takes leaves both in that form. -/
def Obligations.MemoryForm : Prop :=
  ∀ s t : State, s.memOk = true → step s = .next t → t.memOk = true

/-- s0 reads 0 and a write of it changes nothing; p0 reads all ones and a write of it changes nothing; a word that
writes s0 or p0 is as legal as the same word with another scalar or predicate; and an instruction of a split that
waits for nothing, lawful by its words, that names one of v64 to v255 in a slot that its group neither holds nor has
requested traps XREG with the active mask. -/
def Obligations.FixedRegisters : Prop :=
  (∀ (r : Regs) (x : Word) (m b : Mask), r.sget 0 = 0 ∧ r.sset 0 x = r ∧ r.pget 0 = BitVec.allOnes 32 ∧ r.pset 0 m b = r)
    ∧ (∀ (w : IWord) (n : BitVec 9), legal (.mov { w with d := 0x200 }) = legal (.mov { w with d := 0x200 ||| n.setWidth 10 }))
    ∧ (∀ (w : RWord) (n : BitVec 4), legal (.icmp { w with d := 0 }) = legal (.icmp { w with d := n.setWidth 10 }))
    ∧ ∀ (i : Instr) (s : State) (n : Nat), encode i ≠ [] → s.hasCur = true → s.idle = true → lawful i s = true →
        Reg.v n ∈ (usesIn i s.g.regs).regs → 64 ≤ n → s.g.ext.contains (extSlot n) = false →
        s.postedSlot s.g (extSlot n) = false →
        exec i s = .next (raiseTrap s 0x10 s.ctl.mask false {})

/-- For every native instruction of a split that waits for nothing: an illegal field traps ILLOP; with legal fields, a
class that the clause does not admit traps HDR; then a word that needs a mode that the grid lacks traps PRIV; then a
register that the group does not have traps XREG; then an empty source whose FE bit is 1 traps EMPTY. Each trap has
the active mask, whatever the guard. -/
def Obligations.TrapOrder : Prop :=
  ∀ (i : Instr) (s : State), encode i ≠ [] → s.hasCur = true → s.idle = true →
    let fe := (guardOf i).fe
    let u := usesIn i s.g.regs
    let inClass := classOk (hdrClass s.sp.ctl.hdr) (opcodeOf i) (lastWord s.sp)
    let priv := privBad i (s.gridOf s.g)
    let missing := ∃ r ∈ u.regs, s.hasReg s.g r = false
    let empty := (fe.getLsbD 0 = true ∧ ∃ r ∈ u.fe0, s.g.emptyReg r = true)
      ∨ (fe.getLsbD 1 = true ∧ ∃ r ∈ u.fe1, s.g.emptyReg r = true)
      ∨ (fe.getLsbD 2 = true ∧ ∃ r ∈ u.fe2, s.g.emptyReg r = true)
    let traps (c : Nat) : Prop := exec i s = .next (raiseTrap s c s.ctl.mask false {})
    (legal i = false → traps 0x01)
      ∧ (legal i = true → inClass = false → traps 0x11)
      ∧ (legal i = true → inClass = true → priv = true → traps 0x0F)
      ∧ (legal i = true → inClass = true → priv = false → missing → traps 0x10)
      ∧ (legal i = true → inClass = true → priv = false → ¬missing → empty → traps 0x06)

/-- A word at an instruction position that forms no instruction, met by a split that waits for nothing, traps ILLOP
with the active mask, whatever the guard, and a prefix word that stands alone with its bits 55:40 zero traps PREFIX.
-/
def Obligations.NoInstruction : Prop :=
  ∀ (w : Word) (s : State), ready (.nop nopWord) s = true →
    exec (.unassignedOpcode w) s = .next (raiseTrap (begun (.nop nopWord) s)
      (if w.toNat / 2 ^ 56 = 0xE0 ∧ w.toNat / 2 ^ 40 % 2 ^ 16 = 0 then 0x02 else 0x01) s.ctl.mask false {})

/-- A trap met at the current word, with no effect of the instruction: while something before the word is outstanding
(a chunk that has executed a word, a store not performed, a load not returned), the trap waits with its cause, lanes,
address and word, and neither registers nor memory nor control state change; where nothing is outstanding and TRAPVEC
names a header that is there, with INTRAP 0, it is delivered at once: TRAPPC, TRAPINFO, TRAPMASK and TRAPCAUSE are
written, the resume state is set aside, the reconvergence stack is emptied and the split goes on at TRAPVEC. -/
def Obligations.TrapRaised : Prop :=
  ∀ (s : State) (cause : Nat) (mask : Mask), s.hasCur = true → s.sp.chunkClosed = false → s.sp.pend = none →
    (owed s = true → trapsLater s (raiseTrap s cause mask false {}) cause mask false)
      ∧ (owed s = false → handlerThere s = true →
          delivered s (raiseTrap s cause mask false {}) cause mask s.ctl.pc s.sp.irInfo
              (s.sp.irLen == (if s.ctl.portable then 8 else 16)) false
            ∧ (raiseTrap s cause mask false {}).regs = s.regs ∧ sameMemory s (raiseTrap s cause mask false {}))

/-- Every ready integer instruction of iadd, isub, imul, imulh, imad, idiv, imin, imax, isat, and, or, xor, andn,
shl, shr, fshf, bfx, bfi, popc, clz, brev, sel, mov and lea completes: in each lane in which it acts its destination holds
the exact result reduced modulo 2^W, or clamped with SAT raised outside the range, and every other register, flag,
system register and byte of memory is as before, the split going on at the next word. -/
def Obligations.IntegerResults : Prop :=
  ∀ (i : Instr) (r : Result) (s : State), integerResult i = some r → ready i s = true → gives i s r

/-- For every ready integer instruction (opcodes 0x20 to 0x3A): it completes and goes on at the next word with no
trap; the flags that it adds to FPFLAGS are none or SAT alone, and SAT only for a .sat form or isat; its results do
not depend on FPMODE; and its result is the exact one modulo 2^W unless it is clamped. -/
def Obligations.IntegerRule : Prop :=
  ∀ (i : Instr) (s : State) (v : Word), 0x20 ≤ opcodeOf i → opcodeOf i ≤ 0x3A → encode i ≠ [] → ready i s = true →
    (∀ r, integerResult i = some r → gives i s r)
      ∧ ∃ t u, exec i s = .next t ∧ exec i (s.modRegs (fun r => { r with fpmode := v })) = .next u
        ∧ { u.regs with fpmode := t.regs.fpmode } = t.regs ∧ nextWord s t
        ∧ (raised s t 0 ∨ (raised s t fSAT ∧ saturates i = true))

/-- Every ready instruction of fadd, fsub, fmul, ffma, fmin, fmax, frcp, frsq, fsqrt, fexp2, flog2, fclass, fsgn,
fdot2, frnd, fscale, cvt and dqnt none of whose lanes raises a flag whose trap is enabled completes: each lane's
destination holds the operation's code for the lane's operands under the lane's rounding environment, the flags of the
lanes are added to FPFLAGS, the stochastic-rounding count goes up by one where the rounding resolves to sr, and
nothing else changes. -/
def Obligations.FloatResults : Prop :=
  ∀ (i : Instr) (r : Result) (s : State), floatResult i = some r → ready i s = true →
    (∀ l ∈ r.lanes s, (r.val s l).fl &&& trapFlags s = 0) → gives i s r

/-- A ready floating-point instruction of O15 or scan, some of whose lanes raise a flag whose trap is enabled, takes a completing trap:
its cause is FPINV, else FPDZ, else FPOF, the first that any lane raises; its mask holds every lane that raises an
enabled flag (every executing lane of a scalar form). With the split's earlier work outstanding the trap waits, with
writes that give every lane its result and raise every lane's flags; with none, and a handler there, it is delivered at
once, every lane's result written and every lane's flags in FPFLAGS. -/
def Obligations.FloatTraps : Prop :=
  ∀ (i : Instr) (r : Result) (s : State), floatResult i = some r ∨ laneResult i = some r → ready i s = true →
    (∃ l ∈ r.lanes s, (r.val s l).fl &&& trapFlags s ≠ 0) →
    let raises (f : Flags7) : Prop := ∃ l ∈ r.lanes s, (r.val s l).fl &&& trapFlags s &&& f ≠ 0
    let names (c : Nat) (m : Mask) : Prop := (raises fNV → c = 0x07) ∧ (¬raises fNV → raises fDZ → c = 0x08)
      ∧ (¬raises fNV → ¬raises fDZ → c = 0x09)
      ∧ if isS r.d then m = s.exec i
        else ∀ l, m.getLsbD l = true ↔ l ∈ r.lanes s ∧ (r.val s l).fl &&& trapFlags s ≠ 0
    (owed s = true → completesLater i s (fun p => names p.cause p.mask ∧ p.wr.flags = r.flags s
        ∧ ∀ u v : State, v.regs = u.regs.apply p.wr → holds v r.d r.n (r.lanes s) (fun l => (r.val s l).code)
            ∧ sameRegs u v (cellsOf r.d r.n (r.lanes s)) (scalarOf r.d (r.lanes s)) []))
      ∧ (owed s = false → s.sp.chunk = none → (∀ k ∈ [s.free, s.free + 32], handlerThere { s with free := k } = true) → ∃ t c m, exec i s = .next t
        ∧ names c m ∧ delivered s t c m s.ctl.pc s.sp.irInfo (s.sp.irLen == 16) true
        ∧ holds t r.d r.n (r.lanes s) (fun l => (r.val s l).code)
        ∧ sameRegs s t (cellsOf r.d r.n (r.lanes s)) (scalarOf r.d (r.lanes s)) [] ∧ raised s t (r.flags s) ∧ sameMemory s t)

/-- Rounding the magnitude mag / 2^k to an integer: an exact quotient is unchanged and not inexact; otherwise it is
inexact and gives the quotient or its successor: rtz the lower, rdn the lower for a positive and the upper for a
negative value, rup the opposite, rne the nearer with ties to even, rna the nearer with ties away. -/
def Obligations.Rounding : Prop :=
  ∀ (mode t : Nat) (neg : Bool) (mag k : Nat),
    let r := roundInt mode t neg mag k
    (2 ^ k ∣ mag → r = (mag / 2 ^ k, false))
      ∧ (¬2 ^ k ∣ mag → r.2 = true ∧ (r.1 = mag / 2 ^ k ∨ r.1 = mag / 2 ^ k + 1)
        ∧ (mode = 1 → r.1 * 2 ^ k ≤ mag)
        ∧ (mode = 2 → (neg = false → r.1 * 2 ^ k ≤ mag) ∧ (neg = true → mag ≤ r.1 * 2 ^ k))
        ∧ (mode = 3 → (neg = true → r.1 * 2 ^ k ≤ mag) ∧ (neg = false → mag ≤ r.1 * 2 ^ k))
        ∧ (mode = 0 ∨ mode = 4 → 2 * (r.1 * 2 ^ k) ≤ 2 * mag + 2 ^ k ∧ 2 * mag ≤ 2 * (r.1 * 2 ^ k) + 2 ^ k)
        ∧ (mode = 0 → 2 * (mag % 2 ^ k) = 2 ^ k → r.1 % 2 = 0)
        ∧ (mode = 4 → 2 * (mag % 2 ^ k) = 2 ^ k → r.1 = mag / 2 ^ k + 1))

/-- icmp, fcmp, elect, vote in its predicate modes, plog and schk (a legal alphabet) complete:
each executing lane of the predicate holds what the entry says (the comparison; the lowest executing lane; or, and,
same and odd of a predicate over the executing lanes; the truth table's bit; a word below r^n), every other lane and
every other register is as before, p0 stays all ones, and fcmp's flags are added to FPFLAGS. An fcmp that raises an
enabled NV, with earlier work outstanding, takes FPINV with those lanes, its result set aside. -/
def Obligations.Predicates : Prop :=
  ∀ (w : RWord) (s : State),
    let p := w.d.toNat % 16
    let inLane (l : Nat) : Bool := (s.exec (.vote w)).getLsbD l
    let pa (l : Nat) : Bool := srcP s w.a l
    (ready (.icmp w) s = true → decides (.icmp w) s p (fun l =>
        let x := intOf s w w.a l
        let y := intOf s w w.b l
        match w.c.toNat with
        | 0 => x = y | 1 => x ≠ y | 2 => x < y | 3 => x ≤ y | 4 => x > y | _ => x ≥ y) 0)
      ∧ (ready (.fcmp w) s = true →
          let res (l : Nat) := fcmp (Ty.ofCode (mTc w.m)).fmt (fpEnv s 0 l) w.c.toNat (bitsOf s w w.a l) (bitsOf s w w.b l)
          (∀ l ∈ lanesOf (s.exec (.fcmp w)), (res l).2 &&& trapFlags s = 0) →
          decides (.fcmp w) s p (fun l => (res l).1)
            ((lanesOf (s.exec (.fcmp w))).foldl (fun f l => f ||| (res l).2) 0))
      ∧ (ready (.fcmp w) s = true → owed s = true →
          let e := s.exec (.fcmp w)
          let res (l : Nat) := fcmp (Ty.ofCode (mTc w.m)).fmt (fpEnv s 0 l) w.c.toNat (bitsOf s w w.a l) (bitsOf s w w.b l)
          (∃ l ∈ lanesOf e, (res l).2 &&& trapFlags s ≠ 0) → completesLater (.fcmp w) s (fun q => q.cause = 0x07
            ∧ (∀ l, q.mask.getLsbD l = true ↔ l ∈ lanesOf e ∧ (res l).2 &&& trapFlags s ≠ 0)
            ∧ q.wr.flags = (lanesOf e).foldl (fun f l => f ||| (res l).2) 0
            ∧ ∀ u v : State, v.regs = u.regs.apply q.wr → sameRegs u v [] [] [p] ∧ ∀ l, l < 32 → (v.regs.pget p).getLsbD l
              = if p = 0 then true else if e.getLsbD l then (res l).1 else (u.regs.pget p).getLsbD l))
      ∧ (ready (.elect w) s = true → decides (.elect w) s p (fun l =>
          (List.range l).all (fun j => !(s.exec (.elect w)).getLsbD j)) 0)
      ∧ (ready (.vote w) s = true → w.m.toNat ≠ 3 → decides (.vote w) s p (fun _ =>
          match w.m.toNat with
          | 0 => (List.range 32).any (fun j => inLane j && pa j)
          | 1 => (List.range 32).all (fun j => !inLane j || pa j)
          | 2 => (List.range 32).all (fun j => !inLane j || pa j) || (List.range 32).all (fun j => !inLane j || !pa j)
          | _ => (List.range 32).countP (fun j => inLane j && pa j) % 2 = 1) 0)
      ∧ (ready (.plog w) s = true → decides (.plog w) s p (fun l =>
          w.m.getLsbD ((if srcP s w.a l then 4 else 0) + (if srcP s w.b l then 2 else 0) + (if srcP s w.c l then 1 else 0))) 0)
      ∧ (ready (.schk w) s = true → alphBad (alA s w) [w.a] = false → decides (.schk w) s p (fun l =>
          wordIn s (alA s w) w.a l < (alA s w).r ^ (alA s w).n) 0)

/-- shfl in a group of one split, perm, scan (none of whose steps raises an enabled flag), stov, compact and merge
complete: each executing lane's destination holds the value that the entry gives (the shuffled lane's value or its own
past either end; the chosen bytes; the running combination before or after the lane in lane order; the scalar in the
named lane; the k-th selected value or 0; the k-th or (n+k)-th element or tag of the ordered merge), read before any
lane writes, and nothing else changes but scan's flags. -/
def Obligations.LaneResults : Prop :=
  ∀ (i : Instr) (r : Result) (s : State), laneResult i = some r → ready i s = true →
    ((∃ w, i = .shfl w) → s.g.splits.length = 1) → (∀ l ∈ r.lanes s, (r.val s l).fl &&& trapFlags s = 0) → gives i s r

/-- vote.mask, pcnt and pcnt.rank write the mask or the number of the executing lanes in which the predicate holds,
and each lane's rank among them; fredu writes the pairwise tree's value; rebal gives the executing lanes the rows and
offsets of consecutive items; iaddc writes sum or difference and the carry; qnt writes the codes and the block's
scale. Each completes with no other register, no memory and no other state changed. A fredu or qnt that raises an
enabled flag, with earlier work outstanding, takes its trap with its results set aside. -/
def Obligations.ReducedResults : Prop :=
  ∀ (w : RWord) (s : State),
    let e (i : Instr) := lanesOf (s.exec i)
    (ready (.vote w) s = true → w.m.toNat = 3 → s.exec (.vote w) ≠ 0 →
      gives (.vote w) s { d := w.d, n := 1, lanes := fun s => [lowest (s.exec (.vote w))]
                          val := fun s _ => ⟨(s.exec (.vote w) &&& s.regs.pget (w.a.toNat % 16)).toNat, 0⟩ })
      ∧ (ready (.pcnt w) s = true → w.m = 0 → s.exec (.pcnt w) ≠ 0 →
        gives (.pcnt w) s { d := w.d, n := 1, lanes := fun s => [lowest (s.exec (.pcnt w))]
                            val := fun s _ => ⟨(e (.pcnt w)).countP (fun j => srcP s w.a j), 0⟩ })
      ∧ (ready (.pcnt w) s = true → w.m = 1 →
        gives (.pcnt w) s { d := w.d, n := 1, lanes := fun s => lanesOf (s.exec (.pcnt w))
                            val := fun s l => ⟨(e (.pcnt w)).countP (fun j => srcP s w.a j && j < l), 0⟩ })
      ∧ (ready (.iaddc w) s = true → ∃ t, exec (.iaddc w) s = .next t
          ∧ (let ls := actLanes s (.iaddc w) w.d
             let x (l : Nat) : Int := bitsOf s w w.a l
             let y (l : Nat) : Int := bitsOf s w w.b l
             let c (l : Nat) : Int := if srcP s w.c l then 1 else 0
             let r (l : Nat) : Int := if mBit0 w.m then x l - y l - c l else x l + y l + c l
             let out (l : Nat) : Bool := if mBit0 w.m then r l < 0 else 2 ^ widthOf w ≤ r l
             holds t w.d (tyN (mTc w.m)) ls (fun l => wrap (widthOf w) (r l))
              ∧ (∀ l ∈ e (.iaddc w), w.c.toNat % 16 ≠ 0 → (t.regs.pget (w.c.toNat % 16)).getLsbD l
                  = out (if isS w.d then lowest (s.exec (.iaddc w)) else l))
              ∧ (∀ l, l < 32 → l ∉ e (.iaddc w) → (t.regs.pget (w.c.toNat % 16)).getLsbD l
                  = (s.regs.pget (w.c.toNat % 16)).getLsbD l)
              ∧ raised s t 0
              ∧ registerFrame s t (cellsOf w.d (tyN (mTc w.m)) ls) (scalarOf w.d ls) [w.c.toNat % 16] [] 0))
      ∧ (ready (.rebal w) s = true → ∃ t, exec (.rebal w) s = .next t
          ∧ (let ls := e (.rebal w)
             let total (k : Nat) : Nat := ((ls.take k).map (fun l => src32 s w.a l)).sum
             registerFrame s t (cellsOf w.d 2 ls) [] [] [] 0
              ∧ ∀ k, (hk : k < ls.length) →
                  (total ls.length ≤ srcS s w.b + k → t.regs.src w.d 2 ls[k] = 32)
                  ∧ ∀ m, (hm : m < ls.length) → total m ≤ srcS s w.b + k → srcS s w.b + k < total (m + 1) →
                    t.regs.src w.d 2 ls[k] = ls[m] + (srcS s w.b + k - total m) * 2 ^ 32))
      ∧ (ready (.fredu w) s = true → ∀ v, fredResult s w = some v →
          let traps := v.fl &&& trapFlags s
          let result (t : State) : Prop := t.regs.sget (rnum w.d) = (if rnum w.d = 0 then 0 else BitVec.ofNat 64 v.code)
          (traps = 0 → ∃ t, exec (.fredu w) s = .next t ∧ result t
            ∧ raised s t v.fl ∧ registerFrame s t [] [rnum w.d] [] [0x011] (srCount s (mRnd w.m)))
          ∧ (traps ≠ 0 → owed s = true → completesLater (.fredu w) s (fun q => q.cause = trapCauseOf traps ∧ q.wr.flags = v.fl
            ∧ ∀ u t : State, t.regs = u.regs.apply q.wr → result t ∧ sameRegs u t [] [rnum w.d] [])))
      ∧ (ready (.qnt w) s = true → s.exec (.qnt w) ≠ 0 →
          let traps := (qntResult s w).2.2 &&& trapFlags s
          let result (t : State) : Prop := holds t w.d 1 (e (.qnt w)) (fun l => ((qntResult s w).2.1.getD l none).getD 0)
            ∧ t.regs.sget (rnum w.c) = (if rnum w.c = 0 then 0 else BitVec.ofNat 64 (qntResult s w).1)
          (traps = 0 → ∃ t, exec (.qnt w) s = .next t ∧ result t ∧ raised s t (qntResult s w).2.2
            ∧ registerFrame s t (cellsOf w.d 1 (e (.qnt w))) [rnum w.c] [] [0x011] (srCount s (qntCode s w)))
          ∧ (traps ≠ 0 → owed s = true → completesLater (.qnt w) s (fun q => q.cause = trapCauseOf traps
            ∧ q.wr.flags = (qntResult s w).2.2
            ∧ ∀ u t : State, t.regs = u.regs.apply q.wr → result t ∧ sameRegs u t (cellsOf w.d 1 (e (.qnt w))) [rnum w.c] [])))

/-- vtos of a ready word that some lane executes, and shfl in a group of several splits, complete: the split goes on
at the next word, the destination is empty, and the result that is outstanding holds the named lane's value, or each
executing lane's shuffled value (its own past either end), read as R167 says; no register, no memory and no other
state has changed. -/
def Obligations.LongLatencyIssue : Prop :=
  ∀ (w : RWord) (s : State),
    (ready (.vtos w) s = true → s.exec (.vtos w) ≠ 0 → ∃ t, exec (.vtos w) s = .next t ∧ quietFrame s t [] [] [] [] 0
        ∧ awaits s t w.d 1 [0] (fun _ => laneVal s w.a (if w.m.getLsbD 6 then 2 else 1) (namedLane s w)) 0)
      ∧ (ready (.shfl w) s = true → s.exec (.shfl w) ≠ 0 → 1 < s.g.splits.length → ∃ t, exec (.shfl w) s = .next t
          ∧ quietFrame s t [] [] [] [] 0
          ∧ (let n : Nat := if w.m.getLsbD 4 then 2 else 1
             awaits s t w.d n (lanesOf (s.exec (.shfl w))) (fun l =>
               let j := shflFrom (w.m.toNat % 4) (src32 s w.b l) l
               if j < 0 ∨ 31 < j then s.regs.src w.a n l else laneVal s w.a n j.toNat) 0))

/-- For every ready sunpk, spack, sdot, scvt, smadd and scnt that some lane executes: register contents that its entry
refuses trap ALPH with every executing lane; else a digit index of n or more in some lane traps ALPH; else an invalid
word or unencodable value under policy 0 traps ICW; else it completes: each lane's destination holds the entry's
result, ICW is raised where a lane met policy 1, and nothing else changes. A form that executes once names every
executing lane in its traps. -/
def Obligations.AlphabetResults : Prop :=
  ∀ (i : Instr) (s : State) (r : AlphaRule), alphaRule i s = some r → ready i s = true → actLanes s i r.d ≠ [] →
    let bad := r.bad s
    let idx := ∃ l ∈ actLanes s i r.d, r.idx s l = true
    let icw := ∃ l ∈ actLanes s i r.d, (r.val s l).trap = true
    (bad = true → trapsWith i s 0x12 (s.exec i))
      ∧ (bad = false → idx → trapsWith i s 0x12 (named i s r.d (r.idx s)))
      ∧ (bad = false → ¬idx → icw → trapsWith i s 0x0A (named i s r.d (fun l => (r.val s l).trap)))
      ∧ (bad = false → ¬idx → ¬icw → gives i s (r.result i))

/-- For a ready alset that some lane executes: an image that RADIX, N, r^n over the word width, ICW, MAP, BIAS or the
reserved bits make illegal traps ALPH, and the register is unchanged; any other is loaded, the map table, every other
alphabet register and everything else being unchanged. smap loads the register's table with the low halves of lanes 0
to 15 and leaves the image; alget gives the image, or each lane's sign-extended table entry and 0 from lane 16 on. -/
def Obligations.AlphabetState : Prop :=
  (∀ (w : RWord) (s : State), ready (.alset w) s = true → s.exec (.alset w) ≠ 0 →
      let v := srcS s w.a
      let r := v / 2 ^ 48
      let n := v / 2 ^ 42 % 64
      let width := 8 * 2 ^ (v / 2 ^ 40 % 4)
      let map := v / 2 ^ 36 % 4
      let illegal := r ≤ 1 ∨ n = 0 ∨ 2 ^ width < r ^ n ∨ 2 ≤ v / 2 ^ 38 % 4 ∨ map = 3 ∨ (map = 2 ∧ 16 < r)
        ∨ (v / 2 ^ 20 % 2 ^ 16 ≠ 0 ∧ map ≠ 1) ∨ v % 2 ^ 20 ≠ 0
      let k := w.m.toNat % 16
      (illegal → trapsWith (.alset w) s 0x12 (s.exec (.alset w)))
        ∧ (¬illegal → ∃ t, exec (.alset w) s = .next t ∧ t.regs.alget k = BitVec.ofNat 64 v
            ∧ (∀ j, j ≠ k → t.regs.alget j = s.regs.alget j) ∧ t.regs.map = s.regs.map ∧ t.regs.rets = s.regs.rets
            ∧ sameMemory s t ∧ sameRegs s t [] [] [] ∧ sameSystem s t [] ∧ onlyGroup s t ∧ nextWord s t))
    ∧ (∀ (w : RWord) (s : State), ready (.smap w) s = true → s.exec (.smap w) ≠ 0 →
        let k := w.m.toNat % 16
        ∃ t, exec (.smap w) s = .next t ∧ t.regs.al = s.regs.al ∧ t.regs.rets = s.regs.rets
          ∧ (∀ j, j < 16 → t.regs.mapget k j = (laneReg s (rnum w.a) j).truncate 16)
          ∧ (∀ x j, x ≠ k → j < 16 → t.regs.mapget x j = s.regs.mapget x j)
          ∧ sameMemory s t ∧ sameRegs s t [] [] [] ∧ sameSystem s t [] ∧ onlyGroup s t ∧ nextWord s t)
    ∧ ∀ (w : RWord) (s : State), ready (.alget w) s = true → gives (.alget w) s (inLanes (.alget w) w.d 1 (fun s l =>
        ⟨if w.m.getLsbD 4 then (if l < 16 then wrap 32 (s.regs.mapget (w.m.toNat % 16) l).toInt else 0)
          else (s.regs.alget (w.m.toNat % 16)).toNat, 0⟩))

/-- The value of a digit g is g under MAP 0, g minus BIAS under MAP 1, the table entry g under MAP 2. The neutral
symbol is the lowest digit below the radix whose value is 0, or 0 where there is none, and every digit of the neutral
word is the neutral symbol. A value is encoded as the digit that has it: v under MAP 0, v plus BIAS under MAP 1, where
that lies below the radix, the lowest digit with that entry under MAP 2, and not at all otherwise. A raw digit encodes
itself below the radix, and not at all from the radix on. -/
def Obligations.SymbolValues : Prop :=
  ∀ (a : Alpha),
    (a.map = 0 → ∀ g, a.val g = g) ∧ (a.map = 1 → ∀ g : Nat, a.val g = (g : Int) - a.bias)
      ∧ (a.map = 2 → ∀ g, a.val g = a.tab.getD g 0)
      ∧ ((∃ g, g < a.r ∧ a.val g = 0) → a.neutral < a.r ∧ a.val a.neutral = 0 ∧ ∀ g, g < a.neutral → a.val g ≠ 0)
      ∧ ((∀ g, g < a.r → a.val g ≠ 0) → a.neutral = 0)
      ∧ (1 < a.r → ∀ j, j < a.n → a.digit a.neutralWord j = a.neutral)
      ∧ (∀ v : Int, a.map = 0 → a.enc v = if 0 ≤ v ∧ v < a.r then some v.toNat else none)
      ∧ (∀ v : Int, a.map = 1 → a.enc v = if 0 ≤ v + a.bias ∧ v + a.bias < a.r then some (v + a.bias).toNat else none)
      ∧ (∀ v : Int, a.map = 2 → (∀ g, a.enc v = some g → g < a.r ∧ a.tab.getD g 0 = v ∧ ∀ h, h < g → a.tab.getD h 0 ≠ v)
          ∧ (a.enc v = none → ∀ g, g < a.r → a.tab.getD g 0 ≠ v))
      ∧ ∀ g, (g < a.r → a.encRaw g = some g) ∧ (a.r ≤ g → a.encRaw g = none)

/-- In a word packed from digits below the radix, digit j is the digit packed at j and the word is below r^n;
replacing digit j of a valid word changes that digit alone and leaves the word valid. -/
def Obligations.PackedDigits : Prop :=
  ∀ (a : Alpha), 1 < a.r →
    (∀ (ds : List Nat), (∀ d ∈ ds, d < a.r) →
        a.pack ds < a.r ^ ds.length ∧ ∀ j, j < ds.length → a.digit (a.pack ds) j = ds.getD j 0)
      ∧ ∀ x j g, x < a.r ^ a.n → j < a.n → g < a.r →
        let y := a.replace x j g
        y < a.r ^ a.n ∧ ∀ k, a.digit y k = if k = j then g else a.digit x k

/-- Every ready native instruction other than skip and yield that no lane executes completes: no register, no full or
empty bit, no memory, no flag and no other split changes, no command, arrival or other effect is held, the split goes
on at the next word, and the count of R78 goes up by at most one, where the instruction rounds with sr. -/
def Obligations.GuardedOff : Prop :=
  ∀ (i : Instr) (s : State), encode i ≠ [] → ready i s = true → s.exec i = 0 → opcodeOf i ≠ 0x02 → opcodeOf i ≠ 0x08 →
    ∃ t k, exec i s = .next t ∧ k ≤ 1 ∧ registerFrame s t [] [] [] [] k ∧ heldEffects t = heldEffects s ∧ t.cmds = s.cmds

/-- A ready sysrd completes: its scalar destination receives the register as the lowest executing lane sees it, its
vector destination, one register or a pair, each executing lane's value, and nothing else changes. -/
def Obligations.SystemReads : Prop :=
  ∀ (w : IWord) (s : State), ready (.sysrd w) s = true →
    gives (.sysrd w) s (inLanes (.sysrd w) w.d (if w.m4 = 1 then 2 else 1) (fun s l => ⟨(sysValue s w.imm.toNat l).toNat, 0⟩))

/-- A ready syswr that some lane executes completes: the register, but for an event counter, then reads the written
value with its reserved bits clear (an RM of FPMODE above 5 reads 0), in every lane; a write of SRSEED sets the
stochastic-rounding count to 0, and no other write changes the count; a write of TRAPPC, or one of TRAPCAUSE that sets
INTRAP, voids the resume state, and no other write changes it; every other system register, all registers, all memory
and every other split are as before. -/
def Obligations.SystemWrites : Prop :=
  ∀ (w : IWord) (s : State), ready (.syswr w) s = true → s.exec (.syswr w) ≠ 0 →
    let n := w.imm.toNat
    let v := s.regs.sget (rnum w.a)
    ∃ t, exec (.syswr w) s = .next t ∧ systemFrame s t [n]
      ∧ (¬(0x048 ≤ n ∧ n ≤ 0x04F) → ∀ l, sysValue t n l = sysMasked n v)
      ∧ t.regs.srcount = (if n = 0x013 then 0 else s.regs.srcount)
      ∧ t.ctl.resume = (if n = 0x020 ∨ (n = 0x021 ∧ v.getLsbD 63 = true ∧ s.ctl.trapCause.getLsbD 63 = false) then none
          else s.ctl.resume)

/-- For a current split, the table's own steps write as syswr does: SRSEED with the count set to 0; a flag register,
held with the chunk where there is one; in a test grid FAULTINJ with ARM 1 and with ARM 0, for the group's team;
TRAPPC, voiding the resume state; TRAPCAUSE, voiding it where INTRAP goes from 0 to 1. No register of the group, no
memory and no other system register changes. -/
def Obligations.RegisterWriteEvents : Prop :=
  ∀ (s : State) (v : Word), s.hasCur = true →
    let same (t : State) (n : Nat) : Prop := sysValue t n 0 = sysMasked n v ∧ sameMemory s t ∧ sameRegs s t [] [] []
      ∧ sameAlpha s t ∧ sameSystem s t [n] ∧ onlyGroup s t ∧ t.ctl.pc = s.ctl.pc ∧ t.ctl.mask = s.ctl.mask
    (∃ t, exec (.srseedWrite v) s = .next t ∧ same t 0x013 ∧ t.regs.srcount = 0)
      ∧ (∀ n : BitVec 12, n = 0x011 ∨ n = 0x018 ∨ n = 0x019 → ∃ t, exec (.flagsRegisterWrite n v) s = .next t ∧ same t n.toNat
          ∧ (s.sp.chunk.isSome → t.g.fpflags = s.g.fpflags ∧ t.g.mxflags = s.g.mxflags ∧ t.g.xflags = s.g.xflags))
      ∧ (s.gr.test = true → v.getLsbD 63 = true → ∃ t, exec (.faultinjArm v) s = .next t ∧ same t 0x060
          ∧ (t.coreAt s.g.core).fiTeam = s.g.tid)
      ∧ (s.gr.test = true → v.getLsbD 63 = false → ∃ t, exec (.faultinjDisarm v) s = .next t ∧ same t 0x060)
      ∧ (∃ t, exec (.trappcWrite v) s = .next t ∧ same t 0x020 ∧ t.ctl.resume = none)
      ∧ (∃ t, exec (.trapcauseWrite v) s = .next t ∧ same t 0x021
          ∧ t.ctl.resume = if v.getLsbD 63 = true ∧ s.ctl.trapCause.getLsbD 63 = false then none else s.ctl.resume)

/-- A grant of slots adds them to what the group holds, their registers reading 0, and changes no other register. A ready acqx
or relx that some lane executes completes. acqx.try of free blocks with no request ahead is granted those that the group
lacks and sets its predicate; otherwise it takes nothing and clears it. acqx of blocks that the group holds passes, as it
does once its request has been granted; one that lacks blocks joins the queue and waits. acqx.post joins the queue and
goes on. relx gives back the blocks that it names, once no outstanding write names them. The queue's head is granted its
blocks when enough are free, and its waiting split may go on. Nothing else changes. -/
def Obligations.ExtendedBlocks : Prop :=
  (∀ (s : State) (gid : Nat) (g : Group) (slots : List Nat), s.group? gid = some g →
      { grantSlots s gid slots with groups := s.groups } = s
        ∧ (∀ x, x ≠ gid → (grantSlots s gid slots).group? x = s.group? x)
        ∧ ∃ h, (grantSlots s gid slots).group? gid = some h ∧ h.ext = g.ext ++ slots ∧ h.ll = g.ll
          ∧ (∀ n l, l < 32 → h.regs.vget n l
            = if ∃ k ∈ slots, 64 + 32 * k ≤ n ∧ n < 96 + 32 * k then 0 else g.regs.vget n l)
          ∧ (∀ n, h.regs.sget n = g.regs.sget n ∧ h.regs.pget n = g.regs.pget n))
    ∧ (∀ (w : IWord) (s : State), ready (.acqx w) s = true → s.exec (.acqx w) ≠ 0 →
        let new := newSlots s s.g (slotsOf w.imm.toNat)
        let free := new = [] ∨ (blockHead s s.g.core = none ∧ new.length ≤ freeBlocks s s.g.core)
        let p := w.d.toNat % 16
        let joins (posted : Bool) : List BlockReq := s.blockQ ++ [⟨s.g.core, s.g.gid, s.cur.2, new, posted⟩]
        (w.m4 = 1 → ∃ t u, exec (.acqx w) s = .next t ∧ (free → u = grantSlots s s.g.gid new) ∧ (¬free → u = s)
            ∧ registerFrame u t [] [] [p] [] 0
            ∧ ∀ l, l < 32 → p ≠ 0 → ((t.regs.pget p).getLsbD l = true ↔
              if (s.exec (.acqx w)).getLsbD l = true then free else (s.regs.pget p).getLsbD l = true))
          ∧ (w.m4 = 0 → s.sp.acqDone = true → ∃ t, exec (.acqx w) s = .next t ∧ t.sp.acqDone = false
              ∧ registerFrame s t [] [] [] [] 0)
          ∧ (w.m4 = 0 → s.sp.acqDone = false → (∀ r ∈ s.blockQ, ¬(r.gid = s.g.gid ∧ r.sp = s.cur.2 ∧ r.posted = false)) →
              (new = [] → ∃ t, exec (.acqx w) s = .next t ∧ registerFrame s t [] [] [] [] 0)
                ∧ (new ≠ [] → ∃ t, exec (.acqx w) s = .next t ∧ t.blockQ = joins false ∧ t.sp.wait = some .blocks
                  ∧ t.ctl = s.ctl ∧ t.regs = s.regs ∧ sameMemory s t))
          ∧ (w.m4 = 2 → (new = [] → ∃ t, exec (.acqx w) s = .next t ∧ registerFrame s t [] [] [] [] 0)
              ∧ (new ≠ [] → ∃ t, exec (.acqx w) s = .next t ∧ t.blockQ = joins true ∧ (∀ k ∈ new, t.postedSlot t.g k = true)
                ∧ registerFrame { s with blockQ := joins true } t [] [] [] [] 0)))
    ∧ (∀ (w : IWord) (s : State), ready (.relx w) s = true → s.exec (.relx w) ≠ 0 →
        (∀ k ∈ slotsOf w.imm.toNat, k ∈ s.g.ext → ∀ r, r < 32 → s.g.emptyReg (.v (64 + 32 * k + r)) = false) →
        ∃ t, exec (.relx w) s = .next t
          ∧ registerFrame (s.modG (fun g => { g with ext := g.ext.filter (fun k => !(slotsOf w.imm.toNat).contains k) })) t
            [] [] [] [] 0)
    ∧ ∀ (s : State) (c : Nat) (r : BlockReq), blockHead s c = some r → r.slots.length ≤ freeBlocks s c →
        ∃ t, exec (.xblockGrant c) s = .next t ∧ t.blockQ = s.blockQ.erase r ∧ sameMemory s t
          ∧ ∀ g, s.group? r.gid = some g → ∃ g', t.group? r.gid = some g' ∧ g'.ext = g.ext ++ r.slots
            ∧ (∀ n l, l < 32 → g'.regs.vget n l
              = if ∃ k ∈ r.slots, 64 + 32 * k ≤ n ∧ n < 96 + 32 * k then 0 else g.regs.vget n l)
            ∧ (∀ n, g'.regs.sget n = g.regs.sget n ∧ g'.regs.pget n = g.regs.pget n)
            ∧ ∀ p, g.split? r.sp = some p → ∃ p', g'.split? r.sp = some p' ∧ p'.ctl = p.ctl ∧ (r.posted = false → p'.acqDone = true)

/-- For a ready waitc that some lane executes: an address that is no multiple of 4 traps ALIGN; else one outside the G
allotment traps ACCESS; else, where the counter's error code is nonzero, or its count has reached the target in the
half of the 24-bit circle before it, or under .try, it gives the counter word; else the split waits for the counter,
no register having changed. clock gives CLOCK or TIME; that TIME is a third of CLOCK is the model's choice (log 7). -/
def Obligations.CountersAndClock : Prop :=
  (∀ (w : RWord) (s : State), ready (.waitc w) s = true → s.exec (.waitc w) ≠ 0 →
      let a := srcS s w.a
      let x := ofBytes (localBytes (begun (.waitc w) s) 3 a 4)
      let done := 0 < x / 2 ^ 24 ∨ (x % 2 ^ 24 + (2 ^ 24 - srcS s w.b % 2 ^ 24)) % 2 ^ 24 < 2 ^ 23
      (a % 4 ≠ 0 → trapsWith (.waitc w) s 0x0C (s.exec (.waitc w)))
        ∧ (a % 4 = 0 → localSize s 3 < a + 4 → trapsWith (.waitc w) s 0x0B (s.exec (.waitc w)))
        ∧ (a % 4 = 0 → a + 4 ≤ localSize s 3 → done ∨ mBit0 w.m = true →
            gives (.waitc w) s { d := w.d, n := 1, lanes := fun _ => [0], val := fun _ _ => ⟨x, 0⟩ })
        ∧ (a % 4 = 0 → a + 4 ≤ localSize s 3 → ¬done → mBit0 w.m = false →
            ∃ t, exec (.waitc w) s = .next t ∧ t.sp.wait = some .counter ∧ t.ctl = s.ctl ∧ t.regs = s.regs ∧ sameMemory s t))
    ∧ ∀ (w : RWord) (s : State), ready (.clock w) s = true → s.exec (.clock w) ≠ 0 →
        gives (.clock w) s { d := w.d, n := 1, lanes := fun _ => [0]
                             val := fun s _ => ⟨if mBit0 w.m then s.clock / 3 else s.clock, 0⟩ }

/-- A ready nop, chunk, pref, fence or ifence completes, the split going on at the next word, and nothing changes but
these: a chunk ends its own chunk; a system fence other than a release one makes later peer reads ignore the lines
held, and one other than an acquire one waits while batches of earlier chunks are owed; an ifence that some lane
executes discards the words that its core has fetched. A fence of another scope does nothing more: that there is no
other cache than the peer lines is the model's choice (log 12). -/
def Obligations.PassingWords : Prop :=
  ∀ (w : RWord) (s : State),
    (ready (.nop w) s = true → passes (.nop w) s)
      ∧ (ready (.chunk w) s = true → passes (.chunk w) s
          ∧ ∀ t, exec (.chunk w) s = .next t → ∀ c, t.sp.chunk = some c → c.closed = true)
      ∧ (∀ m : MWord, ready (.pref m) s = true → passes (.pref m) s)
      ∧ (ready (.fence w) s = true → s.exec (.fence w) ≠ 0 →
          let kind := w.m.toNat % 4
          let system := w.m.toNat / 4 = 3
          (system → kind ≠ 1 → batchesOwed s = true →
              ∃ t, exec (.fence w) s = .next t ∧ t.sp.wait = some .drain ∧ t.ctl = s.ctl ∧ t.regs = s.regs ∧ sameMemory s t)
            ∧ (¬(system ∧ kind ≠ 1 ∧ batchesOwed s = true) → ∃ t u, exec (.fence w) s = .next t
              ∧ u = { s with peerLines := if system ∧ kind ≠ 2 then [] else s.peerLines } ∧ registerFrame u t [] [] [] [] 0))
      ∧ (ready (.ifence w) s = true → s.exec (.ifence w) ≠ 0 → ∃ t, exec (.ifence w) s = .next t
          ∧ (t.coreAt s.g.core).ibuf = [] ∧ (∀ c, c ≠ s.g.core → (t.coreAt c).ibuf = (s.coreAt c).ibuf) ∧ systemFrame s t [])

/-- A ready exit, bar or barw that some lane executes, and every ready yield, completes and goes on at the next word: in a
chunk its one effect is held with it, and nothing else changes. In relaxed mode the effect takes place at once: a yield
puts the split behind the others, a bar or barw makes it wait at its barrier, the arrival of barw counting while its
instance lacks one of this core, and the lanes of an exit leave. A split with no lane left goes on at its top stack
entry, and without an entry it ends, with its group if it was the last. That the lanes left after a partial exit go on at
the next word of the clause, and that a stack entry starts at its own header, is how the model reads the spec (log 18). -/
def Obligations.SplitEffects : Prop :=
  ∀ (s : State),
    let held (t : State) (e : Effect) : Prop := heldEffects t = heldEffects s ++ [e]
    (∀ w, ready (.yield w) s = true → ∃ t, exec (.yield w) s = .next t ∧ registerFrame s t [] [] [] [] 0
        ∧ (s.chunkedMode = true → held t .yield) ∧ (s.chunkedMode = false → t.sp.stamp = s.clock))
      ∧ (∀ w : IWord, ready (.bar w) s = true → s.exec (.bar w) ≠ 0 → ∃ t, exec (.bar w) s = .next t
          ∧ registerFrame s t [] [] [] [] 0 ∧ (s.chunkedMode = true → held t (.arrive w.m4.toNat w.imm.toNat))
          ∧ (s.chunkedMode = false → t.sp.bar = some ⟨w.m4.toNat, w.imm.toNat, s.clock, false, false⟩))
      ∧ (∀ w : IWord, ready (.barw w) s = true → s.exec (.barw w) ≠ 0 →
          let k := 256 * w.imm.toNat + s.g.core
          ∃ t, exec (.barw w) s = .next t
            ∧ registerFrame { s with wireGot := t.wireGot, wireLast := t.wireLast } t [] [] [] [] 0
            ∧ (s.chunkedMode = true → held t (.arriveWire w.imm.toNat) ∧ t.wireGot = s.wireGot ∧ t.wireLast = s.wireLast)
            ∧ (s.chunkedMode = false → ∃ b, t.sp.bar = some b ∧ b.scope = 4 ∧ b.id = w.imm.toNat ∧ b.arrivedAt = s.clock
              ∧ (wireAny s w.imm.toNat = true → (s.wireGot.get k).toNat < (s.wireForce.get k).toNat →
                b.next = false ∧ t.wireGot = s.wireGot.set k (s.wireGot.get k + 1))))
      ∧ ∀ w, ready (.exit w) s = true → s.exec (.exit w) ≠ 0 →
        let rest := s.ctl.mask &&& ~~~(s.exec (.exit w))
        (s.chunkedMode = true → ∃ t, exec (.exit w) s = .next t ∧ registerFrame s t [] [] [] [] 0 ∧ held t (.exit (s.exec (.exit w))))
          ∧ (s.chunkedMode = false → rest ≠ 0 → ∃ t, exec (.exit w) s = .next t ∧ t.ctl.mask = rest
              ∧ t.ctl.pc = s.nextPc ∧ t.ctl.stack = s.ctl.stack ∧ controlFrame s t [] [])
          ∧ (s.chunkedMode = false → rest = 0 → ∀ e r, s.ctl.stack = e :: r → ∃ t, exec (.exit w) s = .next t
              ∧ t.ctl.pc = e.addr ∧ t.ctl.mask = e.mask ∧ t.ctl.stack = r ∧ t.ctl.hdr = e.hdr ∧ t.ctl.hdrAddr = e.hdrAddr
              ∧ t.ctl.atHdr = (e.addr == e.hdrAddr) ∧ controlFrame s t [] [])
          ∧ (s.chunkedMode = false → rest = 0 → s.ctl.stack = [] → ∃ t, exec (.exit w) s = .next t
              ∧ (∀ k, t.memByte k = s.memByte k ∧ t.hostMem.get k = s.hostMem.get k)
              ∧ ((∀ p ∈ s.g.splits, p.id = s.cur.2) → t.group? s.cur.1 = none)
              ∧ ((∃ p ∈ s.g.splits, p.id ≠ s.cur.2) → ∃ h, t.group? s.cur.1 = some h ∧ h.regs = s.regs ∧ h.split? s.cur.2 = none
                ∧ ∀ n, n ≠ s.cur.2 → h.split? n = s.g.split? n))

/-- A ready bra or call that every active lane takes, and a loop whose counter, one less, is nonzero in every active
lane, with a header at the target, completes: the split goes on at the target, its lanes and stack as before; call has
pushed the next word's address on each lane's return stack, each holding fewer than 16; loop has written its counter;
no other register, no memory and no other split changes from the state in which the target has been fetched. -/
def Obligations.UniformBranch : Prop :=
  ∀ (w : BWord) (s : State), s.ctl.mask ≠ 0 → inClause s →
    let a := tgtB s w
    (ready (.bra w) s = true → s.exec (.bra w) = s.ctl.mask → headerAt (begun (.bra w) s) a = true →
        ∃ t, exec (.bra w) s = .next t ∧ goesTo t a s.ctl.mask s.ctl.stack
          ∧ controlFrame (reached (.bra w) s a) t [] [] ∧ t.regs.rets = s.regs.rets)
      ∧ (ready (.call w) s = true → s.exec (.call w) = s.ctl.mask → headerAt (begun (.call w) s) a = true →
          (∀ l ∈ lanesOf s.ctl.mask, (s.regs.retsOf l).length < 16) →
          ∃ t, exec (.call w) s = .next t ∧ goesTo t a s.ctl.mask s.ctl.stack
            ∧ controlFrame (reached (.call w) s a) t [] []
            ∧ ∀ l, l < 32 → t.regs.retsOf l = if s.ctl.mask.getLsbD l then s.nextPc :: s.regs.retsOf l else s.regs.retsOf l)
      ∧ (ready (.loop w) s = true → s.exec (.loop w) = s.ctl.mask → headerAt (begun (.loop w) s) a = true →
          let ls := actLanes s (.loop w) w.a
          let v (l : Nat) : Nat := wrap (if isS w.a then 64 else 32) ((s.regs.src w.a 1 l : Int) - 1)
          (∀ l ∈ ls, v l ≠ 0) → ∃ t, exec (.loop w) s = .next t ∧ goesTo t a s.ctl.mask s.ctl.stack ∧ holds t w.a 1 ls v
            ∧ controlFrame (reached (.loop w) s a) t (cellsOf w.a 1 ls) (scalarOf w.a ls) ∧ t.regs.rets = s.regs.rets)
      ∧ (ready (.loop w) s = true → (∀ l ∈ actLanes s (.loop w) w.a,
            wrap (if isS w.a then 64 else 32) ((s.regs.src w.a 1 l : Int) - 1) = 0) →
          gives (.loop w) s (inLanes (.loop w) w.a 1 (fun _ _ => ⟨0, 0⟩)))

/-- A ready brx or ret that every active lane executes with one target, where there is a header, completes: the split
goes on at the target with its lanes and stack as before; ret has popped each lane's link; no other register, no
memory and no other split changes from the state in which the target has been fetched. A ret with an empty return
stack in some executing lane traps STACK with those lanes. -/
def Obligations.IndirectBranch : Prop :=
  ∀ (w : RWord) (s : State) (a : Word), s.ctl.mask ≠ 0 → inClause s →
    (ready (.brx w) s = true → s.exec (.brx w) = s.ctl.mask → headerAt (begun (.brx w) s) a = true →
        (∀ l ∈ lanesOf s.ctl.mask, BitVec.ofNat 64 (s.regs.src w.a 2 l) = a) →
        ∃ t, exec (.brx w) s = .next t ∧ goesTo t a s.ctl.mask s.ctl.stack
          ∧ controlFrame (reached (.brx w) s a) t [] [] ∧ t.regs.rets = s.regs.rets)
      ∧ (ready (.ret w) s = true → s.exec (.ret w) = s.ctl.mask → headerAt (begun (.ret w) s) a = true →
          (∀ l ∈ lanesOf s.ctl.mask, ∃ r, s.regs.retsOf l = a :: r) →
          ∃ t, exec (.ret w) s = .next t ∧ goesTo t a s.ctl.mask s.ctl.stack ∧ controlFrame (reached (.ret w) s a) t [] []
            ∧ ∀ l, l < 32 → t.regs.retsOf l = if s.ctl.mask.getLsbD l then (s.regs.retsOf l).drop 1 else s.regs.retsOf l)
      ∧ (ready (.ret w) s = true → (∃ l ∈ lanesOf (s.exec (.ret w)), s.regs.retsOf l = []) →
          trapsWith (.ret w) s 0x05 (maskOf ((lanesOf (s.exec (.ret w))).filter (fun l => (s.regs.retsOf l).isEmpty))))

/-- A ready bra that some active lanes take and some do not, with a header at the target: under .u it traps UNIFORM
with the lanes that take it; otherwise, while the group has a free split number, the lowest takes the branching lanes
to the target with an empty stack, and in chunked mode the chunk ends and the new split waits for its commit, while
the current split goes on at the next word with the rest; with four splits, the rest is put on the stack in address
order and the branching lanes go on at the target, where the stack then holds at most 32 entries, else it traps STACK.
That there are two paths where the target is the next word's address too is the model's choice (log 103). -/
def Obligations.Division : Prop :=
  ∀ (w : BWord) (s : State), ready (.bra w) s = true → s.exec (.bra w) ≠ 0 → s.exec (.bra w) ≠ s.ctl.mask → inClause s →
    let a := tgtB s w
    let m := s.exec (.bra w)
    let rest := s.ctl.mask &&& ~~~m
    let stack := pushEntry (nextPath s rest) s.ctl.stack
    headerAt (begun (.bra w) s) a = true →
    (w.u = true → trapsWith (.bra w) s 0x04 m)
      ∧ (w.u = false → ∀ n l, freeSplits s.g = n :: l → s.ctl.stack.length ≤ 32 → ∃ t q, exec (.bra w) s = .next t
          ∧ t.ctl.pc = s.nextPc ∧ t.ctl.mask = rest ∧ t.ctl.stack = s.ctl.stack
          ∧ t.g.split? n = some q ∧ q.ctl.pc = a ∧ q.ctl.atHdr = true ∧ q.ctl.mask = m ∧ q.ctl.stack = []
          ∧ (s.chunkedMode = true → q.born = some s.cur.2 ∧ ∃ c, t.sp.chunk = some c ∧ c.closed = true)
          ∧ (s.chunkedMode = false → q.born = none)
          ∧ (∀ k, k ≠ n → k ≠ s.cur.2 → t.g.split? k = s.g.split? k)
          ∧ sameRegs s t [] [] [] ∧ sameAlpha s t ∧ sameMemory s t)
      ∧ (w.u = false → freeSplits s.g = [] → stack.length ≤ 32 → ∃ t, exec (.bra w) s = .next t ∧ goesTo t a m stack
          ∧ controlFrame (reached (.bra w) s a) t [] [] ∧ t.regs.rets = s.regs.rets)
      ∧ (w.u = false → freeSplits s.g = [] → 32 < stack.length → trapsWith (.bra w) s 0x05 m)

/-- A ready skip whose n words lie in its clause, are there, and are per-lane instructions completes: the split goes
on at the next word with n words left in which the lanes of skip's guard do not execute, and while words are left
those lanes execute none of them; no register and no memory changes. A range that leaves the clause, or holds another
instruction, traps ILLOP with the active mask. -/
def Obligations.SkippedRange : Prop :=
  (∀ (w : IWord) (s : State), ready (.skip w) s = true →
      let b := begun (.skip w) s
      let n := w.imm.toNat
      let left := if s.ctl.portable || s.ctl.atHdr then 0 else (clauseEnd s + 8 - s.ctl.pc.toNat - s.sp.irLen) / 8
      let r := wordsFrom b (s.ctl.pc.toNat + s.sp.irLen) n
      (left < n → trapsWith (.skip w) s 0x01 s.ctl.mask)
        ∧ (n ≤ left → r.2.1 = none → skipOk r.1 = false → trapsWith (.skip w) s 0x01 s.ctl.mask)
        ∧ (n ≤ left → r.2.1 = none → skipOk r.1 = true → ∃ t, exec (.skip w) s = .next t ∧ t.ctl.mask = s.ctl.mask
            ∧ t.ctl.pc = s.nextPc ∧ t.ctl.skipLeft = n ∧ t.ctl.skipMask = s.exec (.skip w)
            ∧ controlFrame r.2.2 t [] []))
    ∧ ∀ (i : Instr) (s : State), 0 < s.ctl.skipLeft → s.exec i &&& s.ctl.skipMask = 0

/-- A ready trap or brk that some lane executes raises SWTRAP or BRK with the executing lanes. A ready rte with INTRAP
1 that some lane executes: with a void resume state and a header at T it goes on there, lanes and stack kept; with a
resume state of the same active mask it goes on at T under the set-aside header, or at a fetch of T where the trapping
word was its clause's last and rte goes past it, with the set-aside stack; INTRAP is 0, and no register and no memory
changes. With INTRAP 0, or another active mask, it traps ILLOP. -/
def Obligations.SoftwareTraps : Prop :=
  (∀ (w : IWord) (s : State), (ready (.trap w) s = true → s.exec (.trap w) ≠ 0 → trapsWith (.trap w) s 0x0E (s.exec (.trap w)))
      ∧ (ready (.brk w) s = true → s.exec (.brk w) ≠ 0 → trapsWith (.brk w) s 0x0D (s.exec (.brk w))))
    ∧ ∀ (w : IWord) (s : State), ready (.rte w) s = true → s.exec (.rte w) ≠ 0 →
      let past := w.imm.getLsbD 0
      let unit : Nat := if s.ctl.portable then 4 else 8
      let a := s.ctl.trapPc + BitVec.ofNat 64 (if past then (if s.ctl.trapCause.getLsbD 9 then 2 * unit else unit) else 0)
      let out (t : State) : Prop := t.ctl.trapCause = s.ctl.trapCause &&& 0x7FFFFFFFFFFFFFFF ∧ t.ctl.pc = a
        ∧ t.ctl.mask = s.ctl.mask ∧ sameRegs s t [] [] [] ∧ sameAlpha s t ∧ sameMemory s t
      (s.ctl.trapCause.getLsbD 63 = false → trapsWith (.rte w) s 0x01 s.ctl.mask)
        ∧ (s.ctl.trapCause.getLsbD 63 = true → s.ctl.resume = none → headerAt (begun (.rte w) s) a = true →
            ∃ t, exec (.rte w) s = .next t ∧ out t ∧ t.ctl.atHdr = true ∧ t.ctl.stack = s.ctl.stack ∧ t.ctl.skipLeft = 0)
        ∧ (s.ctl.trapCause.getLsbD 63 = true → ∀ r, s.ctl.resume = some r → s.ctl.mask ≠ r.mask →
            trapsWith (.rte w) s 0x01 s.ctl.mask)
        ∧ (s.ctl.trapCause.getLsbD 63 = true → ∀ r, s.ctl.resume = some r → s.ctl.mask = r.mask →
            ∃ t, exec (.rte w) s = .next t ∧ out t ∧ t.ctl.stack = r.stack
              ∧ ((past = true ∧ r.last = true) → t.ctl.atHdr = true)
              ∧ (¬(past = true ∧ r.last = true) → a ≠ r.hdrAddr →
                  t.ctl.atHdr = false ∧ t.ctl.hdr = r.hdr ∧ t.ctl.hdrAddr = r.hdrAddr ∧ t.ctl.skipMask = r.skipMask
                  ∧ (past = false → t.ctl.skipLeft = r.skipLeft)))

/-- Where the current split stands at a native header that can be fetched, waits for nothing, has no stack entry at or
below the address, and no other split of its group stands there: a word that is no legal header traps HDR; a legal
header whose wait set holds is entered: the clause's words follow it, with no word skipped; one whose wait set does
not hold makes the split wait. No register and no memory changes. With a lower stack entry the split goes on with that
entry, its own lanes joining the stack. -/
def Obligations.HeaderFetch : Prop :=
  ∀ (s : State), s.hasCur = true → s.ctl.atHdr = true → s.sp.pend = none → s.sp.born = none → s.sp.bar = none →
    s.sp.chunkClosed = false → (s.parked.all (fun q => q.who != s.cur)) = true →
    (∀ e r, s.ctl.stack = e :: r → e.addr.toNat < s.ctl.pc.toNat → ∃ t, exec .clauseHeaderFetch s = .next t
        ∧ t.ctl.pc = e.addr ∧ t.ctl.mask = e.mask ∧ t.ctl.stack = pushEntry ⟨s.ctl.pc, s.ctl.pc, 0, s.ctl.mask⟩ r
        ∧ t.regs = s.regs ∧ sameMemory s t)
      ∧ ((∀ e ∈ s.ctl.stack, s.ctl.pc.toNat < e.addr.toNat) → s.ctl.portable = false →
          (∀ q ∈ s.g.splits, q.id ≠ s.cur.2 → standsAt s.ctl.pc q = false) → ∀ w u, fetches s s.ctl.pc.toNat 8 w u →
          (headerOk w = false → exec .clauseHeaderFetch s = .next (trapHdr u 0x11 (BitVec.ofNat 64 w)))
            ∧ (headerOk w = true → bitAt w 46 = false ∨ s.sp.chunk = none → waitSetOk u w = true → ∃ t, exec .clauseHeaderFetch s = .next t
                ∧ t.ctl.pc = s.ctl.pc + 8 ∧ t.ctl.hdrAddr = s.ctl.pc ∧ t.ctl.hdr = BitVec.ofNat 64 w ∧ t.ctl.atHdr = false
                ∧ t.ctl.skipLeft = 0 ∧ t.ctl.mask = s.ctl.mask ∧ t.ctl.stack = s.ctl.stack ∧ t.sp.wait = none
                ∧ t.regs = s.regs ∧ sameMemory s t)
            ∧ (headerOk w = true → bitAt w 46 = false ∨ s.sp.chunk = none → waitSetOk u w = false → ∃ t, exec .clauseHeaderFetch s = .next t
                ∧ t.sp.wait = some .waitSet ∧ t.ctl = s.ctl ∧ t.regs = s.regs ∧ sameMemory s t))

/-- A portable word whose native word forms executes as the native instruction of that word does, with every effect
and trap of it: so a ready nop completes and changes nothing, and a ready integer instruction of O13 completes with its
result in each lane and nothing else changed. One that forms no native word traps ILLOP with the active mask where the
split waits for nothing. A safe-point marker at which no switch to native code is due passes like nop; where one is due,
the split goes on at the native header that the map pairs with it, with its lanes, and no register and no memory changes.
-/
def Obligations.PortableExecution : Prop :=
  (∀ (w : Word) (n : Word) (s : State), portableWord (w.toNat % 2 ^ 32) (w.toNat / 2 ^ 32) = some n →
      exec (.portableInstruction w) s = exec (decodeWord n none) s
        ∧ (∀ v, decodeWord n none = .nop v → ready (.nop v) s = true →
          ∃ t, exec (.portableInstruction w) s = .next t ∧ registerFrame s t [] [] [] [] 0)
        ∧ ∀ r, integerResult (decodeWord n none) = some r → ready (decodeWord n none) s = true →
          ∃ t, exec (.portableInstruction w) s = .next t ∧ holds t r.d r.n (r.lanes s) (fun l => (r.val s l).code)
            ∧ raised s t (r.flags s) ∧ registerFrame s t (cellsOf r.d r.n (r.lanes s)) (scalarOf r.d (r.lanes s)) [] [0x011] (r.cnt s))
    ∧ (∀ (w : Word) (s : State), portableWord (w.toNat % 2 ^ 32) (w.toNat / 2 ^ 32) = none → ready (.nop nopWord) s = true →
        exec (.portableInstruction w) s = .next (raiseTrap (begun (.nop nopWord) s) 0x01 s.ctl.mask false {}))
    ∧ ∀ (s : State), ready (.nop nopWord) s = true → s.ctl.portable = true →
      (switchAt s = none → passes .safePointMarker s)
        ∧ ∀ h, switchAt s = some h → ∃ t, exec .safePointMarker s = .next t
          ∧ goesTo t (BitVec.ofNat 64 h) s.ctl.mask s.ctl.stack ∧ t.ctl.portable = false ∧ controlFrame s t [] []

/-- A ready lds, ldc or ldsx that some lane executes: a lane outside its allotment traps ACCESS, else a misaligned lane
traps ALIGN, with those lanes (every executing lane of a form that executes once). A ready mrd that some lane executes
traps in the other order, which is the model's reading (log 99): a misaligned base ALIGN, else a lane outside C ACCESS.
Each else, where the chunk may record the lines, it completes: the split goes on, no register, memory or other state changes, the lines are
recorded as read, and the outstanding result holds each lane's bytes as the split reads them, where no unfinished
matrix command writes them. A lane of mrd that reads no word of its tile receives 0. -/
def Obligations.LocalLoads : Prop :=
  (∀ (i : Instr) (f : LocalForm) (s : State), localLoadForm i = some f → ready i s = true → f.lanes s ≠ [] →
      let b := begun i s
      let out := (f.lanes s).filter (fun l => localSize s f.buf < f.addr s l + f.n)
      let odd := (f.lanes s).filter (fun l => f.addr s l % f.n != 0)
      let keys := linesAt f.n ((f.lanes s).map (fun l => localLoc f.buf (f.addr s l)))
      let once := isS f.d
      (out ≠ [] → trapsWith i s 0x0B (if once then s.exec i else maskOf out))
        ∧ (out = [] → odd ≠ [] → trapsWith i s 0x0C (if once then s.exec i else maskOf odd))
        ∧ (out = [] → odd = [] → readRoom b keys = true → ∃ t, exec i s = .next t ∧ quietFrame b t [] [] [] [] 0
            ∧ recorded t keys
            ∧ ((∀ l ∈ f.lanes s, racedRead s s.g.tid f.buf (f.addr s l) f.n = false) →
                awaits b t f.d (regsFor f.n) (f.lanes s)
                  (fun l => ofBytes (localBytes b f.buf (f.addr s l) f.n)) 1)))
    ∧ ∀ (w : RWord) (s : State), ready (.mrd w) s = true → s.exec (.mrd w) ≠ 0 →
      let b := begun (.mrd w) s
      let n : Nat := if w.m.getLsbD 4 then 8 else 4
      let mode := w.m.toNat % 4
      let base := srcS s w.a
      let at_ (l : Nat) : Option Nat := if n = 8 then some (base + 8 * l) else mrdAt mode base l
      let ls := lanesOf (s.exec (.mrd w))
      let out := ls.filter (fun l => match at_ l with | some a => localSize s 2 < a + n | none => false)
      let keys := linesAt n ((ls.filterMap at_).map (localLoc 2))
      let aligned := base % (if mode = 0 then n else 2048) = 0
      (¬aligned → trapsWith (.mrd w) s 0x0C (s.exec (.mrd w)))
        ∧ (aligned → out ≠ [] → trapsWith (.mrd w) s 0x0B (maskOf out))
        ∧ (aligned → out = [] → readRoom b keys = true → ∃ t, exec (.mrd w) s = .next t ∧ quietFrame b t [] [] [] [] 0
            ∧ recorded t keys
            ∧ ((∀ l ∈ ls, ∀ a, at_ l = some a → racedRead s s.g.tid 2 a n = false) →
                awaits b t w.d (n / 4) ls (fun l => match at_ l with
                  | some a => ofBytes (localBytes b 2 a n)
                  | none => 0) 1))

/-- A ready sts, stc, stsx or mwr that some lane executes: a lane outside its allotment traps ACCESS, else a misaligned
one ALIGN; for mwr ALIGN comes before ACCESS, which is the model's reading (log 99); else, where the store buffer has room for the lines, it completes: each lane's low
bytes of the data register, in lane order, stand behind the split's stores that have not taken effect, their lines are
recorded as written, the split goes on, and no register, no memory and no other state changes. -/
def Obligations.LocalStores : Prop :=
  (∀ (i : Instr) (f : LocalForm) (s : State), localStoreForm i = some f → ready i s = true → f.lanes s ≠ [] →
      let b := begun i s
      let out := (f.lanes s).filter (fun l => localSize s f.buf < f.addr s l + f.n)
      let odd := (f.lanes s).filter (fun l => f.addr s l % f.n != 0)
      let keys := linesAt f.n ((f.lanes s).map (fun l => localLoc f.buf (f.addr s l)))
      let data (l : Nat) : List Byte := leBytes f.n (s.regs.src f.d (szN (match i with
        | .sts w | .stc w | .stsx w => w.size
        | _ => 0)) l % 2 ^ (8 * f.n))
      let all := s.exec i
      let once := match i with | .sts w | .stc w => onceM w | _ => false
      (out ≠ [] → trapsWith i s 0x0B (if once then all else maskOf out))
        ∧ (out = [] → odd ≠ [] → trapsWith i s 0x0C (if once then all else maskOf odd))
        ∧ (out = [] → odd = [] → storeRoom b keys = true → ∃ t, exec i s = .next t ∧ registerFrame b t [] [] [] [] 0
            ∧ stored b t ((f.lanes s).map (fun l => .bytes (localLoc f.buf (f.addr s l)) (data l))) keys))
    ∧ ∀ (w : RWord) (s : State), ready (.mwr w) s = true → s.exec (.mwr w) ≠ 0 →
      let b := begun (.mwr w) s
      let n : Nat := if w.m.getLsbD 4 then 8 else 4
      let base := srcS s w.a
      let ls := lanesOf (s.exec (.mwr w))
      let out := ls.filter (fun l => localSize s 2 < base + n * l + n)
      let keys := linesAt n (ls.map (fun l => localLoc 2 (base + n * l)))
      (base % n ≠ 0 → trapsWith (.mwr w) s 0x0C (s.exec (.mwr w)))
        ∧ (base % n = 0 → out ≠ [] → trapsWith (.mwr w) s 0x0B (maskOf out))
        ∧ (base % n = 0 → out = [] → storeRoom b keys = true → ∃ t, exec (.mwr w) s = .next t
            ∧ registerFrame b t [] [] [] [] 0
            ∧ stored b t (ls.map (fun l => .bytes (localLoc 2 (base + n * l)) (leBytes n (s.regs.src w.b (n / 4) l)))) keys)

/-- Of bytes that a split reads at a location, each one that the last of its stores which have not taken effect covers
is that store's byte, and every other one is as without that store; a reduction that has not taken effect leaves what
is read unchanged. -/
def Obligations.OwnStores : Prop :=
  ∀ (s t : State) (ops : List StoreOp) (loc : Nat) (b : List Byte), ownOps s = ops →
    (∀ at_ d, ownOps t = ops ++ [.bytes at_ d] → (overlay t loc b).length = b.length ∧ ∀ k, k < b.length →
        (overlay t loc b).getD k 0
          = if at_ ≤ loc + k ∧ loc + k < at_ + d.length then d.getD (loc + k - at_) 0 else (overlay s loc b).getD k 0)
      ∧ ∀ at_ op n x c, ownOps t = ops ++ [.red at_ op n x c] → overlay t loc b = overlay s loc b

/-- A ready ldg, ldgc, sld or kvmap that some lane executes, whose reads go through, completes: the split goes on,
nothing changes but what the reads record, and the outstanding result holds what its entry says in each lane: the
bytes at the lane's address; the bytes of the block that the lane's compressed slot holds; the symbol of the lane's
word under the alphabet's policy, with ICW raised where it substitutes; or the slot, position or mass that the
sequence gives for the lane's index, all ones for a malformed entry or an index past the end. The entry address of kvmap
that R253 bars traps ACCESS, else one that is no multiple of 64 ALIGN, else one outside the table ACCESS. That a scalar d
of ldgc is legal where b is a scalar too is the model's choice (log 112), and that a scalar index is unsigned (log 120). -/
def Obligations.GlobalLoads : Prop :=
  (∀ (s u : State) (n : Nat) (as : List Nat), readsTo n as s u → readFrame s u)
    ∧ (∀ (w : MWord) (s u : State), ready (.ldg w) s = true → memLanes s (.ldg w) w ≠ [] →
        let ls := memLanes s (.ldg w) w
        let n := szB w.size
        readsTo n (ls.map (eaGlobal s w)) (begun (.ldg w) s) u → ∃ t, exec (.ldg w) s = .next t
          ∧ quietFrame u t [] [] [] [] 0
          ∧ awaits u t w.d (regsFor n) ls
            (fun l => splitReads (found (begun (.ldg w) s) .read (ls.map (eaGlobal s w))) n (eaGlobal s w l)) 2)
    ∧ (∀ (w : MWord) (s u v : State), ready (.ldgc w) s = true → memLanes s (.ldgc w) w ≠ [] →
        let ls := memLanes s (.ldgc w) w
        let n := szB w.size
        let d64 := w.sub.getLsbD 0
        let b := begun (.ldgc w) s
        let at_ (l : Nat) : Int := idxGlobal s w.b l + off9 w * n
        let slot (l : Nat) : Nat := wrap 64 ((srcS s w.a : Int) + 320 * (at_ l / 256))
        let keys := ls.flatMap (fun l => slotKeys b (slot l))
        let byte (l k : Nat) : Option Byte := blockByte d64 (slotBytes v (slot l)) ((at_ l % 256).toNat + k)
        (∀ l ∈ ls, (place b (slot l)).isSome ∧ at_ l % n = 0 ∧ slotRed b (slot l) = false) → readRoom b keys = true →
        readsOn (ls.flatMap (fun l => sectorEnds (slot l) 1)) b u →
        readsOn (ls.flatMap (fun l => sectorEnds (slot l) (sectorsOf d64 (slotBytes u (slot l))))) u v →
        (∀ l ∈ ls, ∀ k, k < n → (byte l k).isSome) → ∃ t, exec (.ldgc w) s = .next t ∧ quietFrame v t [] [] [] [] 0
          ∧ recorded t keys ∧ awaits v t w.d (regsFor n) ls (fun l => ofBytes ((List.range n).map (fun k => (byte l k).getD 0))) 2)
    ∧ (∀ (w : MWord) (s u : State), ready (.sld w) s = true → memLanes s (.sld w) w ≠ [] →
        let a := alphaAt s.regs w.sub.toNat
        let ls := memLanes s (.sld w) w
        let as := ls.map (fun l => (symAt s a w l).1)
        let word (l : Nat) : Chk := a.check (splitReads (found (begun (.sld w) s) .read as) (a.w / 8) (symAt s a w l).1)
        (symBad a w = true → trapsWith (.sld w) s 0x12 (s.exec (.sld w)))
          ∧ (symBad a w = false → readsTo (a.w / 8) as (begun (.sld w) s) u → (∀ l ∈ ls, (word l).trap = false) →
            ∃ t, exec (.sld w) s = .next t ∧ quietFrame u t [] [] [] [0x011] 0
              ∧ raised u t (if ls.any (fun l => (word l).flag) then fICW else 0)
              ∧ awaits u t w.d 1 ls (fun l => valueOut w.d (a.val (a.digit (word l).x (symAt s a w l).2))) 2))
    ∧ ∀ (w : RWord) (s u : State), ready (.kvmap w) s = true → actLanes s (.kvmap w) w.d ≠ [] →
      let ea := srcS s w.a
      let b := begun (.kvmap w) s
      let ls := actLanes s (.kvmap w) w.d
      let mode := w.m.toNat % 4
      let n : Nat := if mode = 0 then 2 else 1
      let e := kvEntry (gBytes u ea 64)
      let out (v : State) (f : Nat → Nat) : Prop := ∃ t, exec (.kvmap w) s = .next t ∧ quietFrame v t [] [] [] [] 0
        ∧ awaits v t w.d n ls f 2
      (place b ea = none → trapsWith (.kvmap w) s 0x0B (s.exec (.kvmap w)))
        ∧ ((place b ea).isSome = true → ea % 64 ≠ 0 → trapsWith (.kvmap w) s 0x0C (s.exec (.kvmap w)))
        ∧ ((place b ea).isSome = true → ea % 64 = 0 → prtOk b b.slotNo ea = false →
          trapsWith (.kvmap w) s 0x0B (s.exec (.kvmap w)))
        ∧ (ea % 64 = 0 → prtOk b b.slotNo ea = true → readsAll [(ea, 64)] b u →
          (e.selfBad = true → out u (fun _ => 2 ^ (32 * n) - 1))
            ∧ (e.selfBad = false → ∀ v x,
              readsAll ((List.range e.npages).map (fun k => (wrap 64 ((e.list + 8 * k : Nat) : Int), 8))) u v →
              let pages := (List.range e.npages).map (fun k => ofBytes (gBytes v (e.list + 8 * k) 8))
              readsAll (pages.map (fun p => (wrap 64 ((p + 0x200 : Nat) : Int), 8))) v x →
              let live := pages.map (fun p => (p, liveSlots (ofBytes (gBytes x (p + 0x200) 8))))
              ((live.map (fun p => p.2.length)).sum ≠ e.nlive → out x (fun _ => 2 ^ (32 * n) - 1))
                ∧ ((live.map (fun p => p.2.length)).sum = e.nlive →
                  let at_ (p : Nat × Nat) : Nat := p.1 + (if mode = 1 then 0x100 else 0) + 4 * p.2
                  let hit (l : Nat) : Option (Nat × Nat) := kvFind live (src32 s w.b l)
                  let places := if mode = 0 then [] else (ls.filterMap hit).map (fun p => (wrap 64 (at_ p : Int), 4))
                  ∀ y, readsAll places x y → out y (fun l => match hit l with
                    | some p => if mode = 0 then p.1 + p.2 else ofBytes (gBytes y (at_ p) 4)
                    | none => 2 ^ (32 * n) - 1))))

/-- A ready stg, stgs or red that some lane executes, whose lanes pass the checks (red at host memory only as an add),
completes where the store buffer has room: the lanes' stores or reductions, in lane order, stand behind the split's
stores that have not taken effect, their lines are recorded as written, and nothing else changes. A ready sst in a
chunk whose reads go through stores each distinct word, by whatever addresses its lanes name it, with every lane's digit
put into it, lanes in increasing order, under the alphabet's policy. What a peer must have given leave for, it has. -/
def Obligations.GlobalStores : Prop :=
  (∀ (i : Instr) (w : MWord) (s : State), i = .stg w ∨ i = .stgs w ∨ i = .red w → ready i s = true → memLanes s i w ≠ [] →
      let b := begun i s
      let n := szB w.size
      let as := (memLanes s i w).map (eaGlobal s w)
      let need : Need := match i with | .red _ => .red | _ => .write
      let g := found b need as
      let keys := as.flatMap (fun a => linesOf (normal g a) n)
      let data (l : Nat) : Nat := s.regs.src w.d (szN w.size) l % 2 ^ (8 * n)
      let op (l : Nat) : StoreOp := match i with
        | .red _ => .red (normal g (eaGlobal s w l)) w.sub.toNat n (data l)
            (if w.sub.toNat = 10 ∧ s.regs.repro.getLsbD 0 = true then some s.g.core else none)
        | _ => .bytes (normal g (eaGlobal s w l)) (leBytes n (data l))
      reaches b need n s.chunkedMode as = true →
      (i = .red w → w.sub.toNat ≠ 1 → ∀ a ∈ as, ∀ off, place b a ≠ some (.host off)) → storeRoom b keys = true →
      (i = .stg w ∨ i = .stgs w → leaveNeed g 3 (globalLanes s i w) = []) →
      (sysRelease b i w (globalLanes s i w) = true → s.chunkedMode = false → batchesOwed s = false) →
      ∃ t, exec i s = .next t ∧ registerFrame g t [] [] [] [] 0 ∧ stored g t ((memLanes s i w).map op) keys)
    ∧ ∀ (w : MWord) (s u : State), ready (.sst w) s = true → memLanes s (.sst w) w ≠ [] → s.chunkedMode = true →
      let a := alphaAt s.regs w.sub.toNat
      let b := begun (.sst w) s
      let ls := memLanes s (.sst w) w
      let n := a.w / 8
      let at_ (l : Nat) : Nat := (symAt s a w l).1
      let as := ls.map at_
      let g := found b .atomic as
      let dig (l : Nat) : Chk := a.orNeutral (a.enc (valueIn s w.d l))
      let nm (l : Nat) : Nat := normal u (at_ l)
      let es := ls.map (fun l => (nm l, (symAt s a w l).2, (dig l).x))
      let word (k : Nat) : Nat := ((ls.find? (fun l => nm l == k)).map (fun l => splitReads (found g .read as) n (at_ l))).getD 0
      let names := (ls.map nm).eraseDups
      let ops := names.map (fun k => StoreOp.bytes k (leBytes n (symWord a (word k) k es)))
      let keys := names.flatMap (fun k => linesOf k n)
      (symBad a w = true → trapsWith (.sst w) s 0x12 (s.exec (.sst w)))
        ∧ (symBad a w = false → 1 < a.r → 0 < a.n → reaches b .atomic n false as = true →
          leaveNeed g 2 (ls.map (fun l => (l, at_ l))) = [] → readsTo n as g u →
          (∀ l ∈ ls, (dig l).trap = false) → (∀ k ∈ names, (a.check (word k)).trap = false) → storeRoom u keys = true →
          ∃ t, exec (.sst w) s = .next t ∧ registerFrame u t [] [] [] [0x011] 0 ∧ stored u t ops keys
            ∧ raised u t (if ls.any (fun l => (dig l).flag) || names.any (fun k => (a.check (word k)).flag) then fICW else 0))

/-- In relaxed mode a ready sst whose lanes all name one word of this package's memory, with no store of its own and
no other chunk on the word, and no lane that traps, completes: the word in memory holds every lane's digit, every
other byte reads as before, and no register changes but for the ICW flag. -/
def Obligations.RelaxedSymbolStore : Prop :=
  ∀ (w : MWord) (s : State) (ad key : Nat), ready (.sst w) s = true → memLanes s (.sst w) w ≠ [] → s.chunkedMode = false →
    let a := alphaAt s.regs w.sub.toNat
    let ls := memLanes s (.sst w) w
    let n := a.w / 8
    let as := ls.map (fun _ => ad)
    let g := found s .atomic as
    let dig (l : Nat) : Chk := a.orNeutral (a.enc (valueIn s w.d l))
    let es := ls.map (fun l => (ad, (symAt s a w l).2, (dig l).x))
    let old := ofBytes (s.memRead key n)
    (∀ l ∈ ls, (symAt s a w l).1 = ad) → s.sp.feVals = [] → symBad a w = false → 1 < a.r → 0 < a.n →
    (sysRelease s (.sst w) w (ls.map (fun l => (l, ad))) = true → batchesOwed s = false) → reaches s .atomic n false as = true → deviceKey g .atomic n ad = some key → sumsApart s →
    (ownOps s).all (fun op => !op.hits (normal s ad) n) = true →
    (∀ l ∈ ls, (dig l).trap = false) → (a.check old).trap = false → undisturbed s (linesOf (normal s ad) n) →
    ∃ t, exec (.sst w) s = .next t ∧ ofBytes (t.memRead key n) = symWord a old ad es % 2 ^ (8 * n)
      ∧ (∀ k, ¬(key ≤ k ∧ k < key + n) → t.memByte k = s.memByte k) ∧ (∀ k, t.hostMem.get k = s.hostMem.get k)
      ∧ sameRegs s t [] [] [] ∧ sameAlpha s t ∧ nextWord s t
      ∧ raised s t (if ls.any (fun l => (dig l).flag) || (a.check old).flag then fICW else 0)

/-- A ready ldsf, ldsp or stse that some lane executes, with no request waiting in its team, its lanes inside the
allotment, aligned and on different words, every word full (empty for stse), and for a load written by no unfinished
matrix command, completes at once: ldsf and ldsp give
each lane its word's bytes, ldsf leaving the words empty and ldsp full; stse, with no other chunk on its lines, writes
each lane's data and leaves the words full; every other byte and every other bit is as before. A ready feset of a
range inside the allotment sets exactly the bits of its words and changes no data. -/
def Obligations.FullEmpty : Prop :=
  (∀ (i : Instr) (w : MWord) (s : State), i = .ldsf w ∨ i = .ldsp w ∨ i = .stse w → ready i s = true → memLanes s i w ≠ [] →
      let ls := memLanes s i w
      let n := szB w.size
      let at_ (l : Nat) : Nat := eaLocal s w l
      let x := s.t.buf w.sub.toNat
      let words := ls.flatMap (fun l => wordsOf (at_ l) n)
      let keys := linesAt n (ls.map (fun l => localLoc w.sub.toNat (at_ l)))
      let load : Bool := i != .stse w
      s.t.feq = [] → s.sp.feVals = [] → (∀ l ∈ ls, at_ l + n ≤ localSize s w.sub.toNat ∧ at_ l % n = 0) → words.Nodup →
      (∀ k ∈ words, x.full.get k = if load then 1 else 0) →
      (load = true → ∀ l ∈ ls, racedRead s s.g.tid w.sub.toNat (at_ l) n = false) →
      (load = false → undisturbed s keys ∧ reservedBlocks s keys s.t.core s.cur none = false) → ∃ t, exec i s = .next t ∧ nextWord s t ∧ t.t.feq = []
        ∧ (load = true → holds t w.d (regsFor n) ls (fun l => ofBytes (Cells.read x.bytes (at_ l) n))
            ∧ sameRegs s t (cellsOf w.d (regsFor n) ls) (scalarOf w.d ls) []
            ∧ ∀ k, (t.t.buf w.sub.toNat).bytes.get k = x.bytes.get k)
        ∧ (load = false → sameRegs s t [] [] []
            ∧ (∀ l ∈ ls, ofBytes (Cells.read (t.t.buf w.sub.toNat).bytes (at_ l) n)
                = s.regs.src w.d (szN w.size) l % 2 ^ (8 * n))
            ∧ ∀ k, (∀ l ∈ ls, ¬(at_ l ≤ k ∧ k < at_ l + n)) → (t.t.buf w.sub.toNat).bytes.get k = x.bytes.get k)
        ∧ (∀ k, (t.t.buf w.sub.toNat).full.get k = if k ∈ words then (if i = .ldsf w then 0 else 1) else x.full.get k)
        ∧ (∀ k, t.memByte k = s.memByte k ∧ t.hostMem.get k = s.hostMem.get k))
    ∧ ∀ (w : MWord) (s : State), ready (.feset w) s = true → s.exec (.feset w) ≠ 0 →
      let start := wrap 64 ((srcS s w.a : Int) + off9 w * 4)
      let len := srcS s w.b
      let buf := w.sub.toNat % 4
      (len % 4 ≠ 0 ∨ start % 4 ≠ 0 → trapsWith (.feset w) s 0x0C (s.exec (.feset w)))
        ∧ (len % 4 = 0 → start % 4 = 0 → len ≠ 0 → localSize s buf < start + len →
            trapsWith (.feset w) s 0x0B (s.exec (.feset w)))
        ∧ (len % 4 = 0 → start % 4 = 0 → len = 0 ∨ start + len ≤ localSize s buf → s.t.feq = [] →
            ∃ t, exec (.feset w) s = .next t ∧ registerFrame s { t with teams := s.teams } [] [] [] [] 0
              ∧ (∀ k, (t.t.buf buf).bytes.get k = (s.t.buf buf).bytes.get k)
              ∧ (len ≠ 0 → ∀ k, (t.t.buf buf).full.get k
                  = if start ≤ 4 * k ∧ 4 * k < start + len then (if w.sub.getLsbD 2 then 1 else 0) else (s.t.buf buf).full.get k))

/-- A ready atoms, atomc, atomg or casg that some lane executes, its lanes inside the allotment (for atomg and casg
words of this package's memory) and aligned, no other chunk having touched or reserved the lines, completes: lanes act
one after another in increasing order, the outstanding result holds each lane's word as it found it, each word ends as
the last lane left it, every other byte reads as before, the flags of fadd enter FPFLAGS, and no register changes. A
compare and swap that finds another value writes nothing. -/
def Obligations.Atomics : Prop :=
  (∀ (i : Instr) (w : MWord) (s : State), i = .atoms w ∨ i = .atomc w → ready i s = true → memLanes s i w ≠ [] →
      s.sp.pst = [] →
      let buf : Nat := if i = .atoms w then 3 else 4
      let ls := memLanes s i w
      let n := szB w.size
      let at_ (l : Nat) : Nat :=
        if w.sub.toNat = 9 then wrap 64 ((s.regs.src w.a 1 l : Int) + off9 w * szB w.size) else eaLocal s w l
      let byte (t : State) (k : Nat) : Byte := if buf = 3 then t.bufByte s.g.tid 3 k else t.sramByte s.t.cid k
      let word (t : State) (a : Nat) : Nat := ofBytes ((List.range n).map (fun k => byte t (a + k)))
      let r := atomRun w.sub.toNat (8 * n) (fun l => s.regs.src w.d (szN w.size) l % 2 ^ (8 * n))
        (fun l => s.regs.src w.b (szN w.size) l % 2 ^ (8 * n)) (word s) (ls.map (fun l => (l, at_ l)))
      (∀ l ∈ ls, at_ l + n ≤ localSize s buf ∧ at_ l % n = 0) →
      undisturbed s (linesAt n (ls.map (fun l => localLoc buf (at_ l)))) →
      ∃ t, exec i s = .next t ∧ nextWord s t ∧ sameRegs s t [] [] [] ∧ sameAlpha s t
        ∧ awaits s t w.d (regsFor n) ls (valueOf r.1) 1 ∧ raised s t r.2.2
        ∧ (∀ l ∈ ls, word t (at_ l) = r.2.1 (at_ l))
        ∧ (∀ k, (∀ l ∈ ls, ¬(at_ l ≤ k ∧ k < at_ l + n)) → byte t k = byte s k)
        ∧ ∀ k, t.memByte k = s.memByte k ∧ t.hostMem.get k = s.hostMem.get k)
    ∧ ∀ (i : Instr) (w : MWord) (s : State), i = .atomg w ∨ i = .casg w → ready i s = true → memLanes s i w ≠ [] →
      s.sp.pst = [] → s.sp.feVals = [] → sumsApart s →
      let cas : Bool := i == .casg w
      let ls := memLanes s i w
      let n := szB w.size
      let at_ (l : Nat) : Nat := if cas then wrap 64 ((s.regs.src w.a 2 l : Int) + off9 w * szB w.size) else eaGlobal s w l
      let g := found s .atomic (ls.map at_)
      let key (l : Nat) : Nat := (deviceKey g .atomic n (at_ l)).getD 0
      let r := atomRun (if cas then 9 else w.sub.toNat) (8 * n) (fun l => s.regs.src w.d (szN w.size) l % 2 ^ (8 * n))
        (fun l => if cas then s.regs.src w.b (szN w.size) l % 2 ^ (8 * n) else 0) (fun a => ofBytes (s.memRead a n))
        (ls.map (fun l => (l, key l)))
      (∀ l ∈ ls, (place s (at_ l)).isSome = true ∧ at_ l % n = 0 ∧ (deviceKey s .atomic n (at_ l)).isSome = true
          ∧ (deviceKey g .atomic n (at_ l)).isSome = true) →
      ((w.scope = 3 ∨ ∃ l ∈ ls, vaSpace (at_ l) ≠ 0) → batchesOwed s = false) →
      undisturbed s (ls.flatMap (fun l => linesOf (normal s (at_ l)) n)) →
      ∃ t, exec i s = .next t ∧ nextWord s t ∧ sameRegs s t [] [] [] ∧ sameAlpha s t
        ∧ (s.g.ll.any (fun l => l.sp == s.cur.2 && l.load == 3) = false → awaits s t w.d (regsFor n) ls (valueOf r.1) 2)
        ∧ raised s t r.2.2
        ∧ (∀ l ∈ ls, ofBytes (t.memRead (key l) n) = r.2.1 (key l))
        ∧ (∀ k, (∀ l ∈ ls, ¬(key l ≤ k ∧ k < key l + n)) → t.memByte k = s.memByte k)
        ∧ ∀ k, t.hostMem.get k = s.hostMem.get k

/-- A ready probe whose lanes name valid addresses gives each lane the status word of its translation, parking and
logging nothing. A ready migr whose lanes are aligned and in this package's spaces gives each lane its page's status:
0 mapped, 1 copy-only, 2 without a leaf, 3 without RD. A ready krepl whose reads go through writes the version read
and the status (2 for a malformed image or index, else 1 for another version, else 3 where the mode would change, else
0); with status 0 in a chunk the image stands behind the split's stores. No register but the destination, and no
memory, changes. That probe asks no RD of its page is the model's choice (log 105), and that krepl asks no permission of
the table's page (log 48). -/
def Obligations.TranslationQueries : Prop :=
  (∀ (w : MWord) (s : State), ready (.probe w) s = true → memLanes s (.probe w) w ≠ [] →
      let ls := memLanes s (.probe w) w
      let b := begun (.probe w) s
      (∀ l ∈ ls, (place s (eaGlobal s w l)).isSome) → ∃ t, exec (.probe w) s = .next t ∧ quietFrame b t [] [] [] [] 0
        ∧ t.misses = s.misses ∧ t.parked = s.parked ∧ t.migrations = s.migrations
        ∧ awaits b t w.d 1 ls (fun l => probeWord s l (eaGlobal s w l)) 2)
    ∧ (∀ (w : MWord) (s : State), ready (.migr w) s = true → memLanes s (.migr w) w ≠ [] →
        let ls := memLanes s (.migr w) w
        let b := begun (.migr w) s
        (∀ l ∈ ls, eaGlobal s w l % 4 = 0 ∧ (xlatePlace s (eaGlobal s w l)).isSome) →
        ∃ t, exec (.migr w) s = .next t ∧ sameRegs s t [] [] [] ∧ sameAlpha s t ∧ sameMemory s t ∧ nextWord s t
          ∧ awaits b t w.d 1 ls (fun l => migrStatus s (eaGlobal s w l)) 2
          ∧ ∀ l ∈ ls, migrStatus s (eaGlobal s w l) = 2 → ∀ h o off, xlatePlace s (eaGlobal s w l) = some (h, o, off) →
            ∃ m ∈ t.misses, m.covers o (s.asid s.slotNo) h (off / 256) = true)
    ∧ ∀ (w : RWord) (s u : State), ready (.krepl w) s = true → s.exec (.krepl w) ≠ 0 → srcS s w.b % 64 = 0 →
      let b := begun (.krepl w) s
      let ka := kitAddr s s.slotNo (srcS s w.a)
      peerReply b = none → readsAll [(srcS s w.b, 64), (ka, 64)] b u → access u u.slotNo .own ka ≠ .viol →
      let image := kitEntry (gBytes u (srcS s w.b) 64)
      image.selfBad = true ∨ redHits u (normal u image.desc) 64 = false → ∀ r, imageCheck u (gBytes u (srcS s w.b) 64) = some r →
      let cur := kitEntry (gBytes u ka 64)
      -- the header that the image names has been read, if it names one
      let v := if image.selfBad then u
        else noteReads (touch u u.slotNo .read image.desc) (linesOf (normal u image.desc) 64)
      let st : Nat := match r with
        | none => 2
        | some e => if 4096 ≤ srcS s w.a then 2 else if cur.version ≠ srcS s w.c % 2 ^ 32 then 1
          else if wantWith v v.slotNo (srcS s w.a) (e.rev == 2) (chunkSwaps v) ≠ s.chunkedMode then 3 else 0
      (st = 0 ∨ st = 3 → kitUnread v v.slotNo = none) → (st ≠ 0 ∨ (s.chunkedMode = true ∧ ∀ c, u.sp.chunk = some c → groupLines u.g + 2 ≤ 128) → ∃ t, exec (.krepl w) s = .next t
          ∧ t.regs.sget (rnum w.d) = (if rnum w.d = 0 then 0 else BitVec.ofNat 64 (cur.version * 2 ^ 32 + st))
          ∧ sameRegs s t [] [rnum w.d] [] ∧ sameAlpha s t ∧ sameMemory s t ∧ nextWord s t
          ∧ ownOps t = ownOps u ++ (if st = 0 then [.kit (normal u ka) (gBytes u (srcS s w.b) 64)] else []))

/-- A ready command that some lane executes (nzscan, xcopy, xform, xgath, xscat, gnode, grun, xfill, xpeer, ebb,
mzero, mscale, mconv, attn; mma, mloop, msparse, mchk): a misaligned record traps ALIGN, but for nzscan; a counter
that is misaligned traps ALIGN, one outside the allotment ACCESS; else, with no long-latency result outstanding for a
matrix command, and a place in the core's port and, for a gated one, its held pool, it completes: the command, with
its operands as the group's registers give them, is held with the chunk, or sent at once in relaxed mode, and nothing
else changes. -/
def Obligations.CommandIssue : Prop :=
  (∀ (i : Instr) (w : XWord) (aligned : Bool) (s : State), commandForm i = some (w, aligned) → ready i s = true →
      s.exec i ≠ 0 →
      let rcd := srcS s w.rcd
      let ctr := if isS0 w.ctr then none else some (srcS s w.ctr)
      let aux := srcS s w.aux
      let gate := if isS0 w.aux || !bitAt aux 4 then none else some (aux % 16)
      let c : Cmd :=
        { opc := opcodeOf i, code := w.code.toNat, gid := s.g.gid, tid := s.g.tid, core := s.g.core, slot := s.slotNo
          rcd := rcd, args := (List.range 4).map (fun k => srcSn s w.crd k), ctr := ctr, gate := gate
          fpmode := s.regs.fpmode, repro := s.regs.repro.getLsbD 0, srseed := s.regs.srseed, sp := s.cur.2
          tile := if isMatrixCmd (opcodeOf i) then [(s.g.index, [], s.regs.nv)] else [] }
      (aligned = true → rcd % 64 ≠ 0 → trapsWith i s 0x0C (s.exec i))
        ∧ ((aligned = true → rcd % 64 = 0) → counterTraps i s ctr
          ∧ (counterFits s ctr → (isMatrixCmd (opcodeOf i) = true → s.g.ll = []) → portTakes (begun i s) gate →
              sends i s (.command c))))
    ∧ ∀ (i : Instr) (w : QWord) (s : State), multiplyForm i = some w → ready i s = true → s.exec i ≠ 0 →
      let sw := srcS s w.s
      let ctr := if bitAt sw 21 then some (sw % 2 ^ 20) else none
      let gate := if bitAt sw 28 then some (slice sw 27 24) else none
      let c : Cmd :=
        { opc := opcodeOf i, code := 0, gid := s.g.gid, tid := s.g.tid, core := s.g.core, slot := s.slotNo
          ctr := ctr, gate := gate, fpmode := s.regs.fpmode, repro := s.regs.repro.getLsbD 0, srseed := s.regs.srseed
          areg := rnum w.a, m := w.m.toNat, sw := sw, lw := srcSn s w.s 1, pw := srcSn s w.s 2, bw := srcS s w.b
          cw := srcS s w.c, sp := s.cur.2, tile := [(s.g.index, [], s.regs.nv)] }
      counterTraps i s ctr
        ∧ (counterFits s ctr → s.g.ll = [] → portTakes (begun i s) gate → sends i s (.command c))

/-- A ready word of these that some lane executes: xcancel, spawn and launch trap for a bad counter; spawn traps
TARGET for a misaligned entry and ILLOP with fewer than 8 vector registers; launch traps ACCESS for a record address that R253 bars, else ALIGN for a misaligned
record. Else, oprdy with no long-latency result outstanding, spawn with a bin to enter, launch with its record mapped
and a place in the queue (in relaxed mode also its kernel table entry), it completes: its one effect is held with its
chunk, or takes place at once in relaxed mode; nothing else changes. -/
def Obligations.ControlEffects : Prop :=
  (∀ (w : RWord) (s : State),
      (ready (.oprdy w) s = true → s.exec (.oprdy w) ≠ 0 → s.g.ll = [] → sends (.oprdy w) s (.credit s.regs.nv))
        ∧ (ready (.mrel w) s = true → s.exec (.mrel w) ≠ 0 → sends (.mrel w) s .mrel))
    ∧ ∀ (w : XWord) (s : State),
      let rcd := srcS s w.rcd
      let v : Word := BitVec.ofNat 64 rcd
      let args := (List.range 4).map (fun k => (BitVec.ofNat 64 (srcSn s w.crd k) : Word))
      let ctr := if isS0 w.ctr then none else some (srcS s w.ctr)
      (ready (.evmapMap w) s = true → s.exec (.evmapMap w) ≠ 0 →
          sends (.evmapMap w) s (.evmap 0 (w.code.toNat / 16) v))
        ∧ (ready (.evmapPulse w) s = true → s.exec (.evmapPulse w) ≠ 0 →
          sends (.evmapPulse w) s (.evmap 1 (w.code.toNat / 16) v))
        ∧ (ready (.evmapClear w) s = true → s.exec (.evmapClear w) ≠ 0 →
          sends (.evmapClear w) s (.evmap 2 (w.code.toNat / 16) v))
        ∧ (ready (.xcancel w) s = true → s.exec (.xcancel w) ≠ 0 →
          counterTraps (.xcancel w) s (some (srcS s w.ctr))
            ∧ (counterFits s (some (srcS s w.ctr)) → sends (.xcancel w) s (.cancel (srcS s w.ctr))))
        ∧ (ready (.spawn w) s = true → s.exec (.spawn w) ≠ 0 →
          let b := begun (.spawn w) s
          let aligned := rcd % (if s.ctl.portable then 4 else 8) = 0
          (¬aligned → trapsWith (.spawn w) s 0x03 (s.exec (.spawn w)))
            ∧ (aligned → s.t.vregs < 8 → trapsWith (.spawn w) s 0x01 s.ctl.mask)
            ∧ (aligned → 8 ≤ s.t.vregs → counterTraps (.spawn w) s ctr
              ∧ (counterFits s ctr → ∀ k, binFor b s.g.core s.g.tid v = some k →
                sends (.spawn w) s (.spawn k v args ctr (w.code.getLsbD 0)))))
        ∧ (ready (.launch w) s = true → s.exec (.launch w) ≠ 0 →
          let b := begun (.launch w) s
          (place b rcd = none → trapsWith (.launch w) s 0x0B (s.exec (.launch w)))
            ∧ ((place b rcd).isSome = true → rcd % 64 ≠ 0 → trapsWith (.launch w) s 0x0C (s.exec (.launch w)))
            ∧ (rcd % 64 = 0 → (∃ d, rdGlobal b b.slotNo rcd 64 = .ok d) → counterTraps (.launch w) s ctr
              ∧ (counterFits s ctr → queueUsed b + launchReserved b < 4096 →
                (s.chunkedMode = false → launchMiss b rcd ((List.range 4).map (fun k => srcSn s w.crd k)) = none) →
                sends (.launch w) s (.launch rcd args ctr))))

/-- For a group: a command joins the machine's commands behind the others; a credit is added below 255; mrel adds a mark of the
commands sent so far; an arrival makes its split wait at the barrier, and a yield puts it behind; the event matrix
writes one row of the core, pulses a source, or clears the gates named, where a pulse adds one credit to each gate of
the source's row, saturating at 255, while no held command takes it; a spawned thread enters its bin behind the others; xcancel leaves no unfinished
command and no running walk of the team that names the counter. -/
def Obligations.EffectsApplied : Prop :=
  ∀ (s : State) (gid id : Nat) (g : Group), s.group? gid = some g →
    let on (e : Effect) : State := applyEffect s gid id e
    let others (t : State) : Prop := ∀ x, x ≠ gid → t.group? x = s.group? x
    (∀ c, on (.command c)
        = { s with cmds := s.cmds ++ [{ cmd := { c with kid := s.nextId } }], nextId := s.nextId + 1 })
      ∧ (∀ v, (on (.credit v)).group? gid
            = some { g with credits := if g.credits.length < 255 then g.credits ++ [v] else g.credits }
          ∧ others (on (.credit v)))
      ∧ ((on .mrel).group? gid = some { g with mrel := g.mrel ++ [s.nextId] } ∧ others (on .mrel))
      ∧ (∀ p, g.split? id = some p →
          (∀ sc b, ∃ h, (on (.arrive sc b)).group? gid = some h ∧ others (on (.arrive sc b))
              ∧ h.split? id = some { p with bar := some ⟨sc, b, s.clock, false, false⟩, wait := some .barrier }
              ∧ ∀ n, n ≠ id → h.split? n = g.split? n)
            ∧ ∃ h, (on .yield).group? gid = some h ∧ others (on .yield) ∧ h.split? id = some { p with stamp := s.clock }
              ∧ ∀ n, n ≠ id → h.split? n = g.split? n)
      ∧ (∀ src v, src < 16 →
          (∀ j, j < 16 → ((on (.evmap 0 src v)).coreAt g.core).route.getD j 0
              = if j = src then v &&& 0xFFFF else (s.coreAt g.core).route.getD j 0)
            ∧ (∀ c, c ≠ g.core → (on (.evmap 0 src v)).coreAt c = s.coreAt c)
            ∧ ∀ tm, s.team? g.tid = some tm →
              ((∀ c ∈ s.cmds, c.waits g.tid = false) → ∃ t1, (on (.evmap 1 src v)).team? g.tid = some t1 ∧ ∀ k, k < 16 → t1.gates.get k
                = if ((s.coreAt g.core).route.getD src 0).getLsbD k = true ∧ tm.gates.get k ≠ 255 then tm.gates.get k + 1
                  else tm.gates.get k)
              ∧ ∃ t2, (on (.evmap 2 src v)).team? g.tid = some t2
                ∧ ∀ k, k < 16 → t2.gates.get k = if v.getLsbD k then 0 else tm.gates.get k)
      ∧ (∀ bin entry args ctr fl, ∃ b, binAt (on (.spawn bin entry args ctr fl)) g.core bin = some b
          ∧ match binAt s g.core bin with
            | some x => b.threads = x.threads ++ [(args, ctr)] ∧ b.flush = (x.flush || fl) ∧ b.entry = x.entry ∧ b.since = x.since
            | none => b.threads = [(args, ctr)] ∧ b.flush = fl ∧ b.entry = entry ∧ b.tid = g.tid ∧ b.since = s.clock)
      ∧ ∀ off, (∀ c ∈ (on (.cancel off)).cmds, c.cmd.tid = g.tid → c.cmd.ctr = some off → c.finished = true)
        ∧ ∀ w ∈ (on (.cancel off)).walks, w.tid = g.tid → w.ctr = some off → w.cancelled = true

/-- A chunk that has closed, with its loads returned, no page missing and none that forbids a store: on one die, with
a key to take, its commit takes the key; on several dies it reports the open round, and takes its key in phase two. At
its key, where it disturbs nothing, its stores take effect in program order, its flags reach FPFLAGS, its split goes
on without a chunk, and the splits it made may issue. A round that is over closes, its sequence numbers starting
again. In relaxed mode a store that may be performed takes effect likewise and leaves the split's stores. -/
def Obligations.ChunkCommit : Prop :=
  (∀ (s : State) (gid sp : Nat) (g : Group) (p : Split) (c : Chunk), chunkAt s gid sp = some (g, p, c) →
      chunkReady s g p c = true → commitMisses s g c = [] → commitViol s g c = false →
      let dies := footprint (State.dieOf g.core) c.writes
      let quiet := c.held = [] ∧ c.effs = [] ∧ quietStores s g sp p.ticket c.writes
      (c.phase = none → s.parked.all (fun q => q.who != (gid, sp)) = true →
          (dies.length ≤ 1 → quiet → ∀ k, keyIn s s.round dies = some k →
              ∃ t, exec (.chunkCommit gid sp) s = .next t ∧ commits s t g p c k)
            ∧ (1 < dies.length → (keyIn s s.round dies).isSome = true → exec (.chunkCommit gid sp) s = .next (s.modSplitOf gid sp (fun p =>
                { p with chunk := p.chunk.map (fun c => { c with phase := some s.round }) }))))
        ∧ (quiet → ∀ k, phaseKey s g c = some k → ∃ t, exec (.phaseTwo gid sp) s = .next t ∧ commits s t g p c k))
    ∧ (∀ s : State, s.round < s.clock / 64 → (∃ t, exec .commitRoundClose s = .next t ∧ t.round = s.clock / 64)
        ∧ (s.due = [] → s.usersDue = [] → s.scanDue = [] → exec .commitRoundClose s
          = .next { s with round := s.clock / 64, seqs := [0, 0, 0, 0, 0], badLines := [] }))
    ∧ ∀ (s : State) (gid sp idx : Nat) (g : Group) (p : Split) (op : StoreOp), s.group? gid = some g →
      g.split? sp = some p → p.pst[idx]? = some op → performOk s gid sp idx = true →
      quietStores s g sp none (linesOf op.range.1 op.range.2) → (∀ h o k x, op.at s (s.gridOf g).slot ≠ some (.miss h o k x)) →
      ∃ t g' p', exec (.storePerformed gid sp idx) s = .next t ∧ lands s t g [op] ∧ t.group? gid = some g'
        ∧ g'.split? sp = some p' ∧ p' = { p with pst := p.pst.eraseIdx idx } ∧ g'.regs = g.regs

/-- A long-latency result whose operation is over is written: its vector cells and scalars hold it, and no other
register changes. A pending trap whose prefix is done is delivered where its handler stands; with INTRAP 1 or a TRAPVEC of
0 it ends its group, and the grid's status, where it is 0, becomes 0x43. A group's candidate
that has been passed over for 256 cycles is promoted. Once every participant has arrived at a barrier, none of its splits waits there. An
instance of a wire-tree tag that is full for 96 cycles is released: no split waits in it, the counts set are in force,
and none has arrived, if no arrival was held. -/
def Obligations.SplitEvents : Prop :=
  (∀ (s : State) (gid idx : Nat) (g : Group) (l : LongWrite), s.group? gid = some g → g.ll[idx]? = some l → l.load ≠ 3 →
      let last {α : Type} (xs : List (Nat × α)) (k : Nat) (old : α) : α :=
        ((xs.reverse.find? (fun e => e.1 == k)).map (fun e => e.2)).getD old
      ∃ t g', exec (.longLatencyWriteback gid idx) s = .next t ∧ t.group? gid = some g' ∧ { t with groups := s.groups } = s
        ∧ g'.ll = g.ll.eraseIdx idx ∧ (∀ n k, k < 32 → g'.regs.vget n k = last l.vw (32 * n + k) (g.regs.vget n k))
        ∧ (∀ n, g'.regs.sget n = if n = 0 then 0 else last l.sw n (g.regs.sget n))
        ∧ { g'.regs with v := g.regs.v, s := g.regs.s } = g.regs ∧ ∀ x, x ≠ gid → t.group? x = s.group? x)
    ∧ (∀ (s : State) (gid sp : Nat) (g : Group) (p : Split) (tr : PendTrap), s.group? gid = some g → g.split? sp = some p →
        trapReady s gid sp = true → p.pend = some tr → tr.done = false →
        let u := { s with cur := (gid, sp) }
        handlerThere u = true → ∃ t, exec (.trapDelivery gid sp) s = .next t ∧ t.cur = (gid, sp)
          ∧ delivered u t tr.cause tr.mask tr.pc tr.info tr.pair false ∧ sameMemory u t ∧ t.regs = u.regs)
    ∧ (∀ (s : State) (gid sp : Nat) (g : Group) (p : Split), s.group? gid = some g → g.split? sp = some p →
        trapReady s gid sp = true → p.ctl.trapCause.getLsbD 63 = true ∨ p.ctl.trapVec = 0 →
        ∃ t, exec (.trapDelivery gid sp) s = .next t ∧ t.group? gid = none
          ∧ (g.laneCtr = [] → (∀ x ∈ s.groups, x.exempt = []) → ∀ x, x ≠ gid → t.group? x = s.group? x)
          ∧ ∀ y, s.grid? (s.gridOf g).grid = some y → ∃ z, t.grid? (s.gridOf g).grid = some z
            ∧ z.status = if y.status = 0 then 0x43 else y.status)
    ∧ (∀ (s : State) (gid sp : Nat) (g : Group) (p : Split), s.group? gid = some g → g.saved = false →
        candidate s g = some p → p.id = sp → p.promoted = false → p.since + 256 ≤ s.clock →
        exec (.candidatePromotion gid sp) s = .next (s.modSplitOf gid sp (fun p => { p with promoted := true })))
    ∧ (∀ (s : State) (scope obj id : Nat), scope < 4 → barDone s scope obj id = true →
        ∃ t, exec (.barrierRelease scope obj id) s = .next t ∧ sameMemory s t
          ∧ ∀ g ∈ barGroups s scope obj, g.takesPart scope id = true → ∀ g', t.group? g.gid = some g' →
            g'.regs = ((s.group? g.gid).getD g).regs ∧ ∀ p ∈ g'.splits, p.waitsAt scope id = false)
    ∧ ∀ (s : State) (tag : Nat), tag < 8 → wireDue s tag = true → (s.wireGot.get (256 * tag + 193)) = 0 →
      (∀ g ∈ s.groups, ∀ p ∈ g.splits, ∀ b, p.bar = some b → b.next = false) →
      ∃ t, exec (.barwInstanceRelease tag) s = .next t ∧ sameMemory s t
        ∧ (∀ g ∈ t.groups, ∀ p ∈ g.splits, wireOpen tag p = false)
        ∧ ∀ k, k < 193 → t.wireForce.get (256 * tag + k) = s.wireCount.get (256 * tag + k)
          ∧ t.wireGot.get (256 * tag + k) = 0

/-- A returned request takes a place in its home's queue. The oldest waiting record of a die is written to its ring
with its vector signalled, or one beyond 64 is dropped and counted; one that is no longer pending then goes. A walk that
finds a leaf installs it and serves its request, a split's keeping its turn; the page's written records go, and its
unwritten ones have still to be written. The owner's NOTICE to an idle die removes the TLB entries named and sets BUSY;
complete, it counts, and what is parked stays parked. A copied page has its data in its frame and its rewritten leaf,
and no TLB entry of it is left. A free frame's TAIL is written. A folded sum changes no byte as read. A translation that
ends writes its image, NATIVE and SPMAP, or, for an entry that has changed, nothing; which image the translator makes is open (log 49). -/
def Obligations.Translation : Prop :=
  (∀ (s : State) (idx : Nat) (p : Parked), s.parked[idx]? = some p → p.accepted = false →
      (queued s p.die p.slice true).length < 256 →
      exec (.missQueueRetry idx) s = .next { s with parked := s.parked.eraseIdx idx ++ [{ p with accepted := true }] })
    ∧ (∀ (s : State) (idx : Nat) (m : MissRec), s.misses[idx]? = some m → m.written = false →
        let r := State.dieBlk m.die
        let at_ := s.host * 2 ^ 64 + s.bar r + (s.ringTail r % s.ringSize r) * 32
        let done := if m.ended then s.misses.eraseIdx idx else s.misses.set idx { m with written := true }
        (missRoom s m.die = true → (waitingMisses s m.die).head? = some idx → ∃ t, exec (.missLogRecord idx) s = .next t
            ∧ Cells.read t.hostMem at_ 32 = m.bytes s.time ∧ t.ringTail r = (s.ringTail r + 1) % 2 ^ 32 ∧ t.misses = done
            ∧ t.out = s.out ++ [.msix s.host (4 + m.die)]
            ∧ (∀ k, ¬(at_ ≤ k ∧ k < at_ + 32) → t.hostMem.get k = s.hostMem.get k) ∧ ∀ k, t.memByte k = s.memByte k)
          ∧ (missRoom s m.die = false → 64 ≤ ((waitingMisses s m.die).takeWhile (fun k => k != idx)).length →
            ∃ t, exec (.missLogRecord idx) s = .next t ∧ t.misses = done ∧ t.hostMem = s.hostMem
              ∧ t.bar (r + 0x18) / 2 ^ 32 = min (s.bar (r + 0x18) / 2 ^ 32 + 1) (2 ^ 32 - 1)))
    ∧ (∀ (s : State) (idx c : Nat) (p : Parked) (l : Leaf), s.parked[idx]? = some p → walkOk s idx = true →
        parkedLeaf s p = some (c, l) → l.copy = false → ∃ t, exec (.tableWalkComplete idx) s = .next t
          ∧ { t with parked := s.parked, serving := s.serving, misses := s.misses, tlb := s.tlb, free := s.free } = s
          ∧ t.parked = s.parked.eraseIdx idx
          ∧ t.serving = (if (s.group? p.who.1).isSome then s.serving ++ [servingOf p l] else s.serving)
          ∧ (let named (m : MissRec) : Prop := m.die = p.die ∧ m.asid = p.asid ∧ m.host = p.host
              ∧ meets m.base m.size l.base l.size = true
            ∀ m, m ∈ t.misses ↔ (m ∈ s.misses ∧ ¬named m) ∨ ∃ x ∈ s.misses, named x ∧ x.written = false ∧ m = { x with ended := true })
          ∧ ∃ e ∈ t.tlb, e.covers (s.asid c) p.host p.die (p.block * 256) = true)
    ∧ (∀ (s : State) (fn die : Nat) (v : Word), die < 5 →
        let k := noticeOf die v
        let r := State.dieBlk die + 0x28
        let gone (t : State) : Prop := ∀ e ∈ t.tlb, ¬(e.die = die ∧ k.names e.asid e.host e.base e.size = true)
        (owns s fn = true → noticeNow s die = none → ∃ t, exec (.notice fn die v) s = .next t ∧ gone t
            ∧ t.notices = s.notices ++ [(die, v)] ∧ t.bar r = s.bar r % 2 ^ 32 + 2 ^ 63)
          ∧ (noticeNow s die = some v → openLanes s die k = false → (s.notices.erase (die, v)).all (fun e => e.1 != die) = true →
            ∃ t, exec (.noticeComplete die) s = .next t ∧ gone t ∧ t.notices = s.notices.erase (die, v)
              ∧ t.bar r = (s.bar r + 1) % 2 ^ 32
              ∧ t.parked = s.parked
              ∧ ∀ c, k.range = none → s.slotOf k.asid = some c →
                t.roots.get (8 * c + die) = BitVec.ofNat 64 (slice (s.ctx c (8 + 8 * die)) 51 12 * 2 ^ 12)))
    ∧ (∀ (s : State) (idx f : Nat) (data : List Byte) (g : Migration), s.migrations[idx]? = some g → g.frame = some f →
        ∀ d, migrData s g = some d → (data = [] ∨ data = d) →
        let key := phys g.die f
        d.length = storedSize g → (copyChunks g).all (fun ks => engineMay s g.die 191 ks) = true → sumsApart s → (g.leafAt + 8 ≤ key ∨ key + d.length ≤ g.leafAt) →
        ∃ t, exec (.migrationComplete idx data) s = .next t ∧ t.migrations = s.migrations.eraseIdx idx
          ∧ t.memRead key d.length = d
          ∧ ofBytes (t.memRead g.leafAt 8) = (if ofBytes (s.memRead g.leafAt 8) = g.leaf
              then (g.leaf % 2 ^ 8 + (g.leaf / 2 ^ 9 % 2) * 2 ^ 9 + f) % 2 ^ 64 else ofBytes (s.memRead g.leafAt 8))
          ∧ (∀ k, ¬(key ≤ k ∧ k < key + d.length) → ¬(g.leafAt ≤ k ∧ k < g.leafAt + 8) → t.memByte k = s.memByte k)
          ∧ ∀ e ∈ t.tlb, ¬(e.die = g.die ∧ e.asid = g.asid ∧ e.host = g.host ∧ e.base = g.base))
    ∧ (∀ (s : State) (fn off d : Nat) (v : Word), owns s fn = true → freeTailDie off = some d →
        (∀ g ∈ s.migrations, g.die = d → g.frame.isSome = true) →
        exec (.freeFrameTail fn off v) s = .next (s.setBar off (v.toNat % 2 ^ 32)))
    ∧ (∀ (s : State) (idx : Nat) (a : Accum), s.accums[idx]? = some a → foldOk s idx = true → sumsApart s →
        ∃ t, exec (.redFold idx) s = .next t ∧ t.accums = s.accums.erase a ∧ (∀ k, t.memByte k = s.memByte k)
          ∧ t.clusters = (s.spoilRecords a.addr a.size).clusters
          ∧ { t with mem := s.mem, accums := s.accums, clusters := s.clusters, oldCode := s.oldCode, oldSeq := s.oldSeq } = s)
    ∧ ∀ (s : State) (idx : Nat) (native spmap : Word) (image : List Byte) (x : Transl), s.transls[idx]? = some x →
      (translSame s x = false → (∀ h o b k, kitAt s x.slot x.kit ≠ .miss h o b k) →
          exec (.translationComplete idx native spmap image) s = .next { s with transls := s.transls.eraseIdx idx })
        ∧ ∀ (e : KitEntry) (h : CodeHdr) (o i o' i' : Nat) (l l' : Leaf), kitAt s x.slot x.kit = .ok e h →
          translSame s x = true → translFits s x e h native spmap image = true →
          let parts := translParts s x h native spmap image
          mayPut s x.slot parts = true → translMisses s x e.code parts = [] →
          image ≠ [] → h.trans % 65536 + image.length ≤ 65536 →
          let at_ := kitAddr s x.slot x.kit + 16
          let p := phys o (l.frame + i)
          let q := phys o' (l'.frame + i')
          -- the state in which the entry is written: the image has been
          let u := putPart x.slot { engineKey s 4 (partKeys s (entryPart s x native spmap)) with transls := s.transls.eraseIdx idx }
            (h.trans, image)
          sumsApart s → access s x.slot .own h.trans = .hit false o i l → access s x.slot .own at_ = .hit false o' i' l' →
          access u x.slot .own at_ = .hit false o' i' l' → (p + image.length ≤ q ∨ q + 16 ≤ p) →
          victims s (linesOf (normal s h.trans) image.length) 0 0 (0, 0) none = [] →
          ∃ t, exec (.translationComplete idx native spmap image) s = .next t ∧ t.transls = s.transls.eraseIdx idx
            ∧ t.memRead p image.length = image
            ∧ t.memRead q 16 = leBytes 8 native.toNat ++ leBytes 8 spmap.toNat
            ∧ ∀ k, ¬(p ≤ k ∧ k < p + image.length) → ¬(q ≤ k ∧ k < q + 16) → t.memByte k = s.memByte k

/-- A received batch whose clock conditions hold, its pages there, is applied: its sender's clock entry is the
batch's, the batch leaves the inbox, the peer lines it names go, and a write of this package's memory is there. A
peer's read that this clock covers is answered with the bytes and this clock. A returned line goes to its split and
the line cache. A flit is accepted only in sequence, with a good CRC, on a port that is up, and releases the flits it
acknowledges; held flits are sent again and counted after 6,000 cycles. A port that goes down holds nothing; one that
comes up, after a warm reset where it had been marked down, starts anew and keeps its count of replays. That a reply goes
out in a flit of its own is the model's reading (log 70), and so is what a port that goes down or comes up holds and
counts (log 73). -/
def Obligations.Links : Prop :=
  (∀ (s : State) (idx : Nat) (b : Batch), s.inbox[idx]? = some b → batchOk s idx = true → batchMisses s b = [] →
      ∃ t, exec (.batchApply idx) s = .next t ∧ t.vc = s.vc.set b.src (b.stamp.getD b.src 0)
        ∧ t.inbox = s.inbox.eraseIdx idx ∧ t.peerLines = s.peerLines.filter (fun l => !b.keys.contains (lineKey l.1))
        ∧ ∀ w o i l, b.writes = [w] → w.red = none → b.incr = none → sumsApart s →
          peerAccess s b.asid .write w.addr = some (.hit false o i l) →
          let key := phys o (l.frame + i)
          ∀ k, t.memByte k = if key ≤ k ∧ k < key + w.data.length then w.data.getD (k - key) 0 else s.memByte k)
    ∧ (∀ (s : State) (idx port : Nat) (q : PeerServe) (h : Bool) (o i : Nat) (l : Leaf), s.peerServes[idx]? = some q →
        q.op = none → q.need = 0 → serveOk s idx = true → peerAccess s q.asid .read q.addr = some (.hit h o i l) →
        s.portTo q.src = some port → (s.ports.getD port {}).heldFlits.length < 512 → (∀ e ∈ s.outbox, e.1 ≠ port) →
        let p := s.ports.getD port {}
        let m := Msg.readReply s.pkg q.tag ((pageRead s h o l i q.len).getD []) s.vc
        ∃ t, exec (.peerReadServe idx) s = .next t ∧ t.peerServes = s.peerServes.eraseIdx idx ∧ sameMemory s t
          ∧ t.out = s.out ++ [.flit port ⟨p.txSeq, p.rxSeq - 1, 2, [m], true⟩])
    ∧ (∀ (s : State) (idx : Nat) (q : PeerReq) (d : List Byte) (c : List (BitVec 32)) (g : Group) (p : Split),
        s.peerReqs[idx]? = some q → q.op = none → q.reply = some (d, c) → d ≠ [] → clockCovers s.vc c = true → q.gid ≠ 0 →
        q.stale = false → q.need < 2 → s.group? q.gid = some g → g.split? q.sp = some p → ∃ t g', exec (.peerReadDelivery idx) s = .next t
          ∧ t.peerReqs = s.peerReqs.eraseIdx idx ∧ (q.mark, d) ∈ t.peerLines ∧ t.group? q.gid = some g'
          ∧ g'.split? q.sp = some { p with peerData := p.peerData ++ [(q.mark, d)] } ∧ g'.regs = g.regs
          ∧ { t with groups := s.groups, peerReqs := s.peerReqs, peerLines := s.peerLines } = s)
    ∧ ∀ (s : State) (port : Nat), port < 12 → port < s.ports.length →
      let p := s.ports.getD port {}
      (∀ f : Flit, s.powered = true →
          (p.up = true → f.crcOk = true → f.seq = p.rxSeq → f.msgs = [] → (∀ e ∈ s.outbox, e.1 ≠ port) →
              (∀ q ∈ s.peerReqs, q.port ≠ 12) → ∃ t, exec (.flitReceive port f) s = .next t
              ∧ (t.ports.getD port {}).rxSeq = p.rxSeq + 1 ∧ { t with ports := s.ports } = s
              ∧ ∀ x ∈ (t.ports.getD port {}).heldFlits, x ∈ p.heldFlits ∧ 2 ^ 15 ≤ (f.ack - x.seq).toNat)
            ∧ (¬(p.up = true ∧ f.crcOk = true ∧ f.seq = p.rxSeq) → exec (.flitReceive port f) s = .next s)
            ∧ (∀ src asid stamp ws keys incr, p.up = true → f.crcOk = true → f.seq = p.rxSeq →
              f.msgs = [.batch src asid stamp ws keys incr] → clockGe (s.vc.getD src 0) (stamp.getD src 0) = false →
              (∀ x ∈ s.inbox, ¬(x.src = src ∧ x.stamp.getD src 0 = stamp.getD src 0)) →
              ∃ t, exec (.flitReceive port f) s = .next t
                ∧ t.inbox = s.inbox ++ [{ src := src, asid := asid, stamp := stamp, writes := ws, keys := keys, incr := incr }]))
        ∧ (∀ a r, p.up = true → p.heldAt = a :: r → a + 6000 ≤ s.clock → ∃ t, exec (.flitReplay port) s = .next t
            ∧ t.out = s.out ++ p.heldFlits.map (fun f => .flit port f)
            ∧ t.ports.getD port {} = { p with heldAt := p.heldAt.map (fun _ => s.clock), replays := p.replays + p.heldFlits.length })
        ∧ (s.powered = true → p.up = true → ∃ t, exec (.linkPortDown port) s = .next t
            ∧ (t.ports.getD port {}).up = false ∧ (t.ports.getD port {}).down = true ∧ (t.ports.getD port {}).heldFlits = []
            ∧ ∀ k, t.memByte k = s.memByte k)
        ∧ ∀ pkg reset, s.powered = true → pkg < 32 → p.up = false → (p.down = false ∨ reset = true) →
          ∃ t, exec (.linkPortUp port pkg reset) s = .next t ∧ t.ports.getD port {} = { up := true, far := pkg, replays := p.replays }
          ∧ t.bar (0x30100 + 8 * port) = 1 + pkg * 2 ^ 8 + p.replays % 2 ^ 32 * 2 ^ 32
          ∧ t.vc = (if reset then s.vc.set pkg 0 else s.vc)

/-- Once start-up has ended, the owner's aligned 64-byte write joins the launch port; a record read from it that is accepted queues its grid. A
served unplaced head, no other head having a mark to change or a page to park for, gets a cluster at the chosen origin
whose groups start with every lane at the entry with the arguments of R97. A bin's timer expires; a bin that may
launch starts a group with its threads in the lowest lanes and their arguments in v0 to v7; that it takes the lowest free
slot (log 31) and the lowest free index (log 32) are the model's readings. A head without a place for
2^20 cycles is starved; saving clusters below a head marks one. A team with nothing left releases its allotment; a
grid whose clusters are done completes, its entry in a ring that has room. -/
def Obligations.Grids : Prop :=
  (∀ (s : State) (fn addr : Nat) (data : List Byte), started s = true → fn < 8 → s.port.length < 256 → fn = s.host →
      data.length = 64 → addr % 64 = 0 → exec (.launchPortWrite fn addr data) s = .next { s with port := s.port ++ [(fn, data)] })
    ∧ (∀ (s : State) (fn c : Nat) (b : List Byte) (r : List (Nat × List Byte)) (g : Grid), s.port = (fn, b) :: r →
        recordOk s = true → heldNext s = none → readMiss s = none → recSlot s b none = some c →
        -- the state in which the record is checked: its context's mode is set, and its kernel table entry has been read
        readRecord (touchKit { setMode s c with port := r } c (recField b 0 2 % 4096)) b (.host fn) none = .queue g →
        ∃ t, exec .launchRecordRead s = .next t ∧ t.port = r ∧ t.grids = s.grids ++ [g]
          ∧ t.serials.get c = s.serials.get c + 1 ∧ sameMemory s t)
    ∧ (∀ (s : State) (g : Grid) (b : Binding) (o : Nat), parkHeads (markHeads s) = s →
        served s = some (.next g, .place o) → g.bound = some b → ∃ t ts gs, exec .clusterPlacement s = .next t
          ∧ t.clusters = s.clusters ++ [{ cid := s.nextId, grid := g.grid, linear := g.next, origin := o, cx := b.hdr.cx
                                          cy := b.hdr.cy, slices := g.slices }]
          ∧ t.teams = s.teams ++ ts ∧ t.groups = s.groups ++ gs ∧ sameMemory s t
          ∧ ts.map (fun x => (x.core, x.index)) = (rectCores o b.hdr.cx b.hdr.cy).zipIdx
          ∧ (∀ x ∈ ts, x.cid = s.nextId ∧ x.w.kib = b.hdr.bufs.getD 0 0 ∧ x.g.kib = b.hdr.bufs.getD 3 0)
          ∧ (∀ x ∈ gs, ∃ p, x.splits = [p] ∧ p.ctl.pc = BitVec.ofNat 64 b.entry ∧ p.ctl.mask = BitVec.allOnes 32
            ∧ p.ctl.atHdr = true ∧ x.regs.sget 1 = g.argBlock ∧ x.regs.sget 2 = BitVec.ofNat 64 g.gx
            ∧ x.regs.sget 3 = BitVec.ofNat 64 g.gy ∧ x.regs.sget 4 = BitVec.ofNat 64 g.gz
            ∧ (∀ k, k < 4 → x.regs.sget (5 + k) = g.args.getD k 0) ∧ ∀ n k, x.regs.vget n k = 0)
          ∧ ∀ y, s.grid? g.grid = some y → ∃ z, t.grid? g.grid = some z ∧ z.next = y.next + 1 ∧ z.bound = some b)
    ∧ (∀ (s : State) (core bin : Nat) (b : Bin), binAt s core bin = some b →
        (timerOk s core bin = true → ∃ t, exec (.binTimerExpiry core bin) s = .next t
            ∧ binAt t core bin = some { b with expired := true } ∧ { t with bins := s.bins } = s)
          ∧ ∀ tm slot rest k, binOk s core bin = true → s.team? b.tid = some tm → freeGroupSlots s core = slot :: rest →
            freeIndex s b.tid = some k → b.threads.length ≤ 32 → ∃ t g p, exec (.binLaunch core bin) s = .next t
              ∧ t.groups = s.groups ++ [g] ∧ binAt t core bin = none ∧ g.tid = b.tid ∧ g.slot = slot ∧ g.index = k
              ∧ g.splits = [p] ∧ p.ctl.pc = b.entry ∧ p.ctl.mask = maskOf (List.range b.threads.length)
              ∧ (∀ j args c, b.threads[j]? = some (args, c) → ∀ n, n < 4 →
                g.regs.vget (2 * n) j = BitVec.ofNat 32 (args.getD n 0).toNat
                  ∧ g.regs.vget (2 * n + 1) j = BitVec.ofNat 32 ((args.getD n 0).toNat / 2 ^ 32))
              ∧ sameMemory s t)
    ∧ (∀ (s : State) (level : Nat),
        (∀ h, headOf s level = some h → starveOk s level = true → ∃ t, exec (.levelHeadStarvation level) s = .next t
            ∧ { t with grids := s.grids } = s ∧ ∀ y, t.grid? h.grid.grid = some y → y.starved = true)
          ∧ ∀ u, starvedHead s level = some u → exec (.preemptStarvation level) s = .next u
            ∧ { u with clusters := s.clusters } = s
            ∧ ∃ c ∈ u.clusters, c.toSave = true ∧ (gridOfCluster s c).prio < level)
    ∧ (∀ (s : State) (tid : Nat) (tm : Team), s.team? tid = some tm → releaseOk s tid = true →
        ∃ t, exec (.teamAllotmentRelease tid) s = .next t ∧ (∀ x, x ∈ t.teams ↔ x ∈ s.teams ∧ x.tid ≠ tid)
          ∧ ((∃ x ∈ s.teams, x.tid ≠ tid ∧ x.cid = tm.cid) → { t with teams := s.teams } = s)
          ∧ ∀ c, (∀ x ∈ s.teams, x.tid ≠ tid → x.cid ≠ tm.cid) → s.cluster? tm.cid = some c → t.cluster? tm.cid = none
            ∧ ∀ y, s.grid? c.grid = some y → t.grid? c.grid = some { y with done := y.done + 1 })
    ∧ ∀ (s : State) (g : Grid), s.grid? g.grid = some g → g.done = g.gx * g.gy * g.gz →
      ∃ t, exec (.gridCompletion g.grid) s = .next t ∧ (∀ x, x ∈ t.grids ↔ x ∈ s.grids ∧ x.grid ≠ g.grid)
        ∧ ∀ fn, g.src = .host fn → fn < 8 →
          let r := 0x100 + 32 * fn
          s.ringWait.all (fun w => w.ring != r) = true → s.ringFull r = false →
          Cells.read t.hostMem (fn * 2 ^ 64 + s.bar r + (s.ringTail r % s.ringSize r) * 16) 16
              = complEntry g.serial (s.asid g.slot) g.kit g.status
            ∧ t.ringTail r = (s.ringTail r + 1) % 2 ^ 32

/-- At the port's head a gated command joins the held pool, another enters its unit's queue, each checked, an error
ending it; a held one takes a credit of its gate where there is one, and enters its unit's queue once it has one. An engine's next chunk, an attention's snapshot and release and the steps of ebb take their
command to the next stage at a new key. A finished command leaves, its counter counting 1 and taking an error code
where it has none. A matrix command starts when its contributors have credits. An operand latch is released once the
commands before an mrel have read their operands, and the marks of later ones stay. A node that is done pulses its event and goes through its successors;
after them it leaves its walk. -/
def Obligations.CommandEvents : Prop :=
  (∀ (s : State) (core : Nat) (c : SentCmd),
      (s.cmds.filter (fun x => x.cmd.core == core && x.stage == .port)).find? (fun x => x.cmd.node.isNone) = some c →
      let counted (u : State) (q : SentCmd) : SentCmd :=
        if c.cmd.opc = 0xB9 then { q with cmd := { q.cmd with n := some (listCount u q.cmd) } } else q
      (c.cmd.gate = none → unitRoom s c = true →
          let old := s.cmds.filter (fun x => x.cmd.kid != c.cmd.kid)
          let q0 : SentCmd := { c with stage := .queued, unit := if isAsyncCmd c.cmd.opc then pickEngine s c.cmd.core else 0 }
          let q := counted { s with cmds := old ++ [q0] } q0
          let u := { s with cmds := old ++ [q] }
          ∃ t, exec (.commandAcceptance core) s = .next t
            ∧ (∀ b, (checkWalks 64 u q).2 = .ok b → t.cmds = old ++ [{ q with checked := true, recb := b }])
            ∧ ∀ e, (checkWalks 64 u q).2 = .error (.err e) → c.cmd.node = none → ∀ x ∈ t.cmds, x.cmd.kid ≠ c.cmd.kid)
        ∧ ∀ gate, c.cmd.gate = some gate →
          let h0 := { c with stage := .held }
          let h := counted (modCmd s c.cmd.kid (fun _ => h0)) h0
          let u := modCmd s c.cmd.kid (fun _ => h)
          ∃ t, exec (.commandAcceptance core) s = .next t
            ∧ (∀ b, (checkWalks 64 u h).2 = .ok b → ∃ x ∈ t.cmds, x.cmd = h.cmd ∧ x.stage = .held ∧ x.checked = true ∧ x.recb = b
              ∧ ∀ tm, s.team? c.cmd.tid = some tm → s.cmds.filter (fun x => x.cmd.kid == c.cmd.kid) = [c] →
                c.credited = false → (∀ y ∈ s.cmds, y.waits c.cmd.tid = false) → tm.gates.get gate ≠ 0 →
                x.credited = true ∧ ∃ t1, t.team? c.cmd.tid = some t1 ∧ t1.gates.get gate = tm.gates.get gate - 1)
            ∧ ∀ e, (checkWalks 64 u h).2 = .error (.err e) → c.cmd.node = none → ∀ x ∈ t.cmds, x.cmd.kid ≠ c.cmd.kid)
    ∧ (∀ (s : State) (tid gate : Nat) (c : SentCmd) (g : Group),
        s.cmds.find? (fun c => c.cmd.tid == tid && c.stage == .held && c.credited && c.cmd.gate == some gate && unitRoom s c) = some c →
        s.group? c.cmd.gid = some g →
        exec (.gateRelease tid gate) s = .next { s with cmds := s.cmds.filter (fun x => x.cmd.kid != c.cmd.kid)
          ++ [{ c with stage := .queued, unit := if isAsyncCmd c.cmd.opc then pickEngine s c.cmd.core else 0
                       cmd := if isMatrixCmd c.cmd.opc then { c.cmd with tile := [(g.index, [], g.regs.nv)] } else c.cmd }] })
    ∧ (∀ (s : State) (kid : Nat) (c : SentCmd), cmd? s kid = some c → cmdParked s kid = false →
        let lines (ws : List (Nat × List Byte)) (incr : Option Nat) : List Nat :=
          addKeys (ws.foldl (fun ks w => addKeys ks (engineLines s w.1 w.2.length)) [])
            (match incr with | some a => engineLines s a 8 | none => [])
        let may (ws : List (Nat × List Byte)) : Prop := chunkMay s c ws (lines ws none) = true
        let moves (i : Instr) (ws : List (Nat × List Byte)) (incr : Option Nat) (st : Stage) : Prop := ∃ t c', exec i s = .next t
          ∧ cmd? t kid = some c' ∧ c'.cmd = c.cmd ∧ c'.stage = st
          ∧ keyIn s s.round (footprint (dieOfCmd c) (lines ws incr)) = some t.lastKey
        let goes (i : Instr) (ws : List (Nat × List Byte)) (st : Stage) : Prop := moves i ws none st
        -- a claim that starts has left the queue
        let b := modCmd s kid (fun c => { c with stage := .running 0 })
        (∀ p x, isAsyncCmd c.cmd.opc = true → c.stage = .running p → c.err = 0 → c.checked = true → listDue c = false →
            p < pieceCount c.cmd (shapeOf c.recb) → xferPiece s c p = .ok x →
            chunkMay s c x.runs (lines x.runs x.incr) = true → moves (.engineChunkCommit kid) x.runs x.incr (.running (p + 1)))
          ∧ (∀ x, c.cmd.opc = 0xB8 → c.stage = .running 0 → snapshot s c = .ok x → may (raiseReaders x.2) →
            goes (.attnSnapshot kid) (raiseReaders x.2) (.running 1))
          ∧ (∀ i p x, c.cmd.opc = 0xB8 → c.stage = .releasing i → c.snap[i]? = some p → releasePage s c p = .ok x → may x.1 →
            goes (.attnRelease kid) x.1 (.releasing (i + 1)))
          ∧ (∀ x, c.cmd.opc = 0xAA → claiming c = true ∨ (c.stage = .queued ∧ ebbMay s c = true) → claimOf b c = .ok x →
            chunkMay b c x.ws (lines x.ws none) = true → goes (.ebbClaim kid) x.ws (.running 0))
          ∧ (∀ p ws, c.cmd.opc = 0xAA → c.stage = .running p → claiming c = false → 4096 * p < (copyStream c).length → copyPiece s c p = .ok ws →
            may ws → goes (.ebbCopy kid) ws (.running (p + 1)))
          ∧ (∀ p ws, c.cmd.opc = 0xAA → c.stage = .running p → claiming c = false → (copyStream c).length ≤ 4096 * p → swapOf s c = .ok ws → may ws →
            goes (.ebbSwap kid) ws (.releasing 1))
          ∧ (∀ p, (isAsyncCmd c.cmd.opc || c.cmd.opc == 0x69) = true → c.stage = .running p →
            (c.err ≠ 0 ∨ chunksDone s c p = true) → c.err < 256 → batchesApplied s c = true → counterFree s c = true →
            c.cmd.node = none → ∃ t, exec (.commandFinish kid) s = .next t ∧ (∀ x ∈ t.cmds, x.cmd.kid ≠ kid)
              ∧ ∀ off tm, c.cmd.ctr = some off → s.team? c.cmd.tid = some tm →
                let w := ofBytes (Cells.read tm.g.bytes off 4)
                ∃ t1, t.team? c.cmd.tid = some t1 ∧ ofBytes (Cells.read t1.g.bytes off 4)
                  = (if w / 2 ^ 24 = 0 then c.err else w / 2 ^ 24) * 2 ^ 24 + (w + 1) % 2 ^ 24)
          ∧ (mxStartOk s kid = true → ∃ t c', exec (.matrixCommandStart kid) s = .next t ∧ cmd? t kid = some c'
            ∧ c'.stage = .running 0 ∧ c'.aRead = true ∧ sameMemory s t)
          ∧ ∀ a wid, c.cmd.node = some (a, wid) → (c.stage = .done → ∃ t c', exec (.graphNodeFinish kid) s = .next t
              ∧ cmd? t kid = some c' ∧ c'.stage = .releasing 0 ∧ sameMemory s t)
            ∧ (c.stage = .releasing 6 → ∃ t, exec (.graphNodeFinish kid) s = .next t ∧ ∀ x ∈ t.cmds, x.cmd.kid ≠ kid))
    ∧ ∀ (s : State) (gid : Nat), latchOk s gid = true → exec (.operandLatchRelease gid) s
      = .next (s.modGroup gid (releaseLatch s))

/-- A chosen cluster that can be saved is saved: its groups with no chunk keep their registers, and are no longer
resident. A served saved cluster whose record is intact resumes at the chosen origin, its groups with their registers.
The owner's request of a kind names the clusters of no earlier request any longer; one that names no resident cluster is
over at once, and one whose clusters have room chooses every cluster that it names. That one for which a single cluster's
record lacks room chooses none is the model's reading (log 34). D3hot stops placement until D0. -/
def Obligations.Preemption : Prop :=
  (∀ (s : State) (cid : Nat) (c : Cluster), s.cluster? cid = some c → saveOk s cid = true →
      (regionPlace s (gridOfCluster s c).slot cid (recordLen s c)).isSome = true → ∃ t c', exec (.clusterSave cid) s = .next t ∧ t.cluster? cid = some c' ∧ c'.saved = true ∧ c'.toSave = false
        ∧ ∀ g ∈ clusterGroups s cid, s.group? g.gid = some g → (∀ p ∈ g.splits, p.chunk = none) →
          ∃ g', t.group? g.gid = some g' ∧ g'.saved = true ∧ g'.regs = g.regs ∧ g'.latch = none)
    ∧ (∀ (s : State) (cid o : Nat) (c : Cluster) (gr : Grid), s.cluster? cid = some c → c.cid = cid → c.corrupt = false →
        served s = some (.saved c gr, .place o) → ∃ t c', exec (.clusterResume cid) s = .next t
          ∧ t.cluster? cid = some c' ∧ c'.saved = false ∧ c'.origin = o ∧ sameMemory s t
          ∧ ∀ tm ∈ teamsOf s cid, ∀ g, g.tid = tm.tid → s.group? g.gid = some g →
            ∃ g', t.group? g.gid = some g' ∧ g'.saved = false ∧ g'.regs = g.regs)
    ∧ (∀ (s : State) (fn : Nat) (v : Word) (i : Instr), owns s fn = true →
        (i = .preemptContext fn v ∧ v.toNat % 4 = 1 ∨ i = .preemptGrid fn v ∧ v.toNat % 4 = 2
          ∨ i = .preemptCore fn v ∧ v.toNat % 4 = 3) →
        let cs := namedClusters s v
        let word := v.toNat / 2 ^ 32 * 2 ^ 32 + v.toNat % 256
        let old := unname s
        let set_ := old.setBar 0x48 word
        let u := { set_ with clusters := old.clusters.map (fun c =>
          if cs.any (fun x => x.cid == c.cid) && c.toSave then { c with named := true } else c) }
        (cs = [] → ∃ t, exec i s = .next t ∧ t.bar 0x48 = word / 4 * 4 ∧ t.clusters = old.clusters)
          ∧ (cs ≠ [] → ∀ r, chooseAll true (cs.filter (fun c => !c.toSave)) u = some r → exec i s = .next r ∧ r.bar 0x48 = word
            ∧ ∀ c ∈ cs, ∃ c' ∈ r.clusters, c'.cid = c.cid ∧ c'.toSave = true ∧ c'.named = true)
          ∧ (cs ≠ [] → chooseAll true (cs.filter (fun c => !c.toSave)) u = none → ∃ t, exec i s = .next t
            ∧ t.bar 0x48 = word / 4 * 4 + 256 ∧ t.clusters = old.clusters))
    ∧ ∀ s : State, (s.d3hot = false → ∃ t, exec .d3hotEntry s = .next t ∧ t.d3hot = true ∧ served t = none
        ∧ { t with d3hot := false, clusters := s.clusters } = s)
      ∧ (s.d3hot = true → exec .d0Entry s = .next { s with d3hot := false })

/-- A CXL.mem request finds its bytes by a decoder of its function: a read gives them, or all ones where they are
lost, and a write puts them there. An AtomicOp gets Unsupported Request, a configuration
request Retry until READY. A ring's HEAD, a register, a free context slot's CTL and OWNER change as the owner or a
claim that succeeds writes them; a heartbeat restarts the lapse. Removing a slot leaves no grid and no register of it.
Resets leave every register at reset, and a function-level reset takes ownership away: that a warm reset keeps device
memory is the model's choice (log 38), and that memory lists nothing after a cold one is log 1. Start-up sets READY, and
requests that need it are stated of a package that has started. A machine error ends the named contexts and marks the
line that has failed; a corrected one changes only counters; a throttle level shows in THERMAL; shutdown at 110 degrees
ends every context and powers down. -/
def Obligations.HostEvents : Prop :=
  ∀ (s : State),
    (∀ (fn addr len o off : Nat) (k : Nat × Nat × Nat) (failed : Bool), cxlOk s fn addr len none failed = true →
        hdmAt s fn addr len = some (o, off) → keyIn s s.round (footprint 4 []) = some k →
        exec (.hostCxlMemRequest fn addr len none failed) s = .next { takeKey s k with
          out := s.out ++ [.cxlData (if failed || s.failedIn (phys o off) len then List.replicate len 0xFF else s.memRead (phys o off) len)] })
      ∧ (∀ (fn addr len o off : Nat) (d : List Byte), cxlOk s fn addr len (some d) false = true →
        hdmAt s fn addr len = some (o, off) → sumsApart s →
        let key := phys o off
        ∃ t, exec (.hostCxlMemRequest fn addr len (some d) false) s = .next t
          ∧ (∀ k, t.memByte k = if key ≤ k ∧ k < key + d.length then d.getD (k - key) 0 else s.memByte k)
          ∧ ∀ k, t.hostMem.get k = s.hostMem.get k)
      ∧ (∀ fn, s.powered = true → fn < 8 →
        (started s = true → exec (.hostAtomicopRequest fn) s = .next { s with out := s.out ++ [.unsupported fn] })
          ∧ exec (.configurationRequest fn) s = .next { s with out := s.out ++ [.config fn (!bitAt (s.bar 0) 0)] }
          ∧ ∃ t, exec (.functionLevelReset fn) s = .next t ∧ t.ringSize (0x100 + 32 * fn) = 0
            ∧ (fn = s.host → t.host = 0xF ∧ t.epoch = (s.epoch + 1) % 2 ^ 32) ∧ (fn ≠ s.host → t.host = s.host))
      ∧ (∀ (fn off : Nat) (v : Word), headOk s fn off v = true → s.ringWait = [] →
        exec (.ringHeadWrite fn off v) s = .next (s.setBar off (v.toNat % 2 ^ 32)))
      ∧ (∀ (fn : Nat) (v : Word), claimOk s fn v = true → ∃ t, exec (.ownclaim fn v) s = .next t
        ∧ t.host = v.toNat % 16 ∧ t.epoch = (s.epoch + 1) % 2 ^ 32 ∧ t.beat = s.clock)
      ∧ (∀ fn, owns s fn = true → exec (.heartbeat fn) s = .next { s with beat := s.clock })
      ∧ (∀ (fn off x : Nat) (v : Word), owns s fn = true → regField s off v.toNat = some x → off < 0x20000 ∨ 0x20800 ≤ off →
        ∃ t, exec (.managementRegisterWrite fn off v) s = .next t ∧ t.bar off = x % 2 ^ 64
          ∧ ∀ k, t.memByte k = s.memByte k)
      ∧ (∀ (fn slot : Nat) (v : Word), owns s fn = true → slot < 64 → s.ctxValid slot = false → bitAt v.toNat 16 = true →
        ∃ t, exec (.contextSlotCtl fn slot v) s = .next t
          ∧ (s.slotOf (v.toNat % 2 ^ 16) = none → t.ctx slot 0 = v.toNat % 2 ^ 19)
          ∧ ((s.slotOf (v.toNat % 2 ^ 16)).isSome = true → t.ctx slot 0 = s.ctx slot 0))
      ∧ (∀ fn slot, owns s fn = true → slot < 64 → ∃ t, exec (.contextSlotRemove fn slot) s = .next t
        ∧ (∀ g ∈ t.grids, g ∈ s.grids ∧ g.slot ≠ slot) ∧ (∀ o, o < 256 → t.ctx slot o = 0)
        ∧ (s.ctxValid slot = true → ∀ e ∈ t.tlb, e.asid ≠ s.asid slot))
      ∧ (∀ f : Option Nat, s.powered = true → (∀ fn, f = some fn → owns s fn = true) → exec (.warmReset f) s
        = .next { State.reset with schedule := s.schedule, free := s.free, hostMem := s.hostMem, out := s.out, mem := s.mem })
      ∧ exec .coldReset s = .next { State.reset with schedule := s.schedule, free := s.free, hostMem := s.hostMem, out := s.out }
      ∧ (s.powered = true → bitAt (s.bar 0) 0 = false →
        ∃ t, exec .startupReady s = .next t ∧ t.bar 0 = s.bar 0 + 1 ∧ { t with bar0 := s.bar0 } = s)
      ∧ (∀ level, s.powered = true → level < 8 → level = s.throttle + 1
          ∨ (level + 1 = s.throttle ∧ junction s ≤ 100 ∧ s.hotAt + 3000000 ≤ s.clock) →
        ∃ t, exec (.throttleLevelChange level) s = .next t ∧ t.throttle = level
          ∧ t.bar 0x40 = s.bar 0x40 % 256 + 256 * level
          ∧ { t with throttle := s.throttle, bar0 := s.bar0, hotAt := s.hotAt } = s)
      ∧ (∀ store unit addr ctxs, s.powered = true → store < 4 → unit < 5 →
        ∃ t, exec (.machineError store unit addr ctxs) s = .next t
          ∧ (store < 2 → phys unit addr.toNat / 64 ∈ t.failed)
          ∧ ∀ g ∈ t.grids, g ∈ s.grids ∧ ¬(g.slot < 64 ∧ ctxs.getLsbD g.slot = true))
      ∧ (∀ die, s.powered = true → die < 5 → ∃ t, exec (.correctedSoftError die) s = .next t ∧ { t with bar0 := s.bar0 } = s)
      ∧ (s.powered = true → 110 ≤ junction s → ∃ t, exec .thermalShutdown s = .next t ∧ t.powered = false
        ∧ ∀ g ∈ t.grids, g ∈ s.grids ∧ s.ctxValid g.slot = false)
end

