-- ==== Sys2Proof/Laws/Cells.lean ====
section
/-! SUPPORT. The laws of keyed stores: a read after a write, and that every write keeps the canonical form. -/

namespace Sys2Proof

namespace Cells

variable {w : Nat}

/-- Every key of a store in canonical form is above a bound. -/
def above (a : Nat) (c : Cells w) : Prop := ∀ e ∈ c, a < e.1

theorem wf_cons (k : Nat) (v : BitVec w) (r : Cells w) :
    wf ((k, v) :: r) = true ↔ v ≠ 0 ∧ above k r ∧ wf r = true := by
  induction r generalizing k v with
  | nil => simp [wf, above]
  | cons e r ih =>
    obtain ⟨k', v'⟩ := e
    have h := ih k' v'
    simp only [wf, Bool.and_eq_true, bne_iff_ne, decide_eq_true_eq]
    constructor
    · rintro ⟨⟨hv, hk⟩, hw⟩
      obtain ⟨_, ha, _⟩ := h.mp hw
      refine ⟨hv, ?_, hw⟩
      intro x hx
      rcases List.mem_cons.mp hx with rfl | hx
      · exact hk
      · exact Nat.lt_trans hk (ha x hx)
    · rintro ⟨hv, ha, hw⟩
      exact ⟨⟨hv, ha (k', v') (by simp)⟩, hw⟩

theorem above_mono {a b : Nat} {c : Cells w} (h : a ≤ b) (hb : above b c) : above a c :=
  fun e he => Nat.lt_of_le_of_lt h (hb e he)

theorem above_erase {a b : Nat} {c : Cells w} (h : above b c) : above b (erase c a) :=
  fun e he => h e (List.mem_filter.mp he).1

theorem wf_erase (a : Nat) (c : Cells w) (h : wf c = true) : wf (erase c a) = true := by
  induction c with
  | nil => rfl
  | cons e r ih =>
    obtain ⟨k, v⟩ := e
    obtain ⟨hv, ha, hr⟩ := (wf_cons k v r).mp h
    by_cases hk : k = a
    · simpa [erase, hk] using ih hr
    · have hc : erase ((k, v) :: r) a = (k, v) :: erase r a := by simp [erase, hk]
      rw [hc, wf_cons]
      exact ⟨hv, above_erase ha, ih hr⟩

theorem above_insert {a b : Nat} {v : BitVec w} {c : Cells w} (h : above b c) (hb : b < a) : above b (insert c a v) := by
  induction c with
  | nil => intro e he; simp [insert] at he; subst he; exact hb
  | cons e r ih =>
    obtain ⟨k, x⟩ := e
    intro e he
    by_cases hk : a < k
    · simp only [insert, hk, if_true, List.mem_cons] at he
      rcases he with rfl | rfl | he
      · exact hb
      · exact h _ (by simp)
      · exact h _ (by simp [he])
    · simp only [insert, hk, if_false, List.mem_cons] at he
      rcases he with rfl | he
      · exact h _ (by simp)
      · exact ih (fun e he => h e (by simp [he])) e he

theorem wf_insert (a : Nat) (v : BitVec w) (c : Cells w) (hv : v ≠ 0) (hn : ∀ e ∈ c, e.1 ≠ a) (h : wf c = true) :
    wf (insert c a v) = true := by
  induction c with
  | nil => simpa [insert, wf] using hv
  | cons e r ih =>
    obtain ⟨k, x⟩ := e
    obtain ⟨hx, ha, hr⟩ := (wf_cons k x r).mp h
    by_cases hk : a < k
    · simp only [insert, hk, if_true]
      rw [wf_cons]
      refine ⟨hv, ?_, h⟩
      intro e he
      rcases List.mem_cons.mp he with rfl | he
      · exact hk
      · exact Nat.lt_trans hk (ha e he)
    · simp only [insert, hk, if_false]
      rw [wf_cons]
      refine ⟨hx, above_insert ha ?_, ih (fun e he => hn e (by simp [he])) hr⟩
      have : k ≠ a := hn (k, x) (by simp)
      omega

/-- A write keeps the canonical form. -/
theorem wf_set (a : Nat) (v : BitVec w) (c : Cells w) (h : wf c = true) : wf (set c a v) = true := by
  unfold set
  split
  · exact wf_erase a c h
  · rename_i hv
    refine wf_insert a v _ hv ?_ (wf_erase a c h)
    intro e he
    simpa using (List.mem_filter.mp he).2

theorem get_erase (c : Cells w) (a b : Nat) : get (erase c a) b = if b = a then 0 else get c b := by
  induction c with
  | nil => simp [erase, get]
  | cons e r ih =>
    obtain ⟨k, v⟩ := e
    by_cases hk : k = a
    · have hc : erase ((k, v) :: r) a = erase r a := by simp [erase, hk]
      rw [hc, ih]
      by_cases hb : b = a
      · simp [hb]
      · have : ¬k = b := by omega
        simp [get, hb, this]
    · have hc : erase ((k, v) :: r) a = (k, v) :: erase r a := by simp [erase, hk]
      rw [hc]
      by_cases hb : k = b
      · have : ¬b = a := by omega
        simp [get, hb, this]
      · simp [get, hb, ih]

theorem get_insert (c : Cells w) (a b : Nat) (v : BitVec w) (hn : ∀ e ∈ c, e.1 ≠ a) :
    get (insert c a v) b = if b = a then v else get c b := by
  induction c with
  | nil => by_cases h : a = b <;> simp [insert, get, h, eq_comm]
  | cons e r ih =>
    obtain ⟨k, x⟩ := e
    have hka : k ≠ a := hn (k, x) (by simp)
    rw [insert]
    by_cases hk : a < k
    · rw [if_pos hk]
      by_cases hb : a = b
      · simp [get, hb]
      · have : ¬b = a := fun h => hb h.symm
        simp [get, hb, this]
    · rw [if_neg hk]
      have hi := ih (fun e he => hn e (by simp [he]))
      by_cases hb : k = b
      · have : ¬b = a := by omega
        simp [get, hb, this]
      · simp [get, hb, hi]

/-- A read after a write: the value at its key, every other key as before. -/
theorem get_set (c : Cells w) (a b : Nat) (v : BitVec w) : get (set c a v) b = if b = a then v else get c b := by
  unfold set
  split
  · rename_i hv
    subst hv
    exact get_erase c a b
  · rw [get_insert _ _ _ _ (fun e he => by simpa using (List.mem_filter.mp he).2), get_erase]
    by_cases hb : b = a <;> simp [hb]

@[simp] theorem get_set_same (c : Cells w) (a : Nat) (v : BitVec w) : get (set c a v) a = v := by simp [get_set]

theorem get_set_ne (c : Cells w) (a b : Nat) (v : BitVec w) (h : b ≠ a) : get (set c a v) b = get c b := by
  simp [get_set, h]

end Cells

namespace Machine

/-- A write of consecutive bytes keeps the canonical form. -/
theorem Cells.write_wf (c : Cells 8) (a : Nat) (d : List Byte) (h : Cells.wf c = true) :
    Cells.wf (Cells.write c a d) = true := by
  induction d generalizing c a with
  | nil => exact h
  | cons b r ih => exact ih _ _ (Sys2Proof.Cells.wf_set a b c h)

/-- What a byte reads as after a write of consecutive bytes. -/
theorem Cells.write_get (c : Cells 8) (a : Nat) (d : List Byte) (k : Nat) :
    Cells.get (Cells.write c a d) k = if a ≤ k ∧ k < a + d.length then d.getD (k - a) 0 else Cells.get c k := by
  induction d generalizing c a with
  | nil =>
    have h : ¬(a ≤ k ∧ k < a + ([] : List Byte).length) := by simp
    rw [if_neg h, Cells.write]
  | cons b r ih =>
    rw [Cells.write, ih, Sys2Proof.Cells.get_set]
    by_cases h1 : k = a
    · subst h1
      simp
    · by_cases h2 : a + 1 ≤ k ∧ k < a + 1 + r.length
      · have h3 : a ≤ k ∧ k < a + (b :: r).length := by simp; omega
        have h4 : k - a = (k - (a + 1)) + 1 := by omega
        rw [if_pos h2, if_pos h3, h4, List.getD_cons_succ]
      · have h3 : ¬(a ≤ k ∧ k < a + (b :: r).length) := by simp; omega
        simp only [h2, h3, h1, if_false]

theorem Cells.read_length (c : Cells 8) (a n : Nat) : (Cells.read c a n).length = n := by
  induction n generalizing a with
  | zero => rfl
  | succ n ih => simp [Cells.read, ih]

end Machine

end Sys2Proof
end

