-- ==== Sys2Proof/Laws/State.lean ====
section
/-! SUPPORT. What each update of the state leaves: one lemma for each field it does not touch. -/

namespace Sys2Proof.Machine

namespace State

@[simp] theorem modGroup_schedule (s : State) (gid : Nat) (f : Group → Group) : (s.modGroup gid f).schedule = s.schedule := rfl
@[simp] theorem modGroup_cur (s : State) (gid : Nat) (f : Group → Group) : (s.modGroup gid f).cur = s.cur := rfl
@[simp] theorem modGroup_free (s : State) (gid : Nat) (f : Group → Group) : (s.modGroup gid f).free = s.free := rfl
@[simp] theorem modGroup_clock (s : State) (gid : Nat) (f : Group → Group) : (s.modGroup gid f).clock = s.clock := rfl
@[simp] theorem modGroup_issued (s : State) (gid : Nat) (f : Group → Group) : (s.modGroup gid f).issued = s.issued := rfl
@[simp] theorem modGroup_mem (s : State) (gid : Nat) (f : Group → Group) : (s.modGroup gid f).mem = s.mem := rfl
@[simp] theorem modGroup_hostMem (s : State) (gid : Nat) (f : Group → Group) : (s.modGroup gid f).hostMem = s.hostMem := rfl
@[simp] theorem modGroup_failed (s : State) (gid : Nat) (f : Group → Group) : (s.modGroup gid f).failed = s.failed := rfl
@[simp] theorem modGroup_oldCode (s : State) (gid : Nat) (f : Group → Group) : (s.modGroup gid f).oldCode = s.oldCode := rfl
@[simp] theorem modGroup_oldSeq (s : State) (gid : Nat) (f : Group → Group) : (s.modGroup gid f).oldSeq = s.oldSeq := rfl
@[simp] theorem modGroup_teams (s : State) (gid : Nat) (f : Group → Group) : (s.modGroup gid f).teams = s.teams := rfl
@[simp] theorem modGroup_clusters (s : State) (gid : Nat) (f : Group → Group) : (s.modGroup gid f).clusters = s.clusters := rfl
@[simp] theorem modGroup_grids (s : State) (gid : Nat) (f : Group → Group) : (s.modGroup gid f).grids = s.grids := rfl
@[simp] theorem modGroup_heldGrids (s : State) (gid : Nat) (f : Group → Group) : (s.modGroup gid f).heldGrids = s.heldGrids := rfl
@[simp] theorem modGroup_usersDue (s : State) (gid : Nat) (f : Group → Group) : (s.modGroup gid f).usersDue = s.usersDue := rfl
@[simp] theorem modGroup_cores (s : State) (gid : Nat) (f : Group → Group) : (s.modGroup gid f).cores = s.cores := rfl
@[simp] theorem modGroup_bins (s : State) (gid : Nat) (f : Group → Group) : (s.modGroup gid f).bins = s.bins := rfl
@[simp] theorem modGroup_blockQ (s : State) (gid : Nat) (f : Group → Group) : (s.modGroup gid f).blockQ = s.blockQ := rfl
@[simp] theorem modGroup_cmds (s : State) (gid : Nat) (f : Group → Group) : (s.modGroup gid f).cmds = s.cmds := rfl
@[simp] theorem modGroup_walks (s : State) (gid : Nat) (f : Group → Group) : (s.modGroup gid f).walks = s.walks := rfl
@[simp] theorem modGroup_due (s : State) (gid : Nat) (f : Group → Group) : (s.modGroup gid f).due = s.due := rfl
@[simp] theorem modGroup_loose (s : State) (gid : Nat) (f : Group → Group) : (s.modGroup gid f).loose = s.loose := rfl
@[simp] theorem modGroup_nextId (s : State) (gid : Nat) (f : Group → Group) : (s.modGroup gid f).nextId = s.nextId := rfl
@[simp] theorem modGroup_tlb (s : State) (gid : Nat) (f : Group → Group) : (s.modGroup gid f).tlb = s.tlb := rfl
@[simp] theorem modGroup_roots (s : State) (gid : Nat) (f : Group → Group) : (s.modGroup gid f).roots = s.roots := rfl
@[simp] theorem modGroup_apers (s : State) (gid : Nat) (f : Group → Group) : (s.modGroup gid f).apers = s.apers := rfl
@[simp] theorem modGroup_parked (s : State) (gid : Nat) (f : Group → Group) : (s.modGroup gid f).parked = s.parked := rfl
@[simp] theorem modGroup_serving (s : State) (gid : Nat) (f : Group → Group) : (s.modGroup gid f).serving = s.serving := rfl
@[simp] theorem modGroup_misses (s : State) (gid : Nat) (f : Group → Group) : (s.modGroup gid f).misses = s.misses := rfl
@[simp] theorem modGroup_migrations (s : State) (gid : Nat) (f : Group → Group) : (s.modGroup gid f).migrations = s.migrations := rfl
@[simp] theorem modGroup_accums (s : State) (gid : Nat) (f : Group → Group) : (s.modGroup gid f).accums = s.accums := rfl
@[simp] theorem modGroup_round (s : State) (gid : Nat) (f : Group → Group) : (s.modGroup gid f).round = s.round := rfl
@[simp] theorem modGroup_seqs (s : State) (gid : Nat) (f : Group → Group) : (s.modGroup gid f).seqs = s.seqs := rfl
@[simp] theorem modGroup_lastKey (s : State) (gid : Nat) (f : Group → Group) : (s.modGroup gid f).lastKey = s.lastKey := rfl
@[simp] theorem modGroup_ticket (s : State) (gid : Nat) (f : Group → Group) : (s.modGroup gid f).ticket = s.ticket := rfl
@[simp] theorem modGroup_hdm (s : State) (gid : Nat) (f : Group → Group) : (s.modGroup gid f).hdm = s.hdm := rfl
@[simp] theorem modGroup_bar0 (s : State) (gid : Nat) (f : Group → Group) : (s.modGroup gid f).bar0 = s.bar0 := rfl
@[simp] theorem modGroup_wireCount (s : State) (gid : Nat) (f : Group → Group) : (s.modGroup gid f).wireCount = s.wireCount := rfl
@[simp] theorem modGroup_wireForce (s : State) (gid : Nat) (f : Group → Group) : (s.modGroup gid f).wireForce = s.wireForce := rfl
@[simp] theorem modGroup_wireGot (s : State) (gid : Nat) (f : Group → Group) : (s.modGroup gid f).wireGot = s.wireGot := rfl
@[simp] theorem modGroup_wireLast (s : State) (gid : Nat) (f : Group → Group) : (s.modGroup gid f).wireLast = s.wireLast := rfl
@[simp] theorem modGroup_notices (s : State) (gid : Nat) (f : Group → Group) : (s.modGroup gid f).notices = s.notices := rfl
@[simp] theorem modGroup_ringWait (s : State) (gid : Nat) (f : Group → Group) : (s.modGroup gid f).ringWait = s.ringWait := rfl
@[simp] theorem modGroup_port (s : State) (gid : Nat) (f : Group → Group) : (s.modGroup gid f).port = s.port := rfl
@[simp] theorem modGroup_serials (s : State) (gid : Nat) (f : Group → Group) : (s.modGroup gid f).serials = s.serials := rfl
@[simp] theorem modGroup_chunkedSlots (s : State) (gid : Nat) (f : Group → Group) : (s.modGroup gid f).chunkedSlots = s.chunkedSlots := rfl
@[simp] theorem modGroup_beat (s : State) (gid : Nat) (f : Group → Group) : (s.modGroup gid f).beat = s.beat := rfl
@[simp] theorem modGroup_d3hot (s : State) (gid : Nat) (f : Group → Group) : (s.modGroup gid f).d3hot = s.d3hot := rfl
@[simp] theorem modGroup_throttle (s : State) (gid : Nat) (f : Group → Group) : (s.modGroup gid f).throttle = s.throttle := rfl
@[simp] theorem modGroup_hotAt (s : State) (gid : Nat) (f : Group → Group) : (s.modGroup gid f).hotAt = s.hotAt := rfl
@[simp] theorem modGroup_powered (s : State) (gid : Nat) (f : Group → Group) : (s.modGroup gid f).powered = s.powered := rfl
@[simp] theorem modGroup_vc (s : State) (gid : Nat) (f : Group → Group) : (s.modGroup gid f).vc = s.vc := rfl
@[simp] theorem modGroup_sent (s : State) (gid : Nat) (f : Group → Group) : (s.modGroup gid f).sent = s.sent := rfl
@[simp] theorem modGroup_inbox (s : State) (gid : Nat) (f : Group → Group) : (s.modGroup gid f).inbox = s.inbox := rfl
@[simp] theorem modGroup_peerLines (s : State) (gid : Nat) (f : Group → Group) : (s.modGroup gid f).peerLines = s.peerLines := rfl
@[simp] theorem modGroup_badLines (s : State) (gid : Nat) (f : Group → Group) : (s.modGroup gid f).badLines = s.badLines := rfl
@[simp] theorem modGroup_peerReqs (s : State) (gid : Nat) (f : Group → Group) : (s.modGroup gid f).peerReqs = s.peerReqs := rfl
@[simp] theorem modGroup_peerServes (s : State) (gid : Nat) (f : Group → Group) : (s.modGroup gid f).peerServes = s.peerServes := rfl
@[simp] theorem modGroup_ports (s : State) (gid : Nat) (f : Group → Group) : (s.modGroup gid f).ports = s.ports := rfl
@[simp] theorem modGroup_outbox (s : State) (gid : Nat) (f : Group → Group) : (s.modGroup gid f).outbox = s.outbox := rfl
@[simp] theorem modGroup_lost (s : State) (gid : Nat) (f : Group → Group) : (s.modGroup gid f).lost = s.lost := rfl
@[simp] theorem modGroup_nextTag (s : State) (gid : Nat) (f : Group → Group) : (s.modGroup gid f).nextTag = s.nextTag := rfl
@[simp] theorem modGroup_transls (s : State) (gid : Nat) (f : Group → Group) : (s.modGroup gid f).transls = s.transls := rfl
@[simp] theorem modGroup_scanDue (s : State) (gid : Nat) (f : Group → Group) : (s.modGroup gid f).scanDue = s.scanDue := rfl
@[simp] theorem modGroup_out (s : State) (gid : Nat) (f : Group → Group) : (s.modGroup gid f).out = s.out := rfl

@[simp] theorem modTeam_schedule (s : State) (tid : Nat) (f : Team → Team) : (s.modTeam tid f).schedule = s.schedule := rfl
@[simp] theorem modTeam_cur (s : State) (tid : Nat) (f : Team → Team) : (s.modTeam tid f).cur = s.cur := rfl
@[simp] theorem modTeam_free (s : State) (tid : Nat) (f : Team → Team) : (s.modTeam tid f).free = s.free := rfl
@[simp] theorem modTeam_clock (s : State) (tid : Nat) (f : Team → Team) : (s.modTeam tid f).clock = s.clock := rfl
@[simp] theorem modTeam_issued (s : State) (tid : Nat) (f : Team → Team) : (s.modTeam tid f).issued = s.issued := rfl
@[simp] theorem modTeam_mem (s : State) (tid : Nat) (f : Team → Team) : (s.modTeam tid f).mem = s.mem := rfl
@[simp] theorem modTeam_hostMem (s : State) (tid : Nat) (f : Team → Team) : (s.modTeam tid f).hostMem = s.hostMem := rfl
@[simp] theorem modTeam_failed (s : State) (tid : Nat) (f : Team → Team) : (s.modTeam tid f).failed = s.failed := rfl
@[simp] theorem modTeam_oldCode (s : State) (tid : Nat) (f : Team → Team) : (s.modTeam tid f).oldCode = s.oldCode := rfl
@[simp] theorem modTeam_oldSeq (s : State) (tid : Nat) (f : Team → Team) : (s.modTeam tid f).oldSeq = s.oldSeq := rfl
@[simp] theorem modTeam_groups (s : State) (tid : Nat) (f : Team → Team) : (s.modTeam tid f).groups = s.groups := rfl
@[simp] theorem modTeam_clusters (s : State) (tid : Nat) (f : Team → Team) : (s.modTeam tid f).clusters = s.clusters := rfl
@[simp] theorem modTeam_grids (s : State) (tid : Nat) (f : Team → Team) : (s.modTeam tid f).grids = s.grids := rfl
@[simp] theorem modTeam_heldGrids (s : State) (tid : Nat) (f : Team → Team) : (s.modTeam tid f).heldGrids = s.heldGrids := rfl
@[simp] theorem modTeam_usersDue (s : State) (tid : Nat) (f : Team → Team) : (s.modTeam tid f).usersDue = s.usersDue := rfl
@[simp] theorem modTeam_cores (s : State) (tid : Nat) (f : Team → Team) : (s.modTeam tid f).cores = s.cores := rfl
@[simp] theorem modTeam_bins (s : State) (tid : Nat) (f : Team → Team) : (s.modTeam tid f).bins = s.bins := rfl
@[simp] theorem modTeam_blockQ (s : State) (tid : Nat) (f : Team → Team) : (s.modTeam tid f).blockQ = s.blockQ := rfl
@[simp] theorem modTeam_cmds (s : State) (tid : Nat) (f : Team → Team) : (s.modTeam tid f).cmds = s.cmds := rfl
@[simp] theorem modTeam_walks (s : State) (tid : Nat) (f : Team → Team) : (s.modTeam tid f).walks = s.walks := rfl
@[simp] theorem modTeam_due (s : State) (tid : Nat) (f : Team → Team) : (s.modTeam tid f).due = s.due := rfl
@[simp] theorem modTeam_loose (s : State) (tid : Nat) (f : Team → Team) : (s.modTeam tid f).loose = s.loose := rfl
@[simp] theorem modTeam_nextId (s : State) (tid : Nat) (f : Team → Team) : (s.modTeam tid f).nextId = s.nextId := rfl
@[simp] theorem modTeam_tlb (s : State) (tid : Nat) (f : Team → Team) : (s.modTeam tid f).tlb = s.tlb := rfl
@[simp] theorem modTeam_roots (s : State) (tid : Nat) (f : Team → Team) : (s.modTeam tid f).roots = s.roots := rfl
@[simp] theorem modTeam_apers (s : State) (tid : Nat) (f : Team → Team) : (s.modTeam tid f).apers = s.apers := rfl
@[simp] theorem modTeam_parked (s : State) (tid : Nat) (f : Team → Team) : (s.modTeam tid f).parked = s.parked := rfl
@[simp] theorem modTeam_serving (s : State) (tid : Nat) (f : Team → Team) : (s.modTeam tid f).serving = s.serving := rfl
@[simp] theorem modTeam_misses (s : State) (tid : Nat) (f : Team → Team) : (s.modTeam tid f).misses = s.misses := rfl
@[simp] theorem modTeam_migrations (s : State) (tid : Nat) (f : Team → Team) : (s.modTeam tid f).migrations = s.migrations := rfl
@[simp] theorem modTeam_accums (s : State) (tid : Nat) (f : Team → Team) : (s.modTeam tid f).accums = s.accums := rfl
@[simp] theorem modTeam_round (s : State) (tid : Nat) (f : Team → Team) : (s.modTeam tid f).round = s.round := rfl
@[simp] theorem modTeam_seqs (s : State) (tid : Nat) (f : Team → Team) : (s.modTeam tid f).seqs = s.seqs := rfl
@[simp] theorem modTeam_lastKey (s : State) (tid : Nat) (f : Team → Team) : (s.modTeam tid f).lastKey = s.lastKey := rfl
@[simp] theorem modTeam_ticket (s : State) (tid : Nat) (f : Team → Team) : (s.modTeam tid f).ticket = s.ticket := rfl
@[simp] theorem modTeam_hdm (s : State) (tid : Nat) (f : Team → Team) : (s.modTeam tid f).hdm = s.hdm := rfl
@[simp] theorem modTeam_bar0 (s : State) (tid : Nat) (f : Team → Team) : (s.modTeam tid f).bar0 = s.bar0 := rfl
@[simp] theorem modTeam_wireCount (s : State) (tid : Nat) (f : Team → Team) : (s.modTeam tid f).wireCount = s.wireCount := rfl
@[simp] theorem modTeam_wireForce (s : State) (tid : Nat) (f : Team → Team) : (s.modTeam tid f).wireForce = s.wireForce := rfl
@[simp] theorem modTeam_wireGot (s : State) (tid : Nat) (f : Team → Team) : (s.modTeam tid f).wireGot = s.wireGot := rfl
@[simp] theorem modTeam_wireLast (s : State) (tid : Nat) (f : Team → Team) : (s.modTeam tid f).wireLast = s.wireLast := rfl
@[simp] theorem modTeam_notices (s : State) (tid : Nat) (f : Team → Team) : (s.modTeam tid f).notices = s.notices := rfl
@[simp] theorem modTeam_ringWait (s : State) (tid : Nat) (f : Team → Team) : (s.modTeam tid f).ringWait = s.ringWait := rfl
@[simp] theorem modTeam_port (s : State) (tid : Nat) (f : Team → Team) : (s.modTeam tid f).port = s.port := rfl
@[simp] theorem modTeam_serials (s : State) (tid : Nat) (f : Team → Team) : (s.modTeam tid f).serials = s.serials := rfl
@[simp] theorem modTeam_chunkedSlots (s : State) (tid : Nat) (f : Team → Team) : (s.modTeam tid f).chunkedSlots = s.chunkedSlots := rfl
@[simp] theorem modTeam_beat (s : State) (tid : Nat) (f : Team → Team) : (s.modTeam tid f).beat = s.beat := rfl
@[simp] theorem modTeam_d3hot (s : State) (tid : Nat) (f : Team → Team) : (s.modTeam tid f).d3hot = s.d3hot := rfl
@[simp] theorem modTeam_throttle (s : State) (tid : Nat) (f : Team → Team) : (s.modTeam tid f).throttle = s.throttle := rfl
@[simp] theorem modTeam_hotAt (s : State) (tid : Nat) (f : Team → Team) : (s.modTeam tid f).hotAt = s.hotAt := rfl
@[simp] theorem modTeam_powered (s : State) (tid : Nat) (f : Team → Team) : (s.modTeam tid f).powered = s.powered := rfl
@[simp] theorem modTeam_vc (s : State) (tid : Nat) (f : Team → Team) : (s.modTeam tid f).vc = s.vc := rfl
@[simp] theorem modTeam_sent (s : State) (tid : Nat) (f : Team → Team) : (s.modTeam tid f).sent = s.sent := rfl
@[simp] theorem modTeam_inbox (s : State) (tid : Nat) (f : Team → Team) : (s.modTeam tid f).inbox = s.inbox := rfl
@[simp] theorem modTeam_peerLines (s : State) (tid : Nat) (f : Team → Team) : (s.modTeam tid f).peerLines = s.peerLines := rfl
@[simp] theorem modTeam_badLines (s : State) (tid : Nat) (f : Team → Team) : (s.modTeam tid f).badLines = s.badLines := rfl
@[simp] theorem modTeam_peerReqs (s : State) (tid : Nat) (f : Team → Team) : (s.modTeam tid f).peerReqs = s.peerReqs := rfl
@[simp] theorem modTeam_peerServes (s : State) (tid : Nat) (f : Team → Team) : (s.modTeam tid f).peerServes = s.peerServes := rfl
@[simp] theorem modTeam_ports (s : State) (tid : Nat) (f : Team → Team) : (s.modTeam tid f).ports = s.ports := rfl
@[simp] theorem modTeam_outbox (s : State) (tid : Nat) (f : Team → Team) : (s.modTeam tid f).outbox = s.outbox := rfl
@[simp] theorem modTeam_lost (s : State) (tid : Nat) (f : Team → Team) : (s.modTeam tid f).lost = s.lost := rfl
@[simp] theorem modTeam_nextTag (s : State) (tid : Nat) (f : Team → Team) : (s.modTeam tid f).nextTag = s.nextTag := rfl
@[simp] theorem modTeam_transls (s : State) (tid : Nat) (f : Team → Team) : (s.modTeam tid f).transls = s.transls := rfl
@[simp] theorem modTeam_scanDue (s : State) (tid : Nat) (f : Team → Team) : (s.modTeam tid f).scanDue = s.scanDue := rfl
@[simp] theorem modTeam_out (s : State) (tid : Nat) (f : Team → Team) : (s.modTeam tid f).out = s.out := rfl

@[simp] theorem modCluster_schedule (s : State) (cid : Nat) (f : Cluster → Cluster) : (s.modCluster cid f).schedule = s.schedule := rfl
@[simp] theorem modCluster_cur (s : State) (cid : Nat) (f : Cluster → Cluster) : (s.modCluster cid f).cur = s.cur := rfl
@[simp] theorem modCluster_free (s : State) (cid : Nat) (f : Cluster → Cluster) : (s.modCluster cid f).free = s.free := rfl
@[simp] theorem modCluster_clock (s : State) (cid : Nat) (f : Cluster → Cluster) : (s.modCluster cid f).clock = s.clock := rfl
@[simp] theorem modCluster_issued (s : State) (cid : Nat) (f : Cluster → Cluster) : (s.modCluster cid f).issued = s.issued := rfl
@[simp] theorem modCluster_mem (s : State) (cid : Nat) (f : Cluster → Cluster) : (s.modCluster cid f).mem = s.mem := rfl
@[simp] theorem modCluster_hostMem (s : State) (cid : Nat) (f : Cluster → Cluster) : (s.modCluster cid f).hostMem = s.hostMem := rfl
@[simp] theorem modCluster_failed (s : State) (cid : Nat) (f : Cluster → Cluster) : (s.modCluster cid f).failed = s.failed := rfl
@[simp] theorem modCluster_oldCode (s : State) (cid : Nat) (f : Cluster → Cluster) : (s.modCluster cid f).oldCode = s.oldCode := rfl
@[simp] theorem modCluster_oldSeq (s : State) (cid : Nat) (f : Cluster → Cluster) : (s.modCluster cid f).oldSeq = s.oldSeq := rfl
@[simp] theorem modCluster_groups (s : State) (cid : Nat) (f : Cluster → Cluster) : (s.modCluster cid f).groups = s.groups := rfl
@[simp] theorem modCluster_teams (s : State) (cid : Nat) (f : Cluster → Cluster) : (s.modCluster cid f).teams = s.teams := rfl
@[simp] theorem modCluster_grids (s : State) (cid : Nat) (f : Cluster → Cluster) : (s.modCluster cid f).grids = s.grids := rfl
@[simp] theorem modCluster_heldGrids (s : State) (cid : Nat) (f : Cluster → Cluster) : (s.modCluster cid f).heldGrids = s.heldGrids := rfl
@[simp] theorem modCluster_usersDue (s : State) (cid : Nat) (f : Cluster → Cluster) : (s.modCluster cid f).usersDue = s.usersDue := rfl
@[simp] theorem modCluster_cores (s : State) (cid : Nat) (f : Cluster → Cluster) : (s.modCluster cid f).cores = s.cores := rfl
@[simp] theorem modCluster_bins (s : State) (cid : Nat) (f : Cluster → Cluster) : (s.modCluster cid f).bins = s.bins := rfl
@[simp] theorem modCluster_blockQ (s : State) (cid : Nat) (f : Cluster → Cluster) : (s.modCluster cid f).blockQ = s.blockQ := rfl
@[simp] theorem modCluster_cmds (s : State) (cid : Nat) (f : Cluster → Cluster) : (s.modCluster cid f).cmds = s.cmds := rfl
@[simp] theorem modCluster_walks (s : State) (cid : Nat) (f : Cluster → Cluster) : (s.modCluster cid f).walks = s.walks := rfl
@[simp] theorem modCluster_due (s : State) (cid : Nat) (f : Cluster → Cluster) : (s.modCluster cid f).due = s.due := rfl
@[simp] theorem modCluster_loose (s : State) (cid : Nat) (f : Cluster → Cluster) : (s.modCluster cid f).loose = s.loose := rfl
@[simp] theorem modCluster_nextId (s : State) (cid : Nat) (f : Cluster → Cluster) : (s.modCluster cid f).nextId = s.nextId := rfl
@[simp] theorem modCluster_tlb (s : State) (cid : Nat) (f : Cluster → Cluster) : (s.modCluster cid f).tlb = s.tlb := rfl
@[simp] theorem modCluster_roots (s : State) (cid : Nat) (f : Cluster → Cluster) : (s.modCluster cid f).roots = s.roots := rfl
@[simp] theorem modCluster_apers (s : State) (cid : Nat) (f : Cluster → Cluster) : (s.modCluster cid f).apers = s.apers := rfl
@[simp] theorem modCluster_parked (s : State) (cid : Nat) (f : Cluster → Cluster) : (s.modCluster cid f).parked = s.parked := rfl
@[simp] theorem modCluster_serving (s : State) (cid : Nat) (f : Cluster → Cluster) : (s.modCluster cid f).serving = s.serving := rfl
@[simp] theorem modCluster_misses (s : State) (cid : Nat) (f : Cluster → Cluster) : (s.modCluster cid f).misses = s.misses := rfl
@[simp] theorem modCluster_migrations (s : State) (cid : Nat) (f : Cluster → Cluster) : (s.modCluster cid f).migrations = s.migrations := rfl
@[simp] theorem modCluster_accums (s : State) (cid : Nat) (f : Cluster → Cluster) : (s.modCluster cid f).accums = s.accums := rfl
@[simp] theorem modCluster_round (s : State) (cid : Nat) (f : Cluster → Cluster) : (s.modCluster cid f).round = s.round := rfl
@[simp] theorem modCluster_seqs (s : State) (cid : Nat) (f : Cluster → Cluster) : (s.modCluster cid f).seqs = s.seqs := rfl
@[simp] theorem modCluster_lastKey (s : State) (cid : Nat) (f : Cluster → Cluster) : (s.modCluster cid f).lastKey = s.lastKey := rfl
@[simp] theorem modCluster_ticket (s : State) (cid : Nat) (f : Cluster → Cluster) : (s.modCluster cid f).ticket = s.ticket := rfl
@[simp] theorem modCluster_hdm (s : State) (cid : Nat) (f : Cluster → Cluster) : (s.modCluster cid f).hdm = s.hdm := rfl
@[simp] theorem modCluster_bar0 (s : State) (cid : Nat) (f : Cluster → Cluster) : (s.modCluster cid f).bar0 = s.bar0 := rfl
@[simp] theorem modCluster_wireCount (s : State) (cid : Nat) (f : Cluster → Cluster) : (s.modCluster cid f).wireCount = s.wireCount := rfl
@[simp] theorem modCluster_wireForce (s : State) (cid : Nat) (f : Cluster → Cluster) : (s.modCluster cid f).wireForce = s.wireForce := rfl
@[simp] theorem modCluster_wireGot (s : State) (cid : Nat) (f : Cluster → Cluster) : (s.modCluster cid f).wireGot = s.wireGot := rfl
@[simp] theorem modCluster_wireLast (s : State) (cid : Nat) (f : Cluster → Cluster) : (s.modCluster cid f).wireLast = s.wireLast := rfl
@[simp] theorem modCluster_notices (s : State) (cid : Nat) (f : Cluster → Cluster) : (s.modCluster cid f).notices = s.notices := rfl
@[simp] theorem modCluster_ringWait (s : State) (cid : Nat) (f : Cluster → Cluster) : (s.modCluster cid f).ringWait = s.ringWait := rfl
@[simp] theorem modCluster_port (s : State) (cid : Nat) (f : Cluster → Cluster) : (s.modCluster cid f).port = s.port := rfl
@[simp] theorem modCluster_serials (s : State) (cid : Nat) (f : Cluster → Cluster) : (s.modCluster cid f).serials = s.serials := rfl
@[simp] theorem modCluster_chunkedSlots (s : State) (cid : Nat) (f : Cluster → Cluster) : (s.modCluster cid f).chunkedSlots = s.chunkedSlots := rfl
@[simp] theorem modCluster_beat (s : State) (cid : Nat) (f : Cluster → Cluster) : (s.modCluster cid f).beat = s.beat := rfl
@[simp] theorem modCluster_d3hot (s : State) (cid : Nat) (f : Cluster → Cluster) : (s.modCluster cid f).d3hot = s.d3hot := rfl
@[simp] theorem modCluster_throttle (s : State) (cid : Nat) (f : Cluster → Cluster) : (s.modCluster cid f).throttle = s.throttle := rfl
@[simp] theorem modCluster_hotAt (s : State) (cid : Nat) (f : Cluster → Cluster) : (s.modCluster cid f).hotAt = s.hotAt := rfl
@[simp] theorem modCluster_powered (s : State) (cid : Nat) (f : Cluster → Cluster) : (s.modCluster cid f).powered = s.powered := rfl
@[simp] theorem modCluster_vc (s : State) (cid : Nat) (f : Cluster → Cluster) : (s.modCluster cid f).vc = s.vc := rfl
@[simp] theorem modCluster_sent (s : State) (cid : Nat) (f : Cluster → Cluster) : (s.modCluster cid f).sent = s.sent := rfl
@[simp] theorem modCluster_inbox (s : State) (cid : Nat) (f : Cluster → Cluster) : (s.modCluster cid f).inbox = s.inbox := rfl
@[simp] theorem modCluster_peerLines (s : State) (cid : Nat) (f : Cluster → Cluster) : (s.modCluster cid f).peerLines = s.peerLines := rfl
@[simp] theorem modCluster_badLines (s : State) (cid : Nat) (f : Cluster → Cluster) : (s.modCluster cid f).badLines = s.badLines := rfl
@[simp] theorem modCluster_peerReqs (s : State) (cid : Nat) (f : Cluster → Cluster) : (s.modCluster cid f).peerReqs = s.peerReqs := rfl
@[simp] theorem modCluster_peerServes (s : State) (cid : Nat) (f : Cluster → Cluster) : (s.modCluster cid f).peerServes = s.peerServes := rfl
@[simp] theorem modCluster_ports (s : State) (cid : Nat) (f : Cluster → Cluster) : (s.modCluster cid f).ports = s.ports := rfl
@[simp] theorem modCluster_outbox (s : State) (cid : Nat) (f : Cluster → Cluster) : (s.modCluster cid f).outbox = s.outbox := rfl
@[simp] theorem modCluster_lost (s : State) (cid : Nat) (f : Cluster → Cluster) : (s.modCluster cid f).lost = s.lost := rfl
@[simp] theorem modCluster_nextTag (s : State) (cid : Nat) (f : Cluster → Cluster) : (s.modCluster cid f).nextTag = s.nextTag := rfl
@[simp] theorem modCluster_transls (s : State) (cid : Nat) (f : Cluster → Cluster) : (s.modCluster cid f).transls = s.transls := rfl
@[simp] theorem modCluster_scanDue (s : State) (cid : Nat) (f : Cluster → Cluster) : (s.modCluster cid f).scanDue = s.scanDue := rfl
@[simp] theorem modCluster_out (s : State) (cid : Nat) (f : Cluster → Cluster) : (s.modCluster cid f).out = s.out := rfl

@[simp] theorem modGrid_schedule (s : State) (gr : Nat) (f : Grid → Grid) : (s.modGrid gr f).schedule = s.schedule := rfl
@[simp] theorem modGrid_cur (s : State) (gr : Nat) (f : Grid → Grid) : (s.modGrid gr f).cur = s.cur := rfl
@[simp] theorem modGrid_free (s : State) (gr : Nat) (f : Grid → Grid) : (s.modGrid gr f).free = s.free := rfl
@[simp] theorem modGrid_clock (s : State) (gr : Nat) (f : Grid → Grid) : (s.modGrid gr f).clock = s.clock := rfl
@[simp] theorem modGrid_issued (s : State) (gr : Nat) (f : Grid → Grid) : (s.modGrid gr f).issued = s.issued := rfl
@[simp] theorem modGrid_mem (s : State) (gr : Nat) (f : Grid → Grid) : (s.modGrid gr f).mem = s.mem := rfl
@[simp] theorem modGrid_hostMem (s : State) (gr : Nat) (f : Grid → Grid) : (s.modGrid gr f).hostMem = s.hostMem := rfl
@[simp] theorem modGrid_failed (s : State) (gr : Nat) (f : Grid → Grid) : (s.modGrid gr f).failed = s.failed := rfl
@[simp] theorem modGrid_oldCode (s : State) (gr : Nat) (f : Grid → Grid) : (s.modGrid gr f).oldCode = s.oldCode := rfl
@[simp] theorem modGrid_oldSeq (s : State) (gr : Nat) (f : Grid → Grid) : (s.modGrid gr f).oldSeq = s.oldSeq := rfl
@[simp] theorem modGrid_groups (s : State) (gr : Nat) (f : Grid → Grid) : (s.modGrid gr f).groups = s.groups := rfl
@[simp] theorem modGrid_teams (s : State) (gr : Nat) (f : Grid → Grid) : (s.modGrid gr f).teams = s.teams := rfl
@[simp] theorem modGrid_clusters (s : State) (gr : Nat) (f : Grid → Grid) : (s.modGrid gr f).clusters = s.clusters := rfl
@[simp] theorem modGrid_heldGrids (s : State) (gr : Nat) (f : Grid → Grid) : (s.modGrid gr f).heldGrids = s.heldGrids := rfl
@[simp] theorem modGrid_usersDue (s : State) (gr : Nat) (f : Grid → Grid) : (s.modGrid gr f).usersDue = s.usersDue := rfl
@[simp] theorem modGrid_cores (s : State) (gr : Nat) (f : Grid → Grid) : (s.modGrid gr f).cores = s.cores := rfl
@[simp] theorem modGrid_bins (s : State) (gr : Nat) (f : Grid → Grid) : (s.modGrid gr f).bins = s.bins := rfl
@[simp] theorem modGrid_blockQ (s : State) (gr : Nat) (f : Grid → Grid) : (s.modGrid gr f).blockQ = s.blockQ := rfl
@[simp] theorem modGrid_cmds (s : State) (gr : Nat) (f : Grid → Grid) : (s.modGrid gr f).cmds = s.cmds := rfl
@[simp] theorem modGrid_walks (s : State) (gr : Nat) (f : Grid → Grid) : (s.modGrid gr f).walks = s.walks := rfl
@[simp] theorem modGrid_due (s : State) (gr : Nat) (f : Grid → Grid) : (s.modGrid gr f).due = s.due := rfl
@[simp] theorem modGrid_loose (s : State) (gr : Nat) (f : Grid → Grid) : (s.modGrid gr f).loose = s.loose := rfl
@[simp] theorem modGrid_nextId (s : State) (gr : Nat) (f : Grid → Grid) : (s.modGrid gr f).nextId = s.nextId := rfl
@[simp] theorem modGrid_tlb (s : State) (gr : Nat) (f : Grid → Grid) : (s.modGrid gr f).tlb = s.tlb := rfl
@[simp] theorem modGrid_roots (s : State) (gr : Nat) (f : Grid → Grid) : (s.modGrid gr f).roots = s.roots := rfl
@[simp] theorem modGrid_apers (s : State) (gr : Nat) (f : Grid → Grid) : (s.modGrid gr f).apers = s.apers := rfl
@[simp] theorem modGrid_parked (s : State) (gr : Nat) (f : Grid → Grid) : (s.modGrid gr f).parked = s.parked := rfl
@[simp] theorem modGrid_serving (s : State) (gr : Nat) (f : Grid → Grid) : (s.modGrid gr f).serving = s.serving := rfl
@[simp] theorem modGrid_misses (s : State) (gr : Nat) (f : Grid → Grid) : (s.modGrid gr f).misses = s.misses := rfl
@[simp] theorem modGrid_migrations (s : State) (gr : Nat) (f : Grid → Grid) : (s.modGrid gr f).migrations = s.migrations := rfl
@[simp] theorem modGrid_accums (s : State) (gr : Nat) (f : Grid → Grid) : (s.modGrid gr f).accums = s.accums := rfl
@[simp] theorem modGrid_round (s : State) (gr : Nat) (f : Grid → Grid) : (s.modGrid gr f).round = s.round := rfl
@[simp] theorem modGrid_seqs (s : State) (gr : Nat) (f : Grid → Grid) : (s.modGrid gr f).seqs = s.seqs := rfl
@[simp] theorem modGrid_lastKey (s : State) (gr : Nat) (f : Grid → Grid) : (s.modGrid gr f).lastKey = s.lastKey := rfl
@[simp] theorem modGrid_ticket (s : State) (gr : Nat) (f : Grid → Grid) : (s.modGrid gr f).ticket = s.ticket := rfl
@[simp] theorem modGrid_hdm (s : State) (gr : Nat) (f : Grid → Grid) : (s.modGrid gr f).hdm = s.hdm := rfl
@[simp] theorem modGrid_bar0 (s : State) (gr : Nat) (f : Grid → Grid) : (s.modGrid gr f).bar0 = s.bar0 := rfl
@[simp] theorem modGrid_wireCount (s : State) (gr : Nat) (f : Grid → Grid) : (s.modGrid gr f).wireCount = s.wireCount := rfl
@[simp] theorem modGrid_wireForce (s : State) (gr : Nat) (f : Grid → Grid) : (s.modGrid gr f).wireForce = s.wireForce := rfl
@[simp] theorem modGrid_wireGot (s : State) (gr : Nat) (f : Grid → Grid) : (s.modGrid gr f).wireGot = s.wireGot := rfl
@[simp] theorem modGrid_wireLast (s : State) (gr : Nat) (f : Grid → Grid) : (s.modGrid gr f).wireLast = s.wireLast := rfl
@[simp] theorem modGrid_notices (s : State) (gr : Nat) (f : Grid → Grid) : (s.modGrid gr f).notices = s.notices := rfl
@[simp] theorem modGrid_ringWait (s : State) (gr : Nat) (f : Grid → Grid) : (s.modGrid gr f).ringWait = s.ringWait := rfl
@[simp] theorem modGrid_port (s : State) (gr : Nat) (f : Grid → Grid) : (s.modGrid gr f).port = s.port := rfl
@[simp] theorem modGrid_serials (s : State) (gr : Nat) (f : Grid → Grid) : (s.modGrid gr f).serials = s.serials := rfl
@[simp] theorem modGrid_chunkedSlots (s : State) (gr : Nat) (f : Grid → Grid) : (s.modGrid gr f).chunkedSlots = s.chunkedSlots := rfl
@[simp] theorem modGrid_beat (s : State) (gr : Nat) (f : Grid → Grid) : (s.modGrid gr f).beat = s.beat := rfl
@[simp] theorem modGrid_d3hot (s : State) (gr : Nat) (f : Grid → Grid) : (s.modGrid gr f).d3hot = s.d3hot := rfl
@[simp] theorem modGrid_throttle (s : State) (gr : Nat) (f : Grid → Grid) : (s.modGrid gr f).throttle = s.throttle := rfl
@[simp] theorem modGrid_hotAt (s : State) (gr : Nat) (f : Grid → Grid) : (s.modGrid gr f).hotAt = s.hotAt := rfl
@[simp] theorem modGrid_powered (s : State) (gr : Nat) (f : Grid → Grid) : (s.modGrid gr f).powered = s.powered := rfl
@[simp] theorem modGrid_vc (s : State) (gr : Nat) (f : Grid → Grid) : (s.modGrid gr f).vc = s.vc := rfl
@[simp] theorem modGrid_sent (s : State) (gr : Nat) (f : Grid → Grid) : (s.modGrid gr f).sent = s.sent := rfl
@[simp] theorem modGrid_inbox (s : State) (gr : Nat) (f : Grid → Grid) : (s.modGrid gr f).inbox = s.inbox := rfl
@[simp] theorem modGrid_peerLines (s : State) (gr : Nat) (f : Grid → Grid) : (s.modGrid gr f).peerLines = s.peerLines := rfl
@[simp] theorem modGrid_badLines (s : State) (gr : Nat) (f : Grid → Grid) : (s.modGrid gr f).badLines = s.badLines := rfl
@[simp] theorem modGrid_peerReqs (s : State) (gr : Nat) (f : Grid → Grid) : (s.modGrid gr f).peerReqs = s.peerReqs := rfl
@[simp] theorem modGrid_peerServes (s : State) (gr : Nat) (f : Grid → Grid) : (s.modGrid gr f).peerServes = s.peerServes := rfl
@[simp] theorem modGrid_ports (s : State) (gr : Nat) (f : Grid → Grid) : (s.modGrid gr f).ports = s.ports := rfl
@[simp] theorem modGrid_outbox (s : State) (gr : Nat) (f : Grid → Grid) : (s.modGrid gr f).outbox = s.outbox := rfl
@[simp] theorem modGrid_lost (s : State) (gr : Nat) (f : Grid → Grid) : (s.modGrid gr f).lost = s.lost := rfl
@[simp] theorem modGrid_nextTag (s : State) (gr : Nat) (f : Grid → Grid) : (s.modGrid gr f).nextTag = s.nextTag := rfl
@[simp] theorem modGrid_transls (s : State) (gr : Nat) (f : Grid → Grid) : (s.modGrid gr f).transls = s.transls := rfl
@[simp] theorem modGrid_scanDue (s : State) (gr : Nat) (f : Grid → Grid) : (s.modGrid gr f).scanDue = s.scanDue := rfl
@[simp] theorem modGrid_out (s : State) (gr : Nat) (f : Grid → Grid) : (s.modGrid gr f).out = s.out := rfl

@[simp] theorem modSplitOf_schedule (s : State) (gid sp : Nat) (f : Split → Split) : (s.modSplitOf gid sp f).schedule = s.schedule := rfl
@[simp] theorem modSplitOf_cur (s : State) (gid sp : Nat) (f : Split → Split) : (s.modSplitOf gid sp f).cur = s.cur := rfl
@[simp] theorem modSplitOf_free (s : State) (gid sp : Nat) (f : Split → Split) : (s.modSplitOf gid sp f).free = s.free := rfl
@[simp] theorem modSplitOf_clock (s : State) (gid sp : Nat) (f : Split → Split) : (s.modSplitOf gid sp f).clock = s.clock := rfl
@[simp] theorem modSplitOf_issued (s : State) (gid sp : Nat) (f : Split → Split) : (s.modSplitOf gid sp f).issued = s.issued := rfl
@[simp] theorem modSplitOf_mem (s : State) (gid sp : Nat) (f : Split → Split) : (s.modSplitOf gid sp f).mem = s.mem := rfl
@[simp] theorem modSplitOf_hostMem (s : State) (gid sp : Nat) (f : Split → Split) : (s.modSplitOf gid sp f).hostMem = s.hostMem := rfl
@[simp] theorem modSplitOf_failed (s : State) (gid sp : Nat) (f : Split → Split) : (s.modSplitOf gid sp f).failed = s.failed := rfl
@[simp] theorem modSplitOf_oldCode (s : State) (gid sp : Nat) (f : Split → Split) : (s.modSplitOf gid sp f).oldCode = s.oldCode := rfl
@[simp] theorem modSplitOf_oldSeq (s : State) (gid sp : Nat) (f : Split → Split) : (s.modSplitOf gid sp f).oldSeq = s.oldSeq := rfl
@[simp] theorem modSplitOf_teams (s : State) (gid sp : Nat) (f : Split → Split) : (s.modSplitOf gid sp f).teams = s.teams := rfl
@[simp] theorem modSplitOf_clusters (s : State) (gid sp : Nat) (f : Split → Split) : (s.modSplitOf gid sp f).clusters = s.clusters := rfl
@[simp] theorem modSplitOf_grids (s : State) (gid sp : Nat) (f : Split → Split) : (s.modSplitOf gid sp f).grids = s.grids := rfl
@[simp] theorem modSplitOf_heldGrids (s : State) (gid sp : Nat) (f : Split → Split) : (s.modSplitOf gid sp f).heldGrids = s.heldGrids := rfl
@[simp] theorem modSplitOf_usersDue (s : State) (gid sp : Nat) (f : Split → Split) : (s.modSplitOf gid sp f).usersDue = s.usersDue := rfl
@[simp] theorem modSplitOf_cores (s : State) (gid sp : Nat) (f : Split → Split) : (s.modSplitOf gid sp f).cores = s.cores := rfl
@[simp] theorem modSplitOf_bins (s : State) (gid sp : Nat) (f : Split → Split) : (s.modSplitOf gid sp f).bins = s.bins := rfl
@[simp] theorem modSplitOf_blockQ (s : State) (gid sp : Nat) (f : Split → Split) : (s.modSplitOf gid sp f).blockQ = s.blockQ := rfl
@[simp] theorem modSplitOf_cmds (s : State) (gid sp : Nat) (f : Split → Split) : (s.modSplitOf gid sp f).cmds = s.cmds := rfl
@[simp] theorem modSplitOf_walks (s : State) (gid sp : Nat) (f : Split → Split) : (s.modSplitOf gid sp f).walks = s.walks := rfl
@[simp] theorem modSplitOf_due (s : State) (gid sp : Nat) (f : Split → Split) : (s.modSplitOf gid sp f).due = s.due := rfl
@[simp] theorem modSplitOf_loose (s : State) (gid sp : Nat) (f : Split → Split) : (s.modSplitOf gid sp f).loose = s.loose := rfl
@[simp] theorem modSplitOf_nextId (s : State) (gid sp : Nat) (f : Split → Split) : (s.modSplitOf gid sp f).nextId = s.nextId := rfl
@[simp] theorem modSplitOf_tlb (s : State) (gid sp : Nat) (f : Split → Split) : (s.modSplitOf gid sp f).tlb = s.tlb := rfl
@[simp] theorem modSplitOf_roots (s : State) (gid sp : Nat) (f : Split → Split) : (s.modSplitOf gid sp f).roots = s.roots := rfl
@[simp] theorem modSplitOf_apers (s : State) (gid sp : Nat) (f : Split → Split) : (s.modSplitOf gid sp f).apers = s.apers := rfl
@[simp] theorem modSplitOf_parked (s : State) (gid sp : Nat) (f : Split → Split) : (s.modSplitOf gid sp f).parked = s.parked := rfl
@[simp] theorem modSplitOf_serving (s : State) (gid sp : Nat) (f : Split → Split) : (s.modSplitOf gid sp f).serving = s.serving := rfl
@[simp] theorem modSplitOf_misses (s : State) (gid sp : Nat) (f : Split → Split) : (s.modSplitOf gid sp f).misses = s.misses := rfl
@[simp] theorem modSplitOf_migrations (s : State) (gid sp : Nat) (f : Split → Split) : (s.modSplitOf gid sp f).migrations = s.migrations := rfl
@[simp] theorem modSplitOf_accums (s : State) (gid sp : Nat) (f : Split → Split) : (s.modSplitOf gid sp f).accums = s.accums := rfl
@[simp] theorem modSplitOf_round (s : State) (gid sp : Nat) (f : Split → Split) : (s.modSplitOf gid sp f).round = s.round := rfl
@[simp] theorem modSplitOf_seqs (s : State) (gid sp : Nat) (f : Split → Split) : (s.modSplitOf gid sp f).seqs = s.seqs := rfl
@[simp] theorem modSplitOf_lastKey (s : State) (gid sp : Nat) (f : Split → Split) : (s.modSplitOf gid sp f).lastKey = s.lastKey := rfl
@[simp] theorem modSplitOf_ticket (s : State) (gid sp : Nat) (f : Split → Split) : (s.modSplitOf gid sp f).ticket = s.ticket := rfl
@[simp] theorem modSplitOf_hdm (s : State) (gid sp : Nat) (f : Split → Split) : (s.modSplitOf gid sp f).hdm = s.hdm := rfl
@[simp] theorem modSplitOf_bar0 (s : State) (gid sp : Nat) (f : Split → Split) : (s.modSplitOf gid sp f).bar0 = s.bar0 := rfl
@[simp] theorem modSplitOf_wireCount (s : State) (gid sp : Nat) (f : Split → Split) : (s.modSplitOf gid sp f).wireCount = s.wireCount := rfl
@[simp] theorem modSplitOf_wireForce (s : State) (gid sp : Nat) (f : Split → Split) : (s.modSplitOf gid sp f).wireForce = s.wireForce := rfl
@[simp] theorem modSplitOf_wireGot (s : State) (gid sp : Nat) (f : Split → Split) : (s.modSplitOf gid sp f).wireGot = s.wireGot := rfl
@[simp] theorem modSplitOf_wireLast (s : State) (gid sp : Nat) (f : Split → Split) : (s.modSplitOf gid sp f).wireLast = s.wireLast := rfl
@[simp] theorem modSplitOf_notices (s : State) (gid sp : Nat) (f : Split → Split) : (s.modSplitOf gid sp f).notices = s.notices := rfl
@[simp] theorem modSplitOf_ringWait (s : State) (gid sp : Nat) (f : Split → Split) : (s.modSplitOf gid sp f).ringWait = s.ringWait := rfl
@[simp] theorem modSplitOf_port (s : State) (gid sp : Nat) (f : Split → Split) : (s.modSplitOf gid sp f).port = s.port := rfl
@[simp] theorem modSplitOf_serials (s : State) (gid sp : Nat) (f : Split → Split) : (s.modSplitOf gid sp f).serials = s.serials := rfl
@[simp] theorem modSplitOf_chunkedSlots (s : State) (gid sp : Nat) (f : Split → Split) : (s.modSplitOf gid sp f).chunkedSlots = s.chunkedSlots := rfl
@[simp] theorem modSplitOf_beat (s : State) (gid sp : Nat) (f : Split → Split) : (s.modSplitOf gid sp f).beat = s.beat := rfl
@[simp] theorem modSplitOf_d3hot (s : State) (gid sp : Nat) (f : Split → Split) : (s.modSplitOf gid sp f).d3hot = s.d3hot := rfl
@[simp] theorem modSplitOf_throttle (s : State) (gid sp : Nat) (f : Split → Split) : (s.modSplitOf gid sp f).throttle = s.throttle := rfl
@[simp] theorem modSplitOf_hotAt (s : State) (gid sp : Nat) (f : Split → Split) : (s.modSplitOf gid sp f).hotAt = s.hotAt := rfl
@[simp] theorem modSplitOf_powered (s : State) (gid sp : Nat) (f : Split → Split) : (s.modSplitOf gid sp f).powered = s.powered := rfl
@[simp] theorem modSplitOf_vc (s : State) (gid sp : Nat) (f : Split → Split) : (s.modSplitOf gid sp f).vc = s.vc := rfl
@[simp] theorem modSplitOf_sent (s : State) (gid sp : Nat) (f : Split → Split) : (s.modSplitOf gid sp f).sent = s.sent := rfl
@[simp] theorem modSplitOf_inbox (s : State) (gid sp : Nat) (f : Split → Split) : (s.modSplitOf gid sp f).inbox = s.inbox := rfl
@[simp] theorem modSplitOf_peerLines (s : State) (gid sp : Nat) (f : Split → Split) : (s.modSplitOf gid sp f).peerLines = s.peerLines := rfl
@[simp] theorem modSplitOf_badLines (s : State) (gid sp : Nat) (f : Split → Split) : (s.modSplitOf gid sp f).badLines = s.badLines := rfl
@[simp] theorem modSplitOf_peerReqs (s : State) (gid sp : Nat) (f : Split → Split) : (s.modSplitOf gid sp f).peerReqs = s.peerReqs := rfl
@[simp] theorem modSplitOf_peerServes (s : State) (gid sp : Nat) (f : Split → Split) : (s.modSplitOf gid sp f).peerServes = s.peerServes := rfl
@[simp] theorem modSplitOf_ports (s : State) (gid sp : Nat) (f : Split → Split) : (s.modSplitOf gid sp f).ports = s.ports := rfl
@[simp] theorem modSplitOf_outbox (s : State) (gid sp : Nat) (f : Split → Split) : (s.modSplitOf gid sp f).outbox = s.outbox := rfl
@[simp] theorem modSplitOf_lost (s : State) (gid sp : Nat) (f : Split → Split) : (s.modSplitOf gid sp f).lost = s.lost := rfl
@[simp] theorem modSplitOf_nextTag (s : State) (gid sp : Nat) (f : Split → Split) : (s.modSplitOf gid sp f).nextTag = s.nextTag := rfl
@[simp] theorem modSplitOf_transls (s : State) (gid sp : Nat) (f : Split → Split) : (s.modSplitOf gid sp f).transls = s.transls := rfl
@[simp] theorem modSplitOf_scanDue (s : State) (gid sp : Nat) (f : Split → Split) : (s.modSplitOf gid sp f).scanDue = s.scanDue := rfl
@[simp] theorem modSplitOf_out (s : State) (gid sp : Nat) (f : Split → Split) : (s.modSplitOf gid sp f).out = s.out := rfl

@[simp] theorem modG_schedule (s : State) (f : Group → Group) : (s.modG f).schedule = s.schedule := rfl
@[simp] theorem modG_cur (s : State) (f : Group → Group) : (s.modG f).cur = s.cur := rfl
@[simp] theorem modG_free (s : State) (f : Group → Group) : (s.modG f).free = s.free := rfl
@[simp] theorem modG_clock (s : State) (f : Group → Group) : (s.modG f).clock = s.clock := rfl
@[simp] theorem modG_issued (s : State) (f : Group → Group) : (s.modG f).issued = s.issued := rfl
@[simp] theorem modG_mem (s : State) (f : Group → Group) : (s.modG f).mem = s.mem := rfl
@[simp] theorem modG_hostMem (s : State) (f : Group → Group) : (s.modG f).hostMem = s.hostMem := rfl
@[simp] theorem modG_failed (s : State) (f : Group → Group) : (s.modG f).failed = s.failed := rfl
@[simp] theorem modG_oldCode (s : State) (f : Group → Group) : (s.modG f).oldCode = s.oldCode := rfl
@[simp] theorem modG_oldSeq (s : State) (f : Group → Group) : (s.modG f).oldSeq = s.oldSeq := rfl
@[simp] theorem modG_teams (s : State) (f : Group → Group) : (s.modG f).teams = s.teams := rfl
@[simp] theorem modG_clusters (s : State) (f : Group → Group) : (s.modG f).clusters = s.clusters := rfl
@[simp] theorem modG_grids (s : State) (f : Group → Group) : (s.modG f).grids = s.grids := rfl
@[simp] theorem modG_heldGrids (s : State) (f : Group → Group) : (s.modG f).heldGrids = s.heldGrids := rfl
@[simp] theorem modG_usersDue (s : State) (f : Group → Group) : (s.modG f).usersDue = s.usersDue := rfl
@[simp] theorem modG_cores (s : State) (f : Group → Group) : (s.modG f).cores = s.cores := rfl
@[simp] theorem modG_bins (s : State) (f : Group → Group) : (s.modG f).bins = s.bins := rfl
@[simp] theorem modG_blockQ (s : State) (f : Group → Group) : (s.modG f).blockQ = s.blockQ := rfl
@[simp] theorem modG_cmds (s : State) (f : Group → Group) : (s.modG f).cmds = s.cmds := rfl
@[simp] theorem modG_walks (s : State) (f : Group → Group) : (s.modG f).walks = s.walks := rfl
@[simp] theorem modG_due (s : State) (f : Group → Group) : (s.modG f).due = s.due := rfl
@[simp] theorem modG_loose (s : State) (f : Group → Group) : (s.modG f).loose = s.loose := rfl
@[simp] theorem modG_nextId (s : State) (f : Group → Group) : (s.modG f).nextId = s.nextId := rfl
@[simp] theorem modG_tlb (s : State) (f : Group → Group) : (s.modG f).tlb = s.tlb := rfl
@[simp] theorem modG_roots (s : State) (f : Group → Group) : (s.modG f).roots = s.roots := rfl
@[simp] theorem modG_apers (s : State) (f : Group → Group) : (s.modG f).apers = s.apers := rfl
@[simp] theorem modG_parked (s : State) (f : Group → Group) : (s.modG f).parked = s.parked := rfl
@[simp] theorem modG_serving (s : State) (f : Group → Group) : (s.modG f).serving = s.serving := rfl
@[simp] theorem modG_misses (s : State) (f : Group → Group) : (s.modG f).misses = s.misses := rfl
@[simp] theorem modG_migrations (s : State) (f : Group → Group) : (s.modG f).migrations = s.migrations := rfl
@[simp] theorem modG_accums (s : State) (f : Group → Group) : (s.modG f).accums = s.accums := rfl
@[simp] theorem modG_round (s : State) (f : Group → Group) : (s.modG f).round = s.round := rfl
@[simp] theorem modG_seqs (s : State) (f : Group → Group) : (s.modG f).seqs = s.seqs := rfl
@[simp] theorem modG_lastKey (s : State) (f : Group → Group) : (s.modG f).lastKey = s.lastKey := rfl
@[simp] theorem modG_ticket (s : State) (f : Group → Group) : (s.modG f).ticket = s.ticket := rfl
@[simp] theorem modG_hdm (s : State) (f : Group → Group) : (s.modG f).hdm = s.hdm := rfl
@[simp] theorem modG_bar0 (s : State) (f : Group → Group) : (s.modG f).bar0 = s.bar0 := rfl
@[simp] theorem modG_wireCount (s : State) (f : Group → Group) : (s.modG f).wireCount = s.wireCount := rfl
@[simp] theorem modG_wireForce (s : State) (f : Group → Group) : (s.modG f).wireForce = s.wireForce := rfl
@[simp] theorem modG_wireGot (s : State) (f : Group → Group) : (s.modG f).wireGot = s.wireGot := rfl
@[simp] theorem modG_wireLast (s : State) (f : Group → Group) : (s.modG f).wireLast = s.wireLast := rfl
@[simp] theorem modG_notices (s : State) (f : Group → Group) : (s.modG f).notices = s.notices := rfl
@[simp] theorem modG_ringWait (s : State) (f : Group → Group) : (s.modG f).ringWait = s.ringWait := rfl
@[simp] theorem modG_port (s : State) (f : Group → Group) : (s.modG f).port = s.port := rfl
@[simp] theorem modG_serials (s : State) (f : Group → Group) : (s.modG f).serials = s.serials := rfl
@[simp] theorem modG_chunkedSlots (s : State) (f : Group → Group) : (s.modG f).chunkedSlots = s.chunkedSlots := rfl
@[simp] theorem modG_beat (s : State) (f : Group → Group) : (s.modG f).beat = s.beat := rfl
@[simp] theorem modG_d3hot (s : State) (f : Group → Group) : (s.modG f).d3hot = s.d3hot := rfl
@[simp] theorem modG_throttle (s : State) (f : Group → Group) : (s.modG f).throttle = s.throttle := rfl
@[simp] theorem modG_hotAt (s : State) (f : Group → Group) : (s.modG f).hotAt = s.hotAt := rfl
@[simp] theorem modG_powered (s : State) (f : Group → Group) : (s.modG f).powered = s.powered := rfl
@[simp] theorem modG_vc (s : State) (f : Group → Group) : (s.modG f).vc = s.vc := rfl
@[simp] theorem modG_sent (s : State) (f : Group → Group) : (s.modG f).sent = s.sent := rfl
@[simp] theorem modG_inbox (s : State) (f : Group → Group) : (s.modG f).inbox = s.inbox := rfl
@[simp] theorem modG_peerLines (s : State) (f : Group → Group) : (s.modG f).peerLines = s.peerLines := rfl
@[simp] theorem modG_badLines (s : State) (f : Group → Group) : (s.modG f).badLines = s.badLines := rfl
@[simp] theorem modG_peerReqs (s : State) (f : Group → Group) : (s.modG f).peerReqs = s.peerReqs := rfl
@[simp] theorem modG_peerServes (s : State) (f : Group → Group) : (s.modG f).peerServes = s.peerServes := rfl
@[simp] theorem modG_ports (s : State) (f : Group → Group) : (s.modG f).ports = s.ports := rfl
@[simp] theorem modG_outbox (s : State) (f : Group → Group) : (s.modG f).outbox = s.outbox := rfl
@[simp] theorem modG_lost (s : State) (f : Group → Group) : (s.modG f).lost = s.lost := rfl
@[simp] theorem modG_nextTag (s : State) (f : Group → Group) : (s.modG f).nextTag = s.nextTag := rfl
@[simp] theorem modG_transls (s : State) (f : Group → Group) : (s.modG f).transls = s.transls := rfl
@[simp] theorem modG_scanDue (s : State) (f : Group → Group) : (s.modG f).scanDue = s.scanDue := rfl
@[simp] theorem modG_out (s : State) (f : Group → Group) : (s.modG f).out = s.out := rfl

@[simp] theorem modSp_schedule (s : State) (f : Split → Split) : (s.modSp f).schedule = s.schedule := rfl
@[simp] theorem modSp_cur (s : State) (f : Split → Split) : (s.modSp f).cur = s.cur := rfl
@[simp] theorem modSp_free (s : State) (f : Split → Split) : (s.modSp f).free = s.free := rfl
@[simp] theorem modSp_clock (s : State) (f : Split → Split) : (s.modSp f).clock = s.clock := rfl
@[simp] theorem modSp_issued (s : State) (f : Split → Split) : (s.modSp f).issued = s.issued := rfl
@[simp] theorem modSp_mem (s : State) (f : Split → Split) : (s.modSp f).mem = s.mem := rfl
@[simp] theorem modSp_hostMem (s : State) (f : Split → Split) : (s.modSp f).hostMem = s.hostMem := rfl
@[simp] theorem modSp_failed (s : State) (f : Split → Split) : (s.modSp f).failed = s.failed := rfl
@[simp] theorem modSp_oldCode (s : State) (f : Split → Split) : (s.modSp f).oldCode = s.oldCode := rfl
@[simp] theorem modSp_oldSeq (s : State) (f : Split → Split) : (s.modSp f).oldSeq = s.oldSeq := rfl
@[simp] theorem modSp_teams (s : State) (f : Split → Split) : (s.modSp f).teams = s.teams := rfl
@[simp] theorem modSp_clusters (s : State) (f : Split → Split) : (s.modSp f).clusters = s.clusters := rfl
@[simp] theorem modSp_grids (s : State) (f : Split → Split) : (s.modSp f).grids = s.grids := rfl
@[simp] theorem modSp_heldGrids (s : State) (f : Split → Split) : (s.modSp f).heldGrids = s.heldGrids := rfl
@[simp] theorem modSp_usersDue (s : State) (f : Split → Split) : (s.modSp f).usersDue = s.usersDue := rfl
@[simp] theorem modSp_cores (s : State) (f : Split → Split) : (s.modSp f).cores = s.cores := rfl
@[simp] theorem modSp_bins (s : State) (f : Split → Split) : (s.modSp f).bins = s.bins := rfl
@[simp] theorem modSp_blockQ (s : State) (f : Split → Split) : (s.modSp f).blockQ = s.blockQ := rfl
@[simp] theorem modSp_cmds (s : State) (f : Split → Split) : (s.modSp f).cmds = s.cmds := rfl
@[simp] theorem modSp_walks (s : State) (f : Split → Split) : (s.modSp f).walks = s.walks := rfl
@[simp] theorem modSp_due (s : State) (f : Split → Split) : (s.modSp f).due = s.due := rfl
@[simp] theorem modSp_loose (s : State) (f : Split → Split) : (s.modSp f).loose = s.loose := rfl
@[simp] theorem modSp_nextId (s : State) (f : Split → Split) : (s.modSp f).nextId = s.nextId := rfl
@[simp] theorem modSp_tlb (s : State) (f : Split → Split) : (s.modSp f).tlb = s.tlb := rfl
@[simp] theorem modSp_roots (s : State) (f : Split → Split) : (s.modSp f).roots = s.roots := rfl
@[simp] theorem modSp_apers (s : State) (f : Split → Split) : (s.modSp f).apers = s.apers := rfl
@[simp] theorem modSp_parked (s : State) (f : Split → Split) : (s.modSp f).parked = s.parked := rfl
@[simp] theorem modSp_serving (s : State) (f : Split → Split) : (s.modSp f).serving = s.serving := rfl
@[simp] theorem modSp_misses (s : State) (f : Split → Split) : (s.modSp f).misses = s.misses := rfl
@[simp] theorem modSp_migrations (s : State) (f : Split → Split) : (s.modSp f).migrations = s.migrations := rfl
@[simp] theorem modSp_accums (s : State) (f : Split → Split) : (s.modSp f).accums = s.accums := rfl
@[simp] theorem modSp_round (s : State) (f : Split → Split) : (s.modSp f).round = s.round := rfl
@[simp] theorem modSp_seqs (s : State) (f : Split → Split) : (s.modSp f).seqs = s.seqs := rfl
@[simp] theorem modSp_lastKey (s : State) (f : Split → Split) : (s.modSp f).lastKey = s.lastKey := rfl
@[simp] theorem modSp_ticket (s : State) (f : Split → Split) : (s.modSp f).ticket = s.ticket := rfl
@[simp] theorem modSp_hdm (s : State) (f : Split → Split) : (s.modSp f).hdm = s.hdm := rfl
@[simp] theorem modSp_bar0 (s : State) (f : Split → Split) : (s.modSp f).bar0 = s.bar0 := rfl
@[simp] theorem modSp_wireCount (s : State) (f : Split → Split) : (s.modSp f).wireCount = s.wireCount := rfl
@[simp] theorem modSp_wireForce (s : State) (f : Split → Split) : (s.modSp f).wireForce = s.wireForce := rfl
@[simp] theorem modSp_wireGot (s : State) (f : Split → Split) : (s.modSp f).wireGot = s.wireGot := rfl
@[simp] theorem modSp_wireLast (s : State) (f : Split → Split) : (s.modSp f).wireLast = s.wireLast := rfl
@[simp] theorem modSp_notices (s : State) (f : Split → Split) : (s.modSp f).notices = s.notices := rfl
@[simp] theorem modSp_ringWait (s : State) (f : Split → Split) : (s.modSp f).ringWait = s.ringWait := rfl
@[simp] theorem modSp_port (s : State) (f : Split → Split) : (s.modSp f).port = s.port := rfl
@[simp] theorem modSp_serials (s : State) (f : Split → Split) : (s.modSp f).serials = s.serials := rfl
@[simp] theorem modSp_chunkedSlots (s : State) (f : Split → Split) : (s.modSp f).chunkedSlots = s.chunkedSlots := rfl
@[simp] theorem modSp_beat (s : State) (f : Split → Split) : (s.modSp f).beat = s.beat := rfl
@[simp] theorem modSp_d3hot (s : State) (f : Split → Split) : (s.modSp f).d3hot = s.d3hot := rfl
@[simp] theorem modSp_throttle (s : State) (f : Split → Split) : (s.modSp f).throttle = s.throttle := rfl
@[simp] theorem modSp_hotAt (s : State) (f : Split → Split) : (s.modSp f).hotAt = s.hotAt := rfl
@[simp] theorem modSp_powered (s : State) (f : Split → Split) : (s.modSp f).powered = s.powered := rfl
@[simp] theorem modSp_vc (s : State) (f : Split → Split) : (s.modSp f).vc = s.vc := rfl
@[simp] theorem modSp_sent (s : State) (f : Split → Split) : (s.modSp f).sent = s.sent := rfl
@[simp] theorem modSp_inbox (s : State) (f : Split → Split) : (s.modSp f).inbox = s.inbox := rfl
@[simp] theorem modSp_peerLines (s : State) (f : Split → Split) : (s.modSp f).peerLines = s.peerLines := rfl
@[simp] theorem modSp_badLines (s : State) (f : Split → Split) : (s.modSp f).badLines = s.badLines := rfl
@[simp] theorem modSp_peerReqs (s : State) (f : Split → Split) : (s.modSp f).peerReqs = s.peerReqs := rfl
@[simp] theorem modSp_peerServes (s : State) (f : Split → Split) : (s.modSp f).peerServes = s.peerServes := rfl
@[simp] theorem modSp_ports (s : State) (f : Split → Split) : (s.modSp f).ports = s.ports := rfl
@[simp] theorem modSp_outbox (s : State) (f : Split → Split) : (s.modSp f).outbox = s.outbox := rfl
@[simp] theorem modSp_lost (s : State) (f : Split → Split) : (s.modSp f).lost = s.lost := rfl
@[simp] theorem modSp_nextTag (s : State) (f : Split → Split) : (s.modSp f).nextTag = s.nextTag := rfl
@[simp] theorem modSp_transls (s : State) (f : Split → Split) : (s.modSp f).transls = s.transls := rfl
@[simp] theorem modSp_scanDue (s : State) (f : Split → Split) : (s.modSp f).scanDue = s.scanDue := rfl
@[simp] theorem modSp_out (s : State) (f : Split → Split) : (s.modSp f).out = s.out := rfl

@[simp] theorem modCtl_schedule (s : State) (f : Ctl → Ctl) : (s.modCtl f).schedule = s.schedule := rfl
@[simp] theorem modCtl_cur (s : State) (f : Ctl → Ctl) : (s.modCtl f).cur = s.cur := rfl
@[simp] theorem modCtl_free (s : State) (f : Ctl → Ctl) : (s.modCtl f).free = s.free := rfl
@[simp] theorem modCtl_clock (s : State) (f : Ctl → Ctl) : (s.modCtl f).clock = s.clock := rfl
@[simp] theorem modCtl_issued (s : State) (f : Ctl → Ctl) : (s.modCtl f).issued = s.issued := rfl
@[simp] theorem modCtl_mem (s : State) (f : Ctl → Ctl) : (s.modCtl f).mem = s.mem := rfl
@[simp] theorem modCtl_hostMem (s : State) (f : Ctl → Ctl) : (s.modCtl f).hostMem = s.hostMem := rfl
@[simp] theorem modCtl_failed (s : State) (f : Ctl → Ctl) : (s.modCtl f).failed = s.failed := rfl
@[simp] theorem modCtl_oldCode (s : State) (f : Ctl → Ctl) : (s.modCtl f).oldCode = s.oldCode := rfl
@[simp] theorem modCtl_oldSeq (s : State) (f : Ctl → Ctl) : (s.modCtl f).oldSeq = s.oldSeq := rfl
@[simp] theorem modCtl_teams (s : State) (f : Ctl → Ctl) : (s.modCtl f).teams = s.teams := rfl
@[simp] theorem modCtl_clusters (s : State) (f : Ctl → Ctl) : (s.modCtl f).clusters = s.clusters := rfl
@[simp] theorem modCtl_grids (s : State) (f : Ctl → Ctl) : (s.modCtl f).grids = s.grids := rfl
@[simp] theorem modCtl_heldGrids (s : State) (f : Ctl → Ctl) : (s.modCtl f).heldGrids = s.heldGrids := rfl
@[simp] theorem modCtl_usersDue (s : State) (f : Ctl → Ctl) : (s.modCtl f).usersDue = s.usersDue := rfl
@[simp] theorem modCtl_cores (s : State) (f : Ctl → Ctl) : (s.modCtl f).cores = s.cores := rfl
@[simp] theorem modCtl_bins (s : State) (f : Ctl → Ctl) : (s.modCtl f).bins = s.bins := rfl
@[simp] theorem modCtl_blockQ (s : State) (f : Ctl → Ctl) : (s.modCtl f).blockQ = s.blockQ := rfl
@[simp] theorem modCtl_cmds (s : State) (f : Ctl → Ctl) : (s.modCtl f).cmds = s.cmds := rfl
@[simp] theorem modCtl_walks (s : State) (f : Ctl → Ctl) : (s.modCtl f).walks = s.walks := rfl
@[simp] theorem modCtl_due (s : State) (f : Ctl → Ctl) : (s.modCtl f).due = s.due := rfl
@[simp] theorem modCtl_loose (s : State) (f : Ctl → Ctl) : (s.modCtl f).loose = s.loose := rfl
@[simp] theorem modCtl_nextId (s : State) (f : Ctl → Ctl) : (s.modCtl f).nextId = s.nextId := rfl
@[simp] theorem modCtl_tlb (s : State) (f : Ctl → Ctl) : (s.modCtl f).tlb = s.tlb := rfl
@[simp] theorem modCtl_roots (s : State) (f : Ctl → Ctl) : (s.modCtl f).roots = s.roots := rfl
@[simp] theorem modCtl_apers (s : State) (f : Ctl → Ctl) : (s.modCtl f).apers = s.apers := rfl
@[simp] theorem modCtl_parked (s : State) (f : Ctl → Ctl) : (s.modCtl f).parked = s.parked := rfl
@[simp] theorem modCtl_serving (s : State) (f : Ctl → Ctl) : (s.modCtl f).serving = s.serving := rfl
@[simp] theorem modCtl_misses (s : State) (f : Ctl → Ctl) : (s.modCtl f).misses = s.misses := rfl
@[simp] theorem modCtl_migrations (s : State) (f : Ctl → Ctl) : (s.modCtl f).migrations = s.migrations := rfl
@[simp] theorem modCtl_accums (s : State) (f : Ctl → Ctl) : (s.modCtl f).accums = s.accums := rfl
@[simp] theorem modCtl_round (s : State) (f : Ctl → Ctl) : (s.modCtl f).round = s.round := rfl
@[simp] theorem modCtl_seqs (s : State) (f : Ctl → Ctl) : (s.modCtl f).seqs = s.seqs := rfl
@[simp] theorem modCtl_lastKey (s : State) (f : Ctl → Ctl) : (s.modCtl f).lastKey = s.lastKey := rfl
@[simp] theorem modCtl_ticket (s : State) (f : Ctl → Ctl) : (s.modCtl f).ticket = s.ticket := rfl
@[simp] theorem modCtl_hdm (s : State) (f : Ctl → Ctl) : (s.modCtl f).hdm = s.hdm := rfl
@[simp] theorem modCtl_bar0 (s : State) (f : Ctl → Ctl) : (s.modCtl f).bar0 = s.bar0 := rfl
@[simp] theorem modCtl_wireCount (s : State) (f : Ctl → Ctl) : (s.modCtl f).wireCount = s.wireCount := rfl
@[simp] theorem modCtl_wireForce (s : State) (f : Ctl → Ctl) : (s.modCtl f).wireForce = s.wireForce := rfl
@[simp] theorem modCtl_wireGot (s : State) (f : Ctl → Ctl) : (s.modCtl f).wireGot = s.wireGot := rfl
@[simp] theorem modCtl_wireLast (s : State) (f : Ctl → Ctl) : (s.modCtl f).wireLast = s.wireLast := rfl
@[simp] theorem modCtl_notices (s : State) (f : Ctl → Ctl) : (s.modCtl f).notices = s.notices := rfl
@[simp] theorem modCtl_ringWait (s : State) (f : Ctl → Ctl) : (s.modCtl f).ringWait = s.ringWait := rfl
@[simp] theorem modCtl_port (s : State) (f : Ctl → Ctl) : (s.modCtl f).port = s.port := rfl
@[simp] theorem modCtl_serials (s : State) (f : Ctl → Ctl) : (s.modCtl f).serials = s.serials := rfl
@[simp] theorem modCtl_chunkedSlots (s : State) (f : Ctl → Ctl) : (s.modCtl f).chunkedSlots = s.chunkedSlots := rfl
@[simp] theorem modCtl_beat (s : State) (f : Ctl → Ctl) : (s.modCtl f).beat = s.beat := rfl
@[simp] theorem modCtl_d3hot (s : State) (f : Ctl → Ctl) : (s.modCtl f).d3hot = s.d3hot := rfl
@[simp] theorem modCtl_throttle (s : State) (f : Ctl → Ctl) : (s.modCtl f).throttle = s.throttle := rfl
@[simp] theorem modCtl_hotAt (s : State) (f : Ctl → Ctl) : (s.modCtl f).hotAt = s.hotAt := rfl
@[simp] theorem modCtl_powered (s : State) (f : Ctl → Ctl) : (s.modCtl f).powered = s.powered := rfl
@[simp] theorem modCtl_vc (s : State) (f : Ctl → Ctl) : (s.modCtl f).vc = s.vc := rfl
@[simp] theorem modCtl_sent (s : State) (f : Ctl → Ctl) : (s.modCtl f).sent = s.sent := rfl
@[simp] theorem modCtl_inbox (s : State) (f : Ctl → Ctl) : (s.modCtl f).inbox = s.inbox := rfl
@[simp] theorem modCtl_peerLines (s : State) (f : Ctl → Ctl) : (s.modCtl f).peerLines = s.peerLines := rfl
@[simp] theorem modCtl_badLines (s : State) (f : Ctl → Ctl) : (s.modCtl f).badLines = s.badLines := rfl
@[simp] theorem modCtl_peerReqs (s : State) (f : Ctl → Ctl) : (s.modCtl f).peerReqs = s.peerReqs := rfl
@[simp] theorem modCtl_peerServes (s : State) (f : Ctl → Ctl) : (s.modCtl f).peerServes = s.peerServes := rfl
@[simp] theorem modCtl_ports (s : State) (f : Ctl → Ctl) : (s.modCtl f).ports = s.ports := rfl
@[simp] theorem modCtl_outbox (s : State) (f : Ctl → Ctl) : (s.modCtl f).outbox = s.outbox := rfl
@[simp] theorem modCtl_lost (s : State) (f : Ctl → Ctl) : (s.modCtl f).lost = s.lost := rfl
@[simp] theorem modCtl_nextTag (s : State) (f : Ctl → Ctl) : (s.modCtl f).nextTag = s.nextTag := rfl
@[simp] theorem modCtl_transls (s : State) (f : Ctl → Ctl) : (s.modCtl f).transls = s.transls := rfl
@[simp] theorem modCtl_scanDue (s : State) (f : Ctl → Ctl) : (s.modCtl f).scanDue = s.scanDue := rfl
@[simp] theorem modCtl_out (s : State) (f : Ctl → Ctl) : (s.modCtl f).out = s.out := rfl

@[simp] theorem modChunk_schedule (s : State) (f : Chunk → Chunk) : (s.modChunk f).schedule = s.schedule := rfl
@[simp] theorem modChunk_cur (s : State) (f : Chunk → Chunk) : (s.modChunk f).cur = s.cur := rfl
@[simp] theorem modChunk_free (s : State) (f : Chunk → Chunk) : (s.modChunk f).free = s.free := rfl
@[simp] theorem modChunk_clock (s : State) (f : Chunk → Chunk) : (s.modChunk f).clock = s.clock := rfl
@[simp] theorem modChunk_issued (s : State) (f : Chunk → Chunk) : (s.modChunk f).issued = s.issued := rfl
@[simp] theorem modChunk_mem (s : State) (f : Chunk → Chunk) : (s.modChunk f).mem = s.mem := rfl
@[simp] theorem modChunk_hostMem (s : State) (f : Chunk → Chunk) : (s.modChunk f).hostMem = s.hostMem := rfl
@[simp] theorem modChunk_failed (s : State) (f : Chunk → Chunk) : (s.modChunk f).failed = s.failed := rfl
@[simp] theorem modChunk_oldCode (s : State) (f : Chunk → Chunk) : (s.modChunk f).oldCode = s.oldCode := rfl
@[simp] theorem modChunk_oldSeq (s : State) (f : Chunk → Chunk) : (s.modChunk f).oldSeq = s.oldSeq := rfl
@[simp] theorem modChunk_teams (s : State) (f : Chunk → Chunk) : (s.modChunk f).teams = s.teams := rfl
@[simp] theorem modChunk_clusters (s : State) (f : Chunk → Chunk) : (s.modChunk f).clusters = s.clusters := rfl
@[simp] theorem modChunk_grids (s : State) (f : Chunk → Chunk) : (s.modChunk f).grids = s.grids := rfl
@[simp] theorem modChunk_heldGrids (s : State) (f : Chunk → Chunk) : (s.modChunk f).heldGrids = s.heldGrids := rfl
@[simp] theorem modChunk_usersDue (s : State) (f : Chunk → Chunk) : (s.modChunk f).usersDue = s.usersDue := rfl
@[simp] theorem modChunk_cores (s : State) (f : Chunk → Chunk) : (s.modChunk f).cores = s.cores := rfl
@[simp] theorem modChunk_bins (s : State) (f : Chunk → Chunk) : (s.modChunk f).bins = s.bins := rfl
@[simp] theorem modChunk_blockQ (s : State) (f : Chunk → Chunk) : (s.modChunk f).blockQ = s.blockQ := rfl
@[simp] theorem modChunk_cmds (s : State) (f : Chunk → Chunk) : (s.modChunk f).cmds = s.cmds := rfl
@[simp] theorem modChunk_walks (s : State) (f : Chunk → Chunk) : (s.modChunk f).walks = s.walks := rfl
@[simp] theorem modChunk_due (s : State) (f : Chunk → Chunk) : (s.modChunk f).due = s.due := rfl
@[simp] theorem modChunk_loose (s : State) (f : Chunk → Chunk) : (s.modChunk f).loose = s.loose := rfl
@[simp] theorem modChunk_nextId (s : State) (f : Chunk → Chunk) : (s.modChunk f).nextId = s.nextId := rfl
@[simp] theorem modChunk_tlb (s : State) (f : Chunk → Chunk) : (s.modChunk f).tlb = s.tlb := rfl
@[simp] theorem modChunk_roots (s : State) (f : Chunk → Chunk) : (s.modChunk f).roots = s.roots := rfl
@[simp] theorem modChunk_apers (s : State) (f : Chunk → Chunk) : (s.modChunk f).apers = s.apers := rfl
@[simp] theorem modChunk_parked (s : State) (f : Chunk → Chunk) : (s.modChunk f).parked = s.parked := rfl
@[simp] theorem modChunk_serving (s : State) (f : Chunk → Chunk) : (s.modChunk f).serving = s.serving := rfl
@[simp] theorem modChunk_misses (s : State) (f : Chunk → Chunk) : (s.modChunk f).misses = s.misses := rfl
@[simp] theorem modChunk_migrations (s : State) (f : Chunk → Chunk) : (s.modChunk f).migrations = s.migrations := rfl
@[simp] theorem modChunk_accums (s : State) (f : Chunk → Chunk) : (s.modChunk f).accums = s.accums := rfl
@[simp] theorem modChunk_round (s : State) (f : Chunk → Chunk) : (s.modChunk f).round = s.round := rfl
@[simp] theorem modChunk_seqs (s : State) (f : Chunk → Chunk) : (s.modChunk f).seqs = s.seqs := rfl
@[simp] theorem modChunk_lastKey (s : State) (f : Chunk → Chunk) : (s.modChunk f).lastKey = s.lastKey := rfl
@[simp] theorem modChunk_ticket (s : State) (f : Chunk → Chunk) : (s.modChunk f).ticket = s.ticket := rfl
@[simp] theorem modChunk_hdm (s : State) (f : Chunk → Chunk) : (s.modChunk f).hdm = s.hdm := rfl
@[simp] theorem modChunk_bar0 (s : State) (f : Chunk → Chunk) : (s.modChunk f).bar0 = s.bar0 := rfl
@[simp] theorem modChunk_wireCount (s : State) (f : Chunk → Chunk) : (s.modChunk f).wireCount = s.wireCount := rfl
@[simp] theorem modChunk_wireForce (s : State) (f : Chunk → Chunk) : (s.modChunk f).wireForce = s.wireForce := rfl
@[simp] theorem modChunk_wireGot (s : State) (f : Chunk → Chunk) : (s.modChunk f).wireGot = s.wireGot := rfl
@[simp] theorem modChunk_wireLast (s : State) (f : Chunk → Chunk) : (s.modChunk f).wireLast = s.wireLast := rfl
@[simp] theorem modChunk_notices (s : State) (f : Chunk → Chunk) : (s.modChunk f).notices = s.notices := rfl
@[simp] theorem modChunk_ringWait (s : State) (f : Chunk → Chunk) : (s.modChunk f).ringWait = s.ringWait := rfl
@[simp] theorem modChunk_port (s : State) (f : Chunk → Chunk) : (s.modChunk f).port = s.port := rfl
@[simp] theorem modChunk_serials (s : State) (f : Chunk → Chunk) : (s.modChunk f).serials = s.serials := rfl
@[simp] theorem modChunk_chunkedSlots (s : State) (f : Chunk → Chunk) : (s.modChunk f).chunkedSlots = s.chunkedSlots := rfl
@[simp] theorem modChunk_beat (s : State) (f : Chunk → Chunk) : (s.modChunk f).beat = s.beat := rfl
@[simp] theorem modChunk_d3hot (s : State) (f : Chunk → Chunk) : (s.modChunk f).d3hot = s.d3hot := rfl
@[simp] theorem modChunk_throttle (s : State) (f : Chunk → Chunk) : (s.modChunk f).throttle = s.throttle := rfl
@[simp] theorem modChunk_hotAt (s : State) (f : Chunk → Chunk) : (s.modChunk f).hotAt = s.hotAt := rfl
@[simp] theorem modChunk_powered (s : State) (f : Chunk → Chunk) : (s.modChunk f).powered = s.powered := rfl
@[simp] theorem modChunk_vc (s : State) (f : Chunk → Chunk) : (s.modChunk f).vc = s.vc := rfl
@[simp] theorem modChunk_sent (s : State) (f : Chunk → Chunk) : (s.modChunk f).sent = s.sent := rfl
@[simp] theorem modChunk_inbox (s : State) (f : Chunk → Chunk) : (s.modChunk f).inbox = s.inbox := rfl
@[simp] theorem modChunk_peerLines (s : State) (f : Chunk → Chunk) : (s.modChunk f).peerLines = s.peerLines := rfl
@[simp] theorem modChunk_badLines (s : State) (f : Chunk → Chunk) : (s.modChunk f).badLines = s.badLines := rfl
@[simp] theorem modChunk_peerReqs (s : State) (f : Chunk → Chunk) : (s.modChunk f).peerReqs = s.peerReqs := rfl
@[simp] theorem modChunk_peerServes (s : State) (f : Chunk → Chunk) : (s.modChunk f).peerServes = s.peerServes := rfl
@[simp] theorem modChunk_ports (s : State) (f : Chunk → Chunk) : (s.modChunk f).ports = s.ports := rfl
@[simp] theorem modChunk_outbox (s : State) (f : Chunk → Chunk) : (s.modChunk f).outbox = s.outbox := rfl
@[simp] theorem modChunk_lost (s : State) (f : Chunk → Chunk) : (s.modChunk f).lost = s.lost := rfl
@[simp] theorem modChunk_nextTag (s : State) (f : Chunk → Chunk) : (s.modChunk f).nextTag = s.nextTag := rfl
@[simp] theorem modChunk_transls (s : State) (f : Chunk → Chunk) : (s.modChunk f).transls = s.transls := rfl
@[simp] theorem modChunk_scanDue (s : State) (f : Chunk → Chunk) : (s.modChunk f).scanDue = s.scanDue := rfl
@[simp] theorem modChunk_out (s : State) (f : Chunk → Chunk) : (s.modChunk f).out = s.out := rfl

@[simp] theorem modRegs_schedule (s : State) (f : Regs → Regs) : (s.modRegs f).schedule = s.schedule := rfl
@[simp] theorem modRegs_cur (s : State) (f : Regs → Regs) : (s.modRegs f).cur = s.cur := rfl
@[simp] theorem modRegs_free (s : State) (f : Regs → Regs) : (s.modRegs f).free = s.free := rfl
@[simp] theorem modRegs_clock (s : State) (f : Regs → Regs) : (s.modRegs f).clock = s.clock := rfl
@[simp] theorem modRegs_issued (s : State) (f : Regs → Regs) : (s.modRegs f).issued = s.issued := rfl
@[simp] theorem modRegs_mem (s : State) (f : Regs → Regs) : (s.modRegs f).mem = s.mem := rfl
@[simp] theorem modRegs_hostMem (s : State) (f : Regs → Regs) : (s.modRegs f).hostMem = s.hostMem := rfl
@[simp] theorem modRegs_failed (s : State) (f : Regs → Regs) : (s.modRegs f).failed = s.failed := rfl
@[simp] theorem modRegs_oldCode (s : State) (f : Regs → Regs) : (s.modRegs f).oldCode = s.oldCode := rfl
@[simp] theorem modRegs_oldSeq (s : State) (f : Regs → Regs) : (s.modRegs f).oldSeq = s.oldSeq := rfl
@[simp] theorem modRegs_teams (s : State) (f : Regs → Regs) : (s.modRegs f).teams = s.teams := rfl
@[simp] theorem modRegs_clusters (s : State) (f : Regs → Regs) : (s.modRegs f).clusters = s.clusters := rfl
@[simp] theorem modRegs_grids (s : State) (f : Regs → Regs) : (s.modRegs f).grids = s.grids := rfl
@[simp] theorem modRegs_heldGrids (s : State) (f : Regs → Regs) : (s.modRegs f).heldGrids = s.heldGrids := rfl
@[simp] theorem modRegs_usersDue (s : State) (f : Regs → Regs) : (s.modRegs f).usersDue = s.usersDue := rfl
@[simp] theorem modRegs_cores (s : State) (f : Regs → Regs) : (s.modRegs f).cores = s.cores := rfl
@[simp] theorem modRegs_bins (s : State) (f : Regs → Regs) : (s.modRegs f).bins = s.bins := rfl
@[simp] theorem modRegs_blockQ (s : State) (f : Regs → Regs) : (s.modRegs f).blockQ = s.blockQ := rfl
@[simp] theorem modRegs_cmds (s : State) (f : Regs → Regs) : (s.modRegs f).cmds = s.cmds := rfl
@[simp] theorem modRegs_walks (s : State) (f : Regs → Regs) : (s.modRegs f).walks = s.walks := rfl
@[simp] theorem modRegs_due (s : State) (f : Regs → Regs) : (s.modRegs f).due = s.due := rfl
@[simp] theorem modRegs_loose (s : State) (f : Regs → Regs) : (s.modRegs f).loose = s.loose := rfl
@[simp] theorem modRegs_nextId (s : State) (f : Regs → Regs) : (s.modRegs f).nextId = s.nextId := rfl
@[simp] theorem modRegs_tlb (s : State) (f : Regs → Regs) : (s.modRegs f).tlb = s.tlb := rfl
@[simp] theorem modRegs_roots (s : State) (f : Regs → Regs) : (s.modRegs f).roots = s.roots := rfl
@[simp] theorem modRegs_apers (s : State) (f : Regs → Regs) : (s.modRegs f).apers = s.apers := rfl
@[simp] theorem modRegs_parked (s : State) (f : Regs → Regs) : (s.modRegs f).parked = s.parked := rfl
@[simp] theorem modRegs_serving (s : State) (f : Regs → Regs) : (s.modRegs f).serving = s.serving := rfl
@[simp] theorem modRegs_misses (s : State) (f : Regs → Regs) : (s.modRegs f).misses = s.misses := rfl
@[simp] theorem modRegs_migrations (s : State) (f : Regs → Regs) : (s.modRegs f).migrations = s.migrations := rfl
@[simp] theorem modRegs_accums (s : State) (f : Regs → Regs) : (s.modRegs f).accums = s.accums := rfl
@[simp] theorem modRegs_round (s : State) (f : Regs → Regs) : (s.modRegs f).round = s.round := rfl
@[simp] theorem modRegs_seqs (s : State) (f : Regs → Regs) : (s.modRegs f).seqs = s.seqs := rfl
@[simp] theorem modRegs_lastKey (s : State) (f : Regs → Regs) : (s.modRegs f).lastKey = s.lastKey := rfl
@[simp] theorem modRegs_ticket (s : State) (f : Regs → Regs) : (s.modRegs f).ticket = s.ticket := rfl
@[simp] theorem modRegs_hdm (s : State) (f : Regs → Regs) : (s.modRegs f).hdm = s.hdm := rfl
@[simp] theorem modRegs_bar0 (s : State) (f : Regs → Regs) : (s.modRegs f).bar0 = s.bar0 := rfl
@[simp] theorem modRegs_wireCount (s : State) (f : Regs → Regs) : (s.modRegs f).wireCount = s.wireCount := rfl
@[simp] theorem modRegs_wireForce (s : State) (f : Regs → Regs) : (s.modRegs f).wireForce = s.wireForce := rfl
@[simp] theorem modRegs_wireGot (s : State) (f : Regs → Regs) : (s.modRegs f).wireGot = s.wireGot := rfl
@[simp] theorem modRegs_wireLast (s : State) (f : Regs → Regs) : (s.modRegs f).wireLast = s.wireLast := rfl
@[simp] theorem modRegs_notices (s : State) (f : Regs → Regs) : (s.modRegs f).notices = s.notices := rfl
@[simp] theorem modRegs_ringWait (s : State) (f : Regs → Regs) : (s.modRegs f).ringWait = s.ringWait := rfl
@[simp] theorem modRegs_port (s : State) (f : Regs → Regs) : (s.modRegs f).port = s.port := rfl
@[simp] theorem modRegs_serials (s : State) (f : Regs → Regs) : (s.modRegs f).serials = s.serials := rfl
@[simp] theorem modRegs_chunkedSlots (s : State) (f : Regs → Regs) : (s.modRegs f).chunkedSlots = s.chunkedSlots := rfl
@[simp] theorem modRegs_beat (s : State) (f : Regs → Regs) : (s.modRegs f).beat = s.beat := rfl
@[simp] theorem modRegs_d3hot (s : State) (f : Regs → Regs) : (s.modRegs f).d3hot = s.d3hot := rfl
@[simp] theorem modRegs_throttle (s : State) (f : Regs → Regs) : (s.modRegs f).throttle = s.throttle := rfl
@[simp] theorem modRegs_hotAt (s : State) (f : Regs → Regs) : (s.modRegs f).hotAt = s.hotAt := rfl
@[simp] theorem modRegs_powered (s : State) (f : Regs → Regs) : (s.modRegs f).powered = s.powered := rfl
@[simp] theorem modRegs_vc (s : State) (f : Regs → Regs) : (s.modRegs f).vc = s.vc := rfl
@[simp] theorem modRegs_sent (s : State) (f : Regs → Regs) : (s.modRegs f).sent = s.sent := rfl
@[simp] theorem modRegs_inbox (s : State) (f : Regs → Regs) : (s.modRegs f).inbox = s.inbox := rfl
@[simp] theorem modRegs_peerLines (s : State) (f : Regs → Regs) : (s.modRegs f).peerLines = s.peerLines := rfl
@[simp] theorem modRegs_badLines (s : State) (f : Regs → Regs) : (s.modRegs f).badLines = s.badLines := rfl
@[simp] theorem modRegs_peerReqs (s : State) (f : Regs → Regs) : (s.modRegs f).peerReqs = s.peerReqs := rfl
@[simp] theorem modRegs_peerServes (s : State) (f : Regs → Regs) : (s.modRegs f).peerServes = s.peerServes := rfl
@[simp] theorem modRegs_ports (s : State) (f : Regs → Regs) : (s.modRegs f).ports = s.ports := rfl
@[simp] theorem modRegs_outbox (s : State) (f : Regs → Regs) : (s.modRegs f).outbox = s.outbox := rfl
@[simp] theorem modRegs_lost (s : State) (f : Regs → Regs) : (s.modRegs f).lost = s.lost := rfl
@[simp] theorem modRegs_nextTag (s : State) (f : Regs → Regs) : (s.modRegs f).nextTag = s.nextTag := rfl
@[simp] theorem modRegs_transls (s : State) (f : Regs → Regs) : (s.modRegs f).transls = s.transls := rfl
@[simp] theorem modRegs_scanDue (s : State) (f : Regs → Regs) : (s.modRegs f).scanDue = s.scanDue := rfl
@[simp] theorem modRegs_out (s : State) (f : Regs → Regs) : (s.modRegs f).out = s.out := rfl

@[simp] theorem setBar_schedule (s : State) (off v : Nat) : (s.setBar off v).schedule = s.schedule := rfl
@[simp] theorem setBar_cur (s : State) (off v : Nat) : (s.setBar off v).cur = s.cur := rfl
@[simp] theorem setBar_free (s : State) (off v : Nat) : (s.setBar off v).free = s.free := rfl
@[simp] theorem setBar_clock (s : State) (off v : Nat) : (s.setBar off v).clock = s.clock := rfl
@[simp] theorem setBar_issued (s : State) (off v : Nat) : (s.setBar off v).issued = s.issued := rfl
@[simp] theorem setBar_mem (s : State) (off v : Nat) : (s.setBar off v).mem = s.mem := rfl
@[simp] theorem setBar_hostMem (s : State) (off v : Nat) : (s.setBar off v).hostMem = s.hostMem := rfl
@[simp] theorem setBar_failed (s : State) (off v : Nat) : (s.setBar off v).failed = s.failed := rfl
@[simp] theorem setBar_oldCode (s : State) (off v : Nat) : (s.setBar off v).oldCode = s.oldCode := rfl
@[simp] theorem setBar_oldSeq (s : State) (off v : Nat) : (s.setBar off v).oldSeq = s.oldSeq := rfl
@[simp] theorem setBar_groups (s : State) (off v : Nat) : (s.setBar off v).groups = s.groups := rfl
@[simp] theorem setBar_teams (s : State) (off v : Nat) : (s.setBar off v).teams = s.teams := rfl
@[simp] theorem setBar_clusters (s : State) (off v : Nat) : (s.setBar off v).clusters = s.clusters := rfl
@[simp] theorem setBar_grids (s : State) (off v : Nat) : (s.setBar off v).grids = s.grids := rfl
@[simp] theorem setBar_heldGrids (s : State) (off v : Nat) : (s.setBar off v).heldGrids = s.heldGrids := rfl
@[simp] theorem setBar_usersDue (s : State) (off v : Nat) : (s.setBar off v).usersDue = s.usersDue := rfl
@[simp] theorem setBar_cores (s : State) (off v : Nat) : (s.setBar off v).cores = s.cores := rfl
@[simp] theorem setBar_bins (s : State) (off v : Nat) : (s.setBar off v).bins = s.bins := rfl
@[simp] theorem setBar_blockQ (s : State) (off v : Nat) : (s.setBar off v).blockQ = s.blockQ := rfl
@[simp] theorem setBar_cmds (s : State) (off v : Nat) : (s.setBar off v).cmds = s.cmds := rfl
@[simp] theorem setBar_walks (s : State) (off v : Nat) : (s.setBar off v).walks = s.walks := rfl
@[simp] theorem setBar_due (s : State) (off v : Nat) : (s.setBar off v).due = s.due := rfl
@[simp] theorem setBar_loose (s : State) (off v : Nat) : (s.setBar off v).loose = s.loose := rfl
@[simp] theorem setBar_nextId (s : State) (off v : Nat) : (s.setBar off v).nextId = s.nextId := rfl
@[simp] theorem setBar_tlb (s : State) (off v : Nat) : (s.setBar off v).tlb = s.tlb := rfl
@[simp] theorem setBar_roots (s : State) (off v : Nat) : (s.setBar off v).roots = s.roots := rfl
@[simp] theorem setBar_apers (s : State) (off v : Nat) : (s.setBar off v).apers = s.apers := rfl
@[simp] theorem setBar_parked (s : State) (off v : Nat) : (s.setBar off v).parked = s.parked := rfl
@[simp] theorem setBar_serving (s : State) (off v : Nat) : (s.setBar off v).serving = s.serving := rfl
@[simp] theorem setBar_misses (s : State) (off v : Nat) : (s.setBar off v).misses = s.misses := rfl
@[simp] theorem setBar_migrations (s : State) (off v : Nat) : (s.setBar off v).migrations = s.migrations := rfl
@[simp] theorem setBar_accums (s : State) (off v : Nat) : (s.setBar off v).accums = s.accums := rfl
@[simp] theorem setBar_round (s : State) (off v : Nat) : (s.setBar off v).round = s.round := rfl
@[simp] theorem setBar_seqs (s : State) (off v : Nat) : (s.setBar off v).seqs = s.seqs := rfl
@[simp] theorem setBar_lastKey (s : State) (off v : Nat) : (s.setBar off v).lastKey = s.lastKey := rfl
@[simp] theorem setBar_ticket (s : State) (off v : Nat) : (s.setBar off v).ticket = s.ticket := rfl
@[simp] theorem setBar_hdm (s : State) (off v : Nat) : (s.setBar off v).hdm = s.hdm := rfl
@[simp] theorem setBar_wireCount (s : State) (off v : Nat) : (s.setBar off v).wireCount = s.wireCount := rfl
@[simp] theorem setBar_wireForce (s : State) (off v : Nat) : (s.setBar off v).wireForce = s.wireForce := rfl
@[simp] theorem setBar_wireGot (s : State) (off v : Nat) : (s.setBar off v).wireGot = s.wireGot := rfl
@[simp] theorem setBar_wireLast (s : State) (off v : Nat) : (s.setBar off v).wireLast = s.wireLast := rfl
@[simp] theorem setBar_notices (s : State) (off v : Nat) : (s.setBar off v).notices = s.notices := rfl
@[simp] theorem setBar_ringWait (s : State) (off v : Nat) : (s.setBar off v).ringWait = s.ringWait := rfl
@[simp] theorem setBar_port (s : State) (off v : Nat) : (s.setBar off v).port = s.port := rfl
@[simp] theorem setBar_serials (s : State) (off v : Nat) : (s.setBar off v).serials = s.serials := rfl
@[simp] theorem setBar_chunkedSlots (s : State) (off v : Nat) : (s.setBar off v).chunkedSlots = s.chunkedSlots := rfl
@[simp] theorem setBar_beat (s : State) (off v : Nat) : (s.setBar off v).beat = s.beat := rfl
@[simp] theorem setBar_d3hot (s : State) (off v : Nat) : (s.setBar off v).d3hot = s.d3hot := rfl
@[simp] theorem setBar_throttle (s : State) (off v : Nat) : (s.setBar off v).throttle = s.throttle := rfl
@[simp] theorem setBar_hotAt (s : State) (off v : Nat) : (s.setBar off v).hotAt = s.hotAt := rfl
@[simp] theorem setBar_powered (s : State) (off v : Nat) : (s.setBar off v).powered = s.powered := rfl
@[simp] theorem setBar_vc (s : State) (off v : Nat) : (s.setBar off v).vc = s.vc := rfl
@[simp] theorem setBar_sent (s : State) (off v : Nat) : (s.setBar off v).sent = s.sent := rfl
@[simp] theorem setBar_inbox (s : State) (off v : Nat) : (s.setBar off v).inbox = s.inbox := rfl
@[simp] theorem setBar_peerLines (s : State) (off v : Nat) : (s.setBar off v).peerLines = s.peerLines := rfl
@[simp] theorem setBar_badLines (s : State) (off v : Nat) : (s.setBar off v).badLines = s.badLines := rfl
@[simp] theorem setBar_peerReqs (s : State) (off v : Nat) : (s.setBar off v).peerReqs = s.peerReqs := rfl
@[simp] theorem setBar_peerServes (s : State) (off v : Nat) : (s.setBar off v).peerServes = s.peerServes := rfl
@[simp] theorem setBar_ports (s : State) (off v : Nat) : (s.setBar off v).ports = s.ports := rfl
@[simp] theorem setBar_outbox (s : State) (off v : Nat) : (s.setBar off v).outbox = s.outbox := rfl
@[simp] theorem setBar_lost (s : State) (off v : Nat) : (s.setBar off v).lost = s.lost := rfl
@[simp] theorem setBar_nextTag (s : State) (off v : Nat) : (s.setBar off v).nextTag = s.nextTag := rfl
@[simp] theorem setBar_transls (s : State) (off v : Nat) : (s.setBar off v).transls = s.transls := rfl
@[simp] theorem setBar_scanDue (s : State) (off v : Nat) : (s.setBar off v).scanDue = s.scanDue := rfl
@[simp] theorem setBar_out (s : State) (off v : Nat) : (s.setBar off v).out = s.out := rfl

@[simp] theorem setCore_schedule (s : State) (c : Nat) (k : Core) : (s.setCore c k).schedule = s.schedule := rfl
@[simp] theorem setCore_cur (s : State) (c : Nat) (k : Core) : (s.setCore c k).cur = s.cur := rfl
@[simp] theorem setCore_free (s : State) (c : Nat) (k : Core) : (s.setCore c k).free = s.free := rfl
@[simp] theorem setCore_clock (s : State) (c : Nat) (k : Core) : (s.setCore c k).clock = s.clock := rfl
@[simp] theorem setCore_issued (s : State) (c : Nat) (k : Core) : (s.setCore c k).issued = s.issued := rfl
@[simp] theorem setCore_mem (s : State) (c : Nat) (k : Core) : (s.setCore c k).mem = s.mem := rfl
@[simp] theorem setCore_hostMem (s : State) (c : Nat) (k : Core) : (s.setCore c k).hostMem = s.hostMem := rfl
@[simp] theorem setCore_failed (s : State) (c : Nat) (k : Core) : (s.setCore c k).failed = s.failed := rfl
@[simp] theorem setCore_oldCode (s : State) (c : Nat) (k : Core) : (s.setCore c k).oldCode = s.oldCode := rfl
@[simp] theorem setCore_oldSeq (s : State) (c : Nat) (k : Core) : (s.setCore c k).oldSeq = s.oldSeq := rfl
@[simp] theorem setCore_groups (s : State) (c : Nat) (k : Core) : (s.setCore c k).groups = s.groups := rfl
@[simp] theorem setCore_teams (s : State) (c : Nat) (k : Core) : (s.setCore c k).teams = s.teams := rfl
@[simp] theorem setCore_clusters (s : State) (c : Nat) (k : Core) : (s.setCore c k).clusters = s.clusters := rfl
@[simp] theorem setCore_grids (s : State) (c : Nat) (k : Core) : (s.setCore c k).grids = s.grids := rfl
@[simp] theorem setCore_heldGrids (s : State) (c : Nat) (k : Core) : (s.setCore c k).heldGrids = s.heldGrids := rfl
@[simp] theorem setCore_usersDue (s : State) (c : Nat) (k : Core) : (s.setCore c k).usersDue = s.usersDue := rfl
@[simp] theorem setCore_bins (s : State) (c : Nat) (k : Core) : (s.setCore c k).bins = s.bins := rfl
@[simp] theorem setCore_blockQ (s : State) (c : Nat) (k : Core) : (s.setCore c k).blockQ = s.blockQ := rfl
@[simp] theorem setCore_cmds (s : State) (c : Nat) (k : Core) : (s.setCore c k).cmds = s.cmds := rfl
@[simp] theorem setCore_walks (s : State) (c : Nat) (k : Core) : (s.setCore c k).walks = s.walks := rfl
@[simp] theorem setCore_due (s : State) (c : Nat) (k : Core) : (s.setCore c k).due = s.due := rfl
@[simp] theorem setCore_loose (s : State) (c : Nat) (k : Core) : (s.setCore c k).loose = s.loose := rfl
@[simp] theorem setCore_nextId (s : State) (c : Nat) (k : Core) : (s.setCore c k).nextId = s.nextId := rfl
@[simp] theorem setCore_tlb (s : State) (c : Nat) (k : Core) : (s.setCore c k).tlb = s.tlb := rfl
@[simp] theorem setCore_roots (s : State) (c : Nat) (k : Core) : (s.setCore c k).roots = s.roots := rfl
@[simp] theorem setCore_apers (s : State) (c : Nat) (k : Core) : (s.setCore c k).apers = s.apers := rfl
@[simp] theorem setCore_parked (s : State) (c : Nat) (k : Core) : (s.setCore c k).parked = s.parked := rfl
@[simp] theorem setCore_serving (s : State) (c : Nat) (k : Core) : (s.setCore c k).serving = s.serving := rfl
@[simp] theorem setCore_misses (s : State) (c : Nat) (k : Core) : (s.setCore c k).misses = s.misses := rfl
@[simp] theorem setCore_migrations (s : State) (c : Nat) (k : Core) : (s.setCore c k).migrations = s.migrations := rfl
@[simp] theorem setCore_accums (s : State) (c : Nat) (k : Core) : (s.setCore c k).accums = s.accums := rfl
@[simp] theorem setCore_round (s : State) (c : Nat) (k : Core) : (s.setCore c k).round = s.round := rfl
@[simp] theorem setCore_seqs (s : State) (c : Nat) (k : Core) : (s.setCore c k).seqs = s.seqs := rfl
@[simp] theorem setCore_lastKey (s : State) (c : Nat) (k : Core) : (s.setCore c k).lastKey = s.lastKey := rfl
@[simp] theorem setCore_ticket (s : State) (c : Nat) (k : Core) : (s.setCore c k).ticket = s.ticket := rfl
@[simp] theorem setCore_hdm (s : State) (c : Nat) (k : Core) : (s.setCore c k).hdm = s.hdm := rfl
@[simp] theorem setCore_bar0 (s : State) (c : Nat) (k : Core) : (s.setCore c k).bar0 = s.bar0 := rfl
@[simp] theorem setCore_wireCount (s : State) (c : Nat) (k : Core) : (s.setCore c k).wireCount = s.wireCount := rfl
@[simp] theorem setCore_wireForce (s : State) (c : Nat) (k : Core) : (s.setCore c k).wireForce = s.wireForce := rfl
@[simp] theorem setCore_wireGot (s : State) (c : Nat) (k : Core) : (s.setCore c k).wireGot = s.wireGot := rfl
@[simp] theorem setCore_wireLast (s : State) (c : Nat) (k : Core) : (s.setCore c k).wireLast = s.wireLast := rfl
@[simp] theorem setCore_notices (s : State) (c : Nat) (k : Core) : (s.setCore c k).notices = s.notices := rfl
@[simp] theorem setCore_ringWait (s : State) (c : Nat) (k : Core) : (s.setCore c k).ringWait = s.ringWait := rfl
@[simp] theorem setCore_port (s : State) (c : Nat) (k : Core) : (s.setCore c k).port = s.port := rfl
@[simp] theorem setCore_serials (s : State) (c : Nat) (k : Core) : (s.setCore c k).serials = s.serials := rfl
@[simp] theorem setCore_chunkedSlots (s : State) (c : Nat) (k : Core) : (s.setCore c k).chunkedSlots = s.chunkedSlots := rfl
@[simp] theorem setCore_beat (s : State) (c : Nat) (k : Core) : (s.setCore c k).beat = s.beat := rfl
@[simp] theorem setCore_d3hot (s : State) (c : Nat) (k : Core) : (s.setCore c k).d3hot = s.d3hot := rfl
@[simp] theorem setCore_throttle (s : State) (c : Nat) (k : Core) : (s.setCore c k).throttle = s.throttle := rfl
@[simp] theorem setCore_hotAt (s : State) (c : Nat) (k : Core) : (s.setCore c k).hotAt = s.hotAt := rfl
@[simp] theorem setCore_powered (s : State) (c : Nat) (k : Core) : (s.setCore c k).powered = s.powered := rfl
@[simp] theorem setCore_vc (s : State) (c : Nat) (k : Core) : (s.setCore c k).vc = s.vc := rfl
@[simp] theorem setCore_sent (s : State) (c : Nat) (k : Core) : (s.setCore c k).sent = s.sent := rfl
@[simp] theorem setCore_inbox (s : State) (c : Nat) (k : Core) : (s.setCore c k).inbox = s.inbox := rfl
@[simp] theorem setCore_peerLines (s : State) (c : Nat) (k : Core) : (s.setCore c k).peerLines = s.peerLines := rfl
@[simp] theorem setCore_badLines (s : State) (c : Nat) (k : Core) : (s.setCore c k).badLines = s.badLines := rfl
@[simp] theorem setCore_peerReqs (s : State) (c : Nat) (k : Core) : (s.setCore c k).peerReqs = s.peerReqs := rfl
@[simp] theorem setCore_peerServes (s : State) (c : Nat) (k : Core) : (s.setCore c k).peerServes = s.peerServes := rfl
@[simp] theorem setCore_ports (s : State) (c : Nat) (k : Core) : (s.setCore c k).ports = s.ports := rfl
@[simp] theorem setCore_outbox (s : State) (c : Nat) (k : Core) : (s.setCore c k).outbox = s.outbox := rfl
@[simp] theorem setCore_lost (s : State) (c : Nat) (k : Core) : (s.setCore c k).lost = s.lost := rfl
@[simp] theorem setCore_nextTag (s : State) (c : Nat) (k : Core) : (s.setCore c k).nextTag = s.nextTag := rfl
@[simp] theorem setCore_transls (s : State) (c : Nat) (k : Core) : (s.setCore c k).transls = s.transls := rfl
@[simp] theorem setCore_scanDue (s : State) (c : Nat) (k : Core) : (s.setCore c k).scanDue = s.scanDue := rfl
@[simp] theorem setCore_out (s : State) (c : Nat) (k : Core) : (s.setCore c k).out = s.out := rfl

@[simp] theorem signal_schedule (s : State) (fn vec : Nat) : (s.signal fn vec).schedule = s.schedule := rfl
@[simp] theorem signal_cur (s : State) (fn vec : Nat) : (s.signal fn vec).cur = s.cur := rfl
@[simp] theorem signal_free (s : State) (fn vec : Nat) : (s.signal fn vec).free = s.free := rfl
@[simp] theorem signal_clock (s : State) (fn vec : Nat) : (s.signal fn vec).clock = s.clock := rfl
@[simp] theorem signal_issued (s : State) (fn vec : Nat) : (s.signal fn vec).issued = s.issued := rfl
@[simp] theorem signal_mem (s : State) (fn vec : Nat) : (s.signal fn vec).mem = s.mem := rfl
@[simp] theorem signal_hostMem (s : State) (fn vec : Nat) : (s.signal fn vec).hostMem = s.hostMem := rfl
@[simp] theorem signal_failed (s : State) (fn vec : Nat) : (s.signal fn vec).failed = s.failed := rfl
@[simp] theorem signal_oldCode (s : State) (fn vec : Nat) : (s.signal fn vec).oldCode = s.oldCode := rfl
@[simp] theorem signal_oldSeq (s : State) (fn vec : Nat) : (s.signal fn vec).oldSeq = s.oldSeq := rfl
@[simp] theorem signal_groups (s : State) (fn vec : Nat) : (s.signal fn vec).groups = s.groups := rfl
@[simp] theorem signal_teams (s : State) (fn vec : Nat) : (s.signal fn vec).teams = s.teams := rfl
@[simp] theorem signal_clusters (s : State) (fn vec : Nat) : (s.signal fn vec).clusters = s.clusters := rfl
@[simp] theorem signal_grids (s : State) (fn vec : Nat) : (s.signal fn vec).grids = s.grids := rfl
@[simp] theorem signal_heldGrids (s : State) (fn vec : Nat) : (s.signal fn vec).heldGrids = s.heldGrids := rfl
@[simp] theorem signal_usersDue (s : State) (fn vec : Nat) : (s.signal fn vec).usersDue = s.usersDue := rfl
@[simp] theorem signal_cores (s : State) (fn vec : Nat) : (s.signal fn vec).cores = s.cores := rfl
@[simp] theorem signal_bins (s : State) (fn vec : Nat) : (s.signal fn vec).bins = s.bins := rfl
@[simp] theorem signal_blockQ (s : State) (fn vec : Nat) : (s.signal fn vec).blockQ = s.blockQ := rfl
@[simp] theorem signal_cmds (s : State) (fn vec : Nat) : (s.signal fn vec).cmds = s.cmds := rfl
@[simp] theorem signal_walks (s : State) (fn vec : Nat) : (s.signal fn vec).walks = s.walks := rfl
@[simp] theorem signal_due (s : State) (fn vec : Nat) : (s.signal fn vec).due = s.due := rfl
@[simp] theorem signal_loose (s : State) (fn vec : Nat) : (s.signal fn vec).loose = s.loose := rfl
@[simp] theorem signal_nextId (s : State) (fn vec : Nat) : (s.signal fn vec).nextId = s.nextId := rfl
@[simp] theorem signal_tlb (s : State) (fn vec : Nat) : (s.signal fn vec).tlb = s.tlb := rfl
@[simp] theorem signal_roots (s : State) (fn vec : Nat) : (s.signal fn vec).roots = s.roots := rfl
@[simp] theorem signal_apers (s : State) (fn vec : Nat) : (s.signal fn vec).apers = s.apers := rfl
@[simp] theorem signal_parked (s : State) (fn vec : Nat) : (s.signal fn vec).parked = s.parked := rfl
@[simp] theorem signal_serving (s : State) (fn vec : Nat) : (s.signal fn vec).serving = s.serving := rfl
@[simp] theorem signal_misses (s : State) (fn vec : Nat) : (s.signal fn vec).misses = s.misses := rfl
@[simp] theorem signal_migrations (s : State) (fn vec : Nat) : (s.signal fn vec).migrations = s.migrations := rfl
@[simp] theorem signal_accums (s : State) (fn vec : Nat) : (s.signal fn vec).accums = s.accums := rfl
@[simp] theorem signal_round (s : State) (fn vec : Nat) : (s.signal fn vec).round = s.round := rfl
@[simp] theorem signal_seqs (s : State) (fn vec : Nat) : (s.signal fn vec).seqs = s.seqs := rfl
@[simp] theorem signal_lastKey (s : State) (fn vec : Nat) : (s.signal fn vec).lastKey = s.lastKey := rfl
@[simp] theorem signal_ticket (s : State) (fn vec : Nat) : (s.signal fn vec).ticket = s.ticket := rfl
@[simp] theorem signal_hdm (s : State) (fn vec : Nat) : (s.signal fn vec).hdm = s.hdm := rfl
@[simp] theorem signal_bar0 (s : State) (fn vec : Nat) : (s.signal fn vec).bar0 = s.bar0 := rfl
@[simp] theorem signal_wireCount (s : State) (fn vec : Nat) : (s.signal fn vec).wireCount = s.wireCount := rfl
@[simp] theorem signal_wireForce (s : State) (fn vec : Nat) : (s.signal fn vec).wireForce = s.wireForce := rfl
@[simp] theorem signal_wireGot (s : State) (fn vec : Nat) : (s.signal fn vec).wireGot = s.wireGot := rfl
@[simp] theorem signal_wireLast (s : State) (fn vec : Nat) : (s.signal fn vec).wireLast = s.wireLast := rfl
@[simp] theorem signal_notices (s : State) (fn vec : Nat) : (s.signal fn vec).notices = s.notices := rfl
@[simp] theorem signal_ringWait (s : State) (fn vec : Nat) : (s.signal fn vec).ringWait = s.ringWait := rfl
@[simp] theorem signal_port (s : State) (fn vec : Nat) : (s.signal fn vec).port = s.port := rfl
@[simp] theorem signal_serials (s : State) (fn vec : Nat) : (s.signal fn vec).serials = s.serials := rfl
@[simp] theorem signal_chunkedSlots (s : State) (fn vec : Nat) : (s.signal fn vec).chunkedSlots = s.chunkedSlots := rfl
@[simp] theorem signal_beat (s : State) (fn vec : Nat) : (s.signal fn vec).beat = s.beat := rfl
@[simp] theorem signal_d3hot (s : State) (fn vec : Nat) : (s.signal fn vec).d3hot = s.d3hot := rfl
@[simp] theorem signal_throttle (s : State) (fn vec : Nat) : (s.signal fn vec).throttle = s.throttle := rfl
@[simp] theorem signal_hotAt (s : State) (fn vec : Nat) : (s.signal fn vec).hotAt = s.hotAt := rfl
@[simp] theorem signal_powered (s : State) (fn vec : Nat) : (s.signal fn vec).powered = s.powered := rfl
@[simp] theorem signal_vc (s : State) (fn vec : Nat) : (s.signal fn vec).vc = s.vc := rfl
@[simp] theorem signal_sent (s : State) (fn vec : Nat) : (s.signal fn vec).sent = s.sent := rfl
@[simp] theorem signal_inbox (s : State) (fn vec : Nat) : (s.signal fn vec).inbox = s.inbox := rfl
@[simp] theorem signal_peerLines (s : State) (fn vec : Nat) : (s.signal fn vec).peerLines = s.peerLines := rfl
@[simp] theorem signal_badLines (s : State) (fn vec : Nat) : (s.signal fn vec).badLines = s.badLines := rfl
@[simp] theorem signal_peerReqs (s : State) (fn vec : Nat) : (s.signal fn vec).peerReqs = s.peerReqs := rfl
@[simp] theorem signal_peerServes (s : State) (fn vec : Nat) : (s.signal fn vec).peerServes = s.peerServes := rfl
@[simp] theorem signal_ports (s : State) (fn vec : Nat) : (s.signal fn vec).ports = s.ports := rfl
@[simp] theorem signal_outbox (s : State) (fn vec : Nat) : (s.signal fn vec).outbox = s.outbox := rfl
@[simp] theorem signal_lost (s : State) (fn vec : Nat) : (s.signal fn vec).lost = s.lost := rfl
@[simp] theorem signal_nextTag (s : State) (fn vec : Nat) : (s.signal fn vec).nextTag = s.nextTag := rfl
@[simp] theorem signal_transls (s : State) (fn vec : Nat) : (s.signal fn vec).transls = s.transls := rfl
@[simp] theorem signal_scanDue (s : State) (fn vec : Nat) : (s.signal fn vec).scanDue = s.scanDue := rfl

@[simp] theorem draw_schedule (s : State) : (s.draw.2).schedule = s.schedule := rfl
@[simp] theorem draw_cur (s : State) : (s.draw.2).cur = s.cur := rfl
@[simp] theorem draw_clock (s : State) : (s.draw.2).clock = s.clock := rfl
@[simp] theorem draw_issued (s : State) : (s.draw.2).issued = s.issued := rfl
@[simp] theorem draw_mem (s : State) : (s.draw.2).mem = s.mem := rfl
@[simp] theorem draw_hostMem (s : State) : (s.draw.2).hostMem = s.hostMem := rfl
@[simp] theorem draw_failed (s : State) : (s.draw.2).failed = s.failed := rfl
@[simp] theorem draw_oldCode (s : State) : (s.draw.2).oldCode = s.oldCode := rfl
@[simp] theorem draw_oldSeq (s : State) : (s.draw.2).oldSeq = s.oldSeq := rfl
@[simp] theorem draw_groups (s : State) : (s.draw.2).groups = s.groups := rfl
@[simp] theorem draw_teams (s : State) : (s.draw.2).teams = s.teams := rfl
@[simp] theorem draw_clusters (s : State) : (s.draw.2).clusters = s.clusters := rfl
@[simp] theorem draw_grids (s : State) : (s.draw.2).grids = s.grids := rfl
@[simp] theorem draw_heldGrids (s : State) : (s.draw.2).heldGrids = s.heldGrids := rfl
@[simp] theorem draw_usersDue (s : State) : (s.draw.2).usersDue = s.usersDue := rfl
@[simp] theorem draw_cores (s : State) : (s.draw.2).cores = s.cores := rfl
@[simp] theorem draw_bins (s : State) : (s.draw.2).bins = s.bins := rfl
@[simp] theorem draw_blockQ (s : State) : (s.draw.2).blockQ = s.blockQ := rfl
@[simp] theorem draw_cmds (s : State) : (s.draw.2).cmds = s.cmds := rfl
@[simp] theorem draw_walks (s : State) : (s.draw.2).walks = s.walks := rfl
@[simp] theorem draw_due (s : State) : (s.draw.2).due = s.due := rfl
@[simp] theorem draw_loose (s : State) : (s.draw.2).loose = s.loose := rfl
@[simp] theorem draw_nextId (s : State) : (s.draw.2).nextId = s.nextId := rfl
@[simp] theorem draw_tlb (s : State) : (s.draw.2).tlb = s.tlb := rfl
@[simp] theorem draw_roots (s : State) : (s.draw.2).roots = s.roots := rfl
@[simp] theorem draw_apers (s : State) : (s.draw.2).apers = s.apers := rfl
@[simp] theorem draw_parked (s : State) : (s.draw.2).parked = s.parked := rfl
@[simp] theorem draw_serving (s : State) : (s.draw.2).serving = s.serving := rfl
@[simp] theorem draw_misses (s : State) : (s.draw.2).misses = s.misses := rfl
@[simp] theorem draw_migrations (s : State) : (s.draw.2).migrations = s.migrations := rfl
@[simp] theorem draw_accums (s : State) : (s.draw.2).accums = s.accums := rfl
@[simp] theorem draw_round (s : State) : (s.draw.2).round = s.round := rfl
@[simp] theorem draw_seqs (s : State) : (s.draw.2).seqs = s.seqs := rfl
@[simp] theorem draw_lastKey (s : State) : (s.draw.2).lastKey = s.lastKey := rfl
@[simp] theorem draw_ticket (s : State) : (s.draw.2).ticket = s.ticket := rfl
@[simp] theorem draw_hdm (s : State) : (s.draw.2).hdm = s.hdm := rfl
@[simp] theorem draw_bar0 (s : State) : (s.draw.2).bar0 = s.bar0 := rfl
@[simp] theorem draw_wireCount (s : State) : (s.draw.2).wireCount = s.wireCount := rfl
@[simp] theorem draw_wireForce (s : State) : (s.draw.2).wireForce = s.wireForce := rfl
@[simp] theorem draw_wireGot (s : State) : (s.draw.2).wireGot = s.wireGot := rfl
@[simp] theorem draw_wireLast (s : State) : (s.draw.2).wireLast = s.wireLast := rfl
@[simp] theorem draw_notices (s : State) : (s.draw.2).notices = s.notices := rfl
@[simp] theorem draw_ringWait (s : State) : (s.draw.2).ringWait = s.ringWait := rfl
@[simp] theorem draw_port (s : State) : (s.draw.2).port = s.port := rfl
@[simp] theorem draw_serials (s : State) : (s.draw.2).serials = s.serials := rfl
@[simp] theorem draw_chunkedSlots (s : State) : (s.draw.2).chunkedSlots = s.chunkedSlots := rfl
@[simp] theorem draw_beat (s : State) : (s.draw.2).beat = s.beat := rfl
@[simp] theorem draw_d3hot (s : State) : (s.draw.2).d3hot = s.d3hot := rfl
@[simp] theorem draw_throttle (s : State) : (s.draw.2).throttle = s.throttle := rfl
@[simp] theorem draw_hotAt (s : State) : (s.draw.2).hotAt = s.hotAt := rfl
@[simp] theorem draw_powered (s : State) : (s.draw.2).powered = s.powered := rfl
@[simp] theorem draw_vc (s : State) : (s.draw.2).vc = s.vc := rfl
@[simp] theorem draw_sent (s : State) : (s.draw.2).sent = s.sent := rfl
@[simp] theorem draw_inbox (s : State) : (s.draw.2).inbox = s.inbox := rfl
@[simp] theorem draw_peerLines (s : State) : (s.draw.2).peerLines = s.peerLines := rfl
@[simp] theorem draw_badLines (s : State) : (s.draw.2).badLines = s.badLines := rfl
@[simp] theorem draw_peerReqs (s : State) : (s.draw.2).peerReqs = s.peerReqs := rfl
@[simp] theorem draw_peerServes (s : State) : (s.draw.2).peerServes = s.peerServes := rfl
@[simp] theorem draw_ports (s : State) : (s.draw.2).ports = s.ports := rfl
@[simp] theorem draw_outbox (s : State) : (s.draw.2).outbox = s.outbox := rfl
@[simp] theorem draw_lost (s : State) : (s.draw.2).lost = s.lost := rfl
@[simp] theorem draw_nextTag (s : State) : (s.draw.2).nextTag = s.nextTag := rfl
@[simp] theorem draw_transls (s : State) : (s.draw.2).transls = s.transls := rfl
@[simp] theorem draw_scanDue (s : State) : (s.draw.2).scanDue = s.scanDue := rfl
@[simp] theorem draw_out (s : State) : (s.draw.2).out = s.out := rfl

@[simp] theorem fresh_schedule (s : State) : (s.fresh.2).schedule = s.schedule := rfl
@[simp] theorem fresh_cur (s : State) : (s.fresh.2).cur = s.cur := rfl
@[simp] theorem fresh_free (s : State) : (s.fresh.2).free = s.free := rfl
@[simp] theorem fresh_clock (s : State) : (s.fresh.2).clock = s.clock := rfl
@[simp] theorem fresh_issued (s : State) : (s.fresh.2).issued = s.issued := rfl
@[simp] theorem fresh_mem (s : State) : (s.fresh.2).mem = s.mem := rfl
@[simp] theorem fresh_hostMem (s : State) : (s.fresh.2).hostMem = s.hostMem := rfl
@[simp] theorem fresh_failed (s : State) : (s.fresh.2).failed = s.failed := rfl
@[simp] theorem fresh_oldCode (s : State) : (s.fresh.2).oldCode = s.oldCode := rfl
@[simp] theorem fresh_oldSeq (s : State) : (s.fresh.2).oldSeq = s.oldSeq := rfl
@[simp] theorem fresh_groups (s : State) : (s.fresh.2).groups = s.groups := rfl
@[simp] theorem fresh_teams (s : State) : (s.fresh.2).teams = s.teams := rfl
@[simp] theorem fresh_clusters (s : State) : (s.fresh.2).clusters = s.clusters := rfl
@[simp] theorem fresh_grids (s : State) : (s.fresh.2).grids = s.grids := rfl
@[simp] theorem fresh_heldGrids (s : State) : (s.fresh.2).heldGrids = s.heldGrids := rfl
@[simp] theorem fresh_usersDue (s : State) : (s.fresh.2).usersDue = s.usersDue := rfl
@[simp] theorem fresh_cores (s : State) : (s.fresh.2).cores = s.cores := rfl
@[simp] theorem fresh_bins (s : State) : (s.fresh.2).bins = s.bins := rfl
@[simp] theorem fresh_blockQ (s : State) : (s.fresh.2).blockQ = s.blockQ := rfl
@[simp] theorem fresh_cmds (s : State) : (s.fresh.2).cmds = s.cmds := rfl
@[simp] theorem fresh_walks (s : State) : (s.fresh.2).walks = s.walks := rfl
@[simp] theorem fresh_due (s : State) : (s.fresh.2).due = s.due := rfl
@[simp] theorem fresh_loose (s : State) : (s.fresh.2).loose = s.loose := rfl
@[simp] theorem fresh_tlb (s : State) : (s.fresh.2).tlb = s.tlb := rfl
@[simp] theorem fresh_roots (s : State) : (s.fresh.2).roots = s.roots := rfl
@[simp] theorem fresh_apers (s : State) : (s.fresh.2).apers = s.apers := rfl
@[simp] theorem fresh_parked (s : State) : (s.fresh.2).parked = s.parked := rfl
@[simp] theorem fresh_serving (s : State) : (s.fresh.2).serving = s.serving := rfl
@[simp] theorem fresh_misses (s : State) : (s.fresh.2).misses = s.misses := rfl
@[simp] theorem fresh_migrations (s : State) : (s.fresh.2).migrations = s.migrations := rfl
@[simp] theorem fresh_accums (s : State) : (s.fresh.2).accums = s.accums := rfl
@[simp] theorem fresh_round (s : State) : (s.fresh.2).round = s.round := rfl
@[simp] theorem fresh_seqs (s : State) : (s.fresh.2).seqs = s.seqs := rfl
@[simp] theorem fresh_lastKey (s : State) : (s.fresh.2).lastKey = s.lastKey := rfl
@[simp] theorem fresh_ticket (s : State) : (s.fresh.2).ticket = s.ticket := rfl
@[simp] theorem fresh_hdm (s : State) : (s.fresh.2).hdm = s.hdm := rfl
@[simp] theorem fresh_bar0 (s : State) : (s.fresh.2).bar0 = s.bar0 := rfl
@[simp] theorem fresh_wireCount (s : State) : (s.fresh.2).wireCount = s.wireCount := rfl
@[simp] theorem fresh_wireForce (s : State) : (s.fresh.2).wireForce = s.wireForce := rfl
@[simp] theorem fresh_wireGot (s : State) : (s.fresh.2).wireGot = s.wireGot := rfl
@[simp] theorem fresh_wireLast (s : State) : (s.fresh.2).wireLast = s.wireLast := rfl
@[simp] theorem fresh_notices (s : State) : (s.fresh.2).notices = s.notices := rfl
@[simp] theorem fresh_ringWait (s : State) : (s.fresh.2).ringWait = s.ringWait := rfl
@[simp] theorem fresh_port (s : State) : (s.fresh.2).port = s.port := rfl
@[simp] theorem fresh_serials (s : State) : (s.fresh.2).serials = s.serials := rfl
@[simp] theorem fresh_chunkedSlots (s : State) : (s.fresh.2).chunkedSlots = s.chunkedSlots := rfl
@[simp] theorem fresh_beat (s : State) : (s.fresh.2).beat = s.beat := rfl
@[simp] theorem fresh_d3hot (s : State) : (s.fresh.2).d3hot = s.d3hot := rfl
@[simp] theorem fresh_throttle (s : State) : (s.fresh.2).throttle = s.throttle := rfl
@[simp] theorem fresh_hotAt (s : State) : (s.fresh.2).hotAt = s.hotAt := rfl
@[simp] theorem fresh_powered (s : State) : (s.fresh.2).powered = s.powered := rfl
@[simp] theorem fresh_vc (s : State) : (s.fresh.2).vc = s.vc := rfl
@[simp] theorem fresh_sent (s : State) : (s.fresh.2).sent = s.sent := rfl
@[simp] theorem fresh_inbox (s : State) : (s.fresh.2).inbox = s.inbox := rfl
@[simp] theorem fresh_peerLines (s : State) : (s.fresh.2).peerLines = s.peerLines := rfl
@[simp] theorem fresh_badLines (s : State) : (s.fresh.2).badLines = s.badLines := rfl
@[simp] theorem fresh_peerReqs (s : State) : (s.fresh.2).peerReqs = s.peerReqs := rfl
@[simp] theorem fresh_peerServes (s : State) : (s.fresh.2).peerServes = s.peerServes := rfl
@[simp] theorem fresh_ports (s : State) : (s.fresh.2).ports = s.ports := rfl
@[simp] theorem fresh_outbox (s : State) : (s.fresh.2).outbox = s.outbox := rfl
@[simp] theorem fresh_lost (s : State) : (s.fresh.2).lost = s.lost := rfl
@[simp] theorem fresh_nextTag (s : State) : (s.fresh.2).nextTag = s.nextTag := rfl
@[simp] theorem fresh_transls (s : State) : (s.fresh.2).transls = s.transls := rfl
@[simp] theorem fresh_scanDue (s : State) : (s.fresh.2).scanDue = s.scanDue := rfl
@[simp] theorem fresh_out (s : State) : (s.fresh.2).out = s.out := rfl

end State

end Sys2Proof.Machine
end

