-- ==== Sys2Proof/Laws/Split.lean ====
section
/-! SUPPORT. The current split, its group, team and registers after an update of the state. -/

namespace Sys2Proof.Machine

/-- An update keeps a group's identity. -/
def KeepsGid (f : Group → Group) : Prop := ∀ g, (f g).gid = g.gid

/-- An update keeps a split's number. -/
def KeepsId (f : Split → Split) : Prop := ∀ p, (f p).id = p.id

theorem find?_map_of {α : Type} (l : List α) (f : α → α) (p : α → Bool) (h : ∀ x, p (f x) = p x) :
    (l.map f).find? p = (l.find? p).map f := by
  induction l with
  | nil => rfl
  | cons x r ih =>
    simp only [List.map_cons, List.find?_cons, h]
    cases p x <;> simp [ih]

@[simp] theorem Group.setSplit_gid (g : Group) (id : Nat) (f : Split → Split) : (g.setSplit id f).gid = g.gid := rfl
@[simp] theorem Group.setSplit_tid (g : Group) (id : Nat) (f : Split → Split) : (g.setSplit id f).tid = g.tid := rfl
@[simp] theorem Group.setSplit_core (g : Group) (id : Nat) (f : Split → Split) : (g.setSplit id f).core = g.core := rfl
@[simp] theorem Group.setSplit_index (g : Group) (id : Nat) (f : Split → Split) : (g.setSplit id f).index = g.index := rfl
@[simp] theorem Group.setSplit_regs (g : Group) (id : Nat) (f : Split → Split) : (g.setSplit id f).regs = g.regs := rfl
@[simp] theorem Group.setSplit_saved (g : Group) (id : Nat) (f : Split → Split) : (g.setSplit id f).saved = g.saved := rfl
@[simp] theorem Group.setSplit_chunked (g : Group) (id : Nat) (f : Split → Split) : (g.setSplit id f).chunked = g.chunked := rfl
@[simp] theorem Group.setSplit_ll (g : Group) (id : Nat) (f : Split → Split) : (g.setSplit id f).ll = g.ll := rfl
@[simp] theorem Group.setSplit_ext (g : Group) (id : Nat) (f : Split → Split) : (g.setSplit id f).ext = g.ext := rfl
@[simp] theorem Group.setSplit_fpflags (g : Group) (id : Nat) (f : Split → Split) :
    (g.setSplit id f).fpflags = g.fpflags := rfl
@[simp] theorem Group.setSplit_mxflags (g : Group) (id : Nat) (f : Split → Split) :
    (g.setSplit id f).mxflags = g.mxflags := rfl
@[simp] theorem Group.setSplit_xflags (g : Group) (id : Nat) (f : Split → Split) :
    (g.setSplit id f).xflags = g.xflags := rfl
@[simp] theorem Group.setSplit_chunksq (g : Group) (id : Nat) (f : Split → Split) :
    (g.setSplit id f).chunksq = g.chunksq := rfl

theorem Group.setSplit_split? (g : Group) (id n : Nat) (f : Split → Split) (h : KeepsId f) :
    (g.setSplit id f).split? n = (g.split? n).map (fun p => if p.id == id then f p else p) := by
  refine find?_map_of _ _ _ (fun p => ?_)
  by_cases hp : (p.id == id) = true <;> simp [hp, h p]

namespace State

theorem modGroup_group? (s : State) (gid x : Nat) (f : Group → Group) (h : KeepsGid f) :
    (s.modGroup gid f).group? x = (s.group? x).map (fun g => if g.gid == gid then f g else g) := by
  refine find?_map_of _ _ _ (fun g => ?_)
  by_cases hg : (g.gid == gid) = true <;> simp [hg, h g]

theorem group?_gid {s : State} {x : Nat} {g : Group} (h : s.group? x = some g) : g.gid = x := by
  simpa using List.find?_some h

theorem split?_id {g : Group} {x : Nat} {p : Split} (h : g.split? x = some p) : p.id = x := by
  simpa using List.find?_some h

/-- A group other than the updated one is as before. -/
theorem modGroup_other (s : State) (gid x : Nat) (f : Group → Group) (h : KeepsGid f) (hx : x ≠ gid) :
    (s.modGroup gid f).group? x = s.group? x := by
  rw [modGroup_group? s gid x f h]
  cases hg : s.group? x with
  | none => rfl
  | some g => simp [group?_gid hg, hx]

theorem hasCur_iff (s : State) : s.hasCur = true ↔
    ∃ g p, s.group? s.cur.1 = some g ∧ g.saved = false ∧ g.split? s.cur.2 = some p := by
  unfold hasCur
  cases h : s.group? s.cur.1 with
  | none => simp
  | some g =>
    cases hp : g.split? s.cur.2 <;> simp [hp]

/-- The current group is the one that the current split names. -/
theorem g_of (s : State) (g : Group) (h : s.group? s.cur.1 = some g) : s.g = g := by simp [State.g, h]

theorem sp_of (s : State) (p : Split) (h : s.g.split? s.cur.2 = some p) : s.sp = p := by simp [State.sp, h]

theorem cur_some {s : State} (h : s.hasCur = true) :
    s.group? s.cur.1 = some s.g ∧ s.g.split? s.cur.2 = some s.sp ∧ s.g.saved = false := by
  obtain ⟨g, p, hg, hs, hp⟩ := (hasCur_iff s).mp h
  have e := g_of s g hg
  rw [← e] at hp
  rw [sp_of s p hp, e]
  rw [e] at hp
  exact ⟨hg, hp, hs⟩

theorem modG_g (s : State) (f : Group → Group) (h : KeepsGid f) (hc : s.hasCur = true) : (s.modG f).g = f s.g := by
  have hg := (cur_some hc).1
  have : (s.modG f).group? (s.modG f).cur.1 = some (f s.g) := by
    rw [modG_cur, modG, modGroup_group? s _ _ f h, hg]
    simp [group?_gid hg]
  exact g_of _ _ this

theorem keepsGid_setSplit (id : Nat) (f : Split → Split) : KeepsGid (fun g => g.setSplit id f) := fun _ => rfl

theorem modSp_g (s : State) (f : Split → Split) : (s.modSp f).g = s.g.setSplit s.cur.2 f := by
  have h := modGroup_group? s s.cur.1 s.cur.1 _ (keepsGid_setSplit s.cur.2 f)
  unfold State.g
  rw [modSp_cur, modSp, modSplitOf, h]
  cases hg : s.group? s.cur.1 with
  | none => rfl
  | some g => simp [group?_gid hg]

theorem modSp_sp (s : State) (f : Split → Split) (h : KeepsId f) (hc : s.hasCur = true) : (s.modSp f).sp = f s.sp := by
  have hp := (cur_some hc).2.1
  refine sp_of _ _ ?_
  rw [modSp_g, modSp_cur, Group.setSplit_split? _ _ _ _ h, hp]
  simp [split?_id hp]

theorem modG_hasCur (s : State) (f : Group → Group) (h : KeepsGid f) (hs : ∀ g, (f g).saved = g.saved)
    (hp : ∀ g n, ((f g).split? n).isSome = (g.split? n).isSome) : (s.modG f).hasCur = s.hasCur := by
  unfold hasCur
  rw [modG_cur, modG, modGroup_group? s _ _ f h]
  cases hg : s.group? s.cur.1 with
  | none => rfl
  | some g => simp [group?_gid hg, hs, hp]

theorem modSp_hasCur (s : State) (f : Split → Split) (h : KeepsId f) : (s.modSp f).hasCur = s.hasCur := by
  refine modG_hasCur s _ (keepsGid_setSplit _ _) (fun _ => rfl) (fun g n => ?_)
  rw [Group.setSplit_split? g _ n f h]
  simp

@[simp] theorem modSp_regs (s : State) (f : Split → Split) : (s.modSp f).regs = s.regs := by
  simp [State.regs, modSp_g]

@[simp] theorem modSp_chunkedMode (s : State) (f : Split → Split) : (s.modSp f).chunkedMode = s.chunkedMode := by
  simp [chunkedMode, modSp_g]

@[simp] theorem modSp_t (s : State) (f : Split → Split) : (s.modSp f).t = s.t := by
  simp [State.t, teamOf, team?, modSp_g]

@[simp] theorem modSp_gr (s : State) (f : Split → Split) : (s.modSp f).gr = s.gr := by
  simp [State.gr, gridOf, clusterOf, teamOf, team?, cluster?, grid?, modSp_g]

@[simp] theorem modSp_cl (s : State) (f : Split → Split) : (s.modSp f).cl = s.cl := by
  simp [State.cl, clusterOf, teamOf, team?, cluster?, modSp_g]

theorem modRegs_regs (s : State) (f : Regs → Regs) (hc : s.hasCur = true) : (s.modRegs f).regs = f s.regs := by
  simp [State.regs, modRegs, modG_g s (fun g => { g with regs := f g.regs }) (fun _ => rfl) hc]

theorem modRegs_sp (s : State) (f : Regs → Regs) (hc : s.hasCur = true) : (s.modRegs f).sp = s.sp := by
  simp [State.sp, modRegs, modG_g s (fun g => { g with regs := f g.regs }) (fun _ => rfl) hc, Group.split?]

@[simp] theorem modRegs_hasCur (s : State) (f : Regs → Regs) : (s.modRegs f).hasCur = s.hasCur :=
  modG_hasCur s _ (fun _ => rfl) (fun _ => rfl) (fun _ _ => rfl)

end State

end Sys2Proof.Machine
end

