-- ==== Sys2Proof/Laws/Core.lean ====
section
/-! SUPPORT. What surrounds the own effect of a core instruction: the gate, the chunk that begins, and what follows. -/

namespace Sys2Proof.Machine

open Sys2Proof

theorem Uses.mem_srcs {u : Uses} {r : Reg} (h : r ∈ u.fe0 ∨ r ∈ u.fe1 ∨ r ∈ u.fe2) : r ∈ u.srcs := by
  simp only [Uses.srcs, List.mem_append]
  rcases h with h | h | h <;> simp [h]

/-- A ready instruction goes through the gate, in the state in which its chunk is open. -/
theorem gate_ready (i : Instr) (s : State) (h : ready i s = true) : gate i s = .go (begun i s) := by
  have not_any : ∀ (l : List Reg) (f : Reg → Bool), (∀ r ∈ l, f r = false) → l.any f = false := by
    intro l f hl
    rw [List.any_eq_false]
    intro r hm
    simp [hl r hm]
  simp only [ready, State.idle, lawful, operandsReady, mayAct, Bool.and_eq_true] at h
  obtain ⟨⟨⟨⟨hc, ⟨⟨⟨⟨⟨hp, hpl⟩, hf⟩, hb⟩, hba⟩, hcl⟩, hpk⟩, ⟨hl, hk⟩, hpr⟩, ⟨⟨hr, hs⟩, hd⟩, hh⟩, hq⟩ := h
  rw [List.all_eq_true] at hr hs hd hpk
  have e1 : s.sp.pend.isSome = false := by cases hx : s.sp.pend <;> simp_all
  have e2 : (!s.sp.plan.isEmpty || s.sp.feDone != 0) = false := by
    rw [hpl, eq_of_beq hf]; rfl
  have e3 : s.sp.born.isSome = false := by cases hx : s.sp.born <;> simp_all
  have e4 : s.sp.bar.isSome = false := by cases hx : s.sp.bar <;> simp_all
  have e5 : s.parked.any (fun q => q.who == s.cur) = false := by
    rw [List.any_eq_false]
    intro q hq
    have := hpk q hq
    simpa using this
  have e6 : (usesIn i s.g.regs).regs.any (fun r => !s.hasReg s.g r) = false :=
    not_any _ _ (fun r hm => by have := hr r hm; simp only [Bool.and_eq_true] at this; simp [this.1])
  have e7 : (usesIn i s.g.regs).regs.any (fun r => s.postedReg s.g r) = false :=
    not_any _ _ (fun r hm => by have := hr r hm; simp only [Bool.and_eq_true] at this; simpa using this.2)
  have full : ∀ l : List Reg, (∀ r ∈ l, r ∈ (usesIn i s.g.regs).srcs) → l.any s.g.emptyReg = false :=
    fun l hl => not_any _ _ (fun r hm => by simpa using hs r (hl r hm))
  have e8 := full (usesIn i s.g.regs).srcs (fun r hm => hm)
  have e9 : (usesIn i s.g.regs).dst.any s.g.emptyReg = false := not_any _ _ (fun r hm => by simpa using hd r hm)
  have f0 := full (usesIn i s.g.regs).fe0 (fun r hm => Uses.mem_srcs (.inl hm))
  have f1 := full (usesIn i s.g.regs).fe1 (fun r hm => Uses.mem_srcs (.inr (.inl hm)))
  have f2 := full (usesIn i s.g.regs).fe2 (fun r hm => Uses.mem_srcs (.inr (.inr hm)))
  have hpriv : privBad i (s.gridOf s.g) = false := by simpa using hpr
  rw [Bool.not_eq_true'] at hh hcl
  unfold gate
  by_cases hm : s.chunkedMode = true
  · rw [if_pos hm] at hq
    rw [hm, Bool.true_and] at hh
    by_cases hbb : boundaryBefore i = true
    · cases hx : s.sp.chunk with
      | some c => simp [hx, hbb] at hq
      | none =>
        simp only [e1, e2, e3, e4, hcl, e5, e6, e7, e8, e9, f0, f1, f2, hl, hk, hpriv, hm, hbb, hx, hh, Bool.not_true,
          Bool.false_and, Bool.and_false, Bool.or_self, Bool.false_eq_true, if_false, if_true, begun]
    · rw [Bool.not_eq_true] at hbb
      cases hx : s.sp.chunk with
      | some c =>
        simp only [e1, e2, e3, e4, hcl, e5, e6, e7, e8, e9, f0, f1, f2, hl, hk, hpriv, hm, hbb, hx, hh, Bool.not_true,
          Bool.not_false, Bool.true_and, Bool.and_false, Bool.or_self, Bool.false_eq_true, if_false, begun,
          Option.isNone_some]
      | none =>
        have hpair : pairFree s = true := by simpa [hx, hbb] using hq
        simp only [e1, e2, e3, e4, hcl, e5, e6, e7, e8, e9, f0, f1, f2, hl, hk, hpriv, hm, hbb, hx, hh, hpair, Bool.not_true,
          Bool.not_false, Bool.true_and, Bool.and_false, Bool.or_self, Bool.false_eq_true, if_false, if_true, begun,
          Option.isNone_none]
  · rw [if_neg hm, Bool.and_eq_true] at hq
    rw [Bool.not_eq_true] at hm
    obtain ⟨hx, ho⟩ := hq
    rw [Option.isNone_iff_eq_none] at hx
    have hdr : (storesFirst i ((s.gridOf s.g).bound.any (fun b => b.hdr.rev == 0)) s.sp && !idle i s) = false := by
      rw [Bool.or_eq_true, Bool.not_eq_true'] at ho
      rcases ho with ho | ho <;> simp [ho]
    simp only [e1, e2, e3, e4, hcl, e5, e6, e7, e8, e9, f0, f1, f2, hl, hk, hpriv, hm, hx, hdr, Bool.not_true,
      Bool.not_false, Bool.false_and, Bool.and_false, Bool.or_self, Bool.false_eq_true, if_false, if_true, begun]

/-- A ready instruction has its own effect, and the machine goes on from what that answers. -/
theorem core_ready (i : Instr) (body : State → Act) (s : State) (h : ready i s = true) :
    core i body s = match body (begun i s) with
      | .done s2 => .next (finish i false (begun i s) s2)
      | .jump s2 => .next (finish i true (begun i s) s2)
      | .trap c m => .next (raiseTrap (begun i s) c m false {})
      | .complete c m wr s2 => .next (raiseTrap s2 c m true wr)
      | .part c m s2 => .next (raiseTrap s2 c m false {})
      | .wait w s2 => .next (dropEmptyChunk (s2.modSp (fun p => { p with wait := some w })))
      | .cut => .next ((closeChunk (begun i s) false).modSp (fun p => { p with wait := some .commit }))
      | .fault f => .fault f := by
  have hc : s.hasCur = true := by
    simp only [ready, Bool.and_eq_true] at h
    exact h.1.1.1.1
  unfold core
  rw [if_pos hc, gate_ready i s h]
  all_goals (dsimp only; cases body (begun i s) <;> rfl)

/-- An instruction that acts goes on at the next word. -/
theorem core_done (i : Instr) (body : State → Act) (s s2 : State) (h : ready i s = true)
    (hb : body (begun i s) = .done s2) : core i body s = .next (finish i false (begun i s) s2) := by
  rw [core_ready i body s h, hb]

end Sys2Proof.Machine
end

