-- ==== Sys2Proof/Laws/Encode.lean ====
section
/-! SUPPORT. A word's fields are those it was encoded from, format by format, and its opcode is the one encoded. -/

namespace Sys2Proof

/-- A field above the lower part of a word lies in the upper part. -/
theorem fld_above {a b : Nat} (x : BitVec a) (y : BitVec b) (lo n : Nat) (h : b ≤ lo) :
    (x ++ y).extractLsb' lo n = x.extractLsb' (lo - b) n := by
  apply BitVec.eq_of_getLsbD_eq
  intro i _
  simp only [BitVec.getLsbD_extractLsb', BitVec.getLsbD_append, show ¬(lo + i < b) by omega, if_false,
    show lo + i - b = lo - b + i by omega]

/-- The lower part of a word, as a field. -/
theorem fld_low {a b : Nat} (x : BitVec a) (y : BitVec b) : (x ++ y).extractLsb' 0 b = y := by
  apply BitVec.eq_of_getLsbD_eq
  intro i hi
  simp [BitVec.getLsbD_append, hi]

/-- The opcode of a word as a field. -/
theorem opc_fld (w : Word) : w.toNat / 2 ^ 56 = (fld w 56 8).toNat := by
  have h := w.isLt
  simp only [BitVec.extractLsb'_toNat, Nat.shiftRight_eq_div_pow]
  omega

/-- A bit of a word as a field. -/
theorem bit_fld (w : Word) (k : Nat) (b : Bool) (h : fld w k 1 = BitVec.ofBool b) : w.getLsbD k = b := by
  have := congrArg (fun x : BitVec 1 => x.getLsbD 0) h
  simpa [BitVec.getLsbD_extractLsb'] using this


theorem decR_encR (o : Nat) (w : RWord) : decR (encR o w) = w := by
  obtain ⟨⟨pn, pg, fe⟩, d, a, b, c, m⟩ := w
  have hpn : fld (encR o ⟨⟨pn, pg, fe⟩, d, a, b, c, m⟩) 55 1 = BitVec.ofBool pn :=
    (fld_above (b := 8) _ _ 55 1 (by decide)).trans ((fld_above (b := 10) _ _ 47 1 (by decide)).trans ((fld_above (b := 10) _ _ 37 1 (by decide)).trans ((fld_above (b := 10) _ _ 27 1 (by decide)).trans ((fld_above (b := 10) _ _ 17 1 (by decide)).trans ((fld_above (b := 3) _ _ 7 1 (by decide)).trans ((fld_above (b := 4) _ _ 4 1 (by decide)).trans ((fld_low (b := 1) _ _))))))))
  have hpg : fld (encR o ⟨⟨pn, pg, fe⟩, d, a, b, c, m⟩) 51 4 = pg :=
    (fld_above (b := 8) _ _ 51 4 (by decide)).trans ((fld_above (b := 10) _ _ 43 4 (by decide)).trans ((fld_above (b := 10) _ _ 33 4 (by decide)).trans ((fld_above (b := 10) _ _ 23 4 (by decide)).trans ((fld_above (b := 10) _ _ 13 4 (by decide)).trans ((fld_above (b := 3) _ _ 3 4 (by decide)).trans ((fld_low (b := 4) _ _)))))))
  have hfe : fld (encR o ⟨⟨pn, pg, fe⟩, d, a, b, c, m⟩) 48 3 = fe :=
    (fld_above (b := 8) _ _ 48 3 (by decide)).trans ((fld_above (b := 10) _ _ 40 3 (by decide)).trans ((fld_above (b := 10) _ _ 30 3 (by decide)).trans ((fld_above (b := 10) _ _ 20 3 (by decide)).trans ((fld_above (b := 10) _ _ 10 3 (by decide)).trans ((fld_low (b := 3) _ _))))))
  have hd : fld (encR o ⟨⟨pn, pg, fe⟩, d, a, b, c, m⟩) 38 10 = d :=
    (fld_above (b := 8) _ _ 38 10 (by decide)).trans ((fld_above (b := 10) _ _ 30 10 (by decide)).trans ((fld_above (b := 10) _ _ 20 10 (by decide)).trans ((fld_above (b := 10) _ _ 10 10 (by decide)).trans ((fld_low (b := 10) _ _)))))
  have ha : fld (encR o ⟨⟨pn, pg, fe⟩, d, a, b, c, m⟩) 28 10 = a :=
    (fld_above (b := 8) _ _ 28 10 (by decide)).trans ((fld_above (b := 10) _ _ 20 10 (by decide)).trans ((fld_above (b := 10) _ _ 10 10 (by decide)).trans ((fld_low (b := 10) _ _))))
  have hb : fld (encR o ⟨⟨pn, pg, fe⟩, d, a, b, c, m⟩) 18 10 = b :=
    (fld_above (b := 8) _ _ 18 10 (by decide)).trans ((fld_above (b := 10) _ _ 10 10 (by decide)).trans ((fld_low (b := 10) _ _)))
  have hc : fld (encR o ⟨⟨pn, pg, fe⟩, d, a, b, c, m⟩) 8 10 = c :=
    (fld_above (b := 8) _ _ 8 10 (by decide)).trans ((fld_low (b := 10) _ _))
  have hm : fld (encR o ⟨⟨pn, pg, fe⟩, d, a, b, c, m⟩) 0 8 = m :=
    (fld_low (b := 8) _ _)
  simp only [decR, decG, bit_fld _ _ _ hpn, hpg, hfe, hd, ha, hb, hc, hm]

theorem opc_encR (o : Nat) (h : o < 256) (w : RWord) : (encR o w).toNat / 2 ^ 56 = o := by
  have e : fld (encR o w) 56 8 = BitVec.ofNat 8 o :=
    (fld_above (b := 8) _ _ 56 8 (by decide)).trans ((fld_above (b := 10) _ _ 48 8 (by decide)).trans ((fld_above (b := 10) _ _ 38 8 (by decide)).trans ((fld_above (b := 10) _ _ 28 8 (by decide)).trans ((fld_above (b := 10) _ _ 18 8 (by decide)).trans ((fld_above (b := 3) _ _ 8 8 (by decide)).trans ((fld_above (b := 4) _ _ 5 8 (by decide)).trans ((fld_above (b := 1) _ _ 1 8 (by decide)).trans ((BitVec.extractLsb'_eq_self)))))))))
  rw [opc_fld, e, BitVec.toNat_ofNat]; omega


theorem decX_encX (o : Nat) (w : XWord) : decX (encX o w) = w := by
  obtain ⟨⟨pn, pg, fe⟩, rcd, crd, ctr, aux, code⟩ := w
  have hpn : fld (encX o ⟨⟨pn, pg, fe⟩, rcd, crd, ctr, aux, code⟩) 55 1 = BitVec.ofBool pn :=
    (fld_above (b := 8) _ _ 55 1 (by decide)).trans ((fld_above (b := 10) _ _ 47 1 (by decide)).trans ((fld_above (b := 10) _ _ 37 1 (by decide)).trans ((fld_above (b := 10) _ _ 27 1 (by decide)).trans ((fld_above (b := 10) _ _ 17 1 (by decide)).trans ((fld_above (b := 3) _ _ 7 1 (by decide)).trans ((fld_above (b := 4) _ _ 4 1 (by decide)).trans ((fld_low (b := 1) _ _))))))))
  have hpg : fld (encX o ⟨⟨pn, pg, fe⟩, rcd, crd, ctr, aux, code⟩) 51 4 = pg :=
    (fld_above (b := 8) _ _ 51 4 (by decide)).trans ((fld_above (b := 10) _ _ 43 4 (by decide)).trans ((fld_above (b := 10) _ _ 33 4 (by decide)).trans ((fld_above (b := 10) _ _ 23 4 (by decide)).trans ((fld_above (b := 10) _ _ 13 4 (by decide)).trans ((fld_above (b := 3) _ _ 3 4 (by decide)).trans ((fld_low (b := 4) _ _)))))))
  have hfe : fld (encX o ⟨⟨pn, pg, fe⟩, rcd, crd, ctr, aux, code⟩) 48 3 = fe :=
    (fld_above (b := 8) _ _ 48 3 (by decide)).trans ((fld_above (b := 10) _ _ 40 3 (by decide)).trans ((fld_above (b := 10) _ _ 30 3 (by decide)).trans ((fld_above (b := 10) _ _ 20 3 (by decide)).trans ((fld_above (b := 10) _ _ 10 3 (by decide)).trans ((fld_low (b := 3) _ _))))))
  have hrcd : fld (encX o ⟨⟨pn, pg, fe⟩, rcd, crd, ctr, aux, code⟩) 38 10 = rcd :=
    (fld_above (b := 8) _ _ 38 10 (by decide)).trans ((fld_above (b := 10) _ _ 30 10 (by decide)).trans ((fld_above (b := 10) _ _ 20 10 (by decide)).trans ((fld_above (b := 10) _ _ 10 10 (by decide)).trans ((fld_low (b := 10) _ _)))))
  have hcrd : fld (encX o ⟨⟨pn, pg, fe⟩, rcd, crd, ctr, aux, code⟩) 28 10 = crd :=
    (fld_above (b := 8) _ _ 28 10 (by decide)).trans ((fld_above (b := 10) _ _ 20 10 (by decide)).trans ((fld_above (b := 10) _ _ 10 10 (by decide)).trans ((fld_low (b := 10) _ _))))
  have hctr : fld (encX o ⟨⟨pn, pg, fe⟩, rcd, crd, ctr, aux, code⟩) 18 10 = ctr :=
    (fld_above (b := 8) _ _ 18 10 (by decide)).trans ((fld_above (b := 10) _ _ 10 10 (by decide)).trans ((fld_low (b := 10) _ _)))
  have haux : fld (encX o ⟨⟨pn, pg, fe⟩, rcd, crd, ctr, aux, code⟩) 8 10 = aux :=
    (fld_above (b := 8) _ _ 8 10 (by decide)).trans ((fld_low (b := 10) _ _))
  have hcode : fld (encX o ⟨⟨pn, pg, fe⟩, rcd, crd, ctr, aux, code⟩) 0 8 = code :=
    (fld_low (b := 8) _ _)
  simp only [decX, decG, bit_fld _ _ _ hpn, hpg, hfe, hrcd, hcrd, hctr, haux, hcode]

theorem opc_encX (o : Nat) (h : o < 256) (w : XWord) : (encX o w).toNat / 2 ^ 56 = o := by
  have e : fld (encX o w) 56 8 = BitVec.ofNat 8 o :=
    (fld_above (b := 8) _ _ 56 8 (by decide)).trans ((fld_above (b := 10) _ _ 48 8 (by decide)).trans ((fld_above (b := 10) _ _ 38 8 (by decide)).trans ((fld_above (b := 10) _ _ 28 8 (by decide)).trans ((fld_above (b := 10) _ _ 18 8 (by decide)).trans ((fld_above (b := 3) _ _ 8 8 (by decide)).trans ((fld_above (b := 4) _ _ 5 8 (by decide)).trans ((fld_above (b := 1) _ _ 1 8 (by decide)).trans ((BitVec.extractLsb'_eq_self)))))))))
  rw [opc_fld, e, BitVec.toNat_ofNat]; omega


theorem decQ_encQ (o : Nat) (w : QWord) : decQ (encQ o w) = w := by
  obtain ⟨⟨pn, pg, fe⟩, a, b, c, s, m⟩ := w
  have hpn : fld (encQ o ⟨⟨pn, pg, fe⟩, a, b, c, s, m⟩) 55 1 = BitVec.ofBool pn :=
    (fld_above (b := 8) _ _ 55 1 (by decide)).trans ((fld_above (b := 10) _ _ 47 1 (by decide)).trans ((fld_above (b := 10) _ _ 37 1 (by decide)).trans ((fld_above (b := 10) _ _ 27 1 (by decide)).trans ((fld_above (b := 10) _ _ 17 1 (by decide)).trans ((fld_above (b := 3) _ _ 7 1 (by decide)).trans ((fld_above (b := 4) _ _ 4 1 (by decide)).trans ((fld_low (b := 1) _ _))))))))
  have hpg : fld (encQ o ⟨⟨pn, pg, fe⟩, a, b, c, s, m⟩) 51 4 = pg :=
    (fld_above (b := 8) _ _ 51 4 (by decide)).trans ((fld_above (b := 10) _ _ 43 4 (by decide)).trans ((fld_above (b := 10) _ _ 33 4 (by decide)).trans ((fld_above (b := 10) _ _ 23 4 (by decide)).trans ((fld_above (b := 10) _ _ 13 4 (by decide)).trans ((fld_above (b := 3) _ _ 3 4 (by decide)).trans ((fld_low (b := 4) _ _)))))))
  have hfe : fld (encQ o ⟨⟨pn, pg, fe⟩, a, b, c, s, m⟩) 48 3 = fe :=
    (fld_above (b := 8) _ _ 48 3 (by decide)).trans ((fld_above (b := 10) _ _ 40 3 (by decide)).trans ((fld_above (b := 10) _ _ 30 3 (by decide)).trans ((fld_above (b := 10) _ _ 20 3 (by decide)).trans ((fld_above (b := 10) _ _ 10 3 (by decide)).trans ((fld_low (b := 3) _ _))))))
  have ha : fld (encQ o ⟨⟨pn, pg, fe⟩, a, b, c, s, m⟩) 38 10 = a :=
    (fld_above (b := 8) _ _ 38 10 (by decide)).trans ((fld_above (b := 10) _ _ 30 10 (by decide)).trans ((fld_above (b := 10) _ _ 20 10 (by decide)).trans ((fld_above (b := 10) _ _ 10 10 (by decide)).trans ((fld_low (b := 10) _ _)))))
  have hb : fld (encQ o ⟨⟨pn, pg, fe⟩, a, b, c, s, m⟩) 28 10 = b :=
    (fld_above (b := 8) _ _ 28 10 (by decide)).trans ((fld_above (b := 10) _ _ 20 10 (by decide)).trans ((fld_above (b := 10) _ _ 10 10 (by decide)).trans ((fld_low (b := 10) _ _))))
  have hc : fld (encQ o ⟨⟨pn, pg, fe⟩, a, b, c, s, m⟩) 18 10 = c :=
    (fld_above (b := 8) _ _ 18 10 (by decide)).trans ((fld_above (b := 10) _ _ 10 10 (by decide)).trans ((fld_low (b := 10) _ _)))
  have hs : fld (encQ o ⟨⟨pn, pg, fe⟩, a, b, c, s, m⟩) 8 10 = s :=
    (fld_above (b := 8) _ _ 8 10 (by decide)).trans ((fld_low (b := 10) _ _))
  have hm : fld (encQ o ⟨⟨pn, pg, fe⟩, a, b, c, s, m⟩) 0 8 = m :=
    (fld_low (b := 8) _ _)
  simp only [decQ, decG, bit_fld _ _ _ hpn, hpg, hfe, ha, hb, hc, hs, hm]

theorem opc_encQ (o : Nat) (h : o < 256) (w : QWord) : (encQ o w).toNat / 2 ^ 56 = o := by
  have e : fld (encQ o w) 56 8 = BitVec.ofNat 8 o :=
    (fld_above (b := 8) _ _ 56 8 (by decide)).trans ((fld_above (b := 10) _ _ 48 8 (by decide)).trans ((fld_above (b := 10) _ _ 38 8 (by decide)).trans ((fld_above (b := 10) _ _ 28 8 (by decide)).trans ((fld_above (b := 10) _ _ 18 8 (by decide)).trans ((fld_above (b := 3) _ _ 8 8 (by decide)).trans ((fld_above (b := 4) _ _ 5 8 (by decide)).trans ((fld_above (b := 1) _ _ 1 8 (by decide)).trans ((BitVec.extractLsb'_eq_self)))))))))
  rw [opc_fld, e, BitVec.toNat_ofNat]; omega


theorem decM_encM (o : Nat) (w : MWord) : decM (encM o w) = w := by
  obtain ⟨⟨pn, pg, fe⟩, d, a, b, scope, size, sub, off⟩ := w
  have hpn : fld (encM o ⟨⟨pn, pg, fe⟩, d, a, b, scope, size, sub, off⟩) 55 1 = BitVec.ofBool pn :=
    (fld_above (b := 9) _ _ 55 1 (by decide)).trans ((fld_above (b := 4) _ _ 46 1 (by decide)).trans ((fld_above (b := 3) _ _ 42 1 (by decide)).trans ((fld_above (b := 2) _ _ 39 1 (by decide)).trans ((fld_above (b := 10) _ _ 37 1 (by decide)).trans ((fld_above (b := 10) _ _ 27 1 (by decide)).trans ((fld_above (b := 10) _ _ 17 1 (by decide)).trans ((fld_above (b := 3) _ _ 7 1 (by decide)).trans ((fld_above (b := 4) _ _ 4 1 (by decide)).trans ((fld_low (b := 1) _ _))))))))))
  have hpg : fld (encM o ⟨⟨pn, pg, fe⟩, d, a, b, scope, size, sub, off⟩) 51 4 = pg :=
    (fld_above (b := 9) _ _ 51 4 (by decide)).trans ((fld_above (b := 4) _ _ 42 4 (by decide)).trans ((fld_above (b := 3) _ _ 38 4 (by decide)).trans ((fld_above (b := 2) _ _ 35 4 (by decide)).trans ((fld_above (b := 10) _ _ 33 4 (by decide)).trans ((fld_above (b := 10) _ _ 23 4 (by decide)).trans ((fld_above (b := 10) _ _ 13 4 (by decide)).trans ((fld_above (b := 3) _ _ 3 4 (by decide)).trans ((fld_low (b := 4) _ _)))))))))
  have hfe : fld (encM o ⟨⟨pn, pg, fe⟩, d, a, b, scope, size, sub, off⟩) 48 3 = fe :=
    (fld_above (b := 9) _ _ 48 3 (by decide)).trans ((fld_above (b := 4) _ _ 39 3 (by decide)).trans ((fld_above (b := 3) _ _ 35 3 (by decide)).trans ((fld_above (b := 2) _ _ 32 3 (by decide)).trans ((fld_above (b := 10) _ _ 30 3 (by decide)).trans ((fld_above (b := 10) _ _ 20 3 (by decide)).trans ((fld_above (b := 10) _ _ 10 3 (by decide)).trans ((fld_low (b := 3) _ _))))))))
  have hd : fld (encM o ⟨⟨pn, pg, fe⟩, d, a, b, scope, size, sub, off⟩) 38 10 = d :=
    (fld_above (b := 9) _ _ 38 10 (by decide)).trans ((fld_above (b := 4) _ _ 29 10 (by decide)).trans ((fld_above (b := 3) _ _ 25 10 (by decide)).trans ((fld_above (b := 2) _ _ 22 10 (by decide)).trans ((fld_above (b := 10) _ _ 20 10 (by decide)).trans ((fld_above (b := 10) _ _ 10 10 (by decide)).trans ((fld_low (b := 10) _ _)))))))
  have ha : fld (encM o ⟨⟨pn, pg, fe⟩, d, a, b, scope, size, sub, off⟩) 28 10 = a :=
    (fld_above (b := 9) _ _ 28 10 (by decide)).trans ((fld_above (b := 4) _ _ 19 10 (by decide)).trans ((fld_above (b := 3) _ _ 15 10 (by decide)).trans ((fld_above (b := 2) _ _ 12 10 (by decide)).trans ((fld_above (b := 10) _ _ 10 10 (by decide)).trans ((fld_low (b := 10) _ _))))))
  have hb : fld (encM o ⟨⟨pn, pg, fe⟩, d, a, b, scope, size, sub, off⟩) 18 10 = b :=
    (fld_above (b := 9) _ _ 18 10 (by decide)).trans ((fld_above (b := 4) _ _ 9 10 (by decide)).trans ((fld_above (b := 3) _ _ 5 10 (by decide)).trans ((fld_above (b := 2) _ _ 2 10 (by decide)).trans ((fld_low (b := 10) _ _)))))
  have hscope : fld (encM o ⟨⟨pn, pg, fe⟩, d, a, b, scope, size, sub, off⟩) 16 2 = scope :=
    (fld_above (b := 9) _ _ 16 2 (by decide)).trans ((fld_above (b := 4) _ _ 7 2 (by decide)).trans ((fld_above (b := 3) _ _ 3 2 (by decide)).trans ((fld_low (b := 2) _ _))))
  have hsize : fld (encM o ⟨⟨pn, pg, fe⟩, d, a, b, scope, size, sub, off⟩) 13 3 = size :=
    (fld_above (b := 9) _ _ 13 3 (by decide)).trans ((fld_above (b := 4) _ _ 4 3 (by decide)).trans ((fld_low (b := 3) _ _)))
  have hsub : fld (encM o ⟨⟨pn, pg, fe⟩, d, a, b, scope, size, sub, off⟩) 9 4 = sub :=
    (fld_above (b := 9) _ _ 9 4 (by decide)).trans ((fld_low (b := 4) _ _))
  have hoff : fld (encM o ⟨⟨pn, pg, fe⟩, d, a, b, scope, size, sub, off⟩) 0 9 = off :=
    (fld_low (b := 9) _ _)
  simp only [decM, decG, bit_fld _ _ _ hpn, hpg, hfe, hd, ha, hb, hscope, hsize, hsub, hoff]

theorem opc_encM (o : Nat) (h : o < 256) (w : MWord) : (encM o w).toNat / 2 ^ 56 = o := by
  have e : fld (encM o w) 56 8 = BitVec.ofNat 8 o :=
    (fld_above (b := 9) _ _ 56 8 (by decide)).trans ((fld_above (b := 4) _ _ 47 8 (by decide)).trans ((fld_above (b := 3) _ _ 43 8 (by decide)).trans ((fld_above (b := 2) _ _ 40 8 (by decide)).trans ((fld_above (b := 10) _ _ 38 8 (by decide)).trans ((fld_above (b := 10) _ _ 28 8 (by decide)).trans ((fld_above (b := 10) _ _ 18 8 (by decide)).trans ((fld_above (b := 3) _ _ 8 8 (by decide)).trans ((fld_above (b := 4) _ _ 5 8 (by decide)).trans ((fld_above (b := 1) _ _ 1 8 (by decide)).trans ((BitVec.extractLsb'_eq_self)))))))))))
  rw [opc_fld, e, BitVec.toNat_ofNat]; omega


theorem decB_encB (o : Nat) (w : BWord) : decB (encB o w) = w := by
  obtain ⟨⟨pn, pg, fe⟩, u, rsv, a, off⟩ := w
  have hpn : fld (encB o ⟨⟨pn, pg, fe⟩, u, rsv, a, off⟩) 55 1 = BitVec.ofBool pn :=
    (fld_above (b := 30) _ _ 55 1 (by decide)).trans ((fld_above (b := 10) _ _ 25 1 (by decide)).trans ((fld_above (b := 7) _ _ 15 1 (by decide)).trans ((fld_above (b := 1) _ _ 8 1 (by decide)).trans ((fld_above (b := 3) _ _ 7 1 (by decide)).trans ((fld_above (b := 4) _ _ 4 1 (by decide)).trans ((fld_low (b := 1) _ _)))))))
  have hpg : fld (encB o ⟨⟨pn, pg, fe⟩, u, rsv, a, off⟩) 51 4 = pg :=
    (fld_above (b := 30) _ _ 51 4 (by decide)).trans ((fld_above (b := 10) _ _ 21 4 (by decide)).trans ((fld_above (b := 7) _ _ 11 4 (by decide)).trans ((fld_above (b := 1) _ _ 4 4 (by decide)).trans ((fld_above (b := 3) _ _ 3 4 (by decide)).trans ((fld_low (b := 4) _ _))))))
  have hfe : fld (encB o ⟨⟨pn, pg, fe⟩, u, rsv, a, off⟩) 48 3 = fe :=
    (fld_above (b := 30) _ _ 48 3 (by decide)).trans ((fld_above (b := 10) _ _ 18 3 (by decide)).trans ((fld_above (b := 7) _ _ 8 3 (by decide)).trans ((fld_above (b := 1) _ _ 1 3 (by decide)).trans ((fld_low (b := 3) _ _)))))
  have hu : fld (encB o ⟨⟨pn, pg, fe⟩, u, rsv, a, off⟩) 47 1 = BitVec.ofBool u :=
    (fld_above (b := 30) _ _ 47 1 (by decide)).trans ((fld_above (b := 10) _ _ 17 1 (by decide)).trans ((fld_above (b := 7) _ _ 7 1 (by decide)).trans ((fld_low (b := 1) _ _))))
  have hrsv : fld (encB o ⟨⟨pn, pg, fe⟩, u, rsv, a, off⟩) 40 7 = rsv :=
    (fld_above (b := 30) _ _ 40 7 (by decide)).trans ((fld_above (b := 10) _ _ 10 7 (by decide)).trans ((fld_low (b := 7) _ _)))
  have ha : fld (encB o ⟨⟨pn, pg, fe⟩, u, rsv, a, off⟩) 30 10 = a :=
    (fld_above (b := 30) _ _ 30 10 (by decide)).trans ((fld_low (b := 10) _ _))
  have hoff : fld (encB o ⟨⟨pn, pg, fe⟩, u, rsv, a, off⟩) 0 30 = off :=
    (fld_low (b := 30) _ _)
  simp only [decB, decG, bit_fld _ _ _ hpn, hpg, hfe, bit_fld _ _ _ hu, hrsv, ha, hoff]

theorem opc_encB (o : Nat) (h : o < 256) (w : BWord) : (encB o w).toNat / 2 ^ 56 = o := by
  have e : fld (encB o w) 56 8 = BitVec.ofNat 8 o :=
    (fld_above (b := 30) _ _ 56 8 (by decide)).trans ((fld_above (b := 10) _ _ 26 8 (by decide)).trans ((fld_above (b := 7) _ _ 16 8 (by decide)).trans ((fld_above (b := 1) _ _ 9 8 (by decide)).trans ((fld_above (b := 3) _ _ 8 8 (by decide)).trans ((fld_above (b := 4) _ _ 5 8 (by decide)).trans ((fld_above (b := 1) _ _ 1 8 (by decide)).trans ((BitVec.extractLsb'_eq_self))))))))
  rw [opc_fld, e, BitVec.toNat_ofNat]; omega

/-! ### Format I, with its prefix (R40, R44) -/

theorem flds_encIw (o : Nat) (w : IWord) : decG (encIw o w) = w.g ∧ fld (encIw o w) 38 10 = w.d
    ∧ fld (encIw o w) 28 10 = w.a ∧ fld (encIw o w) 24 4 = w.m4 ∧ fld (encIw o w) 0 24 = w.imm.extractLsb' 0 24 := by
  obtain ⟨⟨pn, pg, fe⟩, d, a, m4, imm, pair⟩ := w
  have hpn : fld (encIw o ⟨⟨pn, pg, fe⟩, d, a, m4, imm, pair⟩) 55 1 = BitVec.ofBool pn :=
    (fld_above (b := 24) _ _ 55 1 (by decide)).trans ((fld_above (b := 4) _ _ 31 1 (by decide)).trans ((fld_above (b := 10) _ _ 27 1 (by decide)).trans ((fld_above (b := 10) _ _ 17 1 (by decide)).trans ((fld_above (b := 3) _ _ 7 1 (by decide)).trans ((fld_above (b := 4) _ _ 4 1 (by decide)).trans ((fld_low (b := 1) _ _)))))))
  have hpg : fld (encIw o ⟨⟨pn, pg, fe⟩, d, a, m4, imm, pair⟩) 51 4 = pg :=
    (fld_above (b := 24) _ _ 51 4 (by decide)).trans ((fld_above (b := 4) _ _ 27 4 (by decide)).trans ((fld_above (b := 10) _ _ 23 4 (by decide)).trans ((fld_above (b := 10) _ _ 13 4 (by decide)).trans ((fld_above (b := 3) _ _ 3 4 (by decide)).trans ((fld_low (b := 4) _ _))))))
  have hfe : fld (encIw o ⟨⟨pn, pg, fe⟩, d, a, m4, imm, pair⟩) 48 3 = fe :=
    (fld_above (b := 24) _ _ 48 3 (by decide)).trans ((fld_above (b := 4) _ _ 24 3 (by decide)).trans ((fld_above (b := 10) _ _ 20 3 (by decide)).trans ((fld_above (b := 10) _ _ 10 3 (by decide)).trans ((fld_low (b := 3) _ _)))))
  have hd : fld (encIw o ⟨⟨pn, pg, fe⟩, d, a, m4, imm, pair⟩) 38 10 = d :=
    (fld_above (b := 24) _ _ 38 10 (by decide)).trans ((fld_above (b := 4) _ _ 14 10 (by decide)).trans ((fld_above (b := 10) _ _ 10 10 (by decide)).trans ((fld_low (b := 10) _ _))))
  have ha : fld (encIw o ⟨⟨pn, pg, fe⟩, d, a, m4, imm, pair⟩) 28 10 = a :=
    (fld_above (b := 24) _ _ 28 10 (by decide)).trans ((fld_above (b := 4) _ _ 4 10 (by decide)).trans ((fld_low (b := 10) _ _)))
  have hm4 : fld (encIw o ⟨⟨pn, pg, fe⟩, d, a, m4, imm, pair⟩) 24 4 = m4 :=
    (fld_above (b := 24) _ _ 24 4 (by decide)).trans ((fld_low (b := 4) _ _))
  have himm : fld (encIw o ⟨⟨pn, pg, fe⟩, d, a, m4, imm, pair⟩) 0 24 = imm.extractLsb' 0 24 :=
    (fld_low (b := 24) _ _)
  exact ⟨by simp only [decG, bit_fld _ _ _ hpn, hpg, hfe], hd, ha, hm4, himm⟩

theorem opc_encIw (o : Nat) (h : o < 256) (w : IWord) : (encIw o w).toNat / 2 ^ 56 = o := by
  have e : fld (encIw o w) 56 8 = BitVec.ofNat 8 o :=
    (fld_above (b := 24) _ _ 56 8 (by decide)).trans ((fld_above (b := 4) _ _ 32 8 (by decide)).trans ((fld_above (b := 10) _ _ 28 8 (by decide)).trans ((fld_above (b := 10) _ _ 18 8 (by decide)).trans ((fld_above (b := 3) _ _ 8 8 (by decide)).trans ((fld_above (b := 4) _ _ 5 8 (by decide)).trans ((fld_above (b := 1) _ _ 1 8 (by decide)).trans ((BitVec.extractLsb'_eq_self))))))))
  rw [opc_fld, e, BitVec.toNat_ofNat]; omega

/-- A word alone gives back an immediate that fits in 24 bits. -/
theorem decI_encIw (o : Nat) (w : IWord) (h : w.fits = true) (hp : w.pair = false) : decI (encIw o w) none = w := by
  obtain ⟨hg, hd, ha, hm, hi⟩ := flds_encIw o w
  obtain ⟨g, d, a, m4, imm, pair⟩ := w
  simp only at hg hd ha hm hi hp
  subst hp
  have e : (imm.extractLsb' 0 24).signExtend 64 = imm := by
    have := (by simpa [IWord.fits] using h : imm = (imm.setWidth 24).signExtend 64)
    rw [show imm.extractLsb' 0 24 = imm.setWidth 24 from (BitVec.setWidth_eq_extractLsb' (by decide)).symm]; exact this.symm
  simp only [decI, hg, hd, ha, hm, hi, e]

/-- A pair gives back any immediate. -/
theorem decI_encPre (o : Nat) (w : IWord) (hp : w.pair = true) : decI (encIw o w) (some (encPre w)) = w := by
  obtain ⟨hg, hd, ha, hm, hi⟩ := flds_encIw o w
  have h40 : fld (encPre w) 0 40 = w.imm.extractLsb' 24 40 := fld_low (b := 40) _ _
  obtain ⟨g, d, a, m4, imm, pair⟩ := w
  simp only at hg hd ha hm hi hp h40
  subst hp
  have e : (imm.extractLsb' 24 40 ++ imm.extractLsb' 0 24 : BitVec 64) = imm := by
    apply BitVec.eq_of_getLsbD_eq
    intro i hi
    simp only [BitVec.getLsbD_append, BitVec.getLsbD_extractLsb']
    split
    · simp_all
    · simp only [show i - 24 < 40 by omega, decide_true, Bool.true_and, show 24 + (i - 24) = i by omega]
  simp only [decI, hg, hd, ha, hm, hi, h40, e]

theorem opc_encPre (w : IWord) : (encPre w).toNat / 2 ^ 56 = 0xE0 := by
  have e : fld (encPre w) 56 8 = BitVec.ofNat 8 0xE0 :=
    (fld_above (b := 40) _ _ 56 8 (by decide)).trans ((fld_above (b := 16) _ _ 16 8 (by decide)).trans BitVec.extractLsb'_eq_self)
  rw [opc_fld, e]; rfl

/-! ### Whole instructions -/

/-- One word decodes by its opcode. -/
theorem one_word (w : Word) (o : Nat) (h : w.toNat / 2 ^ 56 = o) (hn : o ≠ 0xE0) :
    decodeWords [w] = some (decodeWord w none) := by
  simp only [decodeWords, decodeNative, h, beq_iff_eq, hn, if_false]

/-- A format-I instruction decodes from its word, or from its pair. -/
theorem word_or_pair (o : Nat) (w : IWord) (hf : Machine.formatI o = true) (ho : o < 256) (hn : o ≠ 0xE0) (h : w.fits = true) :
    ∃ x pre, decodeWords (encI o w) = some (decodeWord x pre) ∧ x.toNat / 2 ^ 56 = o ∧ decI x pre = w := by
  have hx := opc_encIw o ho w
  cases hp : w.pair
  · refine ⟨encIw o w, none, ?_, hx, decI_encIw o w h hp⟩
    rw [encI, hp]; exact one_word _ o hx hn
  · refine ⟨encIw o w, some (encPre w), ?_, hx, decI_encPre o w hp⟩
    simp only [encI, hp, decodeWords, decodeNative, opc_encPre, hx, hf, if_true, beq_self_eq_true]

end Sys2Proof
end

