-- ==== Sys2Proof/Laws/Frame.lean ====
section
/-! SUPPORT. Updates that stay within the current group and split, and what the shared operations change there. -/

namespace Sys2Proof.Machine

open Sys2Proof

/-- What no instruction changes of its group by itself: its place, its mode, its extended blocks, its matrix and transform
flags and CHUNKSQ. -/
def Group.fixed (g : Group) : Nat × Nat × Nat × Nat × Nat × Bool × Bool × List Nat × Word × Word × Word :=
  (g.gid, g.tid, g.core, g.slot, g.index, g.spawned, g.chunked, g.ext, g.mxflags, g.xflags, g.chunksq)

/-- A change within the current group: everything else is as before, but for event counters, free values and what has
issued in this cycle. -/
structure Within (s t : State) : Prop where
  rest : { t with groups := s.groups, cores := s.cores, free := s.free, issued := s.issued } = s
  others : ∀ x, x ≠ s.cur.1 → t.group? x = s.group? x
  splits : ∀ n, n ≠ s.cur.2 → t.g.split? n = s.g.split? n
  cores : sameCores s t
  has : t.hasCur = s.hasCur
  fixed : t.g.fixed = s.g.fixed

namespace Within

theorem cur {s t : State} (h : Within s t) : t.cur = s.cur := by have := congrArg State.cur h.rest; exact this
theorem mem {s t : State} (h : Within s t) : t.mem = s.mem := by have := congrArg State.mem h.rest; exact this
theorem hostMem {s t : State} (h : Within s t) : t.hostMem = s.hostMem := by
  have := congrArg State.hostMem h.rest; exact this
theorem accums {s t : State} (h : Within s t) : t.accums = s.accums := by have := congrArg State.accums h.rest; exact this
theorem teams {s t : State} (h : Within s t) : t.teams = s.teams := by have := congrArg State.teams h.rest; exact this
theorem clusters {s t : State} (h : Within s t) : t.clusters = s.clusters := by
  have := congrArg State.clusters h.rest; exact this
theorem grids {s t : State} (h : Within s t) : t.grids = s.grids := by have := congrArg State.grids h.rest; exact this
theorem clock {s t : State} (h : Within s t) : t.clock = s.clock := by have := congrArg State.clock h.rest; exact this

theorem refl (s : State) : Within s s := ⟨rfl, fun _ _ => rfl, fun _ _ => rfl, fun _ => rfl, rfl, rfl⟩

theorem trans {s t u : State} (h : Within s t) (k : Within t u) : Within s u where
  rest := by
    have h1 := h.rest
    have h2 := k.rest
    calc { u with groups := s.groups, cores := s.cores, free := s.free, issued := s.issued }
        = { ({ u with groups := t.groups, cores := t.cores, free := t.free, issued := t.issued } : State) with
              groups := s.groups, cores := s.cores, free := s.free, issued := s.issued } := rfl
      _ = { t with groups := s.groups, cores := s.cores, free := s.free, issued := s.issued } := by rw [h2]
      _ = s := h1
  others x hx := (k.others x (by rw [h.cur]; exact hx)).trans (h.others x hx)
  splits n hn := (k.splits n (by rw [h.cur]; exact hn)).trans (h.splits n hn)
  cores c := by
    have h1 := h.cores c
    have h2 := k.cores c
    calc { u.coreAt c with evcnt := (s.coreAt c).evcnt }
        = { ({ u.coreAt c with evcnt := (t.coreAt c).evcnt } : Core) with evcnt := (s.coreAt c).evcnt } := rfl
      _ = { t.coreAt c with evcnt := (s.coreAt c).evcnt } := by rw [h2]
      _ = s.coreAt c := h1
  has := k.has.trans h.has
  fixed := k.fixed.trans h.fixed

theorem modG (s : State) (f : Group → Group) (hs : ∀ g, (f g).saved = g.saved) (hf : ∀ g, (f g).fixed = g.fixed)
    (hp : ∀ g, (f g).splits = g.splits) : Within s (s.modG f) :=
  have h : KeepsGid f := fun g => congrArg Prod.fst (hf g)
  { rest := rfl
    others := fun x hx => State.modGroup_other s _ x f h hx
    splits := fun n _ => by
      by_cases hc : s.hasCur = true
      · rw [State.modG_g s f h hc, Group.split?, hp]
        rfl
      · unfold State.g
        rw [State.modG_cur, State.modG, State.modGroup_group? s _ _ f h]
        cases hg : s.group? s.cur.1 with
        | none => rfl
        | some g =>
          have : (f g).split? n = g.split? n := by unfold Group.split?; rw [hp]
          simp [State.group?_gid hg, this]
    cores := fun _ => rfl
    has := State.modG_hasCur s f h hs (fun g n => by unfold Group.split?; rw [hp])
    fixed := by
      unfold State.g
      rw [State.modG_cur, State.modG, State.modGroup_group? s _ _ f h]
      cases hg : s.group? s.cur.1 with
      | none => rfl
      | some g => simp [State.group?_gid hg, hf] }

theorem modSp (s : State) (f : Split → Split) (h : KeepsId f) : Within s (s.modSp f) where
  rest := rfl
  others x hx := State.modGroup_other s _ x _ (State.keepsGid_setSplit _ _) hx
  splits n hn := by
    rw [State.modSp_g, Group.setSplit_split? _ _ n f h]
    cases hp : s.g.split? n with
    | none => rfl
    | some p =>
      have : p.id ≠ s.cur.2 := by
        rw [State.split?_id hp]
        exact hn
      simp [this]
  cores _ := rfl
  has := State.modSp_hasCur s f h
  fixed := by rw [State.modSp_g]; rfl

theorem modRegs (s : State) (f : Regs → Regs) : Within s (s.modRegs f) :=
  modG s _ (fun _ => rfl) (fun _ => rfl) (fun _ => rfl)

theorem modChunk (s : State) (f : Chunk → Chunk) : Within s (s.modChunk f) := modSp s _ (fun _ => rfl)

theorem modCtl (s : State) (f : Ctl → Ctl) : Within s (s.modCtl f) := modSp s _ (fun _ => rfl)

/-- A change within the group leaves every byte of memory. -/
theorem sameMemory {s t : State} (h : Within s t) : sameMemory s t := by
  intro k
  refine ⟨?_, ?_, fun tid b => ?_, fun cid => ?_⟩
  · simp [State.memByte, h.mem, h.accums]
  · rw [h.hostMem]
  · simp [State.bufByte, State.team?, h.teams]
  · simp [State.sramByte, State.cluster?, h.clusters]

theorem onlyGroup {s t : State} (h : Within s t) : onlyGroup s t := ⟨h.rest, h.others, h.splits⟩

end Within

/-! ### Cores -/

theorem State.coreAt_setCore (s : State) (c x : Nat) (k : Core) :
    (s.setCore c k).coreAt x = if x = c then k else s.coreAt x := by
  have h1 : ∀ (l : List (Nat × Core)) (p : Nat → Bool), p x = false →
      (l.filter (fun e => p e.1)).find? (fun e => e.1 == x) = none := by
    intro l p hp
    rw [List.find?_eq_none]
    intro e he
    have := (List.mem_filter.mp he).2
    intro hx
    have : e.1 = x := by simpa using hx
    simp_all
  have h2 : ∀ (l : List (Nat × Core)) (p : Nat → Bool), p x = true →
      (l.filter (fun e => p e.1)).find? (fun e => e.1 == x) = l.find? (fun e => e.1 == x) := by
    intro l p hp
    induction l with
    | nil => rfl
    | cons e r ih =>
      by_cases hx : e.1 = x
      · simp [hx, hp]
      · by_cases hpe : p e.1 = true
        · simp [hpe, hx, ih]
        · simp [hpe, hx, ih]
  unfold coreAt setCore
  simp only [List.find?_append, List.find?_cons]
  rcases Nat.lt_trichotomy x c with h | h | h
  · rw [h2 _ (fun n => decide (n < c)) (by simpa using h)]
    have hne : (c == x) = false := by simp; omega
    rw [hne, h1 _ (fun n => decide (c < n)) (by simp; omega), if_neg (by omega)]
    simp
  · subst h
    rw [h1 _ (fun n => decide (n < x)) (by simp)]
    simp
  · rw [h1 _ (fun n => decide (n < c)) (by simp; omega)]
    have hne : (c == x) = false := by simp; omega
    rw [hne, h2 _ (fun n => decide (c < n)) (by simpa using h), if_neg (by omega)]
    simp

theorem State.countEv_cases (s : State) (c tid code n : Nat) : s.countEv c tid code n = s
    ∨ ∃ cnt, s.countEv c tid code n = s.setCore c { s.coreAt c with evcnt := cnt } := by
  unfold State.countEv
  dsimp only
  split
  · exact .inl rfl
  · exact .inr ⟨_, rfl⟩

/-- Counting an event changes event counters only. -/
theorem Within.countEv (s : State) (c tid code n : Nat) : Within s (s.countEv c tid code n) := by
  rcases State.countEv_cases s c tid code n with h | ⟨cnt, h⟩ <;> rw [h]
  · exact refl s
  · refine ⟨rfl, fun _ _ => rfl, fun _ _ => rfl, fun x => ?_, rfl, rfl⟩
    rw [State.coreAt_setCore]
    by_cases h : x = c
    · subst h; simp
    · simp [h]

@[simp] theorem State.countEv_g (s : State) (c tid code n : Nat) : (s.countEv c tid code n).g = s.g := by
  rcases State.countEv_cases s c tid code n with h | ⟨_, h⟩
  · rw [h]
  · rw [h]; rfl
@[simp] theorem State.countEv_sp (s : State) (c tid code n : Nat) : (s.countEv c tid code n).sp = s.sp := by
  rcases State.countEv_cases s c tid code n with h | ⟨_, h⟩
  · rw [h]
  · rw [h]; rfl
@[simp] theorem State.countEv_cur (s : State) (c tid code n : Nat) : (s.countEv c tid code n).cur = s.cur := by
  rcases State.countEv_cases s c tid code n with h | ⟨_, h⟩
  · rw [h]
  · rw [h]; rfl
@[simp] theorem State.countEv_hasCur (s : State) (c tid code n : Nat) : (s.countEv c tid code n).hasCur = s.hasCur := by
  rcases State.countEv_cases s c tid code n with h | ⟨_, h⟩
  · rw [h]
  · rw [h]; rfl

/-! ### The end of an instruction -/

/-- What has issued in this cycle concerns no group, split, team or core. -/
theorem Within.noteIssue (s : State) (e : Nat × Nat × Nat) : Within s (s.noteIssue e) :=
  ⟨rfl, fun _ _ => rfl, fun _ _ => rfl, fun _ => rfl, rfl, rfl⟩

@[simp] theorem State.noteIssue_g (s : State) (e : Nat × Nat × Nat) : (s.noteIssue e).g = s.g := rfl
@[simp] theorem State.noteIssue_sp (s : State) (e : Nat × Nat × Nat) : (s.noteIssue e).sp = s.sp := rfl
@[simp] theorem State.noteIssue_cur (s : State) (e : Nat × Nat × Nat) : (s.noteIssue e).cur = s.cur := rfl
@[simp] theorem State.noteIssue_hasCur (s : State) (e : Nat × Nat × Nat) : (s.noteIssue e).hasCur = s.hasCur := rfl

/-- What `finish` changes is the current split's progress, event counters and what has issued in this cycle. -/
theorem Within.finish (i : Instr) (j : Bool) (b s : State) : Within s (finish i j b s) :=
  (((Within.countEv s _ _ _ _).trans (Within.countEv _ _ _ _ _)).trans (Within.noteIssue _ _)).trans
    (Within.modSp _ _ (fun _ => rfl))

/-- The current group after an instruction: only the split is new. -/
theorem finish_g (i : Instr) (j : Bool) (b s : State) :
    { (finish i j b s).g with splits := s.g.splits } = s.g := by
  unfold finish
  rw [State.modSp_g, State.noteIssue_g, State.countEv_g, State.countEv_g]
  rfl

@[simp] theorem finish_regs (i : Instr) (j : Bool) (b s : State) : (finish i j b s).regs = s.regs := by
  unfold finish
  rw [State.modSp_regs]
  simp [State.regs]

/-- The split after an instruction that acted: the next word, and no wait. -/
theorem finish_next (i : Instr) (b s : State) (h : s.hasCur = true) :
    (finish i false b s).ctl.pc = s.ctl.pc + BitVec.ofNat 64 s.sp.irLen
      ∧ (finish i false b s).ctl.mask = s.ctl.mask ∧ (finish i false b s).ctl.stack = s.ctl.stack
      ∧ (finish i false b s).sp.wait = none ∧ (finish i false b s).sp.pend = s.sp.pend := by
  have hs : (finish i false b s).sp = _ := State.modSp_sp _ _ (fun _ => rfl) (by simpa using h)
  simp only [State.ctl, hs, State.noteIssue_sp, State.countEv_sp]
  simp

/-- The trap registers after an instruction that acted. -/
theorem finish_traps (i : Instr) (b s : State) (h : s.hasCur = true) :
    (finish i false b s).ctl.trapPc = s.ctl.trapPc ∧ (finish i false b s).ctl.trapCause = s.ctl.trapCause
      ∧ (finish i false b s).ctl.trapMask = s.ctl.trapMask ∧ (finish i false b s).ctl.trapInfo = s.ctl.trapInfo
      ∧ (finish i false b s).ctl.trapVec = s.ctl.trapVec ∧ (finish i false b s).ctl.trapSave = s.ctl.trapSave := by
  have hs : (finish i false b s).sp = _ := State.modSp_sp _ _ (fun _ => rfl) (by simpa using h)
  simp only [State.ctl, hs, State.noteIssue_sp, State.countEv_sp]
  simp

/-! ### The chunk that begins -/

theorem Within.openChunk (s : State) : Within s (openChunk s) :=
  (Within.modG s (fun g => { g with nextCid := g.nextCid + 1 }) (fun _ => rfl) (fun _ => rfl) (fun _ => rfl)).trans (Within.modSp _ _ (fun _ => rfl))

theorem Within.begun (i : Instr) (s : State) : Within s (begun i s) := by
  unfold Sys2Proof.Machine.begun
  split
  · exact openChunk s
  · exact refl s

end Sys2Proof.Machine
end

