-- ==== Sys2Proof/Laws/Homes.lean ====
section
/-! SUPPORT. What the shared operations of translation and of time leave as it was, and what they promise. -/

namespace Sys2Proof.Machine

open Sys2Proof

/-! ### Records and leaves (R259, R261, R505) -/

/-- A record that has still to be written is not lost when its page is no longer pending (R505). -/
theorem endRecords_keeps {s : State} {p : MissRec → Bool} {m : MissRec} (h : m ∈ s.misses) (hw : m.written = false) :
    { m with ended := m.ended || p m } ∈ (endRecords s p).misses := by
  refine List.mem_map.mpr ⟨m, List.mem_filter.mpr ⟨h, by simp [hw]⟩, ?_⟩
  by_cases hp : p m <;> simp [hp]

/-- Room for an entry in a home: the TLBs and the count of free values alone change. -/
theorem tlbRoom_eq (s : State) (owner slice : Nat) : ∃ tlb free, tlbRoom s owner slice = { s with tlb := tlb, free := free } := by
  simp only [tlbRoom]
  split
  · exact ⟨s.tlb, s.free, rfl⟩
  · split
    · exact ⟨_, s.draw.2.free, rfl⟩
    · exact ⟨s.tlb, s.draw.2.free, rfl⟩

/-- A leaf that is installed: the TLBs, the miss records and the count of free values alone change. -/
theorem install_eq (s : State) (slot : Nat) (host : Bool) (owner off : Nat) (l : Leaf) :
    ∃ tlb misses free, install s slot host owner off l = { s with tlb := tlb, misses := misses, free := free } := by
  simp only [install]
  split
  · exact ⟨s.tlb, s.misses, s.free, rfl⟩
  · obtain ⟨tlb, free, h⟩ := tlbRoom_eq s owner (queueSlice host owner off)
    rw [h]
    split
    · exact ⟨_, s.misses, free, rfl⟩
    · exact ⟨_, _, free, rfl⟩

/-- An access that finds its leaf: the TLBs, the miss records and the count of free values alone change. -/
theorem touch_eq (s : State) (slot : Nat) (need : Need) (a : Nat) :
    ∃ tlb misses free, touch s slot need a = { s with tlb := tlb, misses := misses, free := free } := by
  unfold touch
  split
  · exact install_eq ..
  · exact ⟨s.tlb, s.misses, s.free, rfl⟩

/-- An access that finds its leaf leaves memory as it was. -/
@[simp] theorem touch_mem (s : State) (slot : Nat) (need : Need) (a : Nat) : (touch s slot need a).mem = s.mem := by
  obtain ⟨_, _, _, h⟩ := touch_eq s slot need a
  rw [h]
@[simp] theorem touch_hostMem (s : State) (slot : Nat) (need : Need) (a : Nat) : (touch s slot need a).hostMem = s.hostMem := by
  obtain ⟨_, _, _, h⟩ := touch_eq s slot need a
  rw [h]
@[simp] theorem touch_groups (s : State) (slot : Nat) (need : Need) (a : Nat) : (touch s slot need a).groups = s.groups := by
  obtain ⟨_, _, _, h⟩ := touch_eq s slot need a
  rw [h]

/-! ### Requests to peers (R520) -/

/-- Requests whose requesters no longer wait keep their places until their replies come. -/
theorem dropReqs_keeps {gone : PeerReq → Bool} {l : List PeerReq} {q : PeerReq} (h : q ∈ l) (hr : q.reply = none) :
    ∃ x ∈ dropReqs gone l, x.pkg = q.pkg ∧ x.tag = q.tag ∧ x.port = q.port ∧ x.reply = none := by
  refine ⟨_, List.mem_map.mpr ⟨q, List.mem_filter.mpr ⟨h, by simp [hr]⟩, rfl⟩, ?_⟩
  by_cases hg : gone q <;> simp [hg, hr]

/-! ### Marks of the operand latch (R433) -/

/-- A release takes the latch and the marks that are due, and leaves later marks. -/
theorem releaseLatch_marks (s : State) (g : Group) (k : Nat) :
    k ∈ (releaseLatch s g).mrel ↔ k ∈ g.mrel ∧ markDue s g k = false := by
  simp [releaseLatch]

/-! ### Time (R106, R113, R125) -/

/-- While a step is due at once, no cycle passes. -/
theorem cyclesFree_due {s : State} (n : Nat) (h : (dueNow s).isSome = true) : cyclesFree s n = 0 := by
  simp [cyclesFree, h]

theorem foldl_min_le {α : Type} (f : α → Nat) (l : List α) (n : Nat) :
    l.foldl (fun m e => min m (f e)) n ≤ n ∧ ∀ e ∈ l, l.foldl (fun m e => min m (f e)) n ≤ f e := by
  induction l generalizing n with
  | nil => simp
  | cons a r ih =>
    obtain ⟨h1, h2⟩ := ih (min n (f a))
    simp only [List.foldl_cons, List.mem_cons, forall_eq_or_imp]
    exact ⟨by omega, by omega, h2⟩

/-- No more cycles pass than are asked for, nor beyond the next release of the wire tree (R125) or expiry of a bin's timer (R106). -/
theorem cyclesFree_le (s : State) (n : Nat) :
    cyclesFree s n ≤ n ∧ ∀ t ∈ wireDelays s ++ binDelays s, cyclesFree s n ≤ t := by
  obtain ⟨h1, h2⟩ := foldl_min_le id (wireDelays s ++ binDelays s) n
  have h3 := (foldl_min_le (fun e : Nat × Nat × Nat × Nat => e.2.2.2 - issuingSince s e.2.2.1) (passedOver s)
    ((wireDelays s ++ binDelays s).foldl min n)).1
  have h : cyclesFree s n ≤ (wireDelays s ++ binDelays s).foldl min n := by
    simp only [cyclesFree]
    split
    · exact Nat.zero_le _
    · split
      · exact Nat.min_le_left ..
      · exact h3
  exact ⟨h.trans h1, fun t ht => h.trans (h2 t ht)⟩

end Sys2Proof.Machine
end

