-- ==== Sys2Proof/Laws/Memory.lean ====
section
/-! SUPPORT. The operations that write device memory and host memory keep the canonical form of both, and what a byte
reads as after each. -/

namespace Sys2Proof.Machine

open Sys2Proof

/-- The canonical form of both memories, part by part. -/
theorem memOk_iff (s : State) : s.memOk = true ↔ Cells.wf s.mem = true ∧ Cells.wf s.hostMem = true := by
  simp [State.memOk]

/-- A change of anything but the two memories keeps the form. -/
theorem memOk_congr {s t : State} (hm : t.mem = s.mem) (hh : t.hostMem = s.hostMem) : t.memOk = s.memOk := by
  simp [State.memOk, hm, hh]

@[simp] theorem foldAccum_hostMem (s : State) (a : Accum) : (s.foldAccum a).hostMem = s.hostMem := rfl

theorem foldAccum_memOk (s : State) (a : Accum) (h : s.memOk = true) : (s.foldAccum a).memOk = true :=
  (memOk_iff _).mpr ⟨Cells.write_wf _ _ _ ((memOk_iff s).mp h).1, ((memOk_iff s).mp h).2⟩

/-- Folding several canonical sums. -/
theorem foldAccums_memOk (l : List Accum) (s : State) (h : s.memOk = true) :
    (l.foldl State.foldAccum s).memOk = true := by
  induction l generalizing s with
  | nil => exact h
  | cons a r ih => exact ih _ (foldAccum_memOk s a h)

theorem foldAccums_hostMem (l : List Accum) (s : State) : (l.foldl State.foldAccum s).hostMem = s.hostMem := by
  induction l generalizing s with
  | nil => rfl
  | cons a r ih => simpa using ih (s.foldAccum a)

/-- Noting replaced code leaves both memories and the canonical sums. -/
@[simp] theorem noteOld_mem (s : State) (host : Bool) (k n : Nat) : (s.noteOld host k n).mem = s.mem := rfl
@[simp] theorem noteOld_hostMem (s : State) (host : Bool) (k n : Nat) : (s.noteOld host k n).hostMem = s.hostMem := rfl
@[simp] theorem noteOld_accums (s : State) (host : Bool) (k n : Nat) : (s.noteOld host k n).accums = s.accums := rfl

/-- A write of device memory writes its bytes after the canonical sums that it touches (R285). -/
theorem memWrite_mem (s : State) (k : Nat) (d : List Byte) : (s.memWrite k d).mem
    = Cells.write ((s.accums.filter (fun a => a.addr < k + d.length && k < a.addr + a.size)).foldl State.foldAccum s).mem k d := rfl

/-- A write of device memory leaves host memory. -/
theorem memWrite_hostMem (s : State) (k : Nat) (d : List Byte) : (s.memWrite k d).hostMem = s.hostMem := by
  have h := foldAccums_hostMem (s.accums.filter (fun a => a.addr < k + d.length && k < a.addr + a.size)) s
  exact h

/-- The canonical sums that a write of device memory leaves. -/
theorem memWrite_accums (s : State) (k : Nat) (d : List Byte) : (s.memWrite k d).accums
    = ((s.accums.filter (fun a => a.addr < k + d.length && k < a.addr + a.size)).foldl State.foldAccum s).accums := rfl

/-- A write of device memory keeps the form (R285). -/
theorem memWrite_memOk (s : State) (k : Nat) (d : List Byte) (h : s.memOk = true) :
    (s.memWrite k d).memOk = true := by
  rw [memOk_iff, memWrite_mem, memWrite_hostMem]
  exact ⟨Cells.write_wf _ _ _ ((memOk_iff _).mp (foldAccums_memOk _ s h)).1, ((memOk_iff s).mp h).2⟩

theorem foldAccums_none (s : State) (h : s.accums = []) (p : Accum → Bool) :
    (s.accums.filter p).foldl State.foldAccum s = s := by rw [h]; rfl

/-- What a byte of device memory reads as after a write, where no canonical sum is pending. -/
theorem memWrite_memByte (s : State) (k : Nat) (d : List Byte) (h : s.accums = []) (b : Nat) :
    (s.memWrite k d).memByte b = if k ≤ b ∧ b < k + d.length then d.getD (b - k) 0 else s.memByte b := by
  have h0 := foldAccums_none s h (fun a => a.addr < k + d.length && k < a.addr + a.size)
  simp only [State.memByte, memWrite_mem, memWrite_accums]
  rw [h0]
  simp only [h, List.find?_nil]
  exact Cells.write_get s.mem k d b

/-- A write of host memory keeps the form, and leaves device memory. -/
theorem hostWrite_memOk (s : State) (k : Nat) (d : List Byte) (h : s.memOk = true) : (s.hostWrite k d).memOk = true :=
  (memOk_iff _).mpr ⟨((memOk_iff s).mp h).1, Cells.write_wf _ _ _ ((memOk_iff s).mp h).2⟩

/-- A write of a page's bytes, on either side of the host's link, keeps the form (R267). -/
theorem pageWrite_memOk (s : State) (host : Bool) (owner : Nat) (l : Leaf) (i : Nat) (d : List Byte) (h : s.memOk = true) :
    (pageWrite s host owner l i d).memOk = true := by
  unfold pageWrite
  split
  · exact hostWrite_memOk s _ d h
  · exact memWrite_memOk s _ d h

/-- A ring entry written to host memory keeps the form (R505). -/
theorem ringPut_memOk (s : State) (r fn : Nat) (bytes : List Byte) (h : s.memOk = true) :
    (s.ringPut r fn bytes).memOk = true :=
  (memOk_iff _).mpr ⟨((memOk_iff s).mp h).1, Cells.write_wf _ _ _ ((memOk_iff s).mp h).2⟩

/-- A reset of the package leaves host memory as it is, and device memory with nothing listed (R526). -/
theorem packageReset_memOk (s : State) (h : s.memOk = true) : (packageReset s).memOk = true :=
  (memOk_iff _).mpr ⟨rfl, ((memOk_iff s).mp h).2⟩

/-- A write of a scratchpad buffer or of cluster SRAM is one of the same store: its canonical form is kept. -/
theorem bufferWrite_wf (c : Cells 8) (a : Nat) (d : List Byte) (h : Cells.wf c = true) :
    Cells.wf (Cells.write c a d) = true := Cells.write_wf c a d h

end Sys2Proof.Machine
end

