-- ==== Sys2Proof/Laws/PerInstr.lean ====
section
/-! SUPPORT. For every instruction: a well-formed one with an encoding decodes from it. -/

namespace Sys2Proof.Laws.Encode

open Sys2Proof

/-- The encoding of a well-formed instruction decodes to it, if it has one. -/
def Statement (i : Instr) : Prop := i.wf = true → encode i ≠ [] → decodeWords (encode i) = some i

/-- A step of the machine that is no word. -/
theorem no_word {i : Instr} (h : encode i = []) : Statement i := fun _ hn => absurd h hn

/-- A format-R instruction that its opcode's arm decodes. -/
theorem of_r (c : RWord → Instr) (o : Nat) (w : RWord) (he : encode (c w) = [encR o w]) (ho : o < 256) (hn : o ≠ 0xE0)
    (hd : ∀ x, x.toNat / 2 ^ 56 = o → decodeWord x none = c (decR x)) : Statement (c w) := fun _ _ => by
  have h := opc_encR o ho w
  rw [he, one_word _ o h hn, hd _ h, decR_encR]

/-- A format-B instruction that its opcode's arm decodes. -/
theorem of_b (c : BWord → Instr) (o : Nat) (w : BWord) (he : encode (c w) = [encB o w]) (ho : o < 256) (hn : o ≠ 0xE0)
    (hd : ∀ x, x.toNat / 2 ^ 56 = o → decodeWord x none = c (decB x)) : Statement (c w) := fun _ _ => by
  have h := opc_encB o ho w
  rw [he, one_word _ o h hn, hd _ h, decB_encB]

/-- A format-X instruction that its opcode's arm decodes. -/
theorem of_x (c : XWord → Instr) (o : Nat) (w : XWord) (he : encode (c w) = [encX o w]) (ho : o < 256) (hn : o ≠ 0xE0)
    (hd : ∀ x, x.toNat / 2 ^ 56 = o → decodeWord x none = c (decX x)) : Statement (c w) := fun _ _ => by
  have h := opc_encX o ho w
  rw [he, one_word _ o h hn, hd _ h, decX_encX]

/-- A format-Q instruction that its opcode's arm decodes. -/
theorem of_q (c : QWord → Instr) (o : Nat) (w : QWord) (he : encode (c w) = [encQ o w]) (ho : o < 256) (hn : o ≠ 0xE0)
    (hd : ∀ x, x.toNat / 2 ^ 56 = o → decodeWord x none = c (decQ x)) : Statement (c w) := fun _ _ => by
  have h := opc_encQ o ho w
  rw [he, one_word _ o h hn, hd _ h, decQ_encQ]

/-- A format-M instruction that its opcode's arm decodes. -/
theorem of_m (c : MWord → Instr) (o : Nat) (w : MWord) (he : encode (c w) = [encM o w]) (ho : o < 256) (hn : o ≠ 0xE0)
    (hd : ∀ x, x.toNat / 2 ^ 56 = o → decodeWord x none = c (decM x)) : Statement (c w) := fun _ _ => by
  have h := opc_encM o ho w
  rw [he, one_word _ o h hn, hd _ h, decM_encM]

/-- An evmap whose operation is its code's low bits (R398). -/
theorem of_evmap (c : XWord → Instr) (k : Nat) (w : XWord) (he : encode (c w) = [encX 0xA6 w])
    (hk : (c w).wf = true → w.code.toNat % 16 = k) (hd : ∀ x : Word, x.toNat % 16 = k → decEvmap x = c (decX x)) :
    Statement (c w) := fun h _ => by
  have hx := opc_encX 0xA6 (by decide) w
  have hw := decX_encX 0xA6 w
  have hc := congrArg (fun v : XWord => v.code.toNat) hw
  simp only [decX, BitVec.extractLsb'_toNat, Nat.shiftRight_zero] at hc
  have h16 : (encX 0xA6 w).toNat % 16 = k := by have := hk h; omega
  rw [he, one_word _ 0xA6 hx (by decide), decodeWord, hx]
  exact congrArg some ((hd _ h16).trans (congrArg c hw))

/-- A format-I instruction that its opcode's arm decodes. -/
theorem of_imm {i : Instr} {w : IWord} (o : Nat) (he : encode i = encI o w) (hf : Machine.formatI o = true) (ho : o < 256)
    (hn : o ≠ 0xE0) (hw : i.wf = true → w.fits = true)
    (hd : ∀ x pre, x.toNat / 2 ^ 56 = o → decI x pre = w → decodeWord x pre = i) : Statement i := fun h _ => by
  obtain ⟨x, pre, e, hx, hi⟩ := word_or_pair o w hf ho hn (hw h)
  rw [he, e, hd x pre hx hi]

/-- The immediate of a well-formed instruction fits. -/
theorem fits_of_wf {i : Instr} (h : i.wf = true) : i.immFits = true := by
  simp only [Instr.wf, Bool.and_eq_true] at h
  exact h.1.1.2

/-- The operation of a well-formed instruction is its own. -/
theorem op_of_wf {i : Instr} (h : i.wf = true) : i.opFits = true := by
  simp only [Instr.wf, Bool.and_eq_true] at h
  exact h.1.2

theorem nop (w : RWord) : Statement (.nop w) :=
  of_r .nop 0x00 w rfl (by decide) (by decide) (fun x h => by rw [decodeWord, h]; rfl)
theorem bra (w : BWord) : Statement (.bra w) :=
  of_b .bra 0x01 w rfl (by decide) (by decide) (fun x h => by rw [decodeWord, h]; rfl)
theorem skip (w : IWord) : Statement (.skip w) :=
  of_imm 0x02 rfl rfl (by decide) (by decide) fits_of_wf (fun x _ h e => by rw [decodeWord, h]; exact congrArg Instr.skip e)
theorem brx (w : RWord) : Statement (.brx w) :=
  of_r .brx 0x03 w rfl (by decide) (by decide) (fun x h => by rw [decodeWord, h]; rfl)
theorem call (w : BWord) : Statement (.call w) :=
  of_b .call 0x04 w rfl (by decide) (by decide) (fun x h => by rw [decodeWord, h]; rfl)
theorem ret (w : RWord) : Statement (.ret w) :=
  of_r .ret 0x05 w rfl (by decide) (by decide) (fun x h => by rw [decodeWord, h]; rfl)
theorem loop (w : BWord) : Statement (.loop w) :=
  of_b .loop 0x06 w rfl (by decide) (by decide) (fun x h => by rw [decodeWord, h]; rfl)
theorem exit (w : RWord) : Statement (.exit w) :=
  of_r .exit 0x07 w rfl (by decide) (by decide) (fun x h => by rw [decodeWord, h]; rfl)
theorem yield (w : RWord) : Statement (.yield w) :=
  of_r .yield 0x08 w rfl (by decide) (by decide) (fun x h => by rw [decodeWord, h]; rfl)
theorem spawn (w : XWord) : Statement (.spawn w) :=
  of_x .spawn 0x09 w rfl (by decide) (by decide) (fun x h => by rw [decodeWord, h]; rfl)
theorem launch (w : XWord) : Statement (.launch w) :=
  of_x .launch 0x0A w rfl (by decide) (by decide) (fun x h => by rw [decodeWord, h]; rfl)
theorem bar (w : IWord) : Statement (.bar w) :=
  of_imm 0x0B rfl rfl (by decide) (by decide) fits_of_wf (fun x _ h e => by rw [decodeWord, h]; exact congrArg Instr.bar e)
theorem barw (w : IWord) : Statement (.barw w) :=
  of_imm 0x0C rfl rfl (by decide) (by decide) fits_of_wf (fun x _ h e => by rw [decodeWord, h]; exact congrArg Instr.barw e)
theorem trap (w : IWord) : Statement (.trap w) :=
  of_imm 0x0D rfl rfl (by decide) (by decide) fits_of_wf (fun x _ h e => by rw [decodeWord, h]; exact congrArg Instr.trap e)
theorem rte (w : IWord) : Statement (.rte w) :=
  of_imm 0x0E rfl rfl (by decide) (by decide) fits_of_wf (fun x _ h e => by rw [decodeWord, h]; exact congrArg Instr.rte e)
theorem sysrd (w : IWord) : Statement (.sysrd w) :=
  of_imm 0x0F rfl rfl (by decide) (by decide) fits_of_wf (fun x _ h e => by rw [decodeWord, h]; exact congrArg Instr.sysrd e)
theorem syswr (w : IWord) : Statement (.syswr w) :=
  of_imm 0x10 rfl rfl (by decide) (by decide) fits_of_wf (fun x _ h e => by rw [decodeWord, h]; exact congrArg Instr.syswr e)
theorem chunk (w : RWord) : Statement (.chunk w) :=
  of_r .chunk 0x11 w rfl (by decide) (by decide) (fun x h => by rw [decodeWord, h]; rfl)
theorem fence (w : RWord) : Statement (.fence w) :=
  of_r .fence 0x12 w rfl (by decide) (by decide) (fun x h => by rw [decodeWord, h]; rfl)
theorem ifence (w : RWord) : Statement (.ifence w) :=
  of_r .ifence 0x13 w rfl (by decide) (by decide) (fun x h => by rw [decodeWord, h]; rfl)
theorem elect (w : RWord) : Statement (.elect w) :=
  of_r .elect 0x14 w rfl (by decide) (by decide) (fun x h => by rw [decodeWord, h]; rfl)
theorem vote (w : RWord) : Statement (.vote w) :=
  of_r .vote 0x15 w rfl (by decide) (by decide) (fun x h => by rw [decodeWord, h]; rfl)
theorem acqx (w : IWord) : Statement (.acqx w) :=
  of_imm 0x16 rfl rfl (by decide) (by decide) fits_of_wf (fun x _ h e => by rw [decodeWord, h]; exact congrArg Instr.acqx e)
theorem relx (w : IWord) : Statement (.relx w) :=
  of_imm 0x17 rfl rfl (by decide) (by decide) fits_of_wf (fun x _ h e => by rw [decodeWord, h]; exact congrArg Instr.relx e)
theorem waitc (w : RWord) : Statement (.waitc w) :=
  of_r .waitc 0x18 w rfl (by decide) (by decide) (fun x h => by rw [decodeWord, h]; rfl)
theorem clock (w : RWord) : Statement (.clock w) :=
  of_r .clock 0x19 w rfl (by decide) (by decide) (fun x h => by rw [decodeWord, h]; rfl)
theorem krepl (w : RWord) : Statement (.krepl w) :=
  of_r .krepl 0x1A w rfl (by decide) (by decide) (fun x h => by rw [decodeWord, h]; rfl)
theorem brk (w : IWord) : Statement (.brk w) :=
  of_imm 0x1B rfl rfl (by decide) (by decide) fits_of_wf (fun x _ h e => by rw [decodeWord, h]; exact congrArg Instr.brk e)
theorem iadd (w : RWord) : Statement (.iadd w) :=
  of_r .iadd 0x20 w rfl (by decide) (by decide) (fun x h => by rw [decodeWord, h]; rfl)
theorem isub (w : RWord) : Statement (.isub w) :=
  of_r .isub 0x21 w rfl (by decide) (by decide) (fun x h => by rw [decodeWord, h]; rfl)
theorem imul (w : RWord) : Statement (.imul w) :=
  of_r .imul 0x22 w rfl (by decide) (by decide) (fun x h => by rw [decodeWord, h]; rfl)
theorem imulh (w : RWord) : Statement (.imulh w) :=
  of_r .imulh 0x23 w rfl (by decide) (by decide) (fun x h => by rw [decodeWord, h]; rfl)
theorem imad (w : RWord) : Statement (.imad w) :=
  of_r .imad 0x24 w rfl (by decide) (by decide) (fun x h => by rw [decodeWord, h]; rfl)
theorem idiv (w : RWord) : Statement (.idiv w) :=
  of_r .idiv 0x25 w rfl (by decide) (by decide) (fun x h => by rw [decodeWord, h]; rfl)
theorem imin (w : RWord) : Statement (.imin w) :=
  of_r .imin 0x26 w rfl (by decide) (by decide) (fun x h => by rw [decodeWord, h]; rfl)
theorem imax (w : RWord) : Statement (.imax w) :=
  of_r .imax 0x27 w rfl (by decide) (by decide) (fun x h => by rw [decodeWord, h]; rfl)
theorem isat (w : RWord) : Statement (.isat w) :=
  of_r .isat 0x28 w rfl (by decide) (by decide) (fun x h => by rw [decodeWord, h]; rfl)
theorem and (w : RWord) : Statement (.and w) :=
  of_r .and 0x29 w rfl (by decide) (by decide) (fun x h => by rw [decodeWord, h]; rfl)
theorem or (w : RWord) : Statement (.or w) :=
  of_r .or 0x2A w rfl (by decide) (by decide) (fun x h => by rw [decodeWord, h]; rfl)
theorem xor (w : RWord) : Statement (.xor w) :=
  of_r .xor 0x2B w rfl (by decide) (by decide) (fun x h => by rw [decodeWord, h]; rfl)
theorem andn (w : RWord) : Statement (.andn w) :=
  of_r .andn 0x2C w rfl (by decide) (by decide) (fun x h => by rw [decodeWord, h]; rfl)
theorem shl (w : RWord) : Statement (.shl w) :=
  of_r .shl 0x2D w rfl (by decide) (by decide) (fun x h => by rw [decodeWord, h]; rfl)
theorem shr (w : RWord) : Statement (.shr w) :=
  of_r .shr 0x2E w rfl (by decide) (by decide) (fun x h => by rw [decodeWord, h]; rfl)
theorem fshf (w : RWord) : Statement (.fshf w) :=
  of_r .fshf 0x2F w rfl (by decide) (by decide) (fun x h => by rw [decodeWord, h]; rfl)
theorem bfx (w : RWord) : Statement (.bfx w) :=
  of_r .bfx 0x30 w rfl (by decide) (by decide) (fun x h => by rw [decodeWord, h]; rfl)
theorem bfi (w : RWord) : Statement (.bfi w) :=
  of_r .bfi 0x31 w rfl (by decide) (by decide) (fun x h => by rw [decodeWord, h]; rfl)
theorem popc (w : RWord) : Statement (.popc w) :=
  of_r .popc 0x32 w rfl (by decide) (by decide) (fun x h => by rw [decodeWord, h]; rfl)
theorem clz (w : RWord) : Statement (.clz w) :=
  of_r .clz 0x33 w rfl (by decide) (by decide) (fun x h => by rw [decodeWord, h]; rfl)
theorem brev (w : RWord) : Statement (.brev w) :=
  of_r .brev 0x34 w rfl (by decide) (by decide) (fun x h => by rw [decodeWord, h]; rfl)
theorem icmp (w : RWord) : Statement (.icmp w) :=
  of_r .icmp 0x35 w rfl (by decide) (by decide) (fun x h => by rw [decodeWord, h]; rfl)
theorem sel (w : RWord) : Statement (.sel w) :=
  of_r .sel 0x36 w rfl (by decide) (by decide) (fun x h => by rw [decodeWord, h]; rfl)
theorem mov (w : IWord) : Statement (.mov w) :=
  of_imm 0x37 rfl rfl (by decide) (by decide) fits_of_wf (fun x _ h e => by rw [decodeWord, h]; exact congrArg Instr.mov e)
theorem lea (w : IWord) : Statement (.lea w) :=
  of_imm 0x38 rfl rfl (by decide) (by decide) fits_of_wf (fun x _ h e => by rw [decodeWord, h]; exact congrArg Instr.lea e)
theorem iaddc (w : RWord) : Statement (.iaddc w) :=
  of_r .iaddc 0x39 w rfl (by decide) (by decide) (fun x h => by rw [decodeWord, h]; rfl)
theorem merge (w : RWord) : Statement (.merge w) :=
  of_r .merge 0x3A w rfl (by decide) (by decide) (fun x h => by rw [decodeWord, h]; rfl)
theorem fadd (w : RWord) : Statement (.fadd w) :=
  of_r .fadd 0x40 w rfl (by decide) (by decide) (fun x h => by rw [decodeWord, h]; rfl)
theorem fsub (w : RWord) : Statement (.fsub w) :=
  of_r .fsub 0x41 w rfl (by decide) (by decide) (fun x h => by rw [decodeWord, h]; rfl)
theorem fmul (w : RWord) : Statement (.fmul w) :=
  of_r .fmul 0x42 w rfl (by decide) (by decide) (fun x h => by rw [decodeWord, h]; rfl)
theorem ffma (w : RWord) : Statement (.ffma w) :=
  of_r .ffma 0x43 w rfl (by decide) (by decide) (fun x h => by rw [decodeWord, h]; rfl)
theorem fmin (w : RWord) : Statement (.fmin w) :=
  of_r .fmin 0x44 w rfl (by decide) (by decide) (fun x h => by rw [decodeWord, h]; rfl)
theorem fmax (w : RWord) : Statement (.fmax w) :=
  of_r .fmax 0x45 w rfl (by decide) (by decide) (fun x h => by rw [decodeWord, h]; rfl)
theorem frcp (w : RWord) : Statement (.frcp w) :=
  of_r .frcp 0x46 w rfl (by decide) (by decide) (fun x h => by rw [decodeWord, h]; rfl)
theorem frsq (w : RWord) : Statement (.frsq w) :=
  of_r .frsq 0x47 w rfl (by decide) (by decide) (fun x h => by rw [decodeWord, h]; rfl)
theorem fsqrt (w : RWord) : Statement (.fsqrt w) :=
  of_r .fsqrt 0x48 w rfl (by decide) (by decide) (fun x h => by rw [decodeWord, h]; rfl)
theorem fexp2 (w : RWord) : Statement (.fexp2 w) :=
  of_r .fexp2 0x49 w rfl (by decide) (by decide) (fun x h => by rw [decodeWord, h]; rfl)
theorem flog2 (w : RWord) : Statement (.flog2 w) :=
  of_r .flog2 0x4A w rfl (by decide) (by decide) (fun x h => by rw [decodeWord, h]; rfl)
theorem fcmp (w : RWord) : Statement (.fcmp w) :=
  of_r .fcmp 0x4B w rfl (by decide) (by decide) (fun x h => by rw [decodeWord, h]; rfl)
theorem fclass (w : RWord) : Statement (.fclass w) :=
  of_r .fclass 0x4C w rfl (by decide) (by decide) (fun x h => by rw [decodeWord, h]; rfl)
theorem fsgn (w : RWord) : Statement (.fsgn w) :=
  of_r .fsgn 0x4D w rfl (by decide) (by decide) (fun x h => by rw [decodeWord, h]; rfl)
theorem cvt (w : RWord) : Statement (.cvt w) :=
  of_r .cvt 0x4E w rfl (by decide) (by decide) (fun x h => by rw [decodeWord, h]; rfl)
theorem qnt (w : RWord) : Statement (.qnt w) :=
  of_r .qnt 0x4F w rfl (by decide) (by decide) (fun x h => by rw [decodeWord, h]; rfl)
theorem dqnt (w : RWord) : Statement (.dqnt w) :=
  of_r .dqnt 0x50 w rfl (by decide) (by decide) (fun x h => by rw [decodeWord, h]; rfl)
theorem fdot2 (w : RWord) : Statement (.fdot2 w) :=
  of_r .fdot2 0x51 w rfl (by decide) (by decide) (fun x h => by rw [decodeWord, h]; rfl)
theorem frnd (w : RWord) : Statement (.frnd w) :=
  of_r .frnd 0x52 w rfl (by decide) (by decide) (fun x h => by rw [decodeWord, h]; rfl)
theorem fscale (w : RWord) : Statement (.fscale w) :=
  of_r .fscale 0x53 w rfl (by decide) (by decide) (fun x h => by rw [decodeWord, h]; rfl)
theorem fredu (w : RWord) : Statement (.fredu w) :=
  of_r .fredu 0x54 w rfl (by decide) (by decide) (fun x h => by rw [decodeWord, h]; rfl)
theorem shfl (w : RWord) : Statement (.shfl w) :=
  of_r .shfl 0x60 w rfl (by decide) (by decide) (fun x h => by rw [decodeWord, h]; rfl)
theorem perm (w : RWord) : Statement (.perm w) :=
  of_r .perm 0x61 w rfl (by decide) (by decide) (fun x h => by rw [decodeWord, h]; rfl)
theorem plog (w : RWord) : Statement (.plog w) :=
  of_r .plog 0x62 w rfl (by decide) (by decide) (fun x h => by rw [decodeWord, h]; rfl)
theorem pcnt (w : RWord) : Statement (.pcnt w) :=
  of_r .pcnt 0x63 w rfl (by decide) (by decide) (fun x h => by rw [decodeWord, h]; rfl)
theorem scan (w : RWord) : Statement (.scan w) :=
  of_r .scan 0x64 w rfl (by decide) (by decide) (fun x h => by rw [decodeWord, h]; rfl)
theorem vtos (w : RWord) : Statement (.vtos w) :=
  of_r .vtos 0x65 w rfl (by decide) (by decide) (fun x h => by rw [decodeWord, h]; rfl)
theorem stov (w : RWord) : Statement (.stov w) :=
  of_r .stov 0x66 w rfl (by decide) (by decide) (fun x h => by rw [decodeWord, h]; rfl)
theorem compact (w : RWord) : Statement (.compact w) :=
  of_r .compact 0x67 w rfl (by decide) (by decide) (fun x h => by rw [decodeWord, h]; rfl)
theorem rebal (w : RWord) : Statement (.rebal w) :=
  of_r .rebal 0x68 w rfl (by decide) (by decide) (fun x h => by rw [decodeWord, h]; rfl)
theorem nzscan (w : XWord) : Statement (.nzscan w) :=
  of_x .nzscan 0x69 w rfl (by decide) (by decide) (fun x h => by rw [decodeWord, h]; rfl)
theorem alset (w : RWord) : Statement (.alset w) :=
  of_r .alset 0x70 w rfl (by decide) (by decide) (fun x h => by rw [decodeWord, h]; rfl)
theorem alget (w : RWord) : Statement (.alget w) :=
  of_r .alget 0x71 w rfl (by decide) (by decide) (fun x h => by rw [decodeWord, h]; rfl)
theorem sunpk (w : RWord) : Statement (.sunpk w) :=
  of_r .sunpk 0x72 w rfl (by decide) (by decide) (fun x h => by rw [decodeWord, h]; rfl)
theorem spack (w : RWord) : Statement (.spack w) :=
  of_r .spack 0x73 w rfl (by decide) (by decide) (fun x h => by rw [decodeWord, h]; rfl)
theorem sld (w : MWord) : Statement (.sld w) :=
  of_m .sld 0x74 w rfl (by decide) (by decide) (fun x h => by rw [decodeWord, h]; rfl)
theorem sst (w : MWord) : Statement (.sst w) :=
  of_m .sst 0x75 w rfl (by decide) (by decide) (fun x h => by rw [decodeWord, h]; rfl)
theorem sdot (w : RWord) : Statement (.sdot w) :=
  of_r .sdot 0x76 w rfl (by decide) (by decide) (fun x h => by rw [decodeWord, h]; rfl)
theorem smap (w : RWord) : Statement (.smap w) :=
  of_r .smap 0x77 w rfl (by decide) (by decide) (fun x h => by rw [decodeWord, h]; rfl)
theorem schk (w : RWord) : Statement (.schk w) :=
  of_r .schk 0x78 w rfl (by decide) (by decide) (fun x h => by rw [decodeWord, h]; rfl)
theorem scvt (w : RWord) : Statement (.scvt w) :=
  of_r .scvt 0x79 w rfl (by decide) (by decide) (fun x h => by rw [decodeWord, h]; rfl)
theorem smadd (w : RWord) : Statement (.smadd w) :=
  of_r .smadd 0x7A w rfl (by decide) (by decide) (fun x h => by rw [decodeWord, h]; rfl)
theorem scnt (w : RWord) : Statement (.scnt w) :=
  of_r .scnt 0x7B w rfl (by decide) (by decide) (fun x h => by rw [decodeWord, h]; rfl)
theorem lds (w : MWord) : Statement (.lds w) :=
  of_m .lds 0x80 w rfl (by decide) (by decide) (fun x h => by rw [decodeWord, h]; rfl)
theorem sts (w : MWord) : Statement (.sts w) :=
  of_m .sts 0x81 w rfl (by decide) (by decide) (fun x h => by rw [decodeWord, h]; rfl)
theorem ldsf (w : MWord) : Statement (.ldsf w) :=
  of_m .ldsf 0x82 w rfl (by decide) (by decide) (fun x h => by rw [decodeWord, h]; rfl)
theorem stse (w : MWord) : Statement (.stse w) :=
  of_m .stse 0x83 w rfl (by decide) (by decide) (fun x h => by rw [decodeWord, h]; rfl)
theorem ldsp (w : MWord) : Statement (.ldsp w) :=
  of_m .ldsp 0x84 w rfl (by decide) (by decide) (fun x h => by rw [decodeWord, h]; rfl)
theorem feset (w : MWord) : Statement (.feset w) :=
  of_m .feset 0x85 w rfl (by decide) (by decide) (fun x h => by rw [decodeWord, h]; rfl)
theorem atoms (w : MWord) : Statement (.atoms w) :=
  of_m .atoms 0x86 w rfl (by decide) (by decide) (fun x h => by rw [decodeWord, h]; rfl)
theorem ldc (w : MWord) : Statement (.ldc w) :=
  of_m .ldc 0x87 w rfl (by decide) (by decide) (fun x h => by rw [decodeWord, h]; rfl)
theorem stc (w : MWord) : Statement (.stc w) :=
  of_m .stc 0x88 w rfl (by decide) (by decide) (fun x h => by rw [decodeWord, h]; rfl)
theorem atomc (w : MWord) : Statement (.atomc w) :=
  of_m .atomc 0x89 w rfl (by decide) (by decide) (fun x h => by rw [decodeWord, h]; rfl)
theorem ldsx (w : MWord) : Statement (.ldsx w) :=
  of_m .ldsx 0x8A w rfl (by decide) (by decide) (fun x h => by rw [decodeWord, h]; rfl)
theorem stsx (w : MWord) : Statement (.stsx w) :=
  of_m .stsx 0x8B w rfl (by decide) (by decide) (fun x h => by rw [decodeWord, h]; rfl)
theorem ldg (w : MWord) : Statement (.ldg w) :=
  of_m .ldg 0x90 w rfl (by decide) (by decide) (fun x h => by rw [decodeWord, h]; rfl)
theorem stg (w : MWord) : Statement (.stg w) :=
  of_m .stg 0x91 w rfl (by decide) (by decide) (fun x h => by rw [decodeWord, h]; rfl)
theorem atomg (w : MWord) : Statement (.atomg w) :=
  of_m .atomg 0x92 w rfl (by decide) (by decide) (fun x h => by rw [decodeWord, h]; rfl)
theorem casg (w : MWord) : Statement (.casg w) :=
  of_m .casg 0x93 w rfl (by decide) (by decide) (fun x h => by rw [decodeWord, h]; rfl)
theorem pref (w : MWord) : Statement (.pref w) :=
  of_m .pref 0x94 w rfl (by decide) (by decide) (fun x h => by rw [decodeWord, h]; rfl)
theorem ldgc (w : MWord) : Statement (.ldgc w) :=
  of_m .ldgc 0x95 w rfl (by decide) (by decide) (fun x h => by rw [decodeWord, h]; rfl)
theorem stgs (w : MWord) : Statement (.stgs w) :=
  of_m .stgs 0x96 w rfl (by decide) (by decide) (fun x h => by rw [decodeWord, h]; rfl)
theorem red (w : MWord) : Statement (.red w) :=
  of_m .red 0x97 w rfl (by decide) (by decide) (fun x h => by rw [decodeWord, h]; rfl)
theorem probe (w : MWord) : Statement (.probe w) :=
  of_m .probe 0x98 w rfl (by decide) (by decide) (fun x h => by rw [decodeWord, h]; rfl)
theorem migr (w : MWord) : Statement (.migr w) :=
  of_m .migr 0x99 w rfl (by decide) (by decide) (fun x h => by rw [decodeWord, h]; rfl)
theorem xcopy (w : XWord) : Statement (.xcopy w) :=
  of_x .xcopy 0xA0 w rfl (by decide) (by decide) (fun x h => by rw [decodeWord, h]; rfl)
theorem xform (w : XWord) : Statement (.xform w) :=
  of_x .xform 0xA1 w rfl (by decide) (by decide) (fun x h => by rw [decodeWord, h]; rfl)
theorem xgath (w : XWord) : Statement (.xgath w) :=
  of_x .xgath 0xA2 w rfl (by decide) (by decide) (fun x h => by rw [decodeWord, h]; rfl)
theorem xscat (w : XWord) : Statement (.xscat w) :=
  of_x .xscat 0xA3 w rfl (by decide) (by decide) (fun x h => by rw [decodeWord, h]; rfl)
theorem gnode (w : XWord) : Statement (.gnode w) :=
  of_x .gnode 0xA4 w rfl (by decide) (by decide) (fun x h => by rw [decodeWord, h]; rfl)
theorem grun (w : XWord) : Statement (.grun w) :=
  of_x .grun 0xA5 w rfl (by decide) (by decide) (fun x h => by rw [decodeWord, h]; rfl)
theorem evmapMap (w : XWord) : Statement (.evmapMap w) :=
  of_evmap .evmapMap 0 w rfl (fun h => by simpa [Instr.opFits] using op_of_wf h) (fun x h => by rw [decEvmap, h]; rfl)
theorem evmapPulse (w : XWord) : Statement (.evmapPulse w) :=
  of_evmap .evmapPulse 1 w rfl (fun h => by simpa [Instr.opFits] using op_of_wf h) (fun x h => by rw [decEvmap, h]; rfl)
theorem evmapClear (w : XWord) : Statement (.evmapClear w) :=
  of_evmap .evmapClear 2 w rfl (fun h => by simpa [Instr.opFits] using op_of_wf h) (fun x h => by rw [decEvmap, h]; rfl)
theorem xfill (w : XWord) : Statement (.xfill w) :=
  of_x .xfill 0xA7 w rfl (by decide) (by decide) (fun x h => by rw [decodeWord, h]; rfl)
theorem xpeer (w : XWord) : Statement (.xpeer w) :=
  of_x .xpeer 0xA8 w rfl (by decide) (by decide) (fun x h => by rw [decodeWord, h]; rfl)
theorem xcancel (w : XWord) : Statement (.xcancel w) :=
  of_x .xcancel 0xA9 w rfl (by decide) (by decide) (fun x h => by rw [decodeWord, h]; rfl)
theorem ebb (w : XWord) : Statement (.ebb w) :=
  of_x .ebb 0xAA w rfl (by decide) (by decide) (fun x h => by rw [decodeWord, h]; rfl)
theorem kvmap (w : RWord) : Statement (.kvmap w) :=
  of_r .kvmap 0xAB w rfl (by decide) (by decide) (fun x h => by rw [decodeWord, h]; rfl)
theorem mma (w : QWord) : Statement (.mma w) :=
  of_q .mma 0xB0 w rfl (by decide) (by decide) (fun x h => by rw [decodeWord, h]; rfl)
theorem mloop (w : QWord) : Statement (.mloop w) :=
  of_q .mloop 0xB1 w rfl (by decide) (by decide) (fun x h => by rw [decodeWord, h]; rfl)
theorem msparse (w : QWord) : Statement (.msparse w) :=
  of_q .msparse 0xB9 w rfl (by decide) (by decide) (fun x h => by rw [decodeWord, h]; rfl)
theorem mzero (w : XWord) : Statement (.mzero w) :=
  of_x .mzero 0xB2 w rfl (by decide) (by decide) (fun x h => by rw [decodeWord, h]; rfl)
theorem mrd (w : RWord) : Statement (.mrd w) :=
  of_r .mrd 0xB3 w rfl (by decide) (by decide) (fun x h => by rw [decodeWord, h]; rfl)
theorem mwr (w : RWord) : Statement (.mwr w) :=
  of_r .mwr 0xB4 w rfl (by decide) (by decide) (fun x h => by rw [decodeWord, h]; rfl)
theorem mscale (w : XWord) : Statement (.mscale w) :=
  of_x .mscale 0xB5 w rfl (by decide) (by decide) (fun x h => by rw [decodeWord, h]; rfl)
theorem oprdy (w : RWord) : Statement (.oprdy w) :=
  of_r .oprdy 0xB6 w rfl (by decide) (by decide) (fun x h => by rw [decodeWord, h]; rfl)
theorem mchk (w : QWord) : Statement (.mchk w) :=
  of_q .mchk 0xB7 w rfl (by decide) (by decide) (fun x h => by rw [decodeWord, h]; rfl)
theorem attn (w : XWord) : Statement (.attn w) :=
  of_x .attn 0xB8 w rfl (by decide) (by decide) (fun x h => by rw [decodeWord, h]; rfl)
theorem mconv (w : XWord) : Statement (.mconv w) :=
  of_x .mconv 0xBA w rfl (by decide) (by decide) (fun x h => by rw [decodeWord, h]; rfl)
theorem mrel (w : RWord) : Statement (.mrel w) :=
  of_r .mrel 0xBB w rfl (by decide) (by decide) (fun x h => by rw [decodeWord, h]; rfl)
theorem safePointMarker : Statement .safePointMarker :=
  no_word rfl
theorem portableInstruction (w : Word) : Statement (.portableInstruction w) :=
  no_word rfl
theorem srseedWrite (v : Word) : Statement (.srseedWrite v) :=
  no_word rfl
theorem flagsRegisterWrite (n : BitVec 12) (v : Word) : Statement (.flagsRegisterWrite n v) :=
  no_word rfl
theorem faultinjArm (v : Word) : Statement (.faultinjArm v) :=
  no_word rfl
theorem faultinjDisarm (v : Word) : Statement (.faultinjDisarm v) :=
  no_word rfl
theorem trappcWrite (v : Word) : Statement (.trappcWrite v) :=
  no_word rfl
theorem trapcauseWrite (v : Word) : Statement (.trapcauseWrite v) :=
  no_word rfl
theorem clauseHeaderFetch : Statement .clauseHeaderFetch :=
  no_word rfl
theorem candidatePromotion (gid sp : Nat) : Statement (.candidatePromotion gid sp) :=
  no_word rfl
theorem chunkCommit (gid sp : Nat) : Statement (.chunkCommit gid sp) :=
  no_word rfl
theorem commitRoundClose : Statement .commitRoundClose :=
  no_word rfl
theorem phaseTwo (gid sp : Nat) : Statement (.phaseTwo gid sp) :=
  no_word rfl
theorem longLatencyWriteback (gid idx : Nat) : Statement (.longLatencyWriteback gid idx) :=
  no_word rfl
theorem missQueueRetry (idx : Nat) : Statement (.missQueueRetry idx) :=
  no_word rfl
theorem missLogRecord (idx : Nat) : Statement (.missLogRecord idx) :=
  no_word rfl
theorem tableWalkComplete (idx : Nat) : Statement (.tableWalkComplete idx) :=
  no_word rfl
theorem notice (fn die : Nat) (v : Word) : Statement (.notice fn die v) :=
  no_word rfl
theorem noticeComplete (die : Nat) : Statement (.noticeComplete die) :=
  no_word rfl
theorem migrationComplete (idx : Nat) (data : List Byte) : Statement (.migrationComplete idx data) :=
  no_word rfl
theorem freeFrameTail (fn off : Nat) (v : Word) : Statement (.freeFrameTail fn off v) :=
  no_word rfl
theorem redFold (idx : Nat) : Statement (.redFold idx) :=
  no_word rfl
theorem batchApply (idx : Nat) : Statement (.batchApply idx) :=
  no_word rfl
theorem peerReadServe (idx : Nat) : Statement (.peerReadServe idx) :=
  no_word rfl
theorem peerReadDelivery (idx : Nat) : Statement (.peerReadDelivery idx) :=
  no_word rfl
theorem xblockGrant (core : Nat) : Statement (.xblockGrant core) :=
  no_word rfl
theorem binTimerExpiry (core bin : Nat) : Statement (.binTimerExpiry core bin) :=
  no_word rfl
theorem binLaunch (core bin : Nat) : Statement (.binLaunch core bin) :=
  no_word rfl
theorem clusterPlacement : Statement .clusterPlacement :=
  no_word rfl
theorem levelHeadStarvation (level : Nat) : Statement (.levelHeadStarvation level) :=
  no_word rfl
theorem preemptStarvation (level : Nat) : Statement (.preemptStarvation level) :=
  no_word rfl
theorem teamAllotmentRelease (tid : Nat) : Statement (.teamAllotmentRelease tid) :=
  no_word rfl
theorem gridCompletion (grid : Nat) : Statement (.gridCompletion grid) :=
  no_word rfl
theorem barrierRelease (scope obj id : Nat) : Statement (.barrierRelease scope obj id) :=
  no_word rfl
theorem barwInstanceRelease (tag : Nat) : Statement (.barwInstanceRelease tag) :=
  no_word rfl
theorem commandAcceptance (core : Nat) : Statement (.commandAcceptance core) :=
  no_word rfl
theorem gateRelease (tid gate : Nat) : Statement (.gateRelease tid gate) :=
  no_word rfl
theorem engineChunkCommit (kid : Nat) : Statement (.engineChunkCommit kid) :=
  no_word rfl
theorem commandFinish (kid : Nat) : Statement (.commandFinish kid) :=
  no_word rfl
theorem matrixCommandStart (kid : Nat) : Statement (.matrixCommandStart kid) :=
  no_word rfl
theorem operandLatchRelease (gid : Nat) : Statement (.operandLatchRelease gid) :=
  no_word rfl
theorem attnSnapshot (kid : Nat) : Statement (.attnSnapshot kid) :=
  no_word rfl
theorem attnRelease (kid : Nat) : Statement (.attnRelease kid) :=
  no_word rfl
theorem ebbClaim (kid : Nat) : Statement (.ebbClaim kid) :=
  no_word rfl
theorem ebbCopy (kid : Nat) : Statement (.ebbCopy kid) :=
  no_word rfl
theorem ebbSwap (kid : Nat) : Statement (.ebbSwap kid) :=
  no_word rfl
theorem graphNodeFinish (kid : Nat) : Statement (.graphNodeFinish kid) :=
  no_word rfl
theorem trapDelivery (gid sp : Nat) : Statement (.trapDelivery gid sp) :=
  no_word rfl
theorem clusterSave (cid : Nat) : Statement (.clusterSave cid) :=
  no_word rfl
theorem clusterResume (cid : Nat) : Statement (.clusterResume cid) :=
  no_word rfl
theorem translationComplete (idx : Nat) (native spmap : Word) (image : List Byte) : Statement (.translationComplete idx native spmap image) :=
  no_word rfl
theorem hostCxlMemRequest (fn addr len : Nat) (data : Option (List Byte)) (failed : Bool) :
    Statement (.hostCxlMemRequest fn addr len data failed) :=
  no_word rfl
theorem hostAtomicopRequest (fn : Nat) : Statement (.hostAtomicopRequest fn) :=
  no_word rfl
theorem launchPortWrite (fn addr : Nat) (data : List Byte) : Statement (.launchPortWrite fn addr data) :=
  no_word rfl
theorem launchRecordRead : Statement .launchRecordRead :=
  no_word rfl
theorem ringHeadWrite (fn off : Nat) (v : Word) : Statement (.ringHeadWrite fn off v) :=
  no_word rfl
theorem ownclaim (fn : Nat) (v : Word) : Statement (.ownclaim fn v) :=
  no_word rfl
theorem heartbeat (fn : Nat) : Statement (.heartbeat fn) :=
  no_word rfl
theorem warmReset (fn : Option Nat) : Statement (.warmReset fn) :=
  no_word rfl
theorem contextSlotRemove (fn slot : Nat) : Statement (.contextSlotRemove fn slot) :=
  no_word rfl
theorem coldReset : Statement .coldReset :=
  no_word rfl
theorem startupReady : Statement .startupReady :=
  no_word rfl
theorem functionLevelReset (fn : Nat) : Statement (.functionLevelReset fn) :=
  no_word rfl
theorem preemptContext (fn : Nat) (v : Word) : Statement (.preemptContext fn v) :=
  no_word rfl
theorem preemptGrid (fn : Nat) (v : Word) : Statement (.preemptGrid fn v) :=
  no_word rfl
theorem preemptCore (fn : Nat) (v : Word) : Statement (.preemptCore fn v) :=
  no_word rfl
theorem contextSlotCtl (fn slot : Nat) (v : Word) : Statement (.contextSlotCtl fn slot v) :=
  no_word rfl
theorem managementRegisterWrite (fn off : Nat) (v : Word) : Statement (.managementRegisterWrite fn off v) :=
  no_word rfl
theorem throttleLevelChange (level : Nat) : Statement (.throttleLevelChange level) :=
  no_word rfl
theorem thermalShutdown : Statement .thermalShutdown :=
  no_word rfl
theorem machineError (store unit : Nat) (addr ctxs : Word) : Statement (.machineError store unit addr ctxs) :=
  no_word rfl
theorem correctedSoftError (die : Nat) : Statement (.correctedSoftError die) :=
  no_word rfl
theorem d3hotEntry : Statement .d3hotEntry :=
  no_word rfl
theorem d0Entry : Statement .d0Entry :=
  no_word rfl
theorem flitReceive (port : Nat) (flit : Flit) : Statement (.flitReceive port flit) :=
  no_word rfl
theorem flitReplay (port : Nat) : Statement (.flitReplay port) :=
  no_word rfl
theorem linkPortDown (port : Nat) : Statement (.linkPortDown port) :=
  no_word rfl
theorem unassignedOpcode (w : Word) : Statement (.unassignedOpcode w) :=
  no_word rfl
theorem storePerformed (gid sp idx : Nat) : Statement (.storePerformed gid sp idx) :=
  no_word rfl
theorem linkPortUp (port pkg : Nat) (peerReset : Bool) : Statement (.linkPortUp port pkg peerReset) :=
  no_word rfl
theorem configurationRequest (fn : Nat) : Statement (.configurationRequest fn) :=
  no_word rfl

end Sys2Proof.Laws.Encode
end

