-- ==== Sys2Proof/Laws/Regs.lean ====
section
/-! SUPPORT. Reading a register after register writes, and the lanes of a mask. -/

namespace Sys2Proof.Machine

open Sys2Proof

theorem get_foldl_set {w : Nat} (l : List (Nat × BitVec w)) (c : Cells w) (k : Nat) (h : ∀ e ∈ l, e.1 ≠ k) :
    Cells.get (l.foldl (fun (c : Cells w) e => Sys2Proof.Cells.set c e.1 e.2) c) k = Cells.get c k := by
  induction l generalizing c with
  | nil => rfl
  | cons e r ih =>
    rw [List.foldl_cons, ih _ (fun x hx => h x (by simp [hx])), Sys2Proof.Cells.get_set_ne]
    exact (h e (by simp)).symm

theorem get_foldl_set_mem {w : Nat} (l : List (Nat × BitVec w)) (c : Cells w) (k : Nat) (v : BitVec w)
    (hn : (l.map Prod.fst).Nodup) (h : (k, v) ∈ l) :
    Cells.get (l.foldl (fun (c : Cells w) e => Sys2Proof.Cells.set c e.1 e.2) c) k = v := by
  induction l generalizing c with
  | nil => simp at h
  | cons e r ih =>
    rw [List.map_cons, List.nodup_cons] at hn
    rw [List.foldl_cons]
    rcases List.mem_cons.mp h with h | h
    · subst h
      rw [get_foldl_set]
      · simp
      · intro x hx he
        exact hn.1 (List.mem_map.mpr ⟨x, hx, he⟩)
    · exact ih _ hn.2 h

theorem Cells.wf_foldl_set {w : Nat} (l : List (Nat × BitVec w)) (c : Cells w) (h : Sys2Proof.Cells.wf c = true) :
    Sys2Proof.Cells.wf (l.foldl (fun (c : Cells w) e => Sys2Proof.Cells.set c e.1 e.2) c) = true := by
  induction l generalizing c with
  | nil => exact h
  | cons e r ih => exact ih _ (Sys2Proof.Cells.wf_set _ _ _ h)

/-! ### Lanes -/

theorem mem_lanesOf {m : Mask} {l : Nat} : l ∈ lanesOf m ↔ l < 32 ∧ m.getLsbD l = true := by
  simp [lanesOf]

theorem lanesOf_nodup (m : Mask) : (lanesOf m).Nodup := List.Nodup.filter _ List.nodup_range

theorem lanesOf_nil {m : Mask} : lanesOf m = [] ↔ m = 0 := by
  constructor
  · intro h
    apply BitVec.eq_of_getLsbD_eq
    intro i hi
    by_cases hb : m.getLsbD i = true
    · have : i ∈ lanesOf m := mem_lanesOf.mpr ⟨hi, hb⟩
      rw [h] at this
      simp at this
    · simpa using hb
  · rintro rfl
    simp [lanesOf]

theorem lowest_mem {m : Mask} (h : m ≠ 0) : lowest m ∈ lanesOf m := by
  unfold lowest
  cases hl : lanesOf m with
  | nil => exact absurd (lanesOf_nil.mp hl) h
  | cons a r => simp

/-! ### Writes -/

@[simp] theorem Regs.vget_v (r : Regs) (n lane : Nat) : r.vget n lane = r.v.get (32 * n + lane) := rfl

@[simp] theorem Regs.touch_v (r : Regs) (ns : List Nat) : (r.touch ns).v = r.v := rfl
@[simp] theorem Regs.touch_s (r : Regs) (ns : List Nat) : (r.touch ns).s = r.s := rfl
@[simp] theorem Regs.touch_p (r : Regs) (ns : List Nat) : (r.touch ns).p = r.p := rfl

/-- What register writes leave of the vector cells. -/
theorem Regs.apply_v (r : Regs) (w : Wr) :
    (r.apply w).v = w.v.foldl (fun (c : Cells 32) (e : Nat × Lane) => Sys2Proof.Cells.set c e.1 e.2) r.v := by
  have hs : ∀ (l : List (Nat × Word)) (r : Regs),
      (l.foldl (fun (r : Regs) (e : Nat × Word) => r.sset e.1 e.2) r).v = r.v := by
    intro l
    induction l with
    | nil => intro r; rfl
    | cons e t ih => intro r; rw [List.foldl_cons, ih]; unfold Regs.sset; split <;> rfl
  have hp : ∀ (l : List (Nat × Mask × Mask)) (r : Regs),
      (l.foldl (fun (r : Regs) (e : Nat × Mask × Mask) => r.pset e.1 e.2.1 e.2.2) r).v = r.v := by
    intro l
    induction l with
    | nil => intro r; rfl
    | cons e t ih => intro r; rw [List.foldl_cons, ih]; unfold Regs.pset; split <;> rfl
  unfold Regs.apply
  simp [hp, hs]

/-- A scalar that is not written. -/
theorem Regs.apply_s (r : Regs) (w : Wr) :
    (r.apply w).s = (w.s.foldl (fun (r : Regs) (e : Nat × Word) => r.sset e.1 e.2) r).s := by
  have hp : ∀ (l : List (Nat × Mask × Mask)) (r : Regs),
      (l.foldl (fun (r : Regs) (e : Nat × Mask × Mask) => r.pset e.1 e.2.1 e.2.2) r).s = r.s := by
    intro l
    induction l with
    | nil => intro r; rfl
    | cons e t ih => intro r; rw [List.foldl_cons, ih]; unfold Regs.pset; split <;> rfl
  have hv : ∀ (l : List (Nat × Word)) (a b : Regs), a.s = b.s →
      (l.foldl (fun (r : Regs) (e : Nat × Word) => r.sset e.1 e.2) a).s
        = (l.foldl (fun (r : Regs) (e : Nat × Word) => r.sset e.1 e.2) b).s := by
    intro l
    induction l with
    | nil => intro a b h; exact h
    | cons e t ih =>
      intro a b h
      rw [List.foldl_cons, List.foldl_cons]
      apply ih
      unfold Regs.sset
      split
      · exact h
      · simp [h]
  unfold Regs.apply
  simp only [hp]
  exact hv _ _ _ rfl

theorem Regs.sget_sset (r : Regs) (n k : Nat) (x : Word) :
    (r.sset n x).sget k = if k = n ∧ n ≠ 0 then x else r.sget k := by
  unfold Regs.sset Regs.sget
  by_cases hn : n = 0
  · simp [hn]
  · by_cases hk : k = 0
    · have : ¬(k = n) := by omega
      simp [hn, hk]
      omega
    · by_cases h : k = n <;> simp [hn, hk, h, Sys2Proof.Cells.get_set]

/-- Reading a scalar after one scalar write. -/
theorem Regs.sget_apply (r : Regs) (w : Wr) (k : Nat) :
    (r.apply w).sget k = (w.s.foldl (fun (r : Regs) (e : Nat × Word) => r.sset e.1 e.2) r).sget k := by
  unfold Regs.sget
  rw [Regs.apply_s]

/-- The control fields and tables that register writes leave. -/
theorem Regs.apply_rest (r : Regs) (w : Wr) :
    (r.apply w).al = r.al ∧ (r.apply w).map = r.map ∧ (r.apply w).rets = r.rets ∧ (r.apply w).fpmode = r.fpmode
      ∧ (r.apply w).repro = r.repro ∧ (r.apply w).srseed = r.srseed
      ∧ (r.apply w).srcount = r.srcount + BitVec.ofNat 64 w.cnt := by
  have hs : ∀ (l : List (Nat × Word)) (r : Regs), ∃ x,
      l.foldl (fun (r : Regs) (e : Nat × Word) => r.sset e.1 e.2) r = { r with s := x } := by
    intro l
    induction l with
    | nil => intro r; exact ⟨r.s, rfl⟩
    | cons e t ih =>
      intro r
      obtain ⟨x, hx⟩ := ih (r.sset e.1 e.2)
      rw [List.foldl_cons, hx]
      by_cases h : e.1 = 0
      · exact ⟨x, by simp [Regs.sset, h]⟩
      · exact ⟨x, by simp [Regs.sset, h]⟩
  have hp : ∀ (l : List (Nat × Mask × Mask)) (r : Regs), ∃ x,
      l.foldl (fun (r : Regs) (e : Nat × Mask × Mask) => r.pset e.1 e.2.1 e.2.2) r = { r with p := x } := by
    intro l
    induction l with
    | nil => intro r; exact ⟨r.p, rfl⟩
    | cons e t ih =>
      intro r
      obtain ⟨x, hx⟩ := ih (r.pset e.1 e.2.1 e.2.2)
      rw [List.foldl_cons, hx]
      by_cases h : e.1 = 0
      · exact ⟨x, by simp [Regs.pset, h]⟩
      · exact ⟨x, by simp [Regs.pset, h]⟩
  let r0 := ({ r with v := w.v.foldl (fun (c : Cells 32) (e : Nat × Lane) => c.set e.1 e.2) r.v } : Regs).touch
    (w.v.map (fun (e : Nat × Lane) => e.1 / 32)).eraseDups
  obtain ⟨x, hx⟩ := hs w.s r0
  obtain ⟨y, hy⟩ := hp w.p (w.s.foldl (fun (r : Regs) (e : Nat × Word) => r.sset e.1 e.2) r0)
  refine ⟨?_, ?_, ?_, ?_, ?_, ?_, ?_⟩
  · have a := congrArg Regs.al hy
    have b := congrArg Regs.al hx
    dsimp only at a b
    exact a.trans b
  · have a := congrArg Regs.map hy
    have b := congrArg Regs.map hx
    dsimp only at a b
    exact a.trans b
  · have a := congrArg Regs.rets hy
    have b := congrArg Regs.rets hx
    dsimp only at a b
    exact a.trans b
  · have a := congrArg Regs.fpmode hy
    have b := congrArg Regs.fpmode hx
    dsimp only at a b
    exact a.trans b
  · have a := congrArg Regs.repro hy
    have b := congrArg Regs.repro hx
    dsimp only at a b
    exact a.trans b
  · have a := congrArg Regs.srseed hy
    have b := congrArg Regs.srseed hx
    dsimp only at a b
    exact a.trans b
  · have a := congrArg Regs.srcount hy
    have b := congrArg Regs.srcount hx
    dsimp only at a b
    exact congrArg (fun x => x + BitVec.ofNat 64 w.cnt) (a.trans b)

/-- A predicate that is not written. -/
theorem Regs.pget_apply (r : Regs) (w : Wr) (k : Nat) :
    (r.apply w).pget k = (w.p.foldl (fun (r : Regs) (e : Nat × Mask × Mask) => r.pset e.1 e.2.1 e.2.2) r).pget k := by
  have hx : ∀ (l : List (Nat × Mask × Mask)) (a b : Regs), a.p = b.p →
      (l.foldl (fun (r : Regs) (e : Nat × Mask × Mask) => r.pset e.1 e.2.1 e.2.2) a).p
        = (l.foldl (fun (r : Regs) (e : Nat × Mask × Mask) => r.pset e.1 e.2.1 e.2.2) b).p := by
    intro l
    induction l with
    | nil => intro a b h; exact h
    | cons e t ih =>
      intro a b h
      rw [List.foldl_cons, List.foldl_cons]
      apply ih
      unfold Regs.pset
      split
      · exact h
      · simp [h]
  have hs : ∀ (l : List (Nat × Word)) (r : Regs),
      (l.foldl (fun (r : Regs) (e : Nat × Word) => r.sset e.1 e.2) r).p = r.p := by
    intro l
    induction l with
    | nil => intro r; rfl
    | cons e t ih => intro r; rw [List.foldl_cons, ih]; unfold Regs.sset; split <;> rfl
  unfold Regs.pget
  unfold Regs.apply
  simp only
  rw [hx _ _ r (by rw [hs]; rfl)]

theorem Regs.pget_pset (r : Regs) (n k : Nat) (m bits : Mask) :
    (r.pset n m bits).pget k = if k = n ∧ n ≠ 0 then (r.p.get n &&& ~~~m) ||| (bits &&& m) else r.pget k := by
  unfold Regs.pset Regs.pget
  by_cases hn : n = 0
  · simp [hn]
  · by_cases hk : k = 0
    · have : ¬(k = n) := by omega
      simp [hn, hk]
      omega
    · by_cases h : k = n <;> simp [hn, hk, h, Sys2Proof.Cells.get_set]

/-! ### Destinations -/

theorem vCells_keys (f : BitVec 10) (lane n x : Nat) : (vCells f lane n x).map Prod.fst
    = (List.range n).map (fun k => 32 * (rnum f + k) + lane) := by
  induction n generalizing x with
  | zero => rfl
  | succ n ih => rw [vCells, List.map_append, ih, List.range_succ, List.map_append]; rfl

theorem vCells_one (f : BitVec 10) (lane x : Nat) :
    vCells f lane 1 x = [(32 * rnum f + lane, BitVec.ofNat 32 x)] := by simp [vCells]

theorem vCells_two (f : BitVec 10) (lane x : Nat) : vCells f lane 2 x
    = [(32 * rnum f + lane, BitVec.ofNat 32 (x % 2 ^ 32)), (32 * (rnum f + 1) + lane, BitVec.ofNat 32 (x / 2 ^ 32))] := by
  simp [vCells]

/-- The keys of a destination's cells are those that `cellsOf` gives. -/
theorem wrDst_keys (f : BitVec 10) (n : Nat) (vals : List (Nat × Nat)) (h : isS f = false) :
    (wrDst f n vals).v.map Prod.fst
      = (vals.map Prod.fst).flatMap (fun l => (List.range n).map (fun k => 32 * (rnum f + k) + l)) := by
  simp only [wrDst, h, Bool.false_eq_true, if_false, List.map_flatMap, vCells_keys, List.flatMap_map]

theorem dst_keys_nodup (f : BitVec 10) (n : Nat) (ls : List Nat) (hn : ls.Nodup) (hl : ∀ l ∈ ls, l < 32) :
    (ls.flatMap (fun l => (List.range n).map (fun k => 32 * (rnum f + k) + l))).Nodup := by
  rw [List.nodup_flatMap]
  constructor
  · intro l _
    exact List.Nodup.map (fun a b hab => by have : 32 * (rnum f + a) + l = 32 * (rnum f + b) + l := hab; omega) List.nodup_range
  · refine List.Pairwise.imp_of_mem ?_ hn
    intro a b ha hb hab x hx hy
    simp only [List.mem_map, List.mem_range] at hx hy
    obtain ⟨i, _, hi⟩ := hx
    obtain ⟨j, _, hj⟩ := hy
    have := hl a ha
    have := hl b hb
    omega

/-- Reading a destination back: the value of its lane, to the width of its registers. -/
theorem src_apply_wrDst (r : Regs) (w : Wr) (f : BitVec 10) (n : Nat) (vals : List (Nat × Nat)) (l x : Nat)
    (hf : isS f = false) (hn : n = 1 ∨ n = 2) (hv : w.v = (wrDst f n vals).v) (hd : (vals.map Prod.fst).Nodup)
    (hl : ∀ e ∈ vals, e.1 < 32) (hx : (l, x) ∈ vals) : (r.apply w).src f n l = x % 2 ^ (32 * n) := by
  have hk : (w.v.map Prod.fst).Nodup := by
    rw [hv, wrDst_keys f n vals hf]
    refine dst_keys_nodup f n _ hd ?_
    intro a ha
    obtain ⟨e, he, rfl⟩ := List.mem_map.mp ha
    exact hl e he
  have hmem : ∀ c ∈ vCells f l n x, c ∈ w.v := by
    intro c hc
    rw [hv]
    simp only [wrDst, hf, Bool.false_eq_true, if_false, List.mem_flatMap]
    exact ⟨(l, x), hx, hc⟩
  have hget : ∀ k v, (k, v) ∈ vCells f l n x → (r.apply w).v.get k = v := by
    intro k v h
    rw [Regs.apply_v]
    exact get_foldl_set_mem _ _ _ _ hk (hmem _ h)
  rcases hn with rfl | rfl
  · rw [vCells_one] at hget
    have := hget _ _ (List.mem_singleton.mpr rfl)
    simp [Regs.src, hf, this]
  · rw [vCells_two] at hget
    have h0 := hget _ _ (List.mem_cons_self)
    have h1 := hget (32 * (rnum f + 1) + l) (BitVec.ofNat 32 (x / 2 ^ 32)) (by simp)
    simp only [Regs.src, hf, Bool.false_eq_true, if_false, if_true, Regs.vget_v, h0, h1, BitVec.toNat_ofNat]
    omega

end Sys2Proof.Machine
end

