-- ==== Sys2Proof/Laws/Write.lean ====
section
/-! SUPPORT. What an instruction that writes registers does, whatever it computes: the shared operation `applyWr` after
the gate and before `finish`. -/

namespace Sys2Proof.Machine

open Sys2Proof

/-! ### Chunk updates -/

/-- The flags pending with the current chunk. -/
def pendingFlags (s : State) : Word := match s.sp.chunk with | some c => c.flags.setWidth 64 | none => 0

/-- The split after a change within its chunk, seen without the chunk. -/
def SplitKept (s t : State) : Prop := { t.sp with chunk := s.sp.chunk } = s.sp

namespace SplitKept

theorem refl (s : State) : SplitKept s s := rfl

theorem trans {s t u : State} (h : SplitKept s t) (k : SplitKept t u) : SplitKept s u := by
  unfold SplitKept at *
  calc { u.sp with chunk := s.sp.chunk } = { ({ u.sp with chunk := t.sp.chunk } : Split) with chunk := s.sp.chunk } := rfl
    _ = { t.sp with chunk := s.sp.chunk } := by rw [k]
    _ = s.sp := h

theorem modSp (s : State) (f : Split → Split) (h : KeepsId f) (hf : ∀ p, { f p with chunk := p.chunk } = p)
    (hc : s.hasCur = true) : SplitKept s (s.modSp f) := by
  unfold SplitKept
  rw [State.modSp_sp s f h hc]
  exact hf _

theorem modChunk (s : State) (f : Chunk → Chunk) (hc : s.hasCur = true) : SplitKept s (s.modChunk f) :=
  modSp s _ (fun _ => rfl) (fun _ => rfl) hc

theorem ctl {s t : State} (h : SplitKept s t) : t.ctl = s.ctl := by have := congrArg Split.ctl h; exact this
theorem pend {s t : State} (h : SplitKept s t) : t.sp.pend = s.sp.pend := by have := congrArg Split.pend h; exact this
theorem irLen {s t : State} (h : SplitKept s t) : t.sp.irLen = s.sp.irLen := by have := congrArg Split.irLen h; exact this

end SplitKept

theorem modChunk_chunk (s : State) (f : Chunk → Chunk) (hc : s.hasCur = true) :
    (s.modChunk f).sp.chunk = s.sp.chunk.map f := by
  unfold State.modChunk
  rw [State.modSp_sp s (fun p => { p with chunk := p.chunk.map f }) (fun _ => rfl) hc]

/-- Chunk updates that leave its flags. -/
theorem modChunk_flags (s : State) (f : Chunk → Chunk) (hc : s.hasCur = true)
    (hf : ∀ c, (f c).held = c.held ∧ (f c).flags = c.flags) (n : Nat) :
    heldFlag (s.modChunk f) n = heldFlag s n ∧ pendingFlags (s.modChunk f) = pendingFlags s := by
  unfold heldFlag pendingFlags
  rw [modChunk_chunk s f hc]
  cases s.sp.chunk with
  | none => simp
  | some c => simp [hf c]

/-! ### The chunk that begins -/

/-- The flag registers and the long-latency writes of a group. -/
def Group.tail (g : Group) : Word × List LongWrite := (g.fpflags, g.ll)

/-- The update of the chunk numbers. -/
def bumpCid (g : Group) : Group := { g with nextCid := g.nextCid + 1 }

/-- What the numbering of a chunk leaves of the group. -/
theorem bump_g (s : State) : (s.modG bumpCid).g.regs = s.g.regs ∧ (s.modG bumpCid).g.tail = s.g.tail := by
  unfold State.modG State.g
  rw [State.modGroup_cur, State.modGroup_group? s s.cur.1 s.cur.1 bumpCid (fun _ => rfl)]
  cases hg : s.group? s.cur.1 with
  | none => exact ⟨rfl, rfl⟩
  | some g =>
    simp only [Option.map_some, State.group?_gid hg, beq_self_eq_true, if_true, Option.getD_some]
    exact ⟨rfl, rfl⟩

/-- The chunk that begins. -/
def newChunk (s : State) : Chunk :=
  { cid := s.g.nextCid, ckRegs := s.g.regs, ckCtl := s.ctl, spare := s.g.splits.any (fun p => p.chunk.isSome) }

theorem openChunk_eq (s : State) : openChunk s = (s.modG bumpCid).modSp
    (fun p => { p with chunk := some (newChunk s) }) := rfl

@[simp] theorem begun_regs (i : Instr) (s : State) : (begun i s).regs = s.regs := by
  unfold begun
  split
  · rw [openChunk_eq, State.modSp_regs]
    exact (bump_g s).1
  · rfl

@[simp] theorem begun_cur (i : Instr) (s : State) : (begun i s).cur = s.cur := (Within.begun i s).cur

@[simp] theorem begun_hasCur (i : Instr) (s : State) : (begun i s).hasCur = s.hasCur := (Within.begun i s).has

@[simp] theorem begun_free (i : Instr) (s : State) : (begun i s).free = s.free := by
  unfold begun
  split <;> rfl

theorem openChunk_sp (s : State) (hc : s.hasCur = true) : (openChunk s).sp
    = { s.sp with chunk := some (newChunk s) } := by
  unfold openChunk
  have h1 : (s.modG bumpCid).hasCur = true := by
    rw [State.modG_hasCur s bumpCid (fun _ => rfl) (fun _ => rfl) (fun _ _ => rfl)]
    exact hc
  have h2 : (s.modG bumpCid).sp = s.sp := by
    unfold State.sp
    rw [State.modG_g s bumpCid (fun _ => rfl) hc, State.modG_cur]
    rfl
  have h3 := State.modSp_sp (s.modG bumpCid)
    (fun p => { p with chunk := some (newChunk s) }) (fun _ => rfl) h1
  rw [h2] at h3
  exact h3

theorem SplitKept.begun (i : Instr) (s : State) (hc : s.hasCur = true) : SplitKept s (begun i s) := by
  unfold Sys2Proof.Machine.begun
  split
  · unfold SplitKept
    rw [openChunk_sp s hc]
  · exact refl s

@[simp] theorem begun_exec (i j : Instr) (s : State) (hc : s.hasCur = true) : (begun i s).exec j = s.exec j := by
  have h1 := (SplitKept.begun i s hc).ctl
  unfold State.exec
  rw [begun_regs, h1]

/-- A chunk that begins has no flags. -/
theorem begun_flags (i : Instr) (s : State) (hc : s.hasCur = true) (n : Nat) :
    heldFlag (begun i s) n = heldFlag s n ∧ pendingFlags (begun i s) = pendingFlags s := by
  unfold begun
  split
  · rename_i h
    have hx : s.sp.chunk = none := by
      simp only [Bool.and_eq_true] at h
      simpa using h.2
    unfold heldFlag pendingFlags
    rw [openChunk_sp s hc, hx]
    simp [newChunk]
  · exact ⟨rfl, rfl⟩

/-! ### Group fields -/

theorem begun_tail (i : Instr) (s : State) : (begun i s).g.tail = s.g.tail := by
  unfold begun
  split
  · rw [openChunk_eq, State.modSp_g]
    exact (bump_g s).2
  · rfl

theorem finish_tail (i : Instr) (j : Bool) (b s : State) : (finish i j b s).g.tail = s.g.tail := by
  have h := congrArg Group.tail (finish_g i j b s)
  exact h

/-! ### Register writes with the scalars they hold -/

theorem holdScalars_fold (r : Regs) (ns : List Nat) (c : Chunk) :
    let d := ns.foldl (fun c n => if n == 0 || c.heldS.contains n then c
      else { c with heldS := c.heldS ++ [n], ckRegs := { c.ckRegs with s := c.ckRegs.s.set n (r.s.get n) } }) c
    d.held = c.held ∧ d.flags = c.flags := by
  induction ns generalizing c with
  | nil => exact ⟨rfl, rfl⟩
  | cons n t ih =>
    rw [List.foldl_cons]
    have h := ih (if n == 0 || c.heldS.contains n then c
      else { c with heldS := c.heldS ++ [n], ckRegs := { c.ckRegs with s := c.ckRegs.s.set n (r.s.get n) } })
    dsimp only at h ⊢
    rw [h.1, h.2]
    split <;> exact ⟨rfl, rfl⟩

theorem Within.holdScalars (s : State) (ns : List Nat) : Within s (holdScalars s ns) := Within.modChunk s _

@[simp] theorem holdScalars_regs (s : State) (ns : List Nat) : (holdScalars s ns).regs = s.regs := by
  unfold holdScalars
  exact State.modSp_regs _ _

theorem holdScalars_g (s : State) (ns : List Nat) : { (holdScalars s ns).g with splits := s.g.splits } = s.g := by
  unfold holdScalars State.modChunk
  rw [State.modSp_g]
  rfl

theorem modRegs_g (s : State) (f : Regs → Regs) (hc : s.hasCur = true) :
    (s.modRegs f).g = { s.g with regs := f s.g.regs } := State.modG_g s _ (fun _ => rfl) hc

theorem modRegs_sp' (s : State) (f : Regs → Regs) (hc : s.hasCur = true) : (s.modRegs f).sp = s.sp := by
  unfold State.sp
  rw [modRegs_g s f hc]
  rfl

/-- What the registers' part of `applyWr` leaves. -/
theorem regsPart (s : State) (ns : List Nat) (f : Regs → Regs) (hc : s.hasCur = true) :
    let t := (holdScalars s ns).modRegs f
    Within s t ∧ SplitKept s t ∧ t.regs = f s.regs ∧ t.g.tail = s.g.tail
      ∧ (∀ n, heldFlag t n = heldFlag s n) ∧ pendingFlags t = pendingFlags s ∧ t.sp.chunk.isSome = s.sp.chunk.isSome := by
  have hc1 : (holdScalars s ns).hasCur = true := by rw [(Within.holdScalars s ns).has]; exact hc
  have hsp := modRegs_sp' (holdScalars s ns) f hc1
  have hf : ∀ n, heldFlag (holdScalars s ns) n = heldFlag s n ∧ pendingFlags (holdScalars s ns) = pendingFlags s :=
    modChunk_flags s _ hc (fun c => holdScalars_fold s.regs ns c)
  refine ⟨(Within.holdScalars s ns).trans (Within.modRegs _ f), ?_, ?_, ?_, fun n => ?_, ?_, ?_⟩
  · unfold SplitKept
    rw [hsp]
    exact SplitKept.modChunk s _ hc
  · unfold State.regs
    rw [modRegs_g _ f hc1]
    have := congrArg Group.regs (holdScalars_g s ns)
    dsimp only at this ⊢
    rw [this]
  · rw [modRegs_g _ f hc1]
    have := congrArg Group.tail (holdScalars_g s ns)
    exact this
  · rw [← (hf n).1]
    unfold heldFlag
    rw [hsp]
  · rw [← (hf 0).2]
    unfold pendingFlags
    rw [hsp]
  · rw [hsp]
    unfold holdScalars
    rw [modChunk_chunk s _ hc]
    simp

/-! ### Raising flags -/

/-- FPFLAGS as the split reads it. -/
def flagsRead (s : State) : Word := flagReg s 0x011 s.g.fpflags (pendingFlags s)

theorem flagsRead_eq (s : State) (l : Nat) : sysValue s 0x011 l = flagsRead s := rfl

theorem find_held (l : List HeldFlags) (v : Word) (n : Nat) :
    (l.map (fun h => if h.reg == 0x011 then { h with later := h.later ||| v } else h)).find? (fun h => h.reg == n)
      = (l.find? (fun h => h.reg == n)).map
          (fun h => if h.reg == 0x011 then { h with later := h.later ||| v } else h) := by
  refine find?_map_of _ _ _ (fun h => ?_)
  by_cases hr : (h.reg == 0x011) = true <;> simp [hr]

/-- What raising flags leaves, and what FPFLAGS then reads. -/
theorem raise_spec (s : State) (f : Flags7) (hc : s.hasCur = true) :
    let t := raiseFlags s f
    Within s t ∧ SplitKept s t ∧ t.regs = s.regs ∧ t.g.ll = s.g.ll ∧ (∀ n, n ≠ 0x011 → heldFlag t n = heldFlag s n)
      ∧ flagsRead t = flagsRead s ||| f.setWidth 64 := by
  intro t
  by_cases hs : s.sp.chunk.isSome = true
  · let up : Chunk → Chunk := fun c =>
      if c.held.any (fun h => h.reg == 0x011) then
        { c with held := c.held.map (fun h => if h.reg == 0x011 then { h with later := h.later ||| f.setWidth 64 } else h) }
      else { c with flags := c.flags ||| f }
    have ht : t = s.modChunk up := by
      show raiseFlags s f = _
      unfold raiseFlags
      rw [if_pos hs]
    obtain ⟨c, hx⟩ := Option.isSome_iff_exists.mp hs
    have htc : (s.modChunk up).sp.chunk = some (up c) := by rw [modChunk_chunk s up hc, hx]; rfl
    have hg : { (s.modChunk up).g with splits := s.g.splits } = s.g := by
      unfold State.modChunk
      rw [State.modSp_g]
      rfl
    have hfp : (s.modChunk up).g.fpflags = s.g.fpflags := by have := congrArg Group.fpflags hg; exact this
    rw [ht]
    refine ⟨Within.modChunk s up, SplitKept.modChunk s up hc, by have := congrArg Group.regs hg; exact this,
      by have := congrArg Group.ll hg; exact this, fun n hn => ?_, ?_⟩
    · unfold heldFlag
      rw [htc, hx]
      dsimp only [Option.bind_some, up]
      split
      · rw [find_held]
        cases hf : c.held.find? (fun h => h.reg == n) with
        | none => rfl
        | some h =>
          have : h.reg = n := by simpa using List.find?_some hf
          simp [this, hn]
      · rfl
    · unfold flagsRead flagReg pendingFlags
      rw [hfp]
      unfold heldFlag
      rw [htc, hx]
      dsimp only [Option.bind_some, up]
      by_cases ha : (c.held.any (fun h => h.reg == 0x011)) = true
      · rw [if_pos ha]
        dsimp only
        rw [find_held]
        cases hf : c.held.find? (fun h => h.reg == 0x011) with
        | none =>
          rw [List.any_eq_true] at ha
          obtain ⟨h, hm, hr⟩ := ha
          have := List.find?_eq_none.mp hf h hm
          exact absurd hr this
        | some h =>
          have : h.reg = 0x011 := by simpa using List.find?_some hf
          simp [this, BitVec.or_assoc]
      · rw [if_neg ha]
        dsimp only
        have hf : c.held.find? (fun h => h.reg == 0x011) = none := by
          rw [List.find?_eq_none]
          intro h hm hr
          exact ha (List.any_eq_true.mpr ⟨h, hm, hr⟩)
        rw [hf]
        dsimp only
        rw [BitVec.or_assoc]
        congr 1
  · let up : Group → Group := fun g => { g with fpflags := g.fpflags ||| f.setWidth 64 }
    have ht : t = s.modG up := by
      show raiseFlags s f = _
      unfold raiseFlags
      rw [if_neg hs]
    have hg := State.modG_g s up (fun _ => rfl) hc
    have hx : s.sp.chunk = none := by simpa using hs
    have hsp : (s.modG up).sp = s.sp := by
      unfold State.sp
      rw [hg, State.modG_cur]
      rfl
    have hh : ∀ n, heldFlag (s.modG up) n = heldFlag s n := by
      intro n
      unfold heldFlag
      rw [hsp]
    rw [ht]
    refine ⟨Within.modG s up (fun _ => rfl) (fun _ => rfl) (fun _ => rfl), ?_, ?_, ?_, fun n _ => hh n, ?_⟩
    · unfold SplitKept
      rw [hsp]
    · unfold State.regs
      rw [hg]
    · rw [hg]
    · unfold flagsRead flagReg
      rw [hh, hg]
      unfold heldFlag pendingFlags
      rw [hsp, hx]
      simp [up]

/-- What `applyWr` does: the registers take the writes, FPFLAGS gains the flags, and nothing else that a program reads
changes. -/
theorem applyWr_spec (s : State) (w : Wr) (hc : s.hasCur = true) :
    let t := applyWr s w
    Within s t ∧ SplitKept s t ∧ t.regs = s.regs.apply w ∧ t.g.ll = s.g.ll
      ∧ (∀ n, n ≠ 0x011 → heldFlag t n = heldFlag s n) ∧ flagsRead t = flagsRead s ||| w.flags.setWidth 64 := by
  obtain ⟨h1, h2, h3, h4, h5, h6, _⟩ := regsPart s (w.s.map (fun e => e.1)) (fun r => r.apply w) hc
  have hfr : flagsRead ((holdScalars s (w.s.map (fun e => e.1))).modRegs (fun r => r.apply w)) = flagsRead s := by
    unfold flagsRead flagReg
    rw [h5, h6]
    have := congrArg Prod.fst h4
    dsimp only [Group.tail] at this
    rw [this]
  have hll := congrArg Prod.snd h4
  dsimp only [Group.tail] at hll
  intro t
  by_cases hf : (w.flags == 0) = true
  · have ht : t = (holdScalars s (w.s.map (fun e => e.1))).modRegs (fun r => r.apply w) := by
      show applyWr s w = _
      unfold applyWr
      rw [if_pos hf]
    rw [ht]
    refine ⟨h1, h2, h3, hll, fun n _ => h5 n, ?_⟩
    rw [hfr, eq_of_beq hf]
    simp
  · have ht : t = raiseFlags ((holdScalars s (w.s.map (fun e => e.1))).modRegs (fun r => r.apply w)) w.flags := by
      show applyWr s w = _
      unfold applyWr
      rw [if_neg hf]
    obtain ⟨k1, k2, k3, k4, k5, k6⟩ := raise_spec _ w.flags (h1.has.trans hc)
    rw [ht]
    exact ⟨h1.trans k1, h2.trans k2, k3.trans h3, k4.trans hll, fun n hn => (k5 n hn).trans (h5 n), by rw [k6, hfr]⟩

/-! ### System registers -/

/-- The control fields that a program reads. -/
def Ctl.traps (c : Ctl) : Mask × Word × Word × Word × Word × Word × Word :=
  (c.mask, c.trapPc, c.trapCause, c.trapMask, c.trapInfo, c.trapVec, c.trapSave)

/-- What a system register reads depends on the machine outside the group, the group's fixed fields, the control fields
of the split, the modes and the flag registers. -/
theorem sysValue_within {s t : State} (h : Within s t) (hc : t.ctl.traps = s.ctl.traps)
    (hm : t.regs.fpmode = s.regs.fpmode ∧ t.regs.repro = s.regs.repro ∧ t.regs.srseed = s.regs.srseed)
    (hf : ∀ n, n ≠ 0x011 → heldFlag t n = heldFlag s n) (ex : List Nat)
    (he : 0x011 ∉ ex → flagsRead t = flagsRead s) : sameSystem s t ex := by
  intro n l hn hv
  have hfix := h.fixed
  have htid : t.g.tid = s.g.tid := by have := congrArg (fun x => x.2.1) hfix; exact this
  have hco : t.g.core = s.g.core := by have := congrArg (fun x => x.2.2.1) hfix; exact this
  have hsl : t.g.slot = s.g.slot := by have := congrArg (fun x => x.2.2.2.1) hfix; exact this
  have hix : t.g.index = s.g.index := by have := congrArg (fun x => x.2.2.2.2.1) hfix; exact this
  have hspw : t.g.spawned = s.g.spawned := by have := congrArg (fun x => x.2.2.2.2.2.1) hfix; exact this
  have hch : t.g.chunked = s.g.chunked := by have := congrArg (fun x => x.2.2.2.2.2.2.1) hfix; exact this
  have hmx : t.g.mxflags = s.g.mxflags := by have := congrArg (fun x => x.2.2.2.2.2.2.2.2.1) hfix; exact this
  have hxf : t.g.xflags = s.g.xflags := by have := congrArg (fun x => x.2.2.2.2.2.2.2.2.2.1) hfix; exact this
  have hsq : t.g.chunksq = s.g.chunksq := by have := congrArg (fun x => x.2.2.2.2.2.2.2.2.2.2) hfix; exact this
  have hteam : t.t = s.t := by unfold State.t State.teamOf State.team?; rw [htid, h.teams]
  have hcl : t.cl = s.cl := by
    unfold State.cl State.clusterOf State.teamOf State.team? State.cluster?
    rw [htid, h.teams, h.clusters]
  have hgr : t.gr = s.gr := by
    unfold State.gr State.gridOf State.clusterOf State.teamOf State.team? State.cluster? State.grid?
    rw [htid, h.teams, h.clusters, h.grids]
  have htime : t.time = s.time := by have := h.clock; unfold State.time; rw [this]
  have hmask : t.ctl.mask = s.ctl.mask := congrArg (fun x => x.1) hc
  have h20 : t.ctl.trapPc = s.ctl.trapPc := congrArg (fun x => x.2.1) hc
  have h21 : t.ctl.trapCause = s.ctl.trapCause := congrArg (fun x => x.2.2.1) hc
  have h22 : t.ctl.trapMask = s.ctl.trapMask := congrArg (fun x => x.2.2.2.1) hc
  have h23 : t.ctl.trapInfo = s.ctl.trapInfo := congrArg (fun x => x.2.2.2.2.1) hc
  have h24 : t.ctl.trapVec = s.ctl.trapVec := congrArg (fun x => x.2.2.2.2.2.1) hc
  have h25 : t.ctl.trapSave = s.ctl.trapSave := congrArg (fun x => x.2.2.2.2.2.2) hc
  have hk := h.cores s.g.core
  have hbt : (t.coreAt s.g.core).bintimer = (s.coreAt s.g.core).bintimer := by have := congrArg Core.bintimer hk; exact this
  have hse : (t.coreAt s.g.core).evsel = (s.coreAt s.g.core).evsel := by have := congrArg Core.evsel hk; exact this
  have hfi : (t.coreAt s.g.core).faultinj = (s.coreAt s.g.core).faultinj := by have := congrArg Core.faultinj hk; exact this
  by_cases h11 : n = 0x011
  · subst h11
    exact he hn
  · have hfl : ∀ m own p, m ≠ 0x011 → flagReg t m own p = flagReg s m own p := by
      intro m own p hm
      unfold flagReg
      rw [hf m hm]
    have e1 : t.regs.fpmode = s.regs.fpmode := hm.1
    have e2 : t.regs.repro = s.regs.repro := hm.2.1
    have e3 : t.regs.srseed = s.regs.srseed := hm.2.2
    have e1' : t.g.regs.fpmode = s.g.regs.fpmode := e1
    have e2' : t.g.regs.repro = s.g.regs.repro := e2
    have e3' : t.g.regs.srseed = s.g.regs.srseed := e3
    unfold sysValue
    simp only [hteam, hcl, hgr, htime, hmask, h20, h21, h22, h23, h24, h25, hco, hbt, hse, hfi, hsl, hix, hspw, hch, hmx,
      hxf, hsq, e1', e2', e3', h.clock]
    split <;> first | rfl | exact absurd rfl h11 | exact hfl _ _ _ (by decide) | skip
    exact ite_congr rfl (fun _ => rfl) (fun _ => ite_congr rfl (fun hb => absurd (by simpa using hb) hv) (fun _ => rfl))

/-! ### The whole instruction -/

/-- What the registers' writes leave of the cells. -/
theorem apply_same (s t : State) (w : Wr) (h : t.regs = s.regs.apply w) :
    sameRegs s t (w.v.map Prod.fst) (w.s.map Prod.fst) (w.p.map Prod.fst) := by
  refine ⟨fun n l _ hn => ?_, fun n hn => ?_, fun n hn => ?_⟩
  · rw [h, Regs.vget_v, Regs.vget_v, Regs.apply_v]
    exact get_foldl_set _ _ _ (fun e he hk => hn (List.mem_map.mpr ⟨e, he, hk⟩))
  · rw [h, Regs.sget_apply]
    have : ∀ (l : List (Nat × Word)) (r : Regs), (∀ e ∈ l, e.1 ≠ n) →
        (l.foldl (fun (r : Regs) (e : Nat × Word) => r.sset e.1 e.2) r).sget n = r.sget n := by
      intro l
      induction l with
      | nil => intro r _; rfl
      | cons e q ih =>
        intro r he
        rw [List.foldl_cons, ih _ (fun x hx => he x (by simp [hx])), Regs.sget_sset, if_neg]
        exact fun hk => he e (by simp) hk.1.symm
    exact this _ _ (fun e he hk => hn (List.mem_map.mpr ⟨e, he, hk⟩))
  · rw [h, Regs.pget_apply]
    have : ∀ (l : List (Nat × Mask × Mask)) (r : Regs), (∀ e ∈ l, e.1 ≠ n) →
        (l.foldl (fun (r : Regs) (e : Nat × Mask × Mask) => r.pset e.1 e.2.1 e.2.2) r).pget n = r.pget n := by
      intro l
      induction l with
      | nil => intro r _; rfl
      | cons e q ih =>
        intro r he
        rw [List.foldl_cons, ih _ (fun x hx => he x (by simp [hx])), Regs.pget_pset, if_neg]
        exact fun hk => he e (by simp) hk.1.symm
    exact this _ _ (fun e he hk => hn (List.mem_map.mpr ⟨e, he, hk⟩))

/-- A change of the group, its split and its registers that a ready instruction makes, seen from before its chunk began. -/
theorem acted (i : Instr) (s u : State) (h : ready i s = true) (w : Wr) (hw : Within (begun i s) u)
    (hk : SplitKept (begun i s) u) (hr : u.regs = s.regs.apply w)
    (hf : ∀ n, n ≠ 0x011 → heldFlag u n = heldFlag (begun i s) n) (ex : List Nat)
    (he : 0x011 ∉ ex → flagsRead u = flagsRead s) :
    let t := finish i false (begun i s) u
    t.regs = s.regs.apply w ∧ flagsRead t = flagsRead u ∧ t.g.ll = u.g.ll
      ∧ quietFrame s t (w.v.map Prod.fst) (w.s.map Prod.fst) (w.p.map Prod.fst) ex w.cnt := by
  intro t
  have hc : s.hasCur = true := by
    simp only [ready, Bool.and_eq_true] at h
    exact h.1.1.1.1
  have hp : s.sp.pend = none := by
    simp only [ready, State.idle, Bool.and_eq_true] at h
    simpa using h.1.1.1.2.1.1.1.1.1.1
  have hcu : u.hasCur = true := by rw [hw.has, begun_hasCur]; exact hc
  have hkb := (SplitKept.begun i s hc).trans hk
  have hwt : Within s t := (Within.begun i s).trans (hw.trans (Within.finish i false _ u))
  have hregs : t.regs = s.regs.apply w := by rw [← hr]; exact finish_regs i false _ u
  have hrest := Regs.apply_rest s.regs w
  have htail := finish_tail i false (begun i s) u
  have htll : t.g.ll = u.g.ll := congrArg Prod.snd htail
  have htfp : t.g.fpflags = u.g.fpflags := congrArg Prod.fst htail
  have hn := finish_next i (begun i s) u hcu
  have htr := finish_traps i (begun i s) u hcu
  have hchunk : ∀ n, heldFlag t n = heldFlag u n ∧ pendingFlags t = pendingFlags u := by
    intro n
    have hs : t.sp = _ := State.modSp_sp _ _ (fun _ => rfl) (by simpa using hcu)
    unfold heldFlag pendingFlags
    rw [hs, State.noteIssue_sp, State.countEv_sp, State.countEv_sp]
    cases u.sp.chunk with
    | none => simp
    | some c => simp
  have hfl : flagsRead t = flagsRead u := by
    unfold flagsRead flagReg
    rw [(hchunk _).1, (hchunk 0).2, htfp]
  refine ⟨hregs, hfl, htll, hwt.sameMemory, apply_same s t w hregs, ?_, ?_, ?_, ?_, hwt.cores, hwt.onlyGroup, ?_⟩
  · unfold sameAlpha
    rw [hregs]
    exact ⟨hrest.1, hrest.2.1, hrest.2.2.1⟩
  · refine sysValue_within hwt ?_ ?_ ?_ ex ?_
    · unfold Ctl.traps
      rw [hn.2.1, htr.1, htr.2.1, htr.2.2.1, htr.2.2.2.1, htr.2.2.2.2.1, htr.2.2.2.2.2, hkb.ctl]
    · rw [hregs]
      exact ⟨hrest.2.2.2.1, hrest.2.2.2.2.1, hrest.2.2.2.2.2.1⟩
    · intro n hn'
      rw [(hchunk n).1, hf n hn', (begun_flags i s hc n).1]
    · intro hex
      rw [hfl]
      exact he hex
  · rw [hregs]
    exact hrest.2.2.2.2.2.2
  · have := congrArg (fun x => x.2.2.2.2.2.2.2.1) hwt.fixed
    exact this
  · unfold nextWord
    rw [hn.1, hn.2.1, hn.2.2.1, hn.2.2.2.1, hn.2.2.2.2, hk.irLen, hk.pend, hkb.ctl,
      (SplitKept.begun i s hc).irLen, (SplitKept.begun i s hc).pend, hp]
    exact ⟨rfl, rfl, rfl, rfl, rfl⟩

theorem ready_cur {i : Instr} {s : State} (h : ready i s = true) : s.hasCur = true := by
  simp only [ready, Bool.and_eq_true] at h
  exact h.1.1.1.1

/-- A ready instruction whose own effect is to draw free values, write registers and raise flags. -/
theorem wrote_frame_free (i : Instr) (body : State → Act) (s : State) (w : Wr) (n : Nat) (h : ready i s = true)
    (hb : body (begun i s) = .done (applyWr { begun i s with free := n } w)) :
    ∃ t, core i body s = .next t ∧ t.regs = s.regs.apply w ∧ raised s t w.flags
      ∧ registerFrame s t (w.v.map Prod.fst) (w.s.map Prod.fst) (w.p.map Prod.fst)
          (if w.flags = 0 then [] else [0x011]) w.cnt := by
  have hc : s.hasCur = true := ready_cur h
  have hcb : (begun i s).hasCur = true := by rw [begun_hasCur]; exact hc
  have hd : Within (begun i s) { begun i s with free := n } :=
    ⟨rfl, fun _ _ => rfl, fun _ _ => rfl, fun _ => rfl, rfl, rfl⟩
  obtain ⟨h1, h2, h3, h4, h5, h6⟩ := applyWr_spec { begun i s with free := n } w hcb
  have hbf := begun_flags i s hc 0x011
  have hbt := begun_tail i s
  have hfp : (begun i s).g.fpflags = s.g.fpflags := congrArg Prod.fst hbt
  have hfb : flagsRead { begun i s with free := n } = flagsRead s := by
    show flagsRead (begun i s) = _
    unfold flagsRead flagReg
    rw [hbf.1, hbf.2, hfp]
  have h4' : (applyWr { begun i s with free := n } w).g.ll = (begun i s).g.ll := h4
  have h3' : (applyWr { begun i s with free := n } w).regs = (begun i s).regs.apply w := h3
  obtain ⟨k1, k2, k4, k3⟩ := acted i s (applyWr { begun i s with free := n } w) h w (hd.trans h1) h2
    (by rw [h3', begun_regs]) h5 (if w.flags = 0 then [] else [0x011]) (by
      by_cases hz : w.flags = 0
      · intro _
        rw [h6, hfb, hz]
        simp
      · intro hex
        rw [if_neg hz] at hex
        exact absurd (List.mem_singleton.mpr rfl) hex)
  refine ⟨_, core_done i body s _ h hb, k1, ?_, k3, by rw [k4, h4']; exact congrArg Prod.snd hbt⟩
  unfold raised
  rw [flagsRead_eq, flagsRead_eq, k2, h6, hfb]

/-- A ready instruction whose own effect is to write registers and raise flags. -/
theorem wrote_frame (i : Instr) (body : State → Act) (s : State) (w : Wr) (h : ready i s = true)
    (hb : body (begun i s) = .done (applyWr (begun i s) w)) :
    ∃ t, core i body s = .next t ∧ t.regs = s.regs.apply w ∧ raised s t w.flags
      ∧ registerFrame s t (w.v.map Prod.fst) (w.s.map Prod.fst) (w.p.map Prod.fst)
          (if w.flags = 0 then [] else [0x011]) w.cnt :=
  wrote_frame_free i body s w (begun i s).free h hb

end Sys2Proof.Machine
end

