-- ==== Sys2Proof/Laws/Results.lean ====
section
/-! SUPPORT. The instructions that write registers lane by lane: their shared bodies, and the lemma that carries a body's
writes to the statements' terms. -/

namespace Sys2Proof.Machine

open Sys2Proof

/-! ### Operands are read before the chunk begins -/

@[simp] theorem begun_srcT (i : Instr) (s : State) (f : BitVec 10) (tc l : Nat) : srcT (begun i s) f tc l = srcT s f tc l := by
  unfold srcT
  rw [begun_regs]
@[simp] theorem begun_src32 (i : Instr) (s : State) (f : BitVec 10) (l : Nat) : src32 (begun i s) f l = src32 s f l := by
  unfold src32
  rw [begun_regs]
@[simp] theorem begun_srcP (i : Instr) (s : State) (f : BitVec 10) (l : Nat) : srcP (begun i s) f l = srcP s f l := by
  unfold srcP
  rw [begun_regs]
@[simp] theorem begun_srcS (i : Instr) (s : State) (f : BitVec 10) : srcS (begun i s) f = srcS s f := by
  unfold srcS
  rw [begun_regs]
@[simp] theorem begun_roundMode (i : Instr) (s : State) (rc : Nat) : roundMode (begun i s) rc = roundMode s rc := by
  unfold roundMode
  rw [begun_regs]
@[simp] theorem begun_srCount (i : Instr) (s : State) (rc : Nat) : srCount (begun i s) rc = srCount s rc := by
  unfold srCount
  rw [begun_roundMode]
@[simp] theorem begun_trapFlags (i : Instr) (s : State) : trapFlags (begun i s) = trapFlags s := by
  unfold trapFlags
  rw [begun_regs]
@[simp] theorem begun_fpEnv (i : Instr) (s : State) (rc l : Nat) : fpEnv (begun i s) rc l = fpEnv s rc l := by
  unfold fpEnv srOf reproOn
  rw [begun_roundMode, begun_regs, begun_free]

theorem begun_actLanes (i j : Instr) (s : State) (d : BitVec 10) (hc : s.hasCur = true) :
    actLanes (begun i s) j d = actLanes s j d := by
  unfold actLanes
  rw [begun_exec i j s hc]

/-! ### Lanes -/

theorem actLanes_lt {s : State} {i : Instr} {d : BitVec 10} {l : Nat} (h : l ∈ actLanes s i d) : l < 32 := by
  unfold actLanes at h
  dsimp only at h
  split at h
  · split at h
    · simp at h
    · rename_i hm
      rw [List.mem_singleton.mp h]
      exact (mem_lanesOf.mp (lowest_mem (by simpa using hm))).1
  · exact (mem_lanesOf.mp h).1

theorem actLanes_nodup (s : State) (i : Instr) (d : BitVec 10) : (actLanes s i d).Nodup := by
  unfold actLanes
  dsimp only
  split
  · split <;> simp
  · exact lanesOf_nodup _

theorem actLanes_one {s : State} {i : Instr} {d : BitVec 10} (h : isS d = true) : (actLanes s i d).length ≤ 1 := by
  unfold actLanes
  dsimp only
  rw [if_pos h]
  split <;> simp

/-! ### The destination -/

theorem wrDst_v (d : BitVec 10) (n : Nat) (vals : List (Nat × Nat)) :
    (wrDst d n vals).v.map Prod.fst = cellsOf d n (vals.map Prod.fst) := by
  unfold cellsOf
  cases h : isS d with
  | true =>
    unfold wrDst
    rw [h]
    cases vals <;> rfl
  | false => simp [wrDst_keys d n vals h]

theorem wrDst_s (d : BitVec 10) (n : Nat) (vals : List (Nat × Nat)) :
    (wrDst d n vals).s.map Prod.fst = scalarOf d (vals.map Prod.fst) := by
  unfold scalarOf wrDst
  cases isS d <;> cases vals <;> simp

theorem wrDst_rest (d : BitVec 10) (n : Nat) (vals : List (Nat × Nat)) :
    (wrDst d n vals).p = [] ∧ (wrDst d n vals).fl = [] ∧ (wrDst d n vals).cnt = 0 := by
  unfold wrDst
  cases isS d <;> cases vals <;> simp

/-- The destination after the writes of a result. -/
theorem holds_apply (t : State) (r : Regs) (w : Wr) (d : BitVec 10) (n : Nat) (lanes : List Nat) (f : Nat → Nat)
    (ht : t.regs = r.apply w) (hn : n = 1 ∨ n = 2) (hd : lanes.Nodup) (hl : ∀ l ∈ lanes, l < 32)
    (h1 : isS d = true → lanes.length ≤ 1) (hv : w.v = (wrDst d n (lanes.map (fun l => (l, f l)))).v)
    (hs : w.s = (wrDst d n (lanes.map (fun l => (l, f l)))).s) : holds t d n lanes f := by
  intro l hm
  cases hd' : isS d with
  | true =>
    have hlen := h1 hd'
    have hll : lanes = [l] := by
      match lanes, hlen, hm with
      | [x], _, hm => rw [List.mem_singleton.mp hm]
    rw [if_pos rfl, ht, Regs.sget_apply, hs, hll]
    simp [wrDst, hd', Regs.sget_sset]
    by_cases h0 : rnum d = 0 <;> simp [h0, Regs.sget]
  | false =>
    rw [if_neg (by simp), ht]
    refine src_apply_wrDst r w d n _ l (f l) hd' hn hv ?_ ?_ ?_
    · rw [List.map_map]
      exact (List.map_id lanes).symm ▸ hd
    · intro e he
      obtain ⟨a, ha, rfl⟩ := List.mem_map.mp he
      exact hl a ha
    · exact List.mem_map.mpr ⟨l, hm, rfl⟩

/-- An instruction whose body writes a result gives it. -/
theorem gives_of (i : Instr) (body : State → Act) (s : State) (r : Result) (w : Wr) (n : Nat) (h : ready i s = true)
    (he : exec i s = core i body s) (hb : body (begun i s) = .done (applyWr { begun i s with free := n } w))
    (hv : w.v = (wrDst r.d r.n ((r.lanes s).map (fun l => (l, (r.val s l).code)))).v)
    (hs : w.s = (wrDst r.d r.n ((r.lanes s).map (fun l => (l, (r.val s l).code)))).s) (hp : w.p = [])
    (hf : w.flags = r.flags s) (hcnt : w.cnt = r.cnt s) (hn : r.n = 1 ∨ r.n = 2) (hd : (r.lanes s).Nodup)
    (hl : ∀ l ∈ r.lanes s, l < 32) (h1 : isS r.d = true → (r.lanes s).length ≤ 1) : gives i s r := by
  obtain ⟨t, ht, hr, hfl, hfr⟩ := wrote_frame_free i body s w n h hb
  refine ⟨t, he.trans ht, holds_apply t s.regs w r.d r.n (r.lanes s) _ hr hn hd hl h1 hv hs, by rw [← hf]; exact hfl, ?_⟩
  rw [hv, wrDst_v, hs, wrDst_s, hp, hcnt, List.map_map] at hfr
  have hid : (Prod.fst ∘ fun l => (l, (r.val s l).code)) = id := rfl
  rw [hid, List.map_id] at hfr
  obtain ⟨⟨hm, hsr, hal, hsy, hrest⟩, hll⟩ := hfr
  refine ⟨⟨hm, hsr, hal, ?_, hrest⟩, hll⟩
  intro k l hk
  refine hsy k l ?_
  intro hm
  split at hm
  · simp at hm
  · exact hk hm

/-- A lane-by-lane instruction without flags. -/
theorem intLanes_gives (i : Instr) (body : State → Act) (s : State) (d : BitVec 10) (n : Nat) (val : State → Nat → FRes)
    (f : Nat → Nat) (h : ready i s = true) (he : exec i s = core i body s)
    (hb : body (begun i s) = intLanes i (begun i s) d n f) (hn : n = 1 ∨ n = 2)
    (hv : ∀ l ∈ actLanes s i d, f l = (val s l).code) (hz : ∀ l ∈ actLanes s i d, (val s l).fl = 0) :
    gives i s (inLanes i d n val) := by
  have hc := ready_cur h
  have hvals : (actLanes s i d).map (fun l => (l, f l)) = (actLanes s i d).map (fun l => (l, (val s l).code)) :=
    List.map_congr_left (fun l hl => by rw [hv l hl])
  refine gives_of i body s _ (wrDst d n ((actLanes s i d).map (fun l => (l, f l)))) (begun i s).free h he ?_ ?_ ?_ ?_ ?_ ?_ hn
    (actLanes_nodup s i d) (fun l hl => actLanes_lt hl) (fun hd => actLanes_one hd)
  · rw [hb]
    unfold intLanes wrote
    rw [begun_actLanes i i s d hc]
  · exact congrArg (fun x => (wrDst d n x).v) hvals
  · exact congrArg (fun x => (wrDst d n x).s) hvals
  · exact (wrDst_rest d n _).1
  · unfold Wr.flags Result.flags
    rw [(wrDst_rest d n _).2.1]
    have : ∀ (ls : List Nat) (a : Flags7), (∀ l ∈ ls, (val s l).fl = 0) →
        ls.foldl (fun f l => f ||| (val s l).fl) a = a := by
      intro ls
      induction ls with
      | nil => intro a _; rfl
      | cons x r ih =>
        intro a hx
        rw [List.foldl_cons, ih _ (fun l hl => hx l (by simp [hl])), hx x (by simp)]
        simp
    exact (this _ _ hz).symm
  · exact (wrDst_rest d n _).2.2

/-- A lane-by-lane instruction with flags, no enabled trap among them. -/
theorem fpLanes_gives (i : Instr) (body : State → Act) (s : State) (d : BitVec 10) (n rc : Nat) (r : Result)
    (f : FpEnv → Nat → FRes) (h : ready i s = true) (he : exec i s = core i body s)
    (hb : body (begun i s) = fpLanes i (begun i s) d n rc f) (hn : n = 1 ∨ n = 2)
    (hr : r = { d := d, n := n, lanes := fun s => actLanes s i d, val := r.val, cnt := r.cnt })
    (hv : ∀ l, f (fpEnv s rc l) l = r.val s l) (hcnt : r.cnt s = srCount s rc)
    (hz : ∀ l ∈ actLanes s i d, (r.val s l).fl &&& trapFlags s = 0) : gives i s r := by
  have hc := ready_cur h
  have hd : r.d = d := by rw [hr]
  have hrn : r.n = n := by rw [hr]
  have hrl : r.lanes = fun s => actLanes s i d := by rw [hr]
  let rs : List (Nat × FRes) := (actLanes s i d).map (fun l => (l, r.val s l))
  let w : Wr := { wrDst d n (rs.map (fun e => (e.1, e.2.code))) with fl := rs.map (fun e => (e.1, e.2.fl)), cnt := srCount s rc }
  have hw : ∃ k, body (begun i s) = .done (applyWr { begun i s with free := k } w) := by
    have hrs : (actLanes (begun i s) i d).map (fun l => (l, f (fpEnv (begun i s) rc l) l)) = rs := by
      rw [begun_actLanes i i s d hc]
      exact List.map_congr_left (fun l _ => by rw [begun_fpEnv, hv l])
    have hfin : ∀ u : State, u.regs = (begun i s).regs → finishFlags u w (isS d) ((begun i s).exec i) = .done (applyWr u w) := by
      intro u hu
      have ht : trapFlags u = trapFlags s := by
        unfold trapFlags
        rw [hu, begun_regs]
      unfold finishFlags
      rw [ht]
      have : (w.fl.filter (fun e => e.2 &&& trapFlags s != 0)).isEmpty = true := by
        rw [List.isEmpty_iff, List.filter_eq_nil_iff]
        intro e hm
        obtain ⟨e', hm', rfl⟩ := List.mem_map.mp hm
        obtain ⟨l, hl, rfl⟩ := List.mem_map.mp hm'
        simpa using hz l hl
      dsimp only
      rw [if_pos this]
    rw [hb]
    unfold fpLanes
    dsimp only
    rw [hrs, begun_srCount]
    unfold drawSr
    split
    · exact ⟨(begun i s).free + 32, hfin { begun i s with free := (begun i s).free + 32 } rfl⟩
    · exact ⟨(begun i s).free, hfin (begun i s) rfl⟩
  obtain ⟨k, hk⟩ := hw
  have hmap : rs.map (fun e => (e.1, e.2.code)) = (actLanes s i d).map (fun l => (l, (r.val s l).code)) := by
    rw [List.map_map]
    rfl
  refine gives_of i body s r w k h he hk ?_ ?_ (wrDst_rest d n _).1 ?_ hcnt.symm (by rw [hrn]; exact hn)
    (by rw [hrl]; exact actLanes_nodup s i d) (by rw [hrl]; exact fun l hl => actLanes_lt hl)
    (by rw [hrl, hd]; exact fun hd => actLanes_one hd)
  · rw [hd, hrn, hrl]
    exact congrArg (fun x => (wrDst d n x).v) hmap
  · rw [hd, hrn, hrl]
    exact congrArg (fun x => (wrDst d n x).s) hmap
  · unfold Wr.flags Result.flags
    rw [hrl]
    show (List.map (fun e => (e.1, e.2.fl)) rs).foldl (fun a e => a ||| e.2) 0 = _
    rw [List.foldl_map, List.foldl_map]

end Sys2Proof.Machine
end

