-- ==== Sys2Proof/Tests/Slice0.lean ====
section
/-! SUPPORT. Tests: words written out from the spec's encodings and what they decode to; ill-formed terms, one for each
check; for every statement with hypotheses, states and operands that meet them, clause by clause; and results worked
out by hand from the spec's entries. -/

open Sys2Proof Sys2Proof.Machine
namespace Sys2Proof.Tests
set_option maxRecDepth 4000
set_option Elab.async false

/-- The first 64 KiB of a die's offsets, as each of its homes has translated them, at frame 0. -/
def page (die : Nat) : List TlbEntry := (List.range 32).map (fun k => ⟨die, k, 0, false, 0, 2 ^ 16, placeLeaf⟩)

/-- One group of one split in a GEN clause on core 0, with 4 KiB of each buffer, in a grid with every mode. -/
def stand (chunked : Bool) (r : Regs) : State :=
  let s := State.reset.withFetchWord 64 0
  let k : Scratch := { kib := 4 }
  { s with
    schedule := [], chunkedSlots := if chunked then [0] else []
    tlb := page 0
    groups := s.groups.map (fun g => { g with chunked := chunked, regs := r })
    teams := s.teams.map (fun t => { t with w := k, a := k, c := k, g := k })
    clusters := s.clusters.map (fun c => { c with slices := 1 })
    grids := s.grids.map (fun g => { g with service := true, test := true, slices := 1 }) }

/-- Registers with some scalars, and vector registers with one value in lanes 0 and 1. -/
def regs (sc : List (Nat × Nat)) (ve : List (Nat × Nat)) : Regs :=
  let r := sc.foldl (fun (r : Regs) (e : Nat × Nat) => r.sset e.1 (BitVec.ofNat 64 e.2)) ({} : Regs)
  ve.foldl (fun (r : Regs) (e : Nat × Nat) =>
    (List.range 2).foldl (fun (r : Regs) (l : Nat) => r.vset e.1 l (BitVec.ofNat 32 e.2)) r) r

def rw (d a b c : BitVec 10) (m : BitVec 8) : RWord := ⟨⟨false, 0, 0⟩, d, a, b, c, m⟩
def iw (d a : BitVec 10) (m4 : BitVec 4) (imm : BitVec 64) : IWord := ⟨⟨false, 0, 0⟩, d, a, m4, imm, false⟩
def mw (d a b : BitVec 10) (scope : BitVec 2) (size : BitVec 3) (sub : BitVec 4) (off : BitVec 9) : MWord :=
  ⟨⟨false, 0, 0⟩, d, a, b, scope, size, sub, off⟩
def xw (rcd crd ctr aux : BitVec 10) (code : BitVec 8) : XWord := ⟨⟨false, 0, 0⟩, rcd, crd, ctr, aux, code⟩
def qw (a b c s : BitVec 10) (m : BitVec 8) : QWord := ⟨⟨false, 0, 0⟩, a, b, c, s, m⟩

/-- Lane 0 alone is active. -/
def one (s : State) : State := s.modCtl (fun c => { c with mask := 1 })
/-- What an instruction's next state shows. -/
def after (i : Instr) (s : State) (p : State → Bool) : Bool := match exec i s with | .next t => p t | _ => false
/-- The lane-0 value of a vector register, and the values of a scalar and a predicate. -/
def vAt (t : State) (n : Nat) : Nat := (t.regs.vget n 0).toNat
def sAt (t : State) (n : Nat) : Nat := (t.regs.sget n).toNat
def pAt (t : State) (n : Nat) : Nat := (t.regs.pget n).toNat

/-! ### Words from the encodings (R31, R38, R40, R54) -/

/-- The fields of a format-R word, and its bits 55:0. -/
def rF : RWord := ⟨⟨true, 10, 5⟩, 0x205, 0x0C3, 0x211, 0x007, 0x96⟩
def rB : Nat := 0xD5814C38440796
/-- The fields of a format-I word, and its bits 55:0. -/
def iF : IWord := ⟨⟨true, 10, 5⟩, 0x0C3, 0x205, 9, 0xFFFFFFFFFF923456, false⟩
def iB : Nat := 0xD530E059923456
/-- The fields of a format-M word, and its bits 55:0. -/
def mF : MWord := ⟨⟨true, 10, 5⟩, 0x0C3, 0x205, 0x211, 2, 5, 11, 0x1A7⟩
def mB : Nat := 0xD530E05846B7A7
/-- The fields of a format-X word, and its bits 55:0. -/
def xF : XWord := ⟨⟨true, 10, 5⟩, 0x205, 0x213, 0x221, 0x230, 0x92⟩
def xB : Nat := 0xD5816138863092
/-- The fields of a format-Q word, and its bits 55:0. -/
def qF : QWord := ⟨⟨true, 10, 5⟩, 0x0C3, 0x213, 0x221, 0x230, 0x96⟩
def qB : Nat := 0xD530E138863096
/-- The fields of a format-B word, and its bits 55:0. -/
def bF : BWord := ⟨⟨true, 10, 5⟩, true, 0x2A, 0x205, 0x2BCDEF01⟩
def bB : Nat := 0xD5AA816BCDEF01

/-- Words of one format: opcode and bits 55:0 give the instruction, and the encoder gives them back. -/
def reads (bits : Nat) (l : List (Nat × Instr)) : Bool :=
  l.all (fun e => decodeTableWord 64 (e.1 * 2 ^ 56 + bits) == some e.2 && encode e.2 == [BitVec.ofNat 64 (e.1 * 2 ^ 56 + bits)])

theorem test_decode_control_R : reads rB
    [(0x00, .nop rF), (0x03, .brx rF), (0x05, .ret rF), (0x07, .exit rF), (0x08, .yield rF), (0x11, .chunk rF),
     (0x12, .fence rF), (0x13, .ifence rF), (0x14, .elect rF), (0x15, .vote rF), (0x18, .waitc rF),
     (0x19, .clock rF), (0x1A, .krepl rF)] = true := by decide
theorem test_decode_control_I : reads iB
    [(0x02, .skip iF), (0x0B, .bar iF), (0x0C, .barw iF), (0x0D, .trap iF), (0x0E, .rte iF), (0x0F, .sysrd iF),
     (0x10, .syswr iF), (0x16, .acqx iF), (0x17, .relx iF), (0x1B, .brk iF)] = true := by decide
theorem test_decode_control_X : reads xB
    [(0x09, .spawn xF), (0x0A, .launch xF)] = true := by decide
theorem test_decode_control_B : reads bB
    [(0x01, .bra bF), (0x04, .call bF), (0x06, .loop bF)] = true := by decide
theorem test_decode_integer_R : reads rB
    [(0x20, .iadd rF), (0x21, .isub rF), (0x22, .imul rF), (0x23, .imulh rF), (0x24, .imad rF), (0x25, .idiv rF),
     (0x26, .imin rF), (0x27, .imax rF), (0x28, .isat rF), (0x29, .and rF), (0x2A, .or rF), (0x2B, .xor rF),
     (0x2C, .andn rF), (0x2D, .shl rF), (0x2E, .shr rF), (0x2F, .fshf rF), (0x30, .bfx rF), (0x31, .bfi rF),
     (0x32, .popc rF), (0x33, .clz rF), (0x34, .brev rF), (0x35, .icmp rF), (0x36, .sel rF), (0x39, .iaddc rF),
     (0x3A, .merge rF)] = true := by decide
theorem test_decode_integer_I : reads iB
    [(0x37, .mov iF), (0x38, .lea iF)] = true := by decide
theorem test_decode_float_R : reads rB
    [(0x40, .fadd rF), (0x41, .fsub rF), (0x42, .fmul rF), (0x43, .ffma rF), (0x44, .fmin rF), (0x45, .fmax rF),
     (0x46, .frcp rF), (0x47, .frsq rF), (0x48, .fsqrt rF), (0x49, .fexp2 rF), (0x4A, .flog2 rF),
     (0x4B, .fcmp rF), (0x4C, .fclass rF), (0x4D, .fsgn rF), (0x4E, .cvt rF), (0x4F, .qnt rF), (0x50, .dqnt rF),
     (0x51, .fdot2 rF), (0x52, .frnd rF), (0x53, .fscale rF), (0x54, .fredu rF)] = true := by decide
theorem test_decode_lane_R : reads rB
    [(0x60, .shfl rF), (0x61, .perm rF), (0x62, .plog rF), (0x63, .pcnt rF), (0x64, .scan rF), (0x65, .vtos rF),
     (0x66, .stov rF), (0x67, .compact rF), (0x68, .rebal rF)] = true := by decide
theorem test_decode_lane_X : reads xB
    [(0x69, .nzscan xF)] = true := by decide
theorem test_decode_alphabet_R : reads rB
    [(0x70, .alset rF), (0x71, .alget rF), (0x72, .sunpk rF), (0x73, .spack rF), (0x76, .sdot rF),
     (0x77, .smap rF), (0x78, .schk rF), (0x79, .scvt rF), (0x7A, .smadd rF), (0x7B, .scnt rF)] = true := by decide
theorem test_decode_alphabet_M : reads mB
    [(0x74, .sld mF), (0x75, .sst mF)] = true := by decide
theorem test_decode_local_M : reads mB
    [(0x80, .lds mF), (0x81, .sts mF), (0x82, .ldsf mF), (0x83, .stse mF), (0x84, .ldsp mF), (0x85, .feset mF),
     (0x86, .atoms mF), (0x87, .ldc mF), (0x88, .stc mF), (0x89, .atomc mF), (0x8A, .ldsx mF), (0x8B, .stsx mF)] = true := by decide
theorem test_decode_global_M : reads mB
    [(0x90, .ldg mF), (0x91, .stg mF), (0x92, .atomg mF), (0x93, .casg mF), (0x94, .pref mF), (0x95, .ldgc mF),
     (0x96, .stgs mF), (0x97, .red mF), (0x98, .probe mF), (0x99, .migr mF)] = true := by decide
theorem test_decode_engine_R : reads rB
    [(0xAB, .kvmap rF)] = true := by decide
theorem test_decode_engine_X : reads xB
    [(0xA0, .xcopy xF), (0xA1, .xform xF), (0xA2, .xgath xF), (0xA3, .xscat xF), (0xA4, .gnode xF),
     (0xA5, .grun xF), (0xA7, .xfill xF), (0xA8, .xpeer xF), (0xA9, .xcancel xF), (0xAA, .ebb xF)] = true := by decide
theorem test_decode_matrix_R : reads rB
    [(0xB3, .mrd rF), (0xB4, .mwr rF), (0xB6, .oprdy rF), (0xBB, .mrel rF)] = true := by decide
theorem test_decode_matrix_X : reads xB
    [(0xB2, .mzero xF), (0xB5, .mscale xF), (0xB8, .attn xF), (0xBA, .mconv xF)] = true := by decide
theorem test_decode_matrix_Q : reads qB
    [(0xB0, .mma qF), (0xB1, .mloop qF), (0xB7, .mchk qF), (0xB9, .msparse qF)] = true := by decide
theorem test_decode_evmap : decodeTableWord 64 0xA6D58161388630F0 = some (.evmapMap ⟨⟨true, 10, 5⟩, 0x205, 0x213, 0x221, 0x230, 0xF0⟩)
    ∧ decodeTableWord 64 0xA6D5816138863051 = some (.evmapPulse ⟨⟨true, 10, 5⟩, 0x205, 0x213, 0x221, 0x230, 0x51⟩)
    ∧ decodeTableWord 64 0xA6D5816138863002 = some (.evmapClear ⟨⟨true, 10, 5⟩, 0x205, 0x213, 0x221, 0x230, 0x02⟩)
    ∧ decodeTableWord 64 0xA6D5816138863003 = some (.unassignedOpcode 0xA6D5816138863003) := by decide
/-- A prefix pair: the prefix gives bits 63:24 of the immediate. -/
theorem test_decode_pair : decodeTableWord 128 (0x38008260A3456789 * 2 ^ 64 + 0xE00000ABCDEF0123)
    = some (.lea ⟨⟨false, 0, 0⟩, 0x209, 0x20A, 3, 0xABCDEF0123456789, true⟩) := by decide
/-- A prefix before a word that takes none, an unassigned opcode, a header in an instruction's place. -/
theorem test_decode_nothing : decodeTableWord 64 0xFF00000000000000 = some (.unassignedOpcode 0xFF00000000000000)
    ∧ decodeTableWord 64 0xC500000000000000 = some (.unassignedOpcode 0xC500000000000000)
    ∧ decodeTableWord 64 0x1C00000000000000 = some (.unassignedOpcode 0x1C00000000000000) := by decide

/-! ### Ill-formed terms, one for each check of Instr.wf -/

theorem test_illformed_fields : (Instr.iadd (rw 0x240 2 3 0 0x80)).wf = false ∧ (Instr.bra ⟨⟨false, 0, 0⟩, false, 1, 0, 0⟩).wf = false
    ∧ (Instr.iadd (rw 4 2 3 0 0x20)).wf = true := by decide +kernel
theorem test_illformed_immediate : (Instr.mov (iw 4 2 0 0x800000)).wf = false
    ∧ (Instr.mov (iw 4 0 0 0xFFFFFFFFFF800000)).wf = true := by decide +kernel
theorem test_illformed_evmap : (Instr.evmapMap (xw 0x201 0x200 0x200 0x200 1)).wf = false
    ∧ (Instr.evmapMap (xw 0x201 0x200 0x200 0x200 0xF0)).wf = true := by decide +kernel
/-- One number just outside each range of Instr.numbersFit, and those just inside. -/
theorem test_illformed_numbers :
    [Instr.portableInstruction 1, .flagsRegisterWrite 0x012 0, .levelHeadStarvation 8, .preemptStarvation 8, .notice 17 0 0,
      .notice 0 5 0, .noticeComplete 5, .correctedSoftError 5, .linkPortDown 12, .flitReplay 12,
      .flitReceive 12 ⟨0, 0, 0, [], true⟩, .linkPortUp 12 0 false, .linkPortUp 0 32 false, .xblockGrant 192,
      .commandAcceptance 192, .binTimerExpiry 192 0, .binTimerExpiry 0 16, .binLaunch 0 16, .barwInstanceRelease 8,
      .throttleLevelChange 8, .unassignedOpcode 0x2000000000000000].all (fun i => !i.wf) = true
    ∧ [Instr.portableInstruction 0, .flagsRegisterWrite 0x019 0, .levelHeadStarvation 7, .preemptStarvation 7, .notice 16 4 0,
      .noticeComplete 4, .correctedSoftError 4, .linkPortDown 11, .flitReplay 11, .linkPortUp 11 31 false, .xblockGrant 191,
      .commandAcceptance 191, .binTimerExpiry 191 15, .barwInstanceRelease 7, .throttleLevelChange 7,
      .unassignedOpcode 0xC500000000000000].all (fun i => i.wf) = true := by decide +kernel

/-! ### States that meet the hypotheses of the statements -/

theorem witness_EncodeDecode : (Instr.mov (iw 4 0 0 0xFFFFFFFFFF800000)).wf = true
    ∧ encode (.mov (iw 4 0 0 0xFFFFFFFFFF800000)) ≠ []
    ∧ (Instr.lea ⟨⟨true, 15, 0⟩, 0x209, 0x20A, 3, 0x8000000000000000, true⟩).wf = true
    ∧ encode (.lea ⟨⟨true, 15, 0⟩, 0x209, 0x20A, 3, 0x8000000000000000, true⟩) ≠ [] := by decide +kernel

theorem witness_PortableForms : (portableWord 0x20000000 0).isSome = true ∧ assigned (0xFFFFFFFF / 2 ^ 24 % 256) = false
    ∧ (0 : Nat) < 2 ^ 32 ∧ (0xFFFFFFFF : Nat) ≠ 1 := by decide +kernel

def prefixWord : Nat := 0xE0 * 2 ^ 56 + 5
/-- The placed group with its words, about to fetch; portable where the words are of 32 bits. -/
def placed (nbits w : Nat) : State := { State.reset.withFetchWord nbits w with schedule := [] }
/-- The word that the current split fetches. -/
def fetchedWord (s : State) (n : Nat) : Option Nat :=
  match (fetchAt s s.g s.ctl.pc.toNat n).1 with | .word w => some w | _ => none

theorem fetches_of {s : State} {n w : Nat} (h : fetchedWord s n = some w) : ∃ t, fetches s s.ctl.pc.toNat n w t := by
  unfold fetchedWord at h
  refine ⟨(fetchAt s s.g s.ctl.pc.toNat n).2, ?_⟩
  unfold fetches
  split at h
  · next x hx => cases h; rw [← hx]
  · cases h

def issuing (nbits w : Nat) : State := passTime (placed nbits w) 1
theorem witness_StepRunsInstruction :
    (issues (placed 64 0) (issuing 64 0) ∧ heldBack (issuing 64 0) = none ∧ (issuing 64 0).ctl.atHdr = false
      ∧ (issuing 64 0).ctl.portable = false ∧ ∃ t, fetches (issuing 64 0) (issuing 64 0).ctl.pc.toNat 8 0 t)
    ∧ issues ((placed 64 0).modCtl (fun c => { c with atHdr := true })) (passTime ((placed 64 0).modCtl (fun c => { c with atHdr := true })) 1)
    ∧ issues (State.reset.withFetchWord 32 0x800000) { placed 32 0x800000 with cur := (1, 0) } := by
  refine ⟨⟨.inl (by decide +kernel), by decide +kernel, by decide +kernel, by decide +kernel, fetches_of (by decide +kernel)⟩,
    .inl (by decide +kernel), .inr ⟨placed 32 0x800000, 1, 0, ⟨by decide +kernel, .inl ⟨[], by decide +kernel, by decide +kernel⟩⟩, by decide +kernel, by decide +kernel, by decide +kernel⟩⟩
def leaAfter : Nat := 0x38008260A3000040
theorem witness_StepRunsInstruction_pair :
    let s := issuing 128 (leaAfter * 2 ^ 64 + prefixWord)
    let t := (fetchAt s s.g s.ctl.pc.toNat 8).2
    fetchedWord s 8 = some prefixWord ∧ prefixWord / 2 ^ 40 = 0xE0 * 2 ^ 16 ∧ s.ctl.pc.toNat < clauseEnd t
      ∧ (match (fetchAt t t.g (s.ctl.pc.toNat + 8) 8).1 with | .word v => v | _ => 0) = leaAfter
      ∧ (decodeNative (BitVec.ofNat 64 prefixWord) (BitVec.ofNat 64 leaAfter)).isSome = true := by decide +kernel
theorem witness_StepRunsInstruction_portable :
    let s := issuing 32 0x800000
    let u := issuing 32 1
    issues (placed 32 1) u ∧ u.ctl.portable = true ∧ u.ctl.atHdr = false ∧ fetchedWord u 4 = some 1 ∧ (1 : Nat).testBit 23 = false
      ∧ fetchedWord s 4 = some 0x800000 ∧ (0x800000 : Nat).testBit 23 = true
      ∧ (match (fetchAt s s.g (s.ctl.pc.toNat + 4) 4).1 with | .word v => v | _ => 1) = 0 := by
  refine ⟨.inl (by decide +kernel), ?_⟩
  decide +kernel
theorem witness_StepRunsInstruction_event :
    let s : State := { State.reset with schedule := [.event .commitRoundClose] }
    dueNow s = none ∧ s.schedule = .event .commitRoundClose :: [] ∧ isStep .commitRoundClose = true
      ∧ dueNow (State.reset.setBar 0x40 110) = some .thermalShutdown := by decide +kernel
theorem witness_PlacedWordRuns : (0x2000010008300020#64).toNat / 2 ^ 56 ≠ 0xE0 := by decide

/-- A store of the low word of v4 at 64, in relaxed mode. -/
def storing : State :=
  let s := stand false (regs [(1, 64)] [(4, 0xA1B2C3D4)])
  s.modSp (fun p => { p with pst := [.bytes 64 [0xD4, 0xC3]] })
theorem witness_MemoryForm :
    let s : State := { storing with schedule := [.event (.storePerformed 1 0 0)] }
    s.memOk = true ∧ (match step s with | .next t => t.memOk && t.memByte 64 == 0xD4 && t.memByte 65 == 0xC3 | _ => false) = true := by
  decide +kernel

/-- A word that reads one of v64 to v255, by a group without extended blocks. -/
theorem witness_FixedRegisters :
    let s := stand true {}
    let i (n : BitVec 10) : Instr := .iadd (rw 4 n 3 0 0x20)
    encode (i 64) ≠ [] ∧ s.hasCur = true ∧ s.idle = true ∧ lawful (i 64) s = true ∧ lawful (i 255) s = true
      ∧ Reg.v 64 ∈ (usesIn (i 64) s.g.regs).regs ∧ Reg.v 255 ∈ (usesIn (i 255) s.g.regs).regs
      ∧ s.g.ext.contains (extSlot 64) = false ∧ s.postedSlot s.g (extSlot 64) = false
      ∧ s.g.ext.contains (extSlot 255) = false ∧ s.postedSlot s.g (extSlot 255) = false := by decide +kernel

/-- An outstanding load of v2. -/
def emptyV2 : State := (stand true {}).modG (fun g => { g with ll := [{ sp := 0, cid := 0, vw := [(64, 7)], vr := [2], load := 2 }] })
def inClass (c : Nat) (s : State) : State := s.modCtl (fun x => { x with hdr := BitVec.ofNat 64 (0xC5 * 2 ^ 56 + c * 2 ^ 52 + 15 * 2 ^ 48) })
def userGrid (s : State) : State := { s with grids := s.grids.map (fun g => { g with service := false, test := false }) }
theorem witness_TrapOrder :
    let s := stand true {}
    let i : Instr := .iadd (rw 4 2 3 0 0x20)
    let bad : Instr := .iadd (rw 4 2 3 1 0x20)
    let high : Instr := .iadd (rw 4 64 3 0 0x20)
    let fe (k : BitVec 3) : Instr := .iadd ⟨⟨false, 0, k⟩, 4, if k = 1 then 2 else 5, if k = 2 then 2 else 3, 0, 0x20⟩
    let ld : Instr := .lds (mw 4 5 0x200 0 2 0 0)
    let z : State := inClass 1 (stand true {})
    let p : State := userGrid (stand true {})
    s.hasCur = true ∧ s.idle = true ∧ encode bad ≠ [] ∧ legal bad = false
      ∧ legal ld = true ∧ classOk (hdrClass z.sp.ctl.hdr) (opcodeOf ld) (lastWord z.sp) = false
      ∧ legal (.barw (iw 0 0 0 7)) = true ∧ classOk (hdrClass p.sp.ctl.hdr) (opcodeOf (.barw (iw 0 0 0 7))) (lastWord p.sp) = true
      ∧ privBad (.barw (iw 0 0 0 7)) (p.gridOf p.g) = true
      ∧ lawful high s = true ∧ (∃ r ∈ (usesIn high s.g.regs).regs, s.hasReg s.g r = false)
      ∧ lawful (fe 1) emptyV2 = true ∧ (∀ r ∈ (usesIn (fe 1) emptyV2.g.regs).regs, emptyV2.hasReg emptyV2.g r = true)
      ∧ (∃ r ∈ (usesIn (fe 1) emptyV2.g.regs).fe0, emptyV2.g.emptyReg r = true)
      ∧ (∃ r ∈ (usesIn (fe 2) emptyV2.g.regs).fe1, emptyV2.g.emptyReg r = true)
      ∧ lawful i s = true := by decide +kernel
theorem witness_NoInstruction : ready (.nop nopWord) (stand true {}) = true := by decide +kernel

/-- A chunk of the current split that has executed a word. -/
def inChunk (s : State) : State :=
  (openChunk s).modChunk (fun c => { c with words := 1 })
/-- The current split with a trap handler at the header at 0x1000. -/
def handled (s : State) : State := s.modCtl (fun c => { c with trapVec := 0x1000 })
theorem witness_TrapRaised :
    let s := inChunk (stand true {})
    let h := handled (stand true {})
    s.hasCur = true ∧ s.sp.chunkClosed = false ∧ s.sp.pend = none ∧ owed s = true
      ∧ h.hasCur = true ∧ h.sp.chunkClosed = false ∧ h.sp.pend = none ∧ owed h = false ∧ handlerThere h = true
      ∧ (raiseTrap h 0x0E 5 false {}).ctl.trapCause = 0x800000000000000E ∧ (raiseTrap h 0x0E 5 false {}).ctl.trapMask = 5
      ∧ (raiseTrap h 0x0E 5 false {}).ctl.trapPc = 0x1008 := by decide +kernel
theorem test_traps_first_condition :
    after (.iadd (rw 4 64 3 1 0x20)) (handled (stand true {})) (fun t => t.ctl.trapCause == 0x8000000000000001) = true := by
  decide +kernel

/-! ### Integer and floating-point instructions -/

def ints : List Instr :=
  [.iadd (rw 4 2 3 0 0x20), .isub (rw 4 2 3 0 0x20), .imul (rw 4 2 3 0 0x20), .imulh (rw 4 2 3 0 0x20),
    .imad (rw 4 2 3 5 0x20), .idiv (rw 4 2 3 0 0x20), .imin (rw 4 2 3 0 0x20), .imax (rw 4 2 3 0 0x20), .isat (rw 4 2 2 0 0x10),
    .and (rw 4 2 3 0 0x20), .or (rw 4 2 3 0 0x20), .xor (rw 4 2 3 0 0x20), .andn (rw 4 2 3 0 0x20), .shl (rw 4 2 3 0 0x20),
    .shr (rw 4 2 3 0 0x20), .fshf (rw 4 2 3 5 0x20), .bfx (rw 4 2 3 0 0x20), .bfi (rw 4 2 3 5 0x20), .popc (rw 4 2 0 0 0x20),
    .clz (rw 4 2 0 0 0x20), .brev (rw 4 2 0 0 0x20), .sel (rw 4 2 3 1 0x20), .mov (iw 4 2 1 0), .lea (iw 4 2 3 64)]
theorem witness_IntegerResults : ints.all (fun i => (integerResult i).isSome && ready i (stand true (regs [] [(2, 7), (3, 9)]))) = true := by
  decide +kernel
theorem witness_IntegerRule : (ints ++ [Instr.icmp (rw 1 2 3 0 0x20), Instr.iaddc (rw 4 2 3 1 0x60), Instr.merge (rw 4 2 3 0 0x20)]).all (fun i =>
    0x20 ≤ opcodeOf i && opcodeOf i ≤ 0x3A && encode i != [] && ready i (stand true {})) = true := by decide +kernel
theorem test_int_results :
    let s := one (stand true (regs [] [(2, 0x80000007), (3, 0xFFFFFFFF), (5, 0x0404)]))
    let gives (i : Instr) (x : Nat) : Bool := after i s (fun t => vAt t 4 == x)
    gives (.iadd (rw 4 2 3 0 0x20)) 0x80000006 && gives (.iadd (rw 4 2 3 0 0x21)) 0x80000006
      && gives (.iadd (rw 4 2 2 0 0x21)) 0x80000000 && gives (.isub (rw 4 3 2 0 0x60)) 0x7FFFFFF8
      && gives (.imulh (rw 4 2 3 0 0x60)) 0x80000006 && gives (.imulh (rw 4 2 3 0 0x20)) 0
      && gives (.idiv (rw 4 2 0 0 0x20)) 0xFFFFFFFF && gives (.idiv (rw 4 2 0 0 0x21)) 0x80000007
      && gives (.shr (rw 4 2 5 0 0x20)) 0xFFFFFFFF && gives (.bfx (rw 4 3 5 0 0x60)) 0xF
      && gives (.bfx (rw 4 3 5 0 0x20)) 0xFFFFFFFF && gives (.brev (rw 4 2 0 0 0x60)) 0xE0000001
      && gives (.clz (rw 4 5 0 0 0x60)) 21 && gives (.popc (rw 4 2 0 0 0x60)) 4 = true := by decide +kernel

def floats : List Instr :=
  [.fadd (rw 4 2 3 0 0x90), .fsub (rw 4 2 3 0 0x90), .fmul (rw 4 2 3 0 0x90), .ffma (rw 4 2 3 5 0x90), .fmin (rw 4 2 3 0 0x90),
    .fmax (rw 4 2 3 0 0x90), .frcp (rw 4 2 0 0 0x90), .frsq (rw 4 2 0 0 0x90), .fsqrt (rw 4 2 0 0 0x90), .fexp2 (rw 4 2 0 0 0x90),
    .flog2 (rw 4 2 0 0 0x90), .fclass (rw 4 2 0 0 0x90), .fsgn (rw 4 2 3 1 0x90), .fdot2 (rw 4 2 3 5 0xA0),
    .frnd (rw 4 2 0 0 0x90), .fscale (rw 4 2 3 0 0x90), .cvt (rw 4 2 9 0 0x20), .dqnt (rw 4 2 3 0 0xC0)]
theorem witness_FloatResults : floats.all (fun i => match floatResult i with
    | some r => ready i (stand true (regs [] [(2, 0x3F800000), (3, 0x40000000)]))
        && (r.lanes (one (stand true {}))).all (fun l => (r.val (one (stand true {})) l).fl &&& trapFlags (one (stand true {})) == 0)
    | none => false) = true := by decide +kernel
theorem test_float_results :
    let s := one (stand true (regs [] [(2, 0x3FC00000), (3, 0x40100000), (5, 0x7F800000)]))
    let gives (i : Instr) (x : Nat) : Bool := after i s (fun t => vAt t 4 == x)
    gives (.fadd (rw 4 2 3 0 0x90)) 0x40700000 && gives (.fsub (rw 4 2 3 0 0x90)) 0xBF400000
      && gives (.fmul (rw 4 2 3 0 0x90)) 0x40580000 && gives (.ffma (rw 4 2 3 2 0x90)) 0x409C0000
      && gives (.fsqrt (rw 4 3 0 0 0x90)) 0x3FC00000 && gives (.frcp (rw 4 5 0 0 0x90)) 0
      && gives (.fmax (rw 4 2 5 0 0x90)) 0x7F800000 && gives (.fsub (rw 4 5 5 0 0x90)) 0x7FC00000
      && gives (.cvt (rw 4 2 9 0 0x20)) 2 = true := by decide +kernel

/-- Traps enabled for NV, DZ and OF, with a store not yet performed. -/
def trapping (ve : List (Nat × Nat)) : State :=
  (one (inChunk (stand true { regs [] ve with fpmode := 0x1F8 })))
theorem witness_FloatTraps :
    let meets (i : Instr) (s : State) (f : Flags7) : Bool := match floatResult i with
      | some r => ready i s && owed s && (r.lanes s).any (fun l => (r.val s l).fl &&& trapFlags s &&& f != 0)
      | none => false
    meets (.fsub (rw 4 2 2 0 0x90)) (trapping [(2, 0x7F800000)]) fNV && meets (.frcp (rw 4 2 0 0 0x90)) (trapping []) fDZ
      && meets (.fmul (rw 4 2 2 0 0x90)) (trapping [(2, 0x7F000000)]) fOF
      && meets (.fmul (rw 0x204 0x202 0x202 0 0x90)) (trapping []) 0 == false = true := by decide +kernel
/-- The same with nothing outstanding and a handler. -/
def trappingAlone (c : Bool) (ve : List (Nat × Nat)) : State := handled (one (stand c { regs [] ve with fpmode := 0x1F8 }))
theorem witness_FloatTraps_alone :
    let s := trappingAlone true [(2, 0x7F000000)]
    let i := Instr.fmul (rw 4 2 2 0 0x90)
    (ready i s && !owed s && s.sp.chunk.isNone && (floatResult i).any (fun r => (r.lanes s).any (fun l => (r.val s l).fl &&& fOF != 0)))
      = true ∧ [s.free, s.free + 32].all (fun k => handlerThere { s with free := k }) = true := by decide +kernel
theorem test_float_traps_alone :
    [true, false].all (fun c => after (.fmul (rw 4 2 2 0 0x90)) (trappingAlone c [(2, 0x7F000000)]) (fun t =>
      t.ctl.trapCause == 0x8000000000000109 && t.ctl.trapMask == 1 && t.ctl.pc == 0x1000 && vAt t 4 == 0x7F800000
        && sysValue t 0x011 0 == 0x14)) = true := by decide +kernel
theorem test_float_traps :
    let causes (i : Instr) (s : State) (c : Nat) : Bool := after i s (fun t => t.sp.pend.any (fun p => p.cause == c && p.done && p.mask == 1))
    causes (.fsub (rw 4 2 2 0 0x90)) (trapping [(2, 0x7F800000)]) 0x07 && causes (.frcp (rw 4 2 0 0 0x90)) (trapping []) 0x08
      && causes (.fmul (rw 4 2 2 0 0x90)) (trapping [(2, 0x7F000000)]) 0x09 = true := by decide +kernel
theorem witness_Rounding : (2 ^ 2 ∣ 8) ∧ ¬(2 ^ 2 ∣ 6) ∧ 2 * (6 % 2 ^ 2) = 2 ^ 2 ∧ roundInt 0 0 false 6 2 = (2, true)
    ∧ roundInt 4 0 false 6 2 = (2, true) ∧ roundInt 0 0 false 2 2 = (0, true) ∧ roundInt 4 0 false 2 2 = (1, true)
    ∧ roundInt 2 0 true 5 2 = (2, true) ∧ roundInt 3 0 true 5 2 = (1, true) ∧ roundInt 1 0 true 7 2 = (1, true) := by decide

/-- Alphabet register 0: decimal words of four digits in 32 bits, policy trap; 1: ternary words with bias 1. -/
def alphas : Cells 64 := [(0, BitVec.ofNat 64 (10 * 2 ^ 48 + 4 * 2 ^ 42 + 2 * 2 ^ 40)),
  (1, BitVec.ofNat 64 (3 * 2 ^ 48 + 5 * 2 ^ 42 + 1 * 2 ^ 40 + 1 * 2 ^ 38 + 1 * 2 ^ 36 + 1 * 2 ^ 20))]
/-- v2 holds the lane numbers plus 1, p1 the odd lanes, p2 the lanes below 16; eight lanes are active. -/
def laned : State :=
  let r : Regs := { v := (List.range 32).map (fun l => (64 + l, BitVec.ofNat 32 (l + 1))), al := alphas }
  let r := (r.pset 1 (BitVec.allOnes 32) 0xAAAAAAAA).pset 2 (BitVec.allOnes 32) 0xFFFF
  (stand true (((r.sset 1 3).sset 2 0x0401))).modCtl (fun c => { c with mask := 0x8000806F })
theorem witness_Predicates :
    [Instr.icmp (rw 3 2 4 2 0x20), .fcmp (rw 3 2 4 2 0x90), .elect (rw 3 0 0 0 0), .vote (rw 3 1 0 0 0), .vote (rw 3 1 0 0 4),
      .plog (rw 3 1 2 0 0x96), .schk (rw 3 2 0 0 0)].all (fun i => ready i laned) = true
      ∧ (∀ l ∈ lanesOf (laned.exec (.fcmp (rw 3 2 4 2 0x90))),
          (fcmp (Ty.ofCode 9).fmt (fpEnv laned 0 l) 2 (bitsOf laned (rw 3 2 4 2 0x90) 2 l) (bitsOf laned (rw 3 2 4 2 0x90) 4 l)).2
            &&& trapFlags laned = 0)
      ∧ alphBad (alA laned (rw 3 2 0 0 0)) [2] = false := by decide +kernel
theorem test_predicates :
    let holds (i : Instr) (x : Nat) : Bool := after i laned (fun t => pAt t 3 == x)
    (holds (.icmp (rw 3 2 4 4 0x20)) 0x8000806F && holds (.elect (rw 3 0 0 0 0)) 1 && holds (.vote (rw 3 1 0 0 0)) 0x8000806F
      && holds (.vote (rw 3 1 0 0 1)) 0 && holds (.plog (rw 3 1 2 0 0x80)) 0x802A && holds (.schk (rw 3 2 0 0 0)) 0x8000806F)
      = true := by decide +kernel
/-- The value of a vector register in a lane. -/
def vIn (t : State) (n l : Nat) : Nat := (t.regs.vget n l).toNat
def laneOps : List Instr := [.shfl (rw 4 2 0x201 0 2), .perm (rw 4 2 2 3 0), .scan (rw 4 2 0 0 0x20), .scan (rw 4 2 0 0 0x90),
  .stov (rw 4 0x202 0x200 0 3), .compact (rw 4 2 1 0 0), .merge (rw 4 2 2 0 0x20), .merge (rw 4 2 2 1 0x21)]
theorem witness_LaneResults : laneOps.all (fun i => match laneResult i with
    | some r => ready i laned && (r.lanes laned).all (fun l => (r.val laned l).fl &&& trapFlags laned == 0)
    | none => false) = true ∧ laned.g.splits.length = 1 := by decide +kernel
theorem test_lane_results :
    (after (.shfl (rw 4 2 0x201 0 2)) laned (fun t => vIn t 4 0 == 4 && vIn t 4 31 == 32)
      && after (.scan (rw 4 2 0 0 0x20)) laned (fun t => vIn t 4 6 == 1 + 2 + 3 + 4 + 6 + 7 && vIn t 4 1 == 3)
      && after (.stov (rw 4 0x202 0x200 0 3)) laned (fun t => vIn t 4 3 == 0x401 && vIn t 4 1 == 0)
      && after (.compact (rw 4 2 1 0 0)) laned (fun t => vIn t 4 0 == 2 && vIn t 4 1 == 4 && vIn t 4 31 == 0)
      && after (.merge (rw 4 2 2 0 0x20)) laned (fun t => vIn t 4 0 == 1 && vIn t 4 1 == 1 && vIn t 4 2 == 2)) = true := by
  decide +kernel
theorem witness_ReducedResults :
    [Instr.vote (rw 0x205 1 0 0 3), .pcnt (rw 0x205 1 0 0 0), .pcnt (rw 4 1 0 0 1), .iaddc (rw 4 2 2 1 0x60), .iaddc (rw 4 2 2 1 0x61),
      .rebal (rw 4 2 0x201 0 0), .fredu (rw 0x205 2 0 0 0x90), .qnt (rw 4 2 0 0x205 0xC0)].all (fun i =>
        ready i laned && laned.exec i != 0) = true ∧ trapFlags laned = 0
      ∧ (fredResult laned (rw 0x205 2 0 0 0x90)).isSome = true := by decide +kernel
/-- Infinities of both signs in v2 of two lanes, NV, DZ and OF trapping, and a store not performed. -/
def opposed : State :=
  (inChunk (stand true ({ regs [] [(5, 0x7FC00000)] with fpmode := 0x1F8 }.vset 2 0 0x7F800000 |>.vset 2 1 0xFF800000))).modCtl (fun c =>
    { c with mask := 3 })
theorem witness_trapping_reductions :
    owed opposed = true ∧ [Instr.fredu (rw 0x205 2 0 0 0x90), .qnt (rw 4 2 0 0x205 0xC0), .fcmp (rw 3 5 2 2 0x90), .scan (rw 4 2 0 0 0x90)].all
        (fun i => ready i opposed && after i opposed (fun t => t.sp.pend.any (fun p => p.done && p.cause == 7))) = true
      ∧ (fredResult opposed (rw 0x205 2 0 0 0x90)).any (fun v => v.fl &&& trapFlags opposed != 0) = true
      ∧ (qntResult opposed (rw 4 2 0 0x205 0xC0)).2.2 &&& trapFlags opposed ≠ 0
      ∧ (laneResult (.scan (rw 4 2 0 0 0x90))).any (fun r => (r.lanes opposed).any (fun l => (r.val opposed l).fl &&& trapFlags opposed != 0))
        = true := by decide +kernel
theorem test_reduced_results :
    (after (.vote (rw 0x205 1 0 0 3)) laned (fun t => sAt t 5 == 0x8000802A) && after (.pcnt (rw 0x205 1 0 0 0)) laned (fun t => sAt t 5 == 5)
      && after (.pcnt (rw 4 1 0 0 1)) laned (fun t => vIn t 4 15 == 3)
      && after (.rebal (rw 4 2 0x201 0 0)) laned (fun t => vIn t 4 0 == 2 && vIn t 5 0 == 0 && vIn t 4 1 == 2 && vIn t 5 1 == 1)) = true := by
  decide +kernel
/-- A second split, elsewhere. -/
def twoSplits (s : State) : State := s.modG (fun g => { g with splits := g.splits ++ [{ id := 1, ctl := { pc := 0x4000, mask := 0x100 } }] })
theorem witness_LongLatencyIssue : ready (.vtos (rw 0x205 2 0x200 0 3)) laned = true ∧ laned.exec (.vtos (rw 0x205 2 0x200 0 3)) ≠ 0
    ∧ ready (.shfl (rw 4 2 0x201 0 2)) (twoSplits laned) = true ∧ (twoSplits laned).exec (.shfl (rw 4 2 0x201 0 2)) ≠ 0
    ∧ 1 < (twoSplits laned).g.splits.length
    ∧ after (.vtos (rw 0x205 2 0x200 0 3)) laned (fun t => t.g.ll.any (fun l => l.sw == [(5, 4)])) = true := by decide +kernel

/-! ### Alphabets and system registers -/

def alphOps : List Instr := [.sunpk (rw 4 2 3 0 0), .spack (rw 4 2 3 5 0), .sdot (rw 4 2 2 5 0), .scvt (rw 4 2 0 0 0x10),
  .smadd (rw 4 2 2 2 0), .scnt (rw 4 2 3 0 0)]
def meetsAlpha (f : AlphaRule → State → List Nat → Bool) (i : Instr) (s : State) : Bool :=
  match alphaRule i s with
  | some r => ready i s && !(actLanes s i r.d).isEmpty && f r s (actLanes s i r.d)
  | none => false
/-- Digit indexes of 4 in v3, words of 10,000 in v6. -/
def badWords : State := laned.modRegs (fun r => (r.vset 3 5 4).vset 6 5 (BitVec.ofNat 32 10000))
def dead (s : State) : State := s.modRegs (fun r => { r with al := [] })
theorem witness_AlphabetResults :
    alphOps.all (meetsAlpha (fun r s ls => !r.bad s && ls.all (fun l => !r.idx s l && !(r.val s l).trap)) · laned) = true
    ∧ alphOps.all (meetsAlpha (fun r s _ => r.bad s) · (dead laned)) = true
    ∧ meetsAlpha (fun r s ls => !r.bad s && ls.any (fun l => r.idx s l)) (.sunpk (rw 4 2 3 0 0)) badWords = true
    ∧ meetsAlpha (fun r s ls => !r.bad s && ls.all (fun l => !r.idx s l) && ls.any (fun l => (r.val s l).trap))
        (.scnt (rw 4 6 3 0 0)) badWords = true := by decide +kernel
theorem test_alphabet_results :
    (after (.sunpk (rw 4 2 3 0 0)) laned (fun t => vIn t 4 31 == 2) && after (.smadd (rw 4 2 2 2 0)) laned (fun t => vIn t 4 6 == 6 && vIn t 4 31 == 26)
      && after (.sdot (rw 4 2 2 5 0)) laned (fun t => vIn t 4 31 == 13)
      && after (.scnt (rw 4 2 3 0 0)) laned (fun t => vIn t 4 31 == 2)) = true := by decide +kernel

def alsets : State := stand true (regs [(1, 10 * 2 ^ 48 + 4 * 2 ^ 42 + 2 * 2 ^ 40), (2, 1 * 2 ^ 48 + 4 * 2 ^ 42), (3, 2 ^ 16 * 2 ^ 48),
  (4, 16 * 2 ^ 48 + 2 * 2 ^ 42), (5, 16 * 2 ^ 48 + 3 * 2 ^ 42), (6, 17 * 2 ^ 48 + 1 * 2 ^ 42 + 2 * 2 ^ 36), (7, 16 * 2 ^ 48 + 1 * 2 ^ 42 + 2 * 2 ^ 36)] [])
theorem witness_AlphabetState :
    let traps (n : BitVec 10) (b : Bool) : Bool := ready (.alset (rw 0 n 0 0 3)) alsets && alsets.exec (.alset (rw 0 n 0 0 3)) != 0
      && after (.alset (rw 0 n 0 0 3)) (handled alsets) (fun t => (t.ctl.trapCause == 0x8000000000000012) == b && (t.regs.alget 3 == 0) == b)
    (traps 0x201 false && traps 0x202 true && traps 0x203 true && traps 0x204 false && traps 0x205 true && traps 0x206 true
      && traps 0x207 false && ready (.smap (rw 0 2 0 0 7)) laned && laned.exec (.smap (rw 0 2 0 0 7)) != 0
      && after (.smap (rw 0 2 0 0 7)) laned (fun t => (t.regs.mapget 7 15).toNat == 16)
      && ready (.alget (rw 4 0 0 0 0x11)) laned && ready (.alget (rw 0x204 0 0 0 1)) laned
      && after (.alget (rw 0x204 0 0 0 1)) laned (fun t => t.regs.sget 4 == alphas.get 1)) = true := by decide +kernel
theorem witness_SymbolValues :
    let a : Alpha := { alphaAt laned.regs 0 with map := 2, tab := [5, 0, 0, -1, 7, 7, 7, 7, 7, 7] }
    (alphaAt laned.regs 0).map = 0 ∧ (alphaAt laned.regs 1).map = 1 ∧ 1 < (alphaAt laned.regs 1).r ∧ (alphaAt laned.regs 1).neutral = 1
      ∧ (alphaAt laned.regs 1).enc (-1) = some 0 ∧ (alphaAt laned.regs 1).enc 2 = none ∧ a.map = 2 ∧ a.enc 7 = some 4 ∧ a.enc 6 = none
      ∧ a.neutral = 1 ∧ (∀ g, g < ({ a with tab := [5, 4, 4, 4, 4, 4, 4, 4, 4, 4] } : Alpha).r →
          ({ a with tab := [5, 4, 4, 4, 4, 4, 4, 4, 4, 4] } : Alpha).val g ≠ 0) := by decide +kernel
theorem witness_PackedDigits : 1 < (alphaAt laned.regs 0).r ∧ (∀ d ∈ [9, 0, 9, 9], d < (alphaAt laned.regs 0).r)
    ∧ 9999 < (alphaAt laned.regs 0).r ^ (alphaAt laned.regs 0).n ∧ 3 < (alphaAt laned.regs 0).n ∧ (alphaAt laned.regs 0).replace 9999 3 0 = 999 := by
  decide +kernel

/-- No lane passes the guard p7. -/
def off : Guard := ⟨false, 7, 0⟩
def guarded : List Instr := [.iadd ⟨off, 4, 2, 3, 0, 0x20⟩, .fadd ⟨off, 4, 2, 3, 0, 0xB0 - 0x20⟩, .bra ⟨off, false, 0, 0, 3⟩, .exit ⟨off, 0, 0, 0, 0, 0⟩,
  .stg ⟨off, 4, 0x201, 6, 2, 2, 0, 0⟩, .mma ⟨off, 4, 0x201, 0x201, 0x201, 0⟩, .xcopy ⟨off, 0x201, 0x204, 0x200, 0x200, 0⟩,
  .trap ⟨off, 0, 0, 0, 5, false⟩, .syswr ⟨off, 0, 0x201, 0, 0x10, false⟩]
theorem witness_GuardedOff : guarded.all (fun i => encode i != [] && ready i laned && laned.exec i == 0
    && opcodeOf i != 0x02 && opcodeOf i != 0x08) = true := by decide +kernel

theorem witness_SystemReads : ready (.sysrd (iw 0x205 0 0 0x030)) laned = true ∧ ready (.sysrd (iw 4 0 0 0x031)) laned = true
    ∧ ready (.sysrd (iw 4 0 1 0x013)) laned = true := by decide +kernel
def writable : List (BitVec 64) := [0x010, 0x011, 0x012, 0x013, 0x018, 0x019, 0x01A, 0x020, 0x021, 0x022, 0x023, 0x024, 0x025, 0x040, 0x047,
  0x048, 0x060]
def written : State := one (stand true (regs [(1, 0xFFFFFFFFFFFFFFFF)] []))
theorem witness_SystemWrites :
    writable.all (fun n => ready (.syswr (iw 0 0x201 0 n)) written && written.exec (.syswr (iw 0 0x201 0 n)) != 0) = true := by
  decide +kernel
theorem test_system_writes : [(0x010, 0x1F8), (0x011, 0x7F), (0x020, 0xFFFFFFFFFFFFFFFC), (0x021, 0x80000000000003FF), (0x022, 0xFFFFFFFF),
    (0x047, 0x3FFFF), (0x060, 0x8000000001FFFFFF)].all (fun e : BitVec 64 × Nat =>
      after (.syswr (iw 0 0x201 0 e.1)) written (fun t => (sysValue t e.1.toNat 0).toNat == e.2)) = true := by decide +kernel
theorem witness_RegisterWriteEvents :
    let s := stand true {}
    let c := inChunk s
    s.hasCur = true ∧ c.hasCur = true ∧ c.sp.chunk.isSome = true ∧ s.gr.test = true ∧ (0x8000000000000000#64).getLsbD 63 = true
      ∧ (0#64).getLsbD 63 = false ∧ after (.flagsRegisterWrite 0x011 0x7F) c (fun t => t.g.fpflags == 0) = true
      ∧ after (.srseedWrite 9) s (fun t => t.regs.srseed == 9) = true
      ∧ after (.trapcauseWrite 0x8000000000000003) (s.modCtl (fun x => { x with resume := some ⟨0, 0, 0, 0, [], 0, false⟩ }))
          (fun t => t.ctl.resume.isNone) = true := by decide +kernel
/-- Every block of core 0 taken by another group. -/
def blocksTaken (s : State) : State :=
  { s with groups := s.groups ++ (List.range 24).map (fun k => { noGroup with gid := 50 + k, tid := 9, ext := [0, 1, 2, 3, 4, 5] }) }
def holding (l : List Nat) (s : State) : State := s.modG (fun g => { g with ext := l })
theorem witness_ExtendedBlocks :
    let s := stand true (regs [] [(64, 5)])
    let a (m : BitVec 4) (d : BitVec 10) (n : BitVec 64) : Instr := .acqx (iw d 0 m n)
    let new (s : State) (n : Nat) : List Nat := newSlots s s.g (slotsOf n)
    ready (a 1 3 3) s = true ∧ s.exec (a 1 3 3) ≠ 0 ∧ new s 3 = [0, 1] ∧ blockHead s s.g.core = none ∧ 2 ≤ freeBlocks s s.g.core
      ∧ ready (a 1 3 3) (blocksTaken s) = true ∧ freeBlocks (blocksTaken s) 0 < 2
      ∧ ready (a 0 0 3) (holding [0, 1] s) = true ∧ (holding [0, 1] s).sp.acqDone = false ∧ (holding [0, 1] s).blockQ = []
      ∧ new (holding [0, 1] s) 3 = [] ∧ ready (a 0 0 3) s = true ∧ s.sp.acqDone = false ∧ s.blockQ = []
      ∧ ready (a 0 0 3) (s.modSp (fun p => { p with acqDone := true })) = true
      ∧ ready (a 2 0 3) s = true ∧ ready (a 2 0 3) (holding [0, 1] s) = true
      ∧ ready (.relx (iw 0 0 0 1)) (holding [0, 1] s) = true ∧ (holding [0, 1] s).exec (.relx (iw 0 0 0 1)) ≠ 0
      ∧ (∀ k ∈ slotsOf 1, ∀ r, r < 32 → (holding [0, 1] s).g.emptyReg (.v (64 + 32 * k + r)) = false)
      ∧ blockHead { s with blockQ := [⟨0, 1, 0, [2], false⟩] } 0 = some ⟨0, 1, 0, [2], false⟩ ∧ s.group? 1 = some s.g := by
  decide +kernel
/-- A granted block reads 0, the predicate is set; a lane of v64 released with its block. -/
theorem test_extended_blocks :
    let s := stand true (regs [] [(64, 5)])
    after (.acqx (iw 3 0 1 3)) s (fun t => t.g.ext == [0, 1] && vAt t 64 == 0 && pAt t 3 == 0xFFFFFFFF) = true
      ∧ after (.acqx (iw 0 0 0 3)) s (fun t => t.sp.wait == some .blocks && t.blockQ.length == 1) = true
      ∧ after (.relx (iw 0 0 0 1)) (holding [0, 1] s) (fun t => t.g.ext == [1]) = true
      ∧ after (.xblockGrant 0) { s with blockQ := [⟨0, 1, 0, [2], false⟩] } (fun t => t.g.ext == [2] && t.blockQ.isEmpty && t.sp.acqDone) = true := by
  decide +kernel

/-! ### Waits, barriers and control -/

def gAt (k v : Nat) (s : State) : State := s.modTeam s.g.tid (fun t => { t with g := { t.g with bytes := t.g.bytes.set k (BitVec.ofNat 8 v) } })
theorem witness_CountersAndClock :
    let w := rw 0x205 0x201 0x202 0 0
    let at_ (a v : Nat) : State := gAt 8 v (stand true (regs [(1, a), (2, 2)] []))
    let x (s : State) : Nat := ofBytes (localBytes (begun (.waitc w) s) 3 8 4)
    ready (.waitc w) (at_ 8 2) = true ∧ (at_ 8 2).exec (.waitc w) ≠ 0 ∧ x (at_ 8 2) = 2 ∧ x (at_ 8 1) = 1
      ∧ ready (.waitc w) (at_ 6 0) = true ∧ srcS (at_ 6 0) w.a % 4 ≠ 0 ∧ ready (.waitc w) (at_ 4096 0) = true ∧ localSize (at_ 4096 0) 3 = 4096
      ∧ after (.waitc w) (at_ 8 2) (fun t => sAt t 5 == 2) = true ∧ after (.waitc w) (at_ 8 1) (fun t => t.sp.wait == some .counter) = true
      ∧ ready (.waitc (rw 0x205 0x201 0x202 0 1)) (at_ 8 1) = true
      ∧ ready (.clock (rw 0x205 0 0 0 1)) { at_ 0 0 with clock := 7 } = true
      ∧ after (.clock (rw 0x205 0 0 0 0)) { at_ 0 0 with clock := 7 } (fun t => sAt t 5 == 7) = true := by decide +kernel
def owing (s : State) : State := { s with sent := [{ src := 0, asid := 0, stamp := [], writes := [{ addr := 3 * 2 ^ 57, data := [1] }], keys := [], owed := [3] }] }
theorem witness_PassingWords :
    let s := stand true {}
    let r := stand false {}
    ready (.nop nopWord) s = true ∧ ready (.chunk (rw 0 0 0 0 0)) s = true ∧ ready (.chunk (rw 0 0 0 0 0)) (inChunk s) = true
      ∧ ready (.pref (mw 0 0x202 0x200 2 2 0 0)) s = true ∧ ready (.fence (rw 0 0 0 0 0)) s = true ∧ s.exec (.fence (rw 0 0 0 0 0)) ≠ 0
      ∧ ready (.fence (rw 0 0 0 0 14)) (owing r) = true ∧ batchesOwed (owing r) = true ∧ batchesOwed r = false
      ∧ ready (.fence (rw 0 0 0 0 13)) r = true ∧ ready (.ifence (rw 0 0 0 0 0)) s = true ∧ s.exec (.ifence (rw 0 0 0 0 0)) ≠ 0 := by
  decide +kernel
/-- A split with an entry on its stack. -/
def withEntry (s : State) : State := s.modCtl (fun c => { c with stack := [⟨0x2000, 0x2000, 0, 5⟩] })
theorem witness_SplitEffects :
    let s := stand true {}
    let r := stand false {}
    let p : Guard := ⟨false, 1, 0⟩
    let out : Instr := .exit (rw 0 0 0 0 0)
    ready (.yield (rw 0 0 0 0 0)) s = true ∧ ready (.yield (rw 0 0 0 0 0)) r = true
      ∧ ready (.bar (iw 0 0 1 3)) s = true ∧ s.exec (.bar (iw 0 0 1 3)) ≠ 0 ∧ ready (.bar (iw 0 0 1 3)) r = true
      ∧ ready (.barw (iw 0 0 0 7)) s = true ∧ ready (.barw (iw 0 0 0 7)) r = true ∧ s.exec (.barw (iw 0 0 0 7)) ≠ 0
      ∧ ready out s = true ∧ ready out r = true ∧ s.exec out ≠ 0 ∧ s.chunkedMode = true
      ∧ ready (.exit ⟨p, 0, 0, 0, 0, 0⟩) (r.modRegs (fun x => x.pset 1 1 1)) = true ∧ r.chunkedMode = false
      ∧ (r.ctl.mask &&& ~~~((r.modRegs (fun x => x.pset 1 1 1)).exec (.exit ⟨p, 0, 0, 0, 0, 0⟩))) = 0xFFFFFFFE
      ∧ r.ctl.mask &&& ~~~(r.exec out) = 0 ∧ ready out (withEntry r) = true ∧ ready out (twoSplits r) = true
      ∧ after (.exit ⟨p, 0, 0, 0, 0, 0⟩) (r.modRegs (fun x => x.pset 1 1 1)) (fun t => t.ctl.mask == 0xFFFFFFFE) = true := by
  decide +kernel
theorem test_split_effects :
    let r := stand false {}
    let out : Instr := .exit (rw 0 0 0 0 0)
    after out r (fun t => (t.group? 1).isNone) = true
      ∧ after out (withEntry r) (fun t => t.ctl.pc == 0x2000 && t.ctl.mask == 5 && t.ctl.atHdr && t.ctl.stack.isEmpty) = true
      ∧ after out (twoSplits r) (fun t => (match t.group? 1 with | some g => g.splits.map (fun p => p.id) == [1] | none => false)) = true
      ∧ after (.bar (iw 0 0 1 3)) r (fun t => t.sp.bar.isSome && t.ctl.pc == 0x1010) = true
      ∧ after (.yield (rw 0 0 0 0 0)) { r with clock := 9 } (fun t => t.sp.stamp == 9) = true := by
  decide +kernel
/-- An arrival at tag 7 from core 0 counts while its instance lacks one. -/
theorem test_wire_arrival :
    let k := 256 * 7
    let r : State := { stand false {} with wireForce := [(k, 1)] }
    (r.wireGot.get k).toNat < (r.wireForce.get k).toNat ∧ wireAny r 7 = true
      ∧ after (.barw (iw 0 0 0 7)) r (fun t => t.wireGot.get k == 1 && (match t.sp.bar with | some b => b.scope == 4 && !b.next | none => false)) = true := by
  decide +kernel
def bw (a : BitVec 10) (u : Bool) (off : BitVec 30) : BWord := ⟨⟨false, 0, 0⟩, u, 0, a, off⟩
/-- Lanes 0 to 3 active; p1 holds in lanes 0 and 1; v2 is 2 in lanes 0 and 1; v6 names the header at 0x1000. -/
def few : State := (stand true ((regs [(1, 1), (2, 2), (3, 0x1000)] [(2, 2), (6, 0x1000)]).pset 1 15 3)).modCtl (fun c => { c with mask := 3 })
def linked : State := few.modRegs (fun r => (r.setRets 0 [0x1000]).setRets 1 [0x1000])
theorem witness_UniformBranch :
    let s := few
    let b := bw 0 false 0x3FFFFFFF
    s.ctl.mask ≠ 0 ∧ inClause s ∧ tgtB s b = 0x1000 ∧ ready (.bra b) s = true ∧ s.exec (.bra b) = s.ctl.mask
      ∧ headerAt (begun (.bra b) s) (tgtB s b) = true ∧ ready (.call b) s = true ∧ s.exec (.call b) = s.ctl.mask
      ∧ headerAt (begun (.call b) s) (tgtB s b) = true ∧ (∀ l ∈ lanesOf s.ctl.mask, (s.regs.retsOf l).length < 16)
      ∧ ready (.loop (bw 2 false 0x3FFFFFFF)) s = true ∧ s.exec (.loop (bw 2 false 0x3FFFFFFF)) = s.ctl.mask
      ∧ headerAt (begun (.loop (bw 2 false 0x3FFFFFFF)) s) 0x1000 = true
      ∧ (∀ l ∈ actLanes s (.loop (bw 2 false 0x3FFFFFFF)) 2, wrap 32 ((s.regs.src 2 1 l : Int) - 1) ≠ 0)
      ∧ ready (.loop (bw 0x201 false 0x3FFFFFFF)) s = true
      ∧ (∀ l ∈ actLanes s (.loop (bw 0x201 false 0x3FFFFFFF)) 0x201, wrap 64 ((s.regs.src 0x201 1 l : Int) - 1) = 0)
      ∧ after (.bra b) s (fun t => t.ctl.pc == 0x1000 && t.ctl.atHdr) = true
      ∧ after (.call b) s (fun t => t.regs.retsOf 1 == [0x1010]) = true := by
  simp only [inClause]; decide +kernel
theorem witness_IndirectBranch :
    let s := linked
    let b := rw 0 6 0 0 0
    let r := rw 0 0 0 0 0
    s.ctl.mask ≠ 0 ∧ inClause s ∧ ready (.brx b) s = true ∧ s.exec (.brx b) = s.ctl.mask ∧ headerAt (begun (.brx b) s) 0x1000 = true
      ∧ (∀ l ∈ lanesOf s.ctl.mask, BitVec.ofNat 64 (s.regs.src 6 2 l) = (0x1000 : Word))
      ∧ ready (.ret r) s = true ∧ s.exec (.ret r) = s.ctl.mask ∧ headerAt (begun (.ret r) s) 0x1000 = true
      ∧ (∀ l ∈ lanesOf s.ctl.mask, s.regs.retsOf l = 0x1000 :: []) ∧ ready (.ret r) few = true
      ∧ (∃ l ∈ lanesOf (few.exec (.ret r)), few.regs.retsOf l = [])
      ∧ after (.ret r) s (fun t => t.ctl.pc == 0x1000 && t.regs.retsOf 0 == []) = true := by
  simp only [inClause]; decide +kernel
/-- Three further splits that stand elsewhere. -/
def fourSplits (s : State) : State := s.modG (fun g => { g with splits := g.splits ++ [{ id := 1, ctl := { pc := 0x4000, mask := 0x100 } },
  { id := 2, ctl := { pc := 0x4100, mask := 0x200 } }, { id := 3, ctl := { pc := 0x4200, mask := 0x400 } }] })
def deep (s : State) : State := s.modCtl (fun c => { c with stack := (List.range 32).map (fun k =>
  ⟨BitVec.ofNat 64 (0x5000 + 64 * k), BitVec.ofNat 64 (0x5000 + 64 * k), 0, 0x800⟩) })
theorem witness_Division :
    let p : Guard := ⟨false, 1, 0⟩
    let b (u : Bool) : BWord := ⟨p, u, 0, 0, 0x3FFFFFFF⟩
    let s := few.modRegs (fun r => r.pset 1 3 1)
    let m := s.exec (.bra (b false))
    ready (.bra (b false)) s = true ∧ ready (.bra (b true)) s = true ∧ m = 1 ∧ m ≠ s.ctl.mask ∧ inClause s
      ∧ headerAt (begun (.bra (b true)) s) 0x1000 = true ∧ headerAt (begun (.bra (b false)) s) 0x1000 = true
      ∧ freeSplits s.g = [1, 2, 3] ∧ s.ctl.stack.length ≤ 32
      ∧ ready (.bra (b false)) (fourSplits s) = true ∧ freeSplits (fourSplits s).g = []
      ∧ (pushEntry (nextPath (fourSplits s) 2) (fourSplits s).ctl.stack).length ≤ 32
      ∧ ready (.bra (b false)) (deep (fourSplits s)) = true ∧ headerAt (begun (.bra (b false)) (deep (fourSplits s))) 0x1000 = true
      ∧ 32 < (pushEntry (nextPath (deep (fourSplits s)) 2) (deep (fourSplits s)).ctl.stack).length
      ∧ ready (.bra (b false)) (deep s) = true
      ∧ after (.bra (b false)) s (fun t => t.ctl.mask == 2 && t.g.splits.any (fun q => q.id == 1 && q.ctl.pc == 0x1000 && q.ctl.mask == 1)) = true := by
  simp only [inClause]; decide +kernel
def resumable (m : Mask) (last : Bool) (s : State) : State :=
  s.modCtl (fun c => { c with trapPc := 0x1010, trapCause := 0x800000000000000E, resume := some ⟨0x1000, c.hdr, 0, 0, [], m, last⟩ })
def returning (s : State) : State := s.modCtl (fun c => { c with trapPc := 0x1000, trapCause := 0x800000000000000E })
/-- Adds, or a branch, as the words after the current one. -/
def followed (w : Nat) : State := { few with mem := Cells.write few.mem (phys 0 0x1010) (leBytes 8 0x2000010020040020 ++ leBytes 8 w) }
def nearEnd : State := few.modCtl (fun c => { c with pc := 0x1078 })
theorem witness_SkippedRange :
    let k (n : BitVec 64) : Instr := .skip (iw 0 0 0 n)
    let left (s : State) : Nat := (clauseEnd s + 8 - s.ctl.pc.toNat - s.sp.irLen) / 8
    let r (s : State) (n : Nat) := wordsFrom (begun (k 1) s) (s.ctl.pc.toNat + s.sp.irLen) n
    let adds := followed 0x2000010020040020
    let bra := followed 0x0100000000000003
    ready (k 2) adds = true ∧ ready (k 2) nearEnd = true ∧ left adds = 15 ∧ left nearEnd = 1 ∧ few.ctl.portable = false
      ∧ (r adds 2).2.1 = none ∧ skipOk (r adds 2).1 = true ∧ ready (k 2) bra = true ∧ (r bra 2).2.1 = none
      ∧ skipOk (r bra 2).1 = false ∧ (0 : Nat) < (few.modCtl (fun c => { c with skipLeft := 1 })).ctl.skipLeft
      ∧ after (k 2) adds (fun t => t.ctl.skipLeft == 2 && t.ctl.skipMask == 3) = true := by decide +kernel
theorem witness_SoftwareTraps :
    let s := few
    let e (n : BitVec 64) : Instr := .rte (iw 0 0 0 n)
    ready (.trap (iw 0 0 0 7)) s = true ∧ s.exec (.trap (iw 0 0 0 7)) ≠ 0 ∧ ready (.brk (iw 0 0 0 0)) s = true ∧ s.exec (.brk (iw 0 0 0 0)) ≠ 0
      ∧ ready (e 0) s = true ∧ s.ctl.trapCause.getLsbD 63 = false
      ∧ ready (e 0) (returning s) = true ∧ (returning s).ctl.trapCause.getLsbD 63 = true ∧ (returning s).ctl.resume = none
      ∧ headerAt (begun (e 0) (returning s)) 0x1000 = true
      ∧ ready (e 1) (resumable 3 false s) = true ∧ (resumable 3 false s).ctl.mask = 3 ∧ (0x1018 : Word) ≠ 0x1000
      ∧ ready (e 1) (resumable 3 true s) = true ∧ ready (e 0) (resumable 1 false s) = true ∧ (resumable 1 false s).ctl.mask ≠ 1
      ∧ after (e 1) (resumable 3 false s) (fun t => t.ctl.pc == 0x1018 && !t.ctl.atHdr && t.ctl.trapCause == 0xE) = true
      ∧ after (e 1) (resumable 3 true s) (fun t => t.ctl.pc == 0x1018 && t.ctl.atHdr) = true
      ∧ after (.trap (iw 0 0 0 7)) (handled s) (fun t => t.ctl.trapCause == 0x800000000000000E && t.ctl.trapMask == 3) = true := by
  decide +kernel
/-- At the header at 0x1000, which is the word w. -/
def atHeader (w : Nat) (s : State) : State :=
  let s := (s.modCtl (fun c => { c with pc := 0x1000, atHdr := true })).memWrite (phys 0 0x1000) (leBytes 8 w)
  { s with cores := [], oldCode := [] }
def stacked (a : Word) (s : State) : State := s.modCtl (fun c => { c with stack := [⟨a, a, 0, 0x30⟩] })
/-- A header whose wait set holds global loads (bit 40), and one of a class that does not exist. -/
def waitLG : Nat := placeHeader + 2 ^ 40
def badClass : Nat := placeHeader + 4 * 2 ^ 52
theorem witness_HeaderFetch :
    let h := atHeader placeHeader few
    let u (s : State) : State := (fetchAt s s.g s.ctl.pc.toNat 8).2
    let w := atHeader waitLG (emptyV2.modCtl (fun c => { c with mask := 3 }))
    let x := stacked 0x800 h
    let clear (s : State) : Bool := s.hasCur && s.ctl.atHdr && s.sp.pend.isNone && s.sp.born.isNone && s.sp.bar.isNone
      && !s.sp.chunkClosed && s.parked.all (fun q => q.who != s.cur) && !s.ctl.portable
      && s.g.splits.all (fun q => q.id == s.cur.2 || !standsAt s.ctl.pc q) && s.ctl.stack.all (fun e => s.ctl.pc.toNat < e.addr.toNat)
    clear h = true ∧ clear (stacked 0x1008 h) = true ∧ clear (atHeader badClass few) = true ∧ clear w = true
      ∧ fetchedWord h 8 = some placeHeader ∧ headerOk placeHeader = true ∧ bitAt placeHeader 46 = false ∧ waitSetOk (u h) placeHeader = true
      ∧ fetchedWord (atHeader badClass few) 8 = some badClass ∧ headerOk badClass = false
      ∧ fetchedWord w 8 = some waitLG ∧ headerOk waitLG = true ∧ bitAt waitLG 46 = false ∧ waitSetOk (u w) waitLG = false
      ∧ x.ctl.stack = ⟨0x800, 0x800, 0, 0x30⟩ :: [] ∧ (0x800 : Nat) < x.ctl.pc.toNat ∧ x.ctl.atHdr = true
      ∧ after .clauseHeaderFetch h (fun t => t.ctl.pc == 0x1008 && !t.ctl.atHdr) = true
      ∧ after .clauseHeaderFetch w (fun t => t.sp.wait == some .waitSet && t.ctl.pc == 0x1000) = true
      ∧ after .clauseHeaderFetch x (fun t => t.ctl.pc == 0x800 && t.ctl.mask == 0x30) = true := by decide +kernel
/-- A split of a portable kernel at a marker that its safe-point map pairs with a native header at 0x2000. -/
def switching : State :=
  let s := placed 32 1
  let s : State := { s with tlb := page 0, grids := s.grids.map (fun g : Grid => { g with bound := some { desc := 0x500, entry := 0x1000, portable := true, hdr := {} } }) }
  ((s.memWrite 0 (leBytes 8 0x500 ++ leBytes 8 0x700 ++ leBytes 8 0x2000 ++ leBytes 8 0x600 ++ leBytes 4 1 ++ [1])).memWrite 0x600
    (leBytes 8 1 ++ leBytes 8 0x1000 ++ leBytes 8 0x2000))
theorem witness_PortableExecution : (portableWord (0x20000000 % 2 ^ 32) (0x20000000 / 2 ^ 32)).isSome = true
    ∧ portableWord (0x23000000 % 2 ^ 32) (0xFFFF / 2 ^ 32) = portableWord 0x23000000 0 ∧ portableWord (0xFF000000 % 2 ^ 32) 0 = none
    ∧ portableWord (0 % 2 ^ 32) (0 / 2 ^ 32) = some 0 ∧ (match decodeWord 0 none with | .nop _ => true | _ => false) = true
    ∧ ready (decodeWord 0 none) (placed 32 0) = true
    ∧ portableWord (0x20008103 % 2 ^ 32) (0x20008103 / 2 ^ 32) = some 0x20000080200C0000
    ∧ (integerResult (decodeWord 0x20000080200C0000 none)).isSome = true ∧ ready (decodeWord 0x20000080200C0000 none) (placed 32 0) = true
    ∧ ready (.nop nopWord) (placed 32 1) = true ∧ (placed 32 1).ctl.portable = true ∧ switchAt (placed 32 1) = none
    ∧ ready (.nop nopWord) switching = true ∧ switchAt switching = some 0x2000
    ∧ after .safePointMarker switching (fun t => t.ctl.pc == 0x2000 && !t.ctl.portable && t.ctl.atHdr) = true := by decide +kernel

/-! ### Memory -/

def localRegs : Regs := regs [(1, 64), (2, 4094), (3, 4096), (4, 0x55)] [(2, 8), (6, 0xA1B2C3D4), (8, 6)]
/-- Loads and stores of lanes 0 and 1, in a chunk and in relaxed mode. -/
def acc (ch : Bool) : State := (stand ch localRegs).modCtl (fun c => { c with mask := 3 })
def inEnds (f : LocalForm) (s : State) : Bool := !(f.lanes s).isEmpty && (f.lanes s).all (fun l => f.addr s l + f.n ≤ localSize s f.buf && f.addr s l % f.n == 0)
def localLoads : List Instr := [.lds (mw 4 2 0x201 0 2 3 0), .ldc (mw 4 2 0x201 1 2 0 0), .ldsx (mw 4 0x201 0x200 0 2 0 1)]
def localStores : List Instr := [.sts (mw 6 2 0x201 0 1 3 0), .stc (mw 6 2 0x201 1 2 0 0), .stsx (mw 6 0x201 0x200 0 2 0 1)]
theorem witness_LocalLoads :
    let s := acc true
    let out : Instr := .lds (mw 4 2 0x203 0 2 3 0)
    let odd : Instr := .lds (mw 4 8 0x201 0 2 3 0)
    let mrd (m : BitVec 8) (a : BitVec 10) : Instr := .mrd (rw 4 a 0 0 m)
    let room (i : Instr) (n : Nat) : Bool := readRoom (begun i s) (linesAt n [0, 64])
    localLoads.all (fun i => match localLoadForm i with | some f => ready i s && inEnds f s && room i f.n | none => false) = true
      ∧ ready out s = true ∧ ready odd s = true
      ∧ (∀ f, localLoadForm out = some f → (f.lanes s).filter (fun l => localSize s f.buf < f.addr s l + f.n) ≠ [])
      ∧ (∀ f, localLoadForm odd = some f → (f.lanes s).filter (fun l => f.addr s l % f.n != 0) ≠ [])
      ∧ ready (mrd 0 0x201) s = true ∧ s.exec (mrd 0 0x201) ≠ 0 ∧ ready (mrd 1 0x201) s = true ∧ ready (mrd 2 0x200) s = true
      ∧ ready (mrd 0 0x203) s = true ∧ ready (mrd 0x10 0x201) s = true
      ∧ (∀ l ∈ [0, 1], racedRead s s.g.tid 3 (64 + 8 * l) 4 = false) := by
  dsimp only
  refine ⟨by decide +kernel, by decide +kernel, by decide +kernel, ?_, ?_, by decide +kernel, by decide +kernel, by decide +kernel,
    by decide +kernel, by decide +kernel, by decide +kernel, by decide +kernel⟩ <;> (intro f h; cases h; decide +kernel)
theorem test_local_loads :
    let s := gAt 72 0x99 (acc true)
    after (.lds (mw 4 2 0x201 0 2 3 0)) s (fun t => t.g.ll.any (fun l => l.load == 1 && l.vw == [(128, 0x99), (129, 0x99)])) = true := by
  decide +kernel
theorem witness_LocalStores :
    let s := acc true
    let mwr (m : BitVec 8) (a : BitVec 10) : Instr := .mwr (rw 0 a 6 0 m)
    localStores.all (fun i => match localStoreForm i with
      | some f => ready i s && inEnds f s && storeRoom (begun i s) (linesAt f.n [0, 64]) | none => false) = true
      ∧ ready (.sts (mw 6 2 0x203 0 2 3 0)) s = true ∧ ready (.sts (mw 6 8 0x201 0 2 3 0)) s = true
      ∧ localStores.all (fun i => ready i (acc false)) = true
      ∧ ready (mwr 0 0x201) s = true ∧ s.exec (mwr 0 0x201) ≠ 0 ∧ ready (mwr 0 0x203) s = true ∧ ready (mwr 0 0x202) s = true
      ∧ storeRoom (begun (mwr 0 0x201) s) (linesAt 4 [0, 64]) = true
      ∧ after (.sts (mw 6 2 0x201 0 1 3 0)) s (fun t => (ownOps t).length == 2) = true := by decide +kernel
theorem witness_OwnStores :
    let s := acc false
    let t := s.modSp (fun p => { p with pst := [.bytes 64 [1, 2]] })
    let u := s.modSp (fun p => { p with pst := [.red 64 1 4 7 none] })
    ownOps s = [] ∧ ownOps t = ownOps s ++ [.bytes 64 [1, 2]] ∧ ownOps u = ownOps s ++ [.red 64 1 4 7 none]
      ∧ overlay t 63 [9, 9, 9] = [9, 1, 2] := by decide +kernel
/-- Lanes 0 and 1; s1 names 0x800, v2 is 8 in lane 0 and 8 in lane 1, v9 counts 0 and 4. -/
def globals (ch : Bool) : State :=
  let r := { regs [(1, 0x800), (2, 0x900), (3, 1), (4, 0x55)] [(2, 8), (6, 0xA1B2C3D4)] with al := alphas }
  let r := (r.vset 9 1 4).vset 12 1 1
  ((stand ch r).modCtl (fun c => { c with mask := 3 })).memWrite 0x800 (leBytes 8 0x0000123400000007)
/-- The state after a global read, and whether it goes through. -/
def readTo (n : Nat) (as : List Nat) (s : State) : State :=
  (noteReads (found s .read as) (as.flatMap (fun a => linesOf (normal (found s .read as) a) n))).modSp (fun p => { p with peerData := [], bad := [] })
def readable (n : Nat) (as : List Nat) (s : State) : Bool :=
  reaches s .read n false as && as.all (fun a => !redHits (found s .read as) (normal (found s .read as) a) n
      && (globalBytes (found s .read as) a n).isSome)
    && readRoom (found s .read as) (as.flatMap (fun a => linesOf (normal (found s .read as) a) n))
    && (peerNeed (found s .read as) (as.map (fun a => (0, a)))).isEmpty
theorem readsTo_of {n : Nat} {as : List Nat} {s : State} (h : readable n as s = true) : readsTo n as s (readTo n as s) := by
  simp only [readable, Bool.and_eq_true, List.all_eq_true, List.isEmpty_iff, Bool.not_eq_true'] at h
  exact ⟨h.1.1.1, h.1.1.2, h.1.2, h.2, rfl⟩
/-- The state after places are read whole, and whether they are. -/
def bothOf (ps : List (Nat × Nat)) : List Nat := ps.flatMap (fun p => bothEnds p.1 p.2)
def readOnTo (as : List Nat) (s : State) : State := keepLines s (readTo 1 as s)
theorem readsOn_of {as : List Nat} {s : State} (h : readable 1 as s = true) : readsOn as s (readOnTo as s) :=
  ⟨_, readsTo_of h, rfl⟩
def readAllTo (ps : List (Nat × Nat)) (s : State) : State := readOnTo (bothOf ps) s
def readableAll (ps : List (Nat × Nat)) (s : State) : Bool :=
  readable 1 (bothOf ps) s && ps.all (fun p => !redHits s (normal s p.1) p.2)
theorem readsAll_of {ps : List (Nat × Nat)} {s : State} (h : readableAll ps s = true) : readsAll ps s (readAllTo ps s) := by
  simp only [readableAll, Bool.and_eq_true, List.all_eq_true, Bool.not_eq_true'] at h
  exact ⟨readsOn_of h.1, h.2⟩
/-- A sequence of one page with two live slots, and one whose entry counts three; the sequence table has 64 entries. -/
def kvs : State :=
  let s := (globals true).modRegs (fun r => ((r.sset 10 0xA00).sset 11 0xA40).sset 12 0xA80)
  let e (n : Nat) : List Byte := leBytes 8 0xC00 ++ leBytes 8 0 ++ leBytes 4 1 ++ leBytes 4 n ++ leBytes 12 0 ++ [9]
  ((((s.memWrite 0xA00 (e 2)).memWrite 0xA40 (e 3)).memWrite 0xC00 (leBytes 8 0x1800)).memWrite 0x1A00 [5]).setBar (0x1000 + 0x40) 64
theorem witness_GlobalLoads :
    let s := globals true
    let w := mw 4 0x201 9 2 2 0 0
    ready (.ldg w) s = true ∧ memLanes s (.ldg w) w ≠ [] ∧ readsTo 4 ((memLanes s (.ldg w) w).map (eaGlobal s w)) (begun (.ldg w) s)
        (readTo 4 ((memLanes s (.ldg w) w).map (eaGlobal s w)) (begun (.ldg w) s))
      ∧ after (.ldg w) s (fun t => t.g.ll.any (fun l => l.vw == [(128, 7), (129, 0x1234)] && l.load == 2)) = true :=
  ⟨by decide +kernel, by decide +kernel, readsTo_of (by decide +kernel), by decide +kernel⟩
/-- A Z64 block whose word 1 is 0xCAFE, at 0x2000. -/
def zipped : State := ((globals true).modRegs (fun r => r.sset 1 0x2000)).memWrite 0x2000 (leBytes 8 2 ++ leBytes 4 0xCAFE)
theorem witness_GlobalLoads_compressed :
    let w := mw 4 0x201 9 3 2 0 0
    let s := zipped
    let ls := memLanes s (.ldgc w) w
    let at_ (l : Nat) : Int := idxGlobal s w.b l + off9 w * 4
    let slot (l : Nat) : Nat := wrap 64 ((srcS s w.a : Int) + 320 * (at_ l / 256))
    let a1 := ls.flatMap (fun l => sectorEnds (slot l) 1)
    let u := readOnTo a1 (begun (.ldgc w) s)
    let a2 := ls.flatMap (fun l => sectorEnds (slot l) (sectorsOf false (slotBytes u (slot l))))
    ready (.ldgc w) s = true ∧ ls ≠ [] ∧ (∀ l ∈ ls, (place (begun (.ldgc w) s) (slot l)).isSome ∧ at_ l % 4 = 0 ∧ slotRed (begun (.ldgc w) s) (slot l) = false)
      ∧ readRoom (begun (.ldgc w) s) (ls.flatMap (fun l => slotKeys (begun (.ldgc w) s) (slot l))) = true
      ∧ readsOn a1 (begun (.ldgc w) s) u ∧ readsOn a2 u (readOnTo a2 u)
      ∧ (∀ l ∈ ls, ∀ k, k < 4 → (blockByte false (slotBytes (readOnTo a2 u) (slot l)) ((at_ l % 256).toNat + k)).isSome)
      ∧ after (.ldgc w) s (fun t => t.g.ll.any (fun l => l.vw == [(128, 0), (129, 0xCAFE)])) = true :=
  ⟨by decide +kernel, by decide +kernel, by decide +kernel, by decide +kernel, readsOn_of (by decide +kernel),
    readsOn_of (by decide +kernel), by decide +kernel, by decide +kernel⟩
theorem witness_GlobalLoads_symbol :
    let s := globals true
    let w := mw 4 0x201 12 2 2 0 0
    let a := alphaAt s.regs w.sub.toNat
    let as := (memLanes s (.sld w) w).map (fun l => (symAt s a w l).1)
    let word (l : Nat) : Chk := a.check (splitReads (found (begun (.sld w) s) .read as) (a.w / 8) (symAt s a w l).1)
    ready (.sld w) s = true ∧ memLanes s (.sld w) w ≠ [] ∧ symBad a w = false
      ∧ symBad (alphaAt s.regs 5) (mw 4 0x201 12 2 2 5 0) = true ∧ ready (.sld (mw 4 0x201 12 2 2 5 0)) s = true
      ∧ readsTo (a.w / 8) as (begun (.sld w) s) (readTo (a.w / 8) as (begun (.sld w) s)) ∧ (∀ l ∈ memLanes s (.sld w) w, (word l).trap = false)
      ∧ after (.sld w) s (fun t => t.g.ll.any (fun l => l.vw == [(128, 7), (129, 0)])) = true :=
  ⟨by decide +kernel, by decide +kernel, by decide +kernel, by decide +kernel, by decide +kernel, readsTo_of (by decide +kernel),
    by decide +kernel, by decide +kernel⟩
theorem witness_GlobalLoads_kvmap :
    let w (a : BitVec 10) (m : BitVec 8) : RWord := rw 4 a 12 0 m
    let b := begun (.kvmap (w 0x20A 0)) kvs
    let u (ea : Nat) := readAllTo [(ea, 64)] b
    let v (ea : Nat) := readAllTo [(0xC00, 8)] (u ea)
    let x (ea : Nat) := readAllTo [(0x1A00, 8)] (v ea)
    let e (ea : Nat) := kvEntry (gBytes (u ea) ea 64)
    let p (ea : Nat) := ofBytes (gBytes (v ea) 0xC00 8)
    let live (ea : Nat) := liveSlots (ofBytes (gBytes (x ea) 0x1A00 8))
    ([0x20A, 0x20B, 0x20C].all (fun a => ready (.kvmap (w a 0)) kvs) ∧ actLanes kvs (.kvmap (w 0x20A 0)) 4 ≠ []
      ∧ (0xA00 : Nat) % 64 = 0 ∧ prtOk b b.slotNo 0xA00 = true ∧ prtOk b b.slotNo 0x1000 = false
      ∧ place b 0xC000000000000001 = none ∧ (place b 1).isSome = true ∧ (place b 0x1000).isSome = true
      ∧ (e 0xA80).selfBad = true ∧ (e 0xA00).selfBad = false ∧ (e 0xA00).npages = 1 ∧ (e 0xA00).list = 0xC00 ∧ p 0xA00 = 0x1800
      ∧ live 0xA00 = [0, 2] ∧ (e 0xA00).nlive = 2 ∧ (e 0xA40).selfBad = false ∧ live 0xA40 = [0, 2] ∧ (e 0xA40).nlive = 3
      ∧ readableAll [(0x1900, 4), (0x1908, 4)] (x 0xA00) = true ∧ readableAll [] (x 0xA00) = true)
      ∧ readsAll [(0xA00, 64)] b (u 0xA00) ∧ readsAll [(0xC00, 8)] (u 0xA00) (v 0xA00)
      ∧ readsAll [(0x1A00, 8)] (v 0xA00) (x 0xA00) ∧ readsAll [(0x1A00, 8)] (v 0xA40) (x 0xA40)
      ∧ after (.kvmap (w 0x20A 0)) kvs (fun t => t.g.ll.any (fun l => l.vw == [(128, 0x1800), (160, 0), (129, 0x1802), (161, 0)])) = true :=
  ⟨by decide +kernel, readsAll_of (by decide +kernel), readsAll_of (by decide +kernel), readsAll_of (by decide +kernel),
    readsAll_of (by decide +kernel), by decide +kernel⟩
theorem witness_GlobalStores :
    let s := globals true
    let w := mw 6 0x201 9 2 2 0 0
    let r := mw 6 0x201 9 2 2 1 0
    let rel : MWord := { mw 6 0x201 9 2 2 2 0 with scope := 3 }
    let as (i : Instr) (w : MWord) : List Nat := (memLanes s i w).map (eaGlobal s w)
    (ready (.stg w) s && ready (.red r) s && ready (.stgs (mw 6 0x201 9 2 2 0 0)) s && !(memLanes s (.stg w) w).isEmpty
      && reaches (begun (.stg w) s) .write 4 s.chunkedMode (as (.stg w) w) && reaches (begun (.red r) s) .red 4 s.chunkedMode (as (.red r) r)
      && (leaveNeed (found (begun (.stg w) s) .write (as (.stg w) w)) 3 (globalLanes s (.stg w) w)).isEmpty
      && ready (.stg rel) (globals false) && sysRelease (globals false) (.stg rel) rel (globalLanes (globals false) (.stg rel) rel)
      && !batchesOwed (globals false)
      && storeRoom (begun (.stg w) s) [0x800 / 64 * 64] && as (.stg w) w == [0x800, 0x804]
      && ready (.stg w) (globals false) && ready (.red r) (globals false)
      && after (.stg w) s (fun t => ownOps t == [.bytes 0x800 (leBytes 4 0xA1B2C3D4), .bytes 0x804 (leBytes 4 0xA1B2C3D4)])) = true := by
  decide +kernel
/-- Digits 9 and 9 go to indexes 0 and 1 of the word at 0x900, which holds 8. -/
def digits (ch : Bool) : State := ((globals ch).modRegs (fun r => (r.vset 6 0 9).vset 6 1 9)).memWrite 0x900 [8]
def sstW : MWord := mw 6 0x202 12 2 2 0 0
theorem witness_GlobalStores_symbol :
    let s := digits true
    let a := alphaAt s.regs 0
    let b := begun (.sst sstW) s
    let as := (memLanes s (.sst sstW) sstW).map (fun l => (symAt s a sstW l).1)
    let g := found b .atomic as
    let u := readTo 4 as g
    (ready (.sst sstW) s = true ∧ memLanes s (.sst sstW) sstW ≠ [] ∧ s.chunkedMode = true ∧ symBad a sstW = false ∧ 1 < a.r ∧ 0 < a.n
      ∧ reaches b .atomic 4 false as = true ∧ as = [0x900, 0x900]
      ∧ leaveNeed g 2 ((memLanes s (.sst sstW) sstW).map (fun l => (l, (symAt s a sstW l).1))) = []
      ∧ (∀ l ∈ memLanes s (.sst sstW) sstW, (a.orNeutral (a.enc (valueIn s sstW.d l))).trap = false)
      ∧ (∀ ad ∈ as, (a.check (splitReads (found g .read as) 4 ad)).trap = false) ∧ storeRoom u (linesOf (normal u 0x900) 4) = true
      ∧ symBad (alphaAt s.regs 5) (mw 6 0x202 12 2 2 5 0) = true ∧ ready (.sst (mw 6 0x202 12 2 2 5 0)) s = true)
      ∧ readsTo 4 as g u ∧ after (.sst sstW) s (fun t => ownOps t == [.bytes 0x900 (leBytes 4 99)]) = true :=
  ⟨by decide +kernel, readsTo_of (by decide +kernel), by decide +kernel⟩
theorem witness_RelaxedSymbolStore :
    let s := digits false
    let a := alphaAt s.regs 0
    let as := (memLanes s (.sst sstW) sstW).map (fun _ => 0x900)
    let keys := linesOf (normal s 0x900) 4
    ready (.sst sstW) s = true ∧ memLanes s (.sst sstW) sstW ≠ [] ∧ s.chunkedMode = false ∧ s.sp.feVals = [] ∧ symBad a sstW = false
      ∧ 1 < a.r ∧ 0 < a.n ∧ (∀ l ∈ memLanes s (.sst sstW) sstW, (symAt s a sstW l).1 = 0x900)
      ∧ reaches s .atomic 4 false as = true ∧ deviceKey (found s .atomic as) .atomic 4 0x900 = some 0x900 ∧ s.accums = []
      ∧ (ownOps s).all (fun op => !op.hits (normal s 0x900) 4) = true ∧ batchesOwed s = false
      ∧ (∀ l ∈ memLanes s (.sst sstW) sstW, (a.orNeutral (a.enc (valueIn s sstW.d l))).trap = false)
      ∧ (a.check (ofBytes (s.memRead 0x900 4))).trap = false
      ∧ victims s keys s.g.tid s.cl.cid s.cur none = [] ∧ reservedBlocks s keys s.g.core s.cur none = false
      ∧ after (.sst sstW) s (fun t => ofBytes (t.memRead 0x900 4) == 99) = true := by decide +kernel

/-- Word 16 of G full, word 17 empty. -/
def halves : State :=
  let s := (stand true (regs [(1, 64), (2, 68), (3, 8), (4, 0), (5, 6), (7, 4092)] [(6, 0x77)])).modCtl (fun c => { c with mask := 1 })
  s.modTeam s.g.tid (fun t => { t with g := { t.g with full := [(16, 1)], bytes := [(64, 5)] } })
theorem witness_FullEmpty :
    let s := halves
    let ld := mw 4 0x201 10 0 2 3 0
    let st := mw 6 0x202 10 0 2 3 0
    let keys := linesAt 4 [localLoc 3 68]
    (ready (.ldsf ld) s && ready (.ldsp ld) s && ready (.stse st) s && memLanes s (.ldsf ld) ld == [0] && eaLocal s ld 0 == 64
      && eaLocal s st 0 == 68 && s.t.feq.isEmpty && s.sp.feVals.isEmpty && 68 + 4 ≤ localSize s 3 && wordsOf 64 4 == [16]
      && (s.t.buf 3).full.get 16 == 1 && (s.t.buf 3).full.get 17 == 0 && !racedRead s s.g.tid 3 64 4
      && (victims s keys s.g.tid s.cl.cid s.cur none).isEmpty && !reservedBlocks s keys s.g.core s.cur none
      && !reservedBlocks s keys s.t.core s.cur none
      && after (.ldsf ld) s (fun t => vIn t 4 0 == 5 && (t.t.buf 3).full.get 16 == 0)
      && after (.ldsp ld) s (fun t => vIn t 4 0 == 5 && (t.t.buf 3).full.get 16 == 1)
      && after (.stse st) s (fun t => (t.t.buf 3).bytes.get 68 == 0x77 && (t.t.buf 3).full.get 17 == 1)) = true := by decide +kernel
theorem witness_FullEmpty_feset :
    let s := halves
    let f (a b : BitVec 10) : Instr := .feset (mw 0 a b 0 2 7 0)
    let start (a : BitVec 10) : Nat := wrap 64 ((srcS s a : Int) + off9 (mw 0 a 0 0 2 7 0) * 4)
    [f 0x201 0x203, f 0x201 0x205, f 0x205 0x203, f 0x207 0x203, f 0x201 0x204].all (fun i => ready i s && s.exec i != 0) = true
      ∧ srcS s 0x205 % 4 ≠ 0 ∧ start 0x205 % 4 ≠ 0 ∧ start 0x201 = 64 ∧ srcS s 0x203 = 8 ∧ 64 + 8 ≤ localSize s 3 ∧ s.t.feq = []
      ∧ srcS s 0x204 = 0 ∧ localSize s 3 < start 0x207 + 8
      ∧ after (f 0x201 0x203) s (fun t => (t.t.buf 3).full.get 17 == 1 && (t.t.buf 3).full.get 18 == 0) = true := by decide +kernel
def swapW : MWord := mw 6 10 12 2 2 0 0
theorem witness_Atomics :
    let s := (acc false).modCtl (fun c => { c with mask := 3 })
    let a (op : BitVec 4) (buf : Bool) : Instr := if buf then .atoms (mw 6 2 0x200 0 2 op 0) else .atomc (mw 6 2 0x200 1 2 op 0)
    let keys (b : Nat) := linesAt 4 [localLoc b 8, localLoc b 8]
    let w := mw 6 2 0x200 0 2 1 0
    (ready (a 1 true) s && ready (a 1 false) s && memLanes s (a 1 true) w == [0, 1] && s.sp.pst.isEmpty
      && [0, 1].all (fun l => eaLocal s w l + 4 ≤ localSize s 3 && eaLocal s w l + 4 ≤ localSize s 4 && eaLocal s w l % 4 == 0)
      && (victims s (keys 3) s.g.tid s.cl.cid s.cur none).isEmpty && (victims s (keys 4) s.g.tid s.cl.cid s.cur none).isEmpty
      && !reservedBlocks s (keys 3) s.g.core s.cur none && !reservedBlocks s (keys 4) s.g.core s.cur none
      && after (a 1 true) s (fun t => t.bufByte s.g.tid 3 8 == 0xA8 && t.g.ll.any (fun l => l.vw == [(192, 0), (193, 0xA1B2C3D4)]))) = true := by
  decide +kernel
theorem witness_Atomics_global :
    let s := (globals false).modRegs (fun r => (r.vset 10 0 0x800).vset 10 1 0x800)
    let at_ := mw 6 0x201 0x200 2 2 1 0
    let cas := mw 6 10 12 2 2 0 0
    (ready (.atomg at_) s && ready (.casg cas) s && memLanes s (.atomg at_) at_ == [0, 1] && memLanes s (.casg cas) cas == [0, 1] && s.sp.pst.isEmpty
      && s.sp.feVals.isEmpty && s.accums.isEmpty && !batchesOwed s && eaGlobal s at_ 1 == 0x800
      && deviceKey s .atomic 4 0x800 == some 0x800 && deviceKey (found s .atomic [0x800, 0x800]) .atomic 4 0x800 == some 0x800
      && (place s 0x800).isSome && (victims s (linesOf (normal s 0x800) 4) s.g.tid s.cl.cid s.cur none).isEmpty
      && !reservedBlocks s (linesOf (normal s 0x800) 4) s.g.core s.cur none && s.g.ll.isEmpty
      && after (.atomg at_) s (fun t => t.memRead 0x800 1 == [0xAF])) = true := by decide +kernel
/-- An image at 0x2000 of a revision 2 object at 0x3000, a malformed one at 0x2040; s5 is the index 8, s7 the version 0. -/
def kernels (ch : Bool) : State :=
  let s := (globals ch).modRegs (fun r => ((((r.sset 5 8).sset 6 0x2000).sset 8 0x2040).sset 9 1).sset 10 0x2004)
  ((s.memWrite 0x2000 (leBytes 8 0x3000 ++ leBytes 8 0x4000 ++ leBytes 8 0 ++ leBytes 8 0 ++ leBytes 4 7 ++ [9])).memWrite 0x3004
    ([2, 0, 1, 0x11] ++ leBytes 2 1 ++ leBytes 2 1))
def kreplPlaces (b : Nat) : List (Nat × Nat) := [(b, 64), (0x200, 64)]
def kreplStat (s : State) (b c : BitVec 10) : Nat :=
  let u := readAllTo (kreplPlaces (srcS s b)) (begun (.krepl (rw 0x214 0x205 b c 0)) s)
  let e := kitEntry (gBytes u (srcS s b) 64)
  let v := if e.selfBad then u else noteReads (touch u u.slotNo .read e.desc) (linesOf (normal u e.desc) 64)
  if (kitUnread v v.slotNo).isSome then 8 else match imageCheck u (gBytes u (srcS s b) 64) with
  | some none => 2
  | some (some e) => if (kitEntry (gBytes u 0x200 64)).version != srcS s c then 1
    else if wantWith v v.slotNo (srcS s 0x205) (e.rev == 2) (chunkSwaps v) != s.chunkedMode then 3 else 0
  | none => 9
theorem witness_TranslationQueries :
    let s := globals true
    let p := mw 4 0x201 9 2 2 0 0
    (ready (.probe p) s && memLanes s (.probe p) p == [0, 1] && (place s (eaGlobal s p 0)).isSome && (place s (eaGlobal s p 1)).isSome
      && ready (.migr p) s && eaGlobal s p 1 % 4 == 0 && (xlatePlace s (eaGlobal s p 0)).isSome && (xlatePlace s (eaGlobal s p 1)).isSome
      && migrStatus s (eaGlobal s p 0) == 0 && migrStatus (globals false) (0x20000) == 2) = true := by decide +kernel
theorem witness_TranslationQueries_krepl :
    let s := kernels true
    let i (b c : BitVec 10) : Instr := .krepl (rw 0x214 0x205 b c 0)
    let ks := kreplPlaces 0x2000
    let u := readAllTo ks (begun (i 0x206 0x200) s)
    (ready (i 0x206 0x200) s && s.exec (i 0x206 0x200) != 0 && (peerReply (begun (i 0x206 0x200) s)).isNone
      && access u u.slotNo .own 0x200 != .viol && srcS s 0x206 % 64 == 0 && kitAddr s s.slotNo (srcS s 0x205) == 0x200
      && ready (i 0x208 0x200) s && ready (i 0x206 0x209) s && ready (i 0x206 0x200) (kernels false)
      && kreplStat s 0x206 0x200 == 0 && kreplStat s 0x206 0x209 == 1 && kreplStat s 0x208 0x200 == 2 && kreplStat (kernels false) 0x206 0x200 == 3
      && s.chunkedMode && u.sp.chunk.all (fun _ => groupLines u.g + 2 ≤ 128)
      && (let e := kitEntry (gBytes u 0x2000 64); !redHits u (normal u e.desc) 64)) = true
      ∧ readsAll ks (begun (i 0x206 0x200) s) u
      ∧ after (i 0x206 0x200) s (fun t => sAt t 20 == 0 && (ownOps t).length == 1) = true
      ∧ after (i 0x206 0x209) s (fun t => sAt t 20 == 1) = true :=
  ⟨by decide +kernel, readsAll_of (by decide +kernel), by decide +kernel, by decide +kernel⟩

/-! ### Commands and effects -/

def cmdRegs : Regs := regs [(1, 0x800), (2, 0x804), (3, 64), (4, 4096), (5, 66), (6, 17), (7, 2 ^ 28 + 2 ^ 21 + 64), (8, 2 ^ 21 + 66), (9, 2 ^ 21 + 4096)] []
def cmds (ch : Bool) : State := stand ch cmdRegs
def commands (a ctr aux : BitVec 10) : List Instr :=
  let w := xw a 0x214 ctr aux 0
  [.nzscan w, .xcopy w, .xform w, .xgath w, .xscat w, .gnode { w with aux := 0x200 }, .grun { w with crd := 0x200, aux := 0x200 }, .xfill w, .xpeer w, .ebb w, .mzero w,
    .mscale { w with aux := 0x200 }, .mconv w, .attn w]
def multiplies (s : BitVec 10) : List Instr :=
  let w := qw 8 0x214 0x214 s 0x20
  [.mma w, .mloop w, .msparse { w with m := 0x24 }, .mchk { w with a := 0, b := 0, m := 0x22 }]
/-- A chunk or relaxed mode, a counter that fits, is misaligned, or lies outside, with and without a gate. -/
theorem witness_CommandIssue : [cmds true, cmds false].all (fun s =>
      (commands 0x201 0x203 0x206 ++ commands 0x202 0x200 0x200 ++ commands 0x201 0x204 0x206 ++ commands 0x201 0x205 0x206).all (fun i =>
        (commandForm i).isSome && ready i s && s.exec i != 0)
      && (multiplies 0x207 ++ multiplies 0x208 ++ multiplies 0x209).all (fun i => (multiplyForm i).isSome && ready i s && s.exec i != 0)
      && srcS s 0x201 % 64 == 0 && srcS s 0x202 % 64 == 4 && s.g.ll.isEmpty
      && portUsed (begun (.xcopy (xw 0x201 0x214 0x203 0x206 0)) s) 0 < 16 && heldUsed (begun (.xcopy (xw 0x201 0x214 0x203 0x206 0)) s) 0 < 16
      && bitAt (srcS s 0x206) 4 && bitAt (srcS s 0x207) 28 && bitAt (srcS s 0x207) 21) = true
    ∧ counterFits (cmds true) (some 64) ∧ localSize (cmds true) 3 = 4096 ∧ (66 : Nat) % 4 ≠ 0
    ∧ after (.xcopy (xw 0x201 0x214 0x203 0x206 0)) (cmds false) (fun t => t.cmds.any (fun c => c.cmd.gate == some 1 && c.cmd.ctr == some 64 && c.cmd.rcd == 0x800)) = true := by
  refine ⟨by decide +kernel, ?_, by decide +kernel, by decide, by decide +kernel⟩
  intro a h; cases h; decide +kernel
theorem witness_ControlEffects :
    let s := (cmds true).modTeam 1 (fun t => { t with vregs := 8 })
    let thin := (cmds true).modTeam 1 (fun t => { t with vregs := 7 })
    let w := xw 0x201 0x214 0x203 0x200 0
    let sp : Instr := .spawn w
    let far := s.modRegs (fun r => r.sset 1 0xC000000000000001)
    ([Instr.oprdy (rw 0 0 0 0 0), .mrel (rw 0 0 0 0 0), .evmapMap (xw 0x201 0x200 0x200 0x200 0xF0), .evmapPulse (xw 0x200 0x200 0x200 0x200 0x81),
        .evmapClear (xw 0x201 0x200 0x200 0x200 2), .xcancel (xw 0x200 0x200 0x203 0x200 0), .xcancel (xw 0x200 0x200 0x205 0x200 0),
        .xcancel (xw 0x200 0x200 0x204 0x200 0), sp, .spawn { w with ctr := 0x205 }, .spawn { w with rcd := 0x206 }, .launch w,
        .launch { w with rcd := 0x202 }, .launch { w with ctr := 0x204 }].all (fun i => ready i s && s.exec i != 0 && ready i (cmds false))
      && ready sp thin && s.g.ll.isEmpty && srcS s 0x206 % 8 != 0 && thin.t.vregs < 8 && 8 ≤ s.t.vregs
      && (binFor (begun sp s) s.g.core s.g.tid 0x800).isSome
      && (match rdGlobal (begun (.launch w) s) 0 0x800 64 with | .ok _ => true | _ => false)
      && queueUsed (begun (.launch w) s) + launchReserved (begun (.launch w) s) < 4096
      && (launchMiss (begun (.launch w) (cmds false)) 0x800 [0, 0, 0, 0]).isNone
      && ready (.launch w) far && srcS far 0x201 == 0xC000000000000001 && (place (begun (.launch w) far) 0xC000000000000001).isNone
      && (place (begun (.launch w) s) 0x801).isSome) = true := by decide +kernel
theorem witness_EffectsApplied :
    let s := cmds true
    let u : State := { s with bins := [{ core := 0, bin := 2, tid := 1, entry := 0x800 }] }
    s.group? 1 = some s.g ∧ s.g.split? 0 = some s.sp ∧ s.team? 1 = some s.t ∧ binAt s 0 2 = none ∧ (binAt u 0 2).isSome = true
      ∧ u.group? 1 = some u.g ∧ (15 : Nat) < 16
      ∧ s.cmds.all (fun c => !c.waits 1) = true := by decide +kernel

/-- A closed chunk with a store of two bytes to G, to device memory, or to two dies. -/
def closing (ops : List StoreOp) : State :=
  (inChunk (stand true {})).modChunk (fun c => { c with closed := true, ops := ops, writes := ops.flatMap (fun op => linesOf op.range.1 op.range.2) })
def toG : StoreOp := .bytes (localLoc 3 8) [0x34, 0x12]
def toDev : StoreOp := .bytes 0x800 [0x34, 0x12]
def commitable (s : State) (dies : Nat) (c : Chunk) : Bool :=
  chunkReady s s.g s.sp c && (commitMisses s s.g c).isEmpty && !commitViol s s.g c
    && (footprint (State.dieOf s.g.core) c.writes).length == dies && c.held.isEmpty && c.effs.isEmpty
    && (victims s c.writes s.g.tid (s.clusterOf s.g).cid s.cur s.sp.ticket).isEmpty && s.accums.isEmpty && (peerKeys c.writes).isEmpty
    && (s.team? s.g.tid).isSome && s.t.feq.isEmpty && (s.cluster? s.t.cid).isSome
    && s.parked.all (fun q => q.who != s.cur)
def twoDies (ph : Option Nat) : State :=
  let s := (closing [toDev, .bytes (2 ^ 54 + 0x800) [1]]).modChunk (fun c => { c with phase := ph })
  { s with tlb := s.tlb ++ page 1 }
theorem witness_ChunkCommit :
    [closing [toG], closing [toDev]].all (fun s => (chunkAt s 1 0).isSome && s.sp.chunk.any (fun c => c.phase.isNone && commitable s 1 c
        && (keyIn s s.round (footprint (State.dieOf s.g.core) c.writes)).isSome)) = true
      ∧ (chunkAt (twoDies none) 1 0).isSome = true ∧ (twoDies none).sp.chunk.any (fun c => c.phase.isNone && commitable (twoDies none) 2 c
        && (keyIn (twoDies none) (twoDies none).round (footprint 0 c.writes)).isSome) = true
      ∧ (chunkAt (twoDies (some 0)) 1 0).isSome = true
      ∧ (twoDies (some 0)).sp.chunk.any (fun c => commitable (twoDies (some 0)) 2 c && (phaseKey (twoDies (some 0)) (twoDies (some 0)).g c).isSome) = true
      ∧ after (.chunkCommit 1 0) (closing [toG]) (fun t => t.bufByte 1 3 9 == 0x12 && t.sp.chunk.isNone) = true
      ∧ after (.phaseTwo 1 0) (twoDies (some 0)) (fun t => t.memByte 0x801 == 0x12 && t.memByte (phys 1 0x800) == 1) = true := by decide +kernel
theorem witness_ChunkCommit_relaxed :
    let s := storing
    let u := (acc false).modSp (fun p => { p with pst := [toG] })
    let keys (op : StoreOp) := linesOf op.range.1 op.range.2
    ({ State.reset with clock := 64 } : State).round < ({ State.reset with clock := 64 } : State).clock / 64
      ∧ State.reset.due = [] ∧ State.reset.usersDue = [] ∧ State.reset.scanDue = []
      ∧ [(s, StoreOp.bytes 64 [0xD4, 0xC3]), (u, toG)].all (fun e => e.1.sp.pst[0]? == some e.2 && performOk e.1 1 0 0
        && (victims e.1 (keys e.2) e.1.g.tid (e.1.clusterOf e.1.g).cid (1, 0) none).isEmpty && e.1.accums.isEmpty && (peerKeys (keys e.2)).isEmpty
        && e.1.t.feq.isEmpty && (e.1.cluster? e.1.t.cid).isSome && (match e.2.at e.1 0 with | some (.miss _ _ _ _) => false | _ => true)) = true
      ∧ s.group? 1 = some s.g ∧ s.g.split? 0 = some s.sp ∧ s.team? 1 = some s.t := by decide +kernel
/-- Every split of the group waits at group barrier 2. -/
def atBarrier : State := (stand true {}).modSp (fun p => { p with bar := some ⟨0, 0, 5, false, false⟩, wait := some .barrier })
/-- The wire tree's tag 3 counts this core and has it, 96 cycles ago. -/
def wired : State := { stand true {} with clock := 200, wireCount := [(768, 1)], wireForce := [(768, 1)], wireGot := [(768, 1)], wireLast := [(3, 100)] }
/-- No handler is named. -/
def orphan (s : State) : State := s.modCtl (fun c => { c with trapVec := 0 })
theorem witness_SplitEvents :
    let s := emptyV2
    let p := (handled (stand true {})).modSp (fun p => { p with pend := some ⟨0x0E, 1, 0x1008, 0, false, false, false, {}⟩ })
    let q : State := { (stand true {}) with clock := 256 }
    (s.group? 1 == some s.g && s.g.ll.length == 1 && s.g.ll.all (fun l => l.load != 3)
      && p.group? 1 == some p.g && p.g.split? 0 == some p.sp && trapReady p 1 0 && p.sp.pend.any (fun t => !t.done) && handlerThere p
      && q.group? 1 == some q.g && !q.g.saved && candidate q q.g == some q.sp && !q.sp.promoted && q.sp.since + 256 ≤ q.clock
      && barDone atBarrier 0 1 0 && (barGroups atBarrier 0 1).any (fun g => g.takesPart 0 0 && g.splits.any (fun p => p.waitsAt 0 0))
      && trapReady (orphan p) 1 0 && (orphan p).ctl.trapVec == 0 && (orphan p).group? 1 == some (orphan p).g
      && after (.trapDelivery 1 0) (orphan p) (fun t => (t.group? 1).isNone && t.grids.any (fun g => g.status == 0x43))
      && wireDue wired 3 && wired.wireGot.get (256 * 3 + 193) == 0
      && wired.groups.all (fun g => g.splits.all (fun p => p.bar.all (fun b => !b.next)))
      && after (.longLatencyWriteback 1 0) s (fun t => t.g.ll.isEmpty && vAt t 2 == 7)
      && after (.trapDelivery 1 0) p (fun t => t.ctl.trapCause == 0x800000000000000E && t.ctl.pc == 0x1000)
      && after (.barrierRelease 0 1 0) atBarrier (fun t => t.sp.bar.isNone)) = true := by decide +kernel

/-! ### Translation -/

def parkedOn (block : Nat) (acc : Bool) : Parked :=
  { who := (1, 0), die := 0, slice := 0, asid := 0, host := false, block := block, type := 0, source := 0, accepted := acc }
def missOn : MissRec := { die := 0, asid := 0, host := false, base := 0x30000, size := 0x10000, page := 3, kind := 0, type := 0, parked := 1, source := 0 }
/-- Start-up has ended, context slot 0 is valid, and function 0 owns the package. -/
def owned (s : State) : State := ((s.setBar 0 0x91000001).setBar 0x1000 (2 ^ 16)).setBar 0x10 0
/-- Some waiting records, and a ring of a number of entries. -/
def missing (n size : Nat) : State := (owned { stand true {} with misses := List.replicate n missOn }).setBar (State.dieBlk 0 + 8) size
def moving : Migration := { die := 0, asid := 0, host := false, base := 0x30000, size := 0x10000, leafAt := 0x900, leaf := 0x8000000000000103, frame := some 0x40000 }
/-- A portable kernel at 0x3000 with 16 bytes for its translation at 0x5000, being translated. -/
def translating : State :=
  let s := owned { stand true {} with transls := [⟨0, 8, 0x3000, 7⟩, ⟨0, 8, 0x3000, 6⟩] }
  ((s.memWrite 0x200 (leBytes 8 0x3000 ++ leBytes 8 0x4000 ++ leBytes 8 0 ++ leBytes 8 0 ++ leBytes 4 7 ++ [3])).memWrite 0x3004
    ([0, 1, 1, 0x11] ++ leBytes 2 1 ++ leBytes 2 1)).memWrite 0x3014 (leBytes 8 0x5000 ++ leBytes 4 16)
theorem witness_Translation :
    let s : State := { owned (stand true {}) with parked := [parkedOn 0 false] }
    let w : State := { owned (stand true {}) with parked := [parkedOn 0 true] }
    let n : State := { owned (stand true {}) with notices := [(4, 3 * 2 ^ 62)] }
    let f : State := { stand true {} with accums := [⟨0x800, 4, homeSlice 0 0x800, [(0, 0x3F800000)]⟩] }
    (s.parked[0]? == some (parkedOn 0 false) && (Machine.queued s 0 0 true).length < 256 && (missing 1 128).misses[0]? == some missOn && missRoom (missing 1 128) 0
      && (waitingMisses (missing 1 128) 0).head? == some 0 && !missRoom (missing 65 0) 0 && (missing 65 0).misses[64]? == some missOn
      && ((waitingMisses (missing 65 0) 0).takeWhile (fun k => k != 64)).length == 64
      && walkOk w 0 && w.parked[0]? == some (parkedOn 0 true) && (parkedLeaf w (parkedOn 0 true)).any (fun e => e.1 == 0 && !e.2.copy)
      && !openLanes n 4 (noticeOf 4 (3 * 2 ^ 62))
      && owns (owned (stand true {})) 0 && (noticeNow (owned (stand true {})) 4).isNone && noticeNow n 4 == some (3 * 2 ^ 62)
      && (n.notices.erase (4, 3 * 2 ^ 62)).all (fun e => e.1 != 4) && (noticeOf 4 (3 * 2 ^ 62)).range.isNone && n.slotOf 0 == some 0
      && freeTailDie 0x10058 == some 0 && freeTailDie 0x14098 == some 4
      && f.accums[0]? == some ⟨0x800, 4, homeSlice 0 0x800, [(0, 0x3F800000)]⟩ && foldOk f 0
      && after (.missQueueRetry 0) s (fun t => t.parked == [parkedOn 0 true])
      && after (.missLogRecord 0) (missing 1 128) (fun t => t.ringTail 0x10000 == 1 && t.out.length == 1)
      && after (.tableWalkComplete 0) w (fun t => t.parked.isEmpty)
      && after (.redFold 0) f (fun t => t.accums.isEmpty && Cells.read t.mem 0x800 4 == leBytes 4 0x3F800000)) = true := by decide +kernel
theorem witness_Translation_migration :
    let s : State := { owned (stand true {}) with migrations := [moving] }
    let d := Cells.read s.hostMem 0 0x10000
    s.migrations[0]? = some moving ∧ moving.frame = some 0x40000 ∧ migrData s moving = some d ∧ d.length = storedSize moving
      ∧ s.accums = [] ∧ moving.leafAt + 8 ≤ phys moving.die 0x40000
      ∧ (copyChunks moving).all (fun ks => engineMay s moving.die 191 ks) = true := by
  refine ⟨by decide +kernel, rfl, ?_, ?_, by decide +kernel, by decide +kernel, by decide +kernel⟩
  · have h : migrSource moving = .inl 0 := by decide +kernel
    have hz : storedSize moving = 0x10000 := by decide +kernel
    simp only [migrData, h, hz]
  · have hz : storedSize moving = 0x10000 := by decide +kernel
    rw [hz]; exact Cells.read_length _ _ _
theorem witness_Translation_image :
    let s := translating
    let x : Transl := ⟨0, 8, 0x3000, 7⟩
    let image : List Byte := [1, 2, 3, 4]
    let u := putPart 0 { engineKey s 4 (partKeys s (entryPart s x 0x5000 0)) with transls := s.transls.eraseIdx 0 } (0x5000, image)
    let hits (s : State) (a : Nat) : Bool := match access s 0 .own a with | .hit false o i l => phys o (l.frame + i) == a | _ => false
    (s.transls[0]? == some x && s.transls[1]? == some ⟨0, 8, 0x3000, 6⟩
      && translSame s x && !translSame s ⟨0, 8, 0x3000, 6⟩
      && (match kitAt s 0 8 with
        | .ok e h => h.trans == 0x5000 && h.transLen == 16 && translFits s x e h 0x5000 0 image
            && (translMisses s x e.code (translParts s x h 0x5000 0 image)).isEmpty && mayPut s 0 (translParts s x h 0x5000 0 image)
        | _ => false)
      && kitAddr s 0 8 == 0x200 && s.accums.isEmpty && hits s 0x5000 && hits s 0x210 && hits u 0x210
      && (victims s (linesOf (normal s 0x5000) 4) 0 0 (0, 0) none).isEmpty
      && after (.translationComplete 0 0x5000 0 image) s (fun t => t.memRead 0x5000 4 == image && t.memRead 0x210 2 == [0, 0x50])) = true := by
  decide +kernel

/-! ### Links, grids and host events -/

/-- The peer may read page 0, whose leaf has PEER. -/
def peered (s : State) : State :=
  let s := owned s
  let p : Port := { up := true, far := 3 }
  { s with tlb := s.tlb.map (fun e => { e with leaf := e.leaf + 2 ^ 9 }), ports := s.ports.set 2 p,
           bar0 := s.bar0.set (0x30000 + 24) 4 }
def stampOf (n : Nat) : List (BitVec 32) := (List.replicate 64 0).set 3 (BitVec.ofNat 32 n)
def batchIn : Batch := { src := 3, asid := 0, stamp := stampOf 1, writes := [{ addr := 0x800, data := [7, 8] }], keys := [] }
def readIn : PeerServe := { src := 3, tag := 9, port := 2, addr := 0x800, len := 64, asid := 0, clock := List.replicate 64 0 }
def replied : PeerReq := { tag := 1, pkg := 3, port := 2, addr := 0x600000000000000, len := 64, asid := 0, gid := 1, sp := 0
                           reply := some (List.replicate 64 5, List.replicate 64 0) }
def flitOf (seq : BitVec 16) (ms : List Msg) (ok : Bool) : Flit := ⟨seq, 0, 0, ms, ok⟩
theorem witness_Links :
    let s : State := { peered (stand true {}) with inbox := [batchIn], peerServes := [readIn], peerReqs := [replied], clock := 9000 }
    let held : State := { s with ports := s.ports.set 2 { up := true, far := 3, heldFlits := [flitOf 0 [] true], heldAt := [3000] } }
    (s.inbox[0]? == some batchIn && batchOk s 0 && (batchMisses s batchIn).isEmpty && s.accums.isEmpty
      && (match peerAccess s 0 .write 0x800 with | some (.hit false _ _ _) => true | _ => false)
      && s.peerServes[0]? == some readIn && serveOk s 0 && (match peerAccess s 0 .read 0x800 with | some (.hit _ _ _ _) => true | _ => false)
      && readIn.need == 0 && (s.ports.getD 2 {}).heldFlits.length < 512 && s.outbox.isEmpty && s.peerReqs.all (fun q => q.port != 12)
      && !replied.stale && replied.need < 2 && !(s.ports.getD 11 {}).down
      && s.portTo 3 == some 2 && s.peerReqs[0]? == some replied && clockCovers s.vc (List.replicate 64 0) && s.group? 1 == some s.g
      && s.g.split? 0 == some s.sp && s.powered && s.ports.length == 12 && (s.ports.getD 2 {}).up && (s.ports.getD 2 {}).rxSeq == 0
      && !(s.ports.getD 11 {}).up && clockGe (s.vc.getD 3 0) ((stampOf 1).getD 3 0) == false
      && (held.ports.getD 2 {}).heldAt == [3000] && 3000 + 6000 ≤ held.clock
      && after (.batchApply 0) s (fun t => t.memByte 0x801 == 8 && t.vc.getD 3 0 == 1 && t.inbox.isEmpty)
      && after (.peerReadServe 0) s (fun t => t.peerServes.isEmpty && t.out.length == 1)
      && after (.peerReadDelivery 0) s (fun t => t.sp.peerData == [(0x600000000000000, List.replicate 64 5)])
      && after (.flitReceive 2 (flitOf 0 [] true)) s (fun t => (t.ports.getD 2 {}).rxSeq == 1)
      && after (.flitReceive 2 (flitOf 0 [] false)) s (fun t => t == s)
      && after (.flitReplay 2) held (fun t => (t.ports.getD 2 {}).replays == 1)
      && after (.linkPortUp 11 31 true) s (fun t => (t.ports.getD 11 {}).far == 31)) = true := by decide +kernel
def native : CodeHdr := { rev := 2, vregs := 8, sregs := 64, bufs := [1, 0, 0, 1] }
def boundTo (h : CodeHdr) : Binding := { desc := 0x3000, entry := 0x4000, portable := false, hdr := h }
/-- A kernel of revision 2 in entry 8 of context slot 0, and a record of it at the launch port. -/
def launchRec : List Byte := leBytes 2 8 ++ leBytes 1 3 ++ leBytes 1 0 ++ leBytes 2 0 ++ leBytes 2 0 ++ leBytes 4 2 ++ leBytes 4 1 ++ leBytes 4 1
  ++ leBytes 4 0 ++ leBytes 8 0x7000 ++ leBytes 8 11 ++ leBytes 24 0
def launching : State :=
  let s := owned (stand true {})
  let s : State := { s with port := [(0, launchRec)], grids := s.grids.map (fun g : Grid => { g with bound := some (boundTo native) }) }
  (s.memWrite 0x200 (leBytes 8 0x3000 ++ leBytes 8 0x4000 ++ leBytes 20 0 ++ [9])).memWrite 0x3004 ([2, 0, 1, 0x11] ++ leBytes 2 8 ++ leBytes 2 64)
/-- A grid of two clusters to place, and one that needs more SRAM than there is. -/
def queued (slices : Nat) : Grid := { grid := 7, slot := 0, serial := 0, kit := 8, prio := 3, gx := 2, slices := slices, argBlock := 0x7000
                                      args := [11, 0, 0, 0], bound := some (boundTo native) }
/-- A grid of level 7 that holds a slice of dies 1 to 3. -/
def holders : List Cluster := (List.range 3).map (fun k => { cid := 21 + k, grid := 9, linear := 0, origin := 48 * (k + 1), slices := 1 })
def holder : Grid := { grid := 9, slot := 0, serial := 0, kit := 0, prio := 7, next := 1 }
def placing : State :=
  let s := owned (stand true {})
  { s with clusters := s.clusters.map (fun c : Cluster => { c with slices := 0 }) ++ holders, grids := s.grids ++ [queued 256, holder] }
/-- A head that has had no place for 2^20 cycles: it needs every SRAM slice of a die. A lower cluster holds one on die 0, and
the save region has 4 MiB. -/
def blocked : State :=
  let s := owned (stand true {})
  { (s.setBar 0x1048 0x100000).setBar 0x1050 0x400000 with
    clusters := s.clusters ++ holders
    grids := s.grids.map (fun g : Grid => { g with next := 1 }) ++ [{ queued 256 with stuck := some 0 }, holder], clock := 2 ^ 20 }
def binned (n : Nat) (fl : Bool) : State :=
  { stand true {} with bins := [{ core := 0, bin := 2, tid := 1, entry := 0x4000, threads := List.replicate n ([7, 8, 9, 10], none), flush := fl }], clock := 5000 }
def emptied : State := { stand true {} with groups := [] }
theorem witness_Grids :
    let g := queued 256
    launchRec.length = 64 ∧ (recordOk launching && (heldNext launching).isNone && recSlot launching launchRec none == some 0
      && (readMiss launching).isNone && started (owned (stand true {}))
      && (match readRecord (touchKit { setMode launching 0 with port := [] } 0 (recField launchRec 0 2 % 4096)) launchRec (.host 0) none with
        | .queue x => x.gx == 2 | _ => false)
      && (owned (stand true {})).port.length < 256 && (0x40 : Nat) % 64 == 0 && (owned (stand true {})).host == 0
      && after .launchRecordRead launching (fun t => t.grids.length == 2 && t.port.isEmpty)
      && parkHeads (markHeads placing) == placing && served placing == some (.next g, .place 1) && g.bound == some (boundTo native)
      && placing.grid? 7 == some g
      && after .clusterPlacement placing (fun t => t.groups.any (fun x => x.core == 1 && x.regs.sget 1 == 0x7000 && x.regs.sget 2 == 2 && x.regs.sget 5 == 11))) = true := by
  decide +kernel
theorem witness_Grids_bins :
    (timerOk (binned 2 false) 0 2 && binOk (binned 2 true) 0 2 && binOk (binned 32 false) 0 2 && (binAt (binned 32 false) 0 2).isSome
      && (binned 2 true).team? 1 == some (stand true {}).t && (freeGroupSlots (binned 2 true) 0).head? == some 1 && freeIndex (binned 2 true) 1 == some 1
      && after (.binLaunch 0 2) (binned 2 true) (fun t => t.groups.any (fun g => g.spawned && g.regs.vget 2 1 == 8 && g.regs.vget 2 2 == 0))) = true := by
  decide +kernel
theorem witness_Grids_ends :
    let last : State := { stand true {} with grids := (stand true {}).grids.map (fun g : Grid => { g with next := 1, done := 1 }) }
    let two : State := { emptied with teams := emptied.teams ++ [{ tid := 30, cid := 1, core := 1, index := 1 }] }
    let ringed : State := ((owned last).setBar 0x108 16)
    (starveOk blocked 3 && (headOf blocked 3).isSome && (starvedHead blocked 3).isSome && releaseOk emptied 1 && releaseOk two 1
      && emptied.cluster? 1 == some (stand true {}).cl && last.gr.done == last.gr.gx * last.gr.gy * last.gr.gz && last.grid? 1 == some last.gr
      && ringed.ringWait.isEmpty && !ringed.ringFull 0x100
      && after (.gridCompletion 1) ringed (fun t => t.ringTail 0x100 == 1 && t.grids.isEmpty)
      && after (.teamAllotmentRelease 1) emptied (fun t => t.teams.isEmpty && t.clusters.isEmpty)
      && after (.preemptStarvation 3) blocked (fun t => t.clusters.any (fun c => c.toSave))) = true := by decide +kernel
/-- A fill of four words at 0x880 and the record of its shape, and a machine with it at a stage. -/
def fillRec : List Byte := leBytes 8 0 ++ leBytes 8 0x880 ++ [2, 1, 0, 0] ++ leBytes 4 4 ++ leBytes 16 0 ++ leBytes 4 4 ++ leBytes 20 0
def fill : Cmd := { kid := 5, opc := 0xA7, gid := 1, tid := 1, rcd := 0x840, args := [0xABCD, 0, 0, 0], ctr := some 64 }
def engine (c : SentCmd) : State := { (globals true).memWrite 0x840 fillRec with cmds := [c], clock := 64 }
def running (p : Nat) : SentCmd := { cmd := fill, stage := .running p, checked := true, recb := fillRec }
def mayOf (s : State) (c : SentCmd) (ws : List (Nat × List Byte)) (incr : Option Nat := none) : Bool :=
  chunkMay s c ws (addKeys (ws.foldl (fun ks w => addKeys ks (engineLines s w.1 w.2.length)) [])
    (match incr with | some a => engineLines s a 8 | none => []))
def okAnd {α β : Type} (r : Except α β) (p : β → Bool) : Bool := match r with | .ok x => p x | .error _ => false
def errs {β : Type} (r : EM β) (e : Nat) : Bool := match r with | .error (.err x) => x == e | _ => false
theorem witness_CommandEvents_queue :
    let q : SentCmd := { cmd := fill }
    let h : SentCmd := { cmd := { fill with gate := some 15 }, stage := .held }
    let s := engine q
    let r : SentCmd := { h with credited := true, checked := true, recb := fillRec }
    let held := engine r
    let gated := (engine { h with stage := .port }).modTeam 1 (fun t => { t with gates := [(15, 2)] })
    let bad : SentCmd := { cmd := { fill with rcd := 0x900 } }
    let u : State := { s with cmds := [{ q with stage := .queued, unit := pickEngine s 0 }] }
    (s.cmds.find? (fun x => x.cmd.node.isNone) == some q && unitRoom s q && okAnd (checkWalks 64 u { q with stage := .queued, unit := pickEngine s 0 }).2 (fun b => b == fillRec)
      && errs (checkWalks 64 (engine bad) { bad with stage := .queued }).2 0x22
      && held.cmds.find? (fun c => c.cmd.tid == 1 && c.stage == .held && c.credited && c.cmd.gate == some 15 && unitRoom held c) == some r
      && held.group? r.cmd.gid == some held.g && okAnd (checkWalks 64 (modCmd gated 5 (fun _ => h)) h).2 (fun b => b == fillRec)
      && gated.t.gates.get 15 == 2 && gated.cmds.all (fun y => !y.waits 1) && gated.team? 1 == some gated.t
      && after (.commandAcceptance 0) s (fun t => t.cmds.any (fun c => c.stage == .queued && c.checked))
      && after (.commandAcceptance 0) gated (fun t => t.cmds.any (fun c => c.stage == .held && c.credited) && t.t.gates.get 15 == 1)
      && after (.gateRelease 1 15) held (fun t => t.cmds.any (fun c => c.stage == .queued))) = true := by decide +kernel
theorem witness_CommandEvents_chunks :
    let s := engine (running 0)
    let d := engine (running 1)
    (cmd? s 5 == some (running 0) && !cmdParked s 5 && isAsyncCmd fill.opc && !listDue (running 0) && pieceCount fill (shapeOf fillRec) == 1
      && okAnd (xferPiece s (running 0) 0) (fun x => mayOf s (running 0) x.runs x.incr)
      && chunksDone d (running 1) 1 && batchesApplied d (running 1) && counterFree d (running 1) && d.team? 1 == some d.t
      && after (.engineChunkCommit 5) s (fun t => t.memRead 0x880 4 == leBytes 4 0xABCD && t.cmds.any (fun c => c.stage == .running 1))
      && after (.commandFinish 5) d (fun t => t.cmds.isEmpty && t.bufByte 1 3 64 == 1)) = true := by decide +kernel
/-- Memory from runs of bytes in increasing order. -/
def memOf (l : List (Nat × List Byte)) : Cells 8 :=
  l.flatMap (fun e => (e.2.zipIdx.filter (fun x => x.1 != 0)).map (fun x => (e.1 + x.2, x.1)))
def entryBytes : List Byte :=
  leBytes 8 0xC00 ++ leBytes 8 0xB00 ++ leBytes 4 1 ++ leBytes 4 2 ++ leBytes 12 0 ++ [9] ++ leBytes 27 0
/-- A sequence of one page at 0x1800 with two live slots, and a pool of one free page at 0x8000. -/
def pooled (c : SentCmd) : State :=
  { stand true {} with
    mem := memOf [(0xA00, entryBytes), (0xB00, [1, 0, 0, 0, 0, 0, 0, 0, 0, 0x80]), (0xC00, [0, 0x18]), (0x1A00, [5])]
    bar0 := State.bar0Reset.set (0x1000 + 0x40) 64, cmds := [c], clock := 64 }
def compactCmd : Cmd := { kid := 5, opc := 0xAA, code := 2, gid := 1, tid := 1, rcd := 0xA00, args := [0, 0xD00, 0, 0], ctr := some 64 }
def compacting (st : Stage) : SentCmd :=
  { cmd := compactCmd, stage := st, checked := true, recb := if st = .queued then [] else entryBytes, kept := if st = .queued then [] else [(0x1800, 0)]
    taken := if st = .queued then [] else [0x8000], snap := if st = .queued then [] else [⟨0x1800, 5, [], []⟩] }
def attend (st : Stage) : SentCmd :=
  { cmd := { compactCmd with opc := 0xB8, code := 0, rcd := 0, args := [0xA00, 0, 0, 0] }, stage := st, checked := true
    recb := leBytes 64 0 ++ (if st = .running 0 then [] else entryBytes), snap := if st = .running 0 then [] else [⟨0x1800, 5, [], []⟩] }
def clearing : SentCmd := { cmd := { compactCmd with opc := 0xB2, code := 0, rcd := 0, args := [0, 0, 0, 0] }, stage := .queued, checked := true }
def noded (st : Stage) : SentCmd := { cmd := { fill with node := some (0x800, 7) }, stage := st, checked := true, recb := fillRec }
theorem witness_CommandEvents_ebb :
    let c := compacting .queued
    let k := compacting (.running 0)
    let w := compacting (.running 1)
    let stalled : SentCmd := { c with stage := .running 0 }
    let b := modCmd (pooled c) 5 (fun c => { c with stage := .running 0 })
    (claiming stalled && !claiming k && !claiming w && okAnd (claimOf b c) (fun x => mayOf b c x.ws)
      && okAnd (claimOf (modCmd (pooled stalled) 5 (fun c => { c with stage := .running 0 })) stalled) (fun x => mayOf (pooled stalled) stalled x.ws) && cmd? (pooled c) 5 == some c && !cmdParked (pooled c) 5 && ebbMay (pooled c) c && after (.ebbClaim 5) (pooled c) (fun t => t.cmds.any (fun x => !x.recb.isEmpty))
      && cmd? (pooled k) 5 == some k && 4096 * 0 < (copyStream k).length && okAnd (copyPiece (pooled k) k 0) (fun ws => mayOf (pooled k) k ws)
      && cmd? (pooled w) 5 == some w && (copyStream w).length ≤ 4096 * 1 && okAnd (swapOf (pooled w) w) (fun ws => mayOf (pooled w) w ws)) = true := by decide +kernel
theorem witness_CommandEvents_attn :
    let a := attend (.running 0)
    let r := attend (.releasing 0)
    (cmd? (pooled a) 5 == some a && okAnd (snapshot (pooled a) a) (fun x => mayOf (pooled a) a (raiseReaders x.2))
      && cmd? (pooled r) 5 == some r && r.snap[0]? == some ⟨0x1800, 5, [], []⟩
      && okAnd (releasePage (pooled r) r ⟨0x1800, 5, [], []⟩) (fun x => mayOf (pooled r) r x.1)) = true := by decide +kernel
theorem witness_CommandEvents_others :
    let n (st : Stage) : Option (Nat × Nat) := (noded st).cmd.node
    let l := (stand true {}).modG (fun g => { g with mrel := [3, 9] })
    (cmd? (pooled clearing) 5 == some clearing && mxStartOk (pooled clearing) 5 && n .done == some (0x800, 7)
      && cmd? (pooled (noded .done)) 5 == some (noded .done) && cmd? (pooled (noded (.releasing 6))) 5 == some (noded (.releasing 6)) && latchOk l 1
      && after (.matrixCommandStart 5) (pooled clearing) (fun t => t.cmds.any (fun c => c.stage == .running 0))
      && after (.graphNodeFinish 5) (pooled (noded (.releasing 6))) (fun t => t.cmds.isEmpty)) = true := by decide +kernel

/-- The cluster of the first group, chosen to be saved at 0x100000, or saved. -/
def chosen (saved : Bool) : State :=
  let s := (owned (stand true {})).setBar 0x1048 0x100000
  let s := s.setBar 0x1050 0x400000
  { s with
    clusters := s.clusters.map (fun c : Cluster => { c with toSave := !saved, saved := saved, saveAt := 0x100000, saveLen := 0x40000 })
    grids := s.grids.map (fun g : Grid => { g with next := 1 })
    groups := s.groups.map (fun g : Group => { g with saved := saved, core := if saved then noCore else g.core })
    teams := s.teams.map (fun t : Team => { t with core := if saved then noCore else t.core }) }
def resident : State := { chosen false with clusters := (chosen false).clusters.map (fun c : Cluster => { c with toSave := false }) }
def resumesAt (r : Option (Head × HeadAct)) (cid o : Nat) : Bool :=
  match r with
  | some (.saved c _, .place x) => c.cid == cid && !c.corrupt && x == o
  | _ => false
def namesOne (k : Nat) : Bool :=
  let cs := namedClusters resident (BitVec.ofNat 64 k)
  cs.length == 1 && (chooseAll true cs resident).isSome && (chooseAll true cs (resident.setBar 0x1050 0)).isNone
theorem witness_Preemption_save :
    (saveOk (chosen false) 1 && (regionPlace (chosen false) (gridOfCluster (chosen false) (chosen false).cl).slot 1 (recordLen (chosen false) (chosen false).cl)).isSome && (chosen false).cluster? 1 == some (chosen false).cl
      && (chosen false).groups.all (fun g => g.splits.all (fun p => p.chunk.isNone))) = true := by decide +kernel
def returningC : State :=
  { chosen true with clusters := (chosen true).clusters.map (fun c : Cluster => { c with slices := 256 }) ++ holders, grids := (chosen true).grids ++ [holder] }
theorem witness_Preemption_resume : resumesAt (served returningC) 1 0 = true := by decide +kernel
theorem witness_Preemption_request :
    let b (n : Nat) : Word := BitVec.ofNat 64 n
    (owns resident 0 && (namedClusters resident (b (7 * 2 ^ 32 + 2))).isEmpty && (namedClusters resident (b 5)).isEmpty
      && (namedClusters resident (b (9 * 2 ^ 32 + 3))).isEmpty && [1, 2, 3].all namesOne && resident.d3hot == false
      && after (.preemptContext 0 1) resident (fun t => t.clusters.any (fun c => c.toSave && c.named) && t.bar 0x48 == 1)
      && after (.preemptContext 0 5) resident (fun t => t.bar 0x48 == 4)) = true := by decide +kernel
theorem witness_HostEvents :
    let s : State := { owned (stand true {}) with hdm := [{ fn := 0, idx := 1, base := 0x100000, size := 0x10000, owner := 0, off := 0 }] }
    let free := (owned (stand true {})).setBar 0x10 0xF
    (cxlOk s 0 0x100800 64 none true && cxlOk s 0 0x100800 4 (some [1, 2, 3, 4]) false && s.accums.isEmpty
      && hdmAt s 0 0x100800 64 == some (0, 0x800) && (keyIn s s.round (footprint 4 [])).isSome
      && after (.hostCxlMemRequest 0 0x100800 4 (some [1, 2, 3, 4]) false) s (fun t => t.memRead 0x800 4 == [1, 2, 3, 4]) && s.powered && owns s 0 && owns s 1 == false
      && headOk (s.setBar 0x108 16) 0 0x110 0 && s.ringWait.isEmpty && claimOk free 2 (BitVec.ofNat 64 2)
      && (regField s 0x28 2000).isSome && (regField s 0x300F8 1).isSome && (regField s 0x14FF9 0).isNone
      && !s.ctxValid 5 && bitAt 0x10007 16 && (s.slotOf 7).isNone && (s.slotOf 0).isSome
      && started s && !bitAt ((stand true {}).bar 0) 0 && s.throttle == 0 && junction s ≤ 100
      && (let hot := (setJunction { s with throttle := 1 } 110); 110 ≤ junction hot && after .thermalShutdown hot (fun t => !t.powered))
      && after (.throttleLevelChange 0) { s with throttle := 1, clock := 3000000 } (fun t => t.throttle == 0)
      && after (.ownclaim 2 2) free (fun t => t.host == 2 && t.epoch == 1)
      && after (.functionLevelReset 0) s (fun t => t.host == 0xF && t.epoch == 1)
      && after .startupReady (stand true {}) (fun t => t.bar 0 == 0x91000001)
      && after (.throttleLevelChange 1) s (fun t => t.bar 0x40 == 256)) = true := by decide +kernel

end Sys2Proof.Tests
end

section
/-! SUPPORT. Every instruction that has a word goes through the gate of `core`, and what the gate answers for a split that
waits for nothing; the fields of a destination that legality looks at. -/

namespace Sys2Proof.Machine

open Sys2Proof

/-! ### Instructions that have words -/

/-- The steps that are no words are named; every other one is a core instruction. -/
theorem exec_core_of_encode {i : Instr} (h : encode i ≠ []) : ∃ body, ∀ s, exec i s = core i body s := by
  cases i
  case safePointMarker | portableInstruction | srseedWrite | flagsRegisterWrite | faultinjArm | faultinjDisarm
      | trappcWrite | trapcauseWrite | clauseHeaderFetch | candidatePromotion | chunkCommit | commitRoundClose | phaseTwo
      | longLatencyWriteback | missQueueRetry | missLogRecord | tableWalkComplete | notice | noticeComplete
      | migrationComplete | freeFrameTail | redFold | batchApply | peerReadServe | peerReadDelivery | xblockGrant
      | binTimerExpiry | binLaunch | clusterPlacement | levelHeadStarvation | preemptStarvation | teamAllotmentRelease
      | gridCompletion | barrierRelease | barwInstanceRelease | commandAcceptance | gateRelease | engineChunkCommit
      | commandFinish | matrixCommandStart | operandLatchRelease | attnSnapshot | attnRelease | ebbClaim | ebbCopy
      | ebbSwap | graphNodeFinish | trapDelivery | clusterSave | clusterResume | translationComplete | hostCxlMemRequest
      | hostAtomicopRequest | launchPortWrite | launchRecordRead | ringHeadWrite | ownclaim | heartbeat | warmReset
      | contextSlotRemove | coldReset | startupReady | functionLevelReset | preemptContext | preemptGrid | preemptCore
      | contextSlotCtl | managementRegisterWrite | throttleLevelChange | thermalShutdown | machineError
      | correctedSoftError | d3hotEntry | d0Entry | flitReceive | flitReplay | linkPortDown | unassignedOpcode
      | storePerformed | linkPortUp | configurationRequest => exact absurd rfl h
  all_goals exact ⟨_, fun _ => by rw [exec]; exact rfl⟩

/-- A trap of the gate is raised with the active mask and no effect. -/
theorem core_gate_trap {i : Instr} {s : State} {c : Nat} (body : State → Act) (hc : s.hasCur = true)
    (hg : gate i s = .trap c) : core i body s = .next (raiseTrap s c s.ctl.mask false {}) := by
  rw [core, if_pos hc, hg]

/-- What the gate answers for an instruction that has a word is what the machine does with it. -/
theorem exec_gate_trap {i : Instr} {s : State} {c : Nat} (he : encode i ≠ []) (hc : s.hasCur = true)
    (hg : gate i s = .trap c) : exec i s = .next (raiseTrap s c s.ctl.mask false {}) := by
  obtain ⟨body, hb⟩ := exec_core_of_encode he
  rw [hb, core_gate_trap body hc hg]

/-! ### The gate of a split that waits for nothing (R51) -/

/-- The conditions of `State.idle`, each as the gate asks it. -/
theorem State.idle_iff (s : State) : s.idle = true ↔
    s.sp.pend.isSome = false ∧ (!s.sp.plan.isEmpty || s.sp.feDone != 0) = false ∧ s.sp.born.isSome = false
      ∧ s.sp.bar.isSome = false ∧ s.sp.chunkClosed = false ∧ s.parked.any (fun q => q.who == s.cur) = false := by
  simp [State.idle, and_assoc]

theorem lawful_iff (i : Instr) (s : State) : lawful i s = true ↔
    legal i = true ∧ classOk (hdrClass s.sp.ctl.hdr) (opcodeOf i) (lastWord s.sp) = true
      ∧ privBad i (s.gridOf s.g) = false := by
  simp [lawful, and_assoc]

/-- Condition 6 of R51: a register that the group does not have. -/
theorem gate_missing_register {i : Instr} {s : State} {r : Reg} (hi : s.idle = true) (hl : lawful i s = true)
    (hr : r ∈ (usesIn i s.g.regs).regs) (hm : s.hasReg s.g r = false) : gate i s = .trap 0x10 := by
  obtain ⟨hpend, hplan, hborn, hbar, hclosed, hparked⟩ := s.idle_iff.mp hi
  obtain ⟨hlegal, hclass, hpriv⟩ := (lawful_iff i s).mp hl
  have hmiss : (usesIn i s.g.regs).regs.any (fun r => !s.hasReg s.g r) = true :=
    List.any_eq_true.mpr ⟨r, hr, by simp [hm]⟩
  simp only [gate, hpend, hplan, hborn, hbar, hclosed, hparked, hlegal, hclass, hpriv, hmiss, Bool.not_true,
    Bool.false_eq_true, if_false, if_true]

/-- An extended register is had where its slot is held or has a posted request (R152, R158). -/
theorem hasReg_extended (s : State) (g : Group) {n : Nat} (h : 64 ≤ n) :
    s.hasReg g (.v n) = (g.ext.contains (extSlot n) || s.postedSlot g (extSlot n)) := by
  simp only [State.hasReg, if_neg (Nat.not_lt.mpr h)]

/-! ### s0 and p0 (R35) -/

@[simp] theorem Regs.sget_zero (r : Regs) : r.sget 0 = 0 := if_pos rfl
@[simp] theorem Regs.sset_zero (r : Regs) (x : Word) : r.sset 0 x = r := if_pos rfl
@[simp] theorem Regs.pget_zero (r : Regs) : r.pget 0 = BitVec.allOnes 32 := if_pos rfl
@[simp] theorem Regs.pset_zero (r : Regs) (m b : Mask) : r.pset 0 m b = r := if_pos rfl

/-! ### Fields of a destination -/

/-- Bit 9 of a scalar's field is 1 whatever its number (R34). -/
theorem isS_scalar (n : BitVec 9) : isS (0x200 ||| n.setWidth 10) = true := by
  simp [isS]

/-- Every predicate's field is well formed (R34). -/
theorem pOk_predicate (n : BitVec 4) : pOk (n.setWidth 10) = true := by
  have := n.isLt
  simp only [pOk, BitVec.toNat_setWidth, decide_eq_true_eq]
  omega

theorem regOk_of_isS {f : BitVec 10} (h : isS f = true) (n : Nat) : regOk f n = true := by
  simp [regOk, h]

theorem noMix_of_isS {d : BitVec 10} (h : isS d = true) (srcs : List (BitVec 10)) : noMix d srcs = srcs.all isS := by
  have hv : isV d = false := by simpa [isS, isV] using h
  rw [noMix, hv, Bool.false_or]

/-- Of a scalar destination, legality sees only that it is scalar. -/
theorem legal_mov_scalar (w : IWord) {d e : BitVec 10} (hd : isS d = true) (he : isS e = true) :
    legal (.mov { w with d := d }) = legal (.mov { w with d := e }) := by
  simp only [legal, uses, guardOf, feOk, regOk_of_isS hd, regOk_of_isS he, noMix_of_isS hd, noMix_of_isS he, hd, he]
  cases w.m4.getLsbD 0 <;> rfl

/-- Of a predicate destination, legality sees only that it is a predicate. -/
theorem legal_icmp_predicate (w : RWord) {d e : BitVec 10} (hd : pOk d = true) (he : pOk e = true) :
    legal (.icmp { w with d := d }) = legal (.icmp { w with d := e }) := by
  simp [legal, uses, guardOf, hd, he]

end Sys2Proof.Machine
end

section
/-! SUPPORT. The statements about the encoding and the registers, settled. -/

open Sys2Proof Sys2Proof.Machine

/-- Settles O9: the reads and writes of s0 and p0 by the registers' own equations, legality by what it sees of a
destination, and XREG by the gate, which a slot neither held nor posted stops at condition 6 of R51. -/
theorem fixedRegisters : Obligations.FixedRegisters := by
  unfold Obligations.FixedRegisters
  refine ⟨fun r x m b => ⟨r.sget_zero, r.sset_zero x, r.pget_zero, r.pset_zero m b⟩,
    fun w n => legal_mov_scalar w rfl (isS_scalar n), fun w n => legal_icmp_predicate w rfl (pOk_predicate n), ?_⟩
  intro i s n henc hcur hidle hlaw hreg hn hext hposted
  have hmissing : s.hasReg s.g (.v n) = false := by rw [hasReg_extended s s.g hn, hext, hposted]; rfl
  exact exec_gate_trap henc hcur (gate_missing_register hidle hlaw hreg hmissing)

end

section
/-! SUPPORT. Instructions whose effect is register writes that do not depend on FPMODE, with no flag but SAT: they
complete, trap nothing, and give the same registers whatever FPMODE holds (R188). -/

namespace Sys2Proof.Machine

open Sys2Proof

/-! ### The inputs of an integer instruction -/

/-- Two states that agree in the registers, and in the control state of the current split, from which an integer
instruction takes its operands and its lanes. FPMODE is not among them. -/
structure SameInputs (s t : State) : Prop where
  vectors : t.regs.v = s.regs.v
  scalars : t.regs.s = s.regs.s
  preds : t.regs.p = s.regs.p
  ctl : t.ctl = s.ctl

namespace SameInputs

variable {s t : State} (h : SameInputs s t)
include h

theorem src (f : BitVec 10) (n l : Nat) : t.regs.src f n l = s.regs.src f n l := by
  simp only [Regs.src, Regs.sget, Regs.vget, h.vectors, h.scalars]

theorem srcT (f : BitVec 10) (tc l : Nat) : srcT t f tc l = srcT s f tc l := by
  rw [Machine.srcT, Machine.srcT, h.src]

theorem src32 (f : BitVec 10) (l : Nat) : src32 t f l = src32 s f l := by
  rw [Machine.src32, Machine.src32, h.src]

theorem pget (n : Nat) : t.regs.pget n = s.regs.pget n := by
  simp only [Regs.pget, h.preds]

theorem srcP (f : BitVec 10) (l : Nat) : srcP t f l = srcP s f l := by
  rw [Machine.srcP, Machine.srcP, h.pget]

theorem exec (i : Instr) : t.exec i = s.exec i := by
  simp only [State.exec, h.pget, h.ctl]

theorem actLanes (i : Instr) (d : BitVec 10) : actLanes t i d = actLanes s i d := by
  rw [Machine.actLanes, Machine.actLanes, h.exec]

end SameInputs

/-- The chunk that begins with an instruction is none of its inputs. -/
theorem SameInputs.begun (i : Instr) {s : State} (hc : s.hasCur = true) : SameInputs s (begun i s) where
  vectors := by rw [begun_regs]
  scalars := by rw [begun_regs]
  preds := by rw [begun_regs]
  ctl := (SplitKept.begun i s hc).ctl

/-! ### FPMODE -/

/-- The registers with another FPMODE. -/
def Regs.withMode (v : Word) (r : Regs) : Regs := { r with fpmode := v }

/-- The state with another FPMODE in the current group. -/
def State.withMode (s : State) (v : Word) : State := s.modRegs (Regs.withMode v)

theorem withMode_g {s : State} (v : Word) (hc : s.hasCur = true) :
    (s.withMode v).g = { s.g with regs := s.g.regs.withMode v } := modRegs_g s _ hc

theorem withMode_regs {s : State} (v : Word) (hc : s.hasCur = true) : (s.withMode v).regs = s.regs.withMode v :=
  s.modRegs_regs _ hc

theorem withMode_sp {s : State} (v : Word) (hc : s.hasCur = true) : (s.withMode v).sp = s.sp := s.modRegs_sp _ hc

/-- FPMODE is no input of an integer instruction. -/
theorem SameInputs.withMode {s : State} (v : Word) (hc : s.hasCur = true) : SameInputs s (s.withMode v) where
  vectors := by rw [withMode_regs v hc]; rfl
  scalars := by rw [withMode_regs v hc]; rfl
  preds := by rw [withMode_regs v hc]; rfl
  ctl := congrArg Split.ctl (withMode_sp v hc)

/-- The chunks in progress, and so the signature pairs that are free, are those of the state with another FPMODE. -/
theorem pairFree_withMode {s : State} (v : Word) (hc : s.hasCur = true) : pairFree (s.withMode v) = pairFree s := by
  have hgroups : (s.withMode v).groups
      = s.groups.map (fun g => if g.gid == s.cur.1 then { g with regs := g.regs.withMode v } else g) := rfl
  simp only [pairFree, withMode_g v hc, hgroups, List.filter_map, Function.comp_def, List.foldl_map,
    apply_ite Group.core, apply_ite Group.splits, ite_self]

/-- Whether an instruction is ready does not depend on FPMODE. -/
theorem ready_withMode (i : Instr) (s : State) (v : Word) (hc : s.hasCur = true) :
    ready i (s.withMode v) = ready i s := by
  have hcur : (s.withMode v).hasCur = s.hasCur := s.modRegs_hasCur _
  have hidle : (s.withMode v).idle = s.idle := by rw [State.idle, withMode_sp v hc]; rfl
  have hlawful : lawful i (s.withMode v) = lawful i s := by rw [lawful, withMode_sp v hc, withMode_g v hc]; rfl
  have hops : operandsReady i (s.withMode v) = operandsReady i s := by
    simp only [operandsReady, State.chunkedMode, State.heldByOther, withMode_g v hc]
    rfl
  have hact : mayAct i (s.withMode v) = mayAct i s := by
    have hword : Machine.idle i (s.withMode v) = Machine.idle i s := by
      simp only [Machine.idle, (SameInputs.withMode v hc).exec]
    simp only [mayAct, State.chunkedMode, withMode_sp v hc, withMode_g v hc, pairFree_withMode v hc, hword]
    rfl
  rw [ready, hcur, hidle, hlawful, hops, hact, ready]

theorem foldl_sset_withMode (l : List (Nat × Word)) (v : Word) (r : Regs) :
    l.foldl (fun (r : Regs) e => r.sset e.1 e.2) (r.withMode v)
      = (l.foldl (fun (r : Regs) e => r.sset e.1 e.2) r).withMode v :=
  List.foldl_hom (Regs.withMode v) (fun r e => by simp only [Regs.sset]; split <;> rfl)

theorem foldl_pset_withMode (l : List (Nat × Mask × Mask)) (v : Word) (r : Regs) :
    l.foldl (fun (r : Regs) e => r.pset e.1 e.2.1 e.2.2) (r.withMode v)
      = (l.foldl (fun (r : Regs) e => r.pset e.1 e.2.1 e.2.2) r).withMode v :=
  List.foldl_hom (Regs.withMode v) (fun r e => by simp only [Regs.pset]; split <;> rfl)

/-- Register writes leave FPMODE, and do not look at it. -/
theorem Regs.apply_withMode (r : Regs) (w : Wr) (v : Word) : (r.withMode v).apply w = (r.apply w).withMode v := by
  have hvectors (c : Cells 32) (ns : List Nat) :
      ({ r.withMode v with v := c } : Regs).touch ns = (({ r with v := c } : Regs).touch ns).withMode v := rfl
  simp only [Regs.apply, hvectors, foldl_sset_withMode, foldl_pset_withMode]
  rfl

/-! ### Instructions that only write registers -/

/-- The effect of an instruction is the writes `w`, a function of its inputs alone, with no flag but SAT, and that one
only of a form that clamps. -/
structure Writes (i : Instr) (w : State → Wr) : Prop where
  effect : ∃ body, (∀ s, exec i s = core i body s) ∧ ∀ s, body s = .done (applyWr s (w s))
  inputs : ∀ s t, SameInputs s t → w t = w s
  flags : ∀ s, (w s).flags = 0 ∨ ((w s).flags = fSAT ∧ saturates i = true)

namespace Writes

variable {i : Instr} {w : State → Wr} {s : State}

/-- A ready instruction that only writes registers completes with its writes and its flags. -/
theorem completes (h : Writes i w) (hr : ready i s = true) :
    ∃ t, exec i s = .next t ∧ t.regs = s.regs.apply (w s) ∧ raised s t (w s).flags ∧ nextWord s t := by
  obtain ⟨body, he, hb⟩ := h.effect
  have hbegun : body (begun i s) = .done (applyWr (begun i s) (w s)) := by
    rw [hb, h.inputs s _ (.begun i (ready_cur hr))]
  obtain ⟨t, ht, hregs, hfl, ⟨_, _, _, _, _, _, _, _, hnext⟩, _⟩ := wrote_frame i body s (w s) hr hbegun
  exact ⟨t, (he s).trans ht, hregs, hfl, hnext⟩

/-- R188: no trap, no flag but SAT, and the same registers whatever FPMODE holds. -/
theorem completes_whatever_mode (h : Writes i w) (hr : ready i s = true) (v : Word) :
    ∃ t u, exec i s = .next t ∧ exec i (s.withMode v) = .next u ∧ { u.regs with fpmode := t.regs.fpmode } = t.regs
      ∧ nextWord s t ∧ (raised s t 0 ∨ (raised s t fSAT ∧ saturates i = true)) := by
  have hc := ready_cur hr
  obtain ⟨t, ht, htr, hfl, hnext⟩ := h.completes hr
  obtain ⟨u, hu, hur, _⟩ := h.completes ((ready_withMode i s v hc).trans hr)
  refine ⟨t, u, ht, hu, ?_, hnext, ?_⟩
  · rw [hur, h.inputs s _ (.withMode v hc), withMode_regs v hc, Regs.apply_withMode, htr]
    rfl
  · rcases h.flags s with h0 | ⟨hsat, hi⟩
    · exact .inl (h0 ▸ hfl)
    · exact .inr ⟨hsat ▸ hfl, hi⟩

end Writes

/-! ### Flags without traps -/

/-- SAT has no trap (R73). -/
theorem trapFlags_sat (s : State) : fSAT &&& trapFlags s = 0 := by
  have h : ∀ nv dz ov : Bool, fSAT &&& (flagIf nv fNV ||| flagIf dz fDZ ||| flagIf ov fOF) = 0 := by decide
  exact h _ _ _

/-- An instruction none of whose lanes raises a flag but SAT does not trap. -/
theorem finishFlags_done (s : State) (w : Wr) (once : Bool) (m : Mask) (h : ∀ e ∈ w.fl, e.2 = 0 ∨ e.2 = fSAT) :
    finishFlags s w once m = .done (applyWr s w) := by
  have hnone : w.fl.filter (fun e => e.2 &&& trapFlags s != 0) = [] := by
    rw [List.filter_eq_nil_iff]
    intro e he
    rcases h e he with h0 | hsat
    · simp [h0]
    · simp [hsat, trapFlags_sat]
  simp only [finishFlags, hnone, List.isEmpty_nil, if_true]

/-- The flags of lanes that raise SAT at most. -/
theorem foldl_flags_sat (fl : List (Nat × Flags7)) (a : Flags7) (ha : a = 0 ∨ a = fSAT)
    (h : ∀ e ∈ fl, e.2 = 0 ∨ e.2 = fSAT) :
    fl.foldl (fun a e => a ||| e.2) a = 0 ∨ fl.foldl (fun a e => a ||| e.2) a = fSAT := by
  induction fl generalizing a with
  | nil => exact ha
  | cons e r ih =>
    refine ih (a ||| e.2) ?_ (fun x hx => h x (List.mem_cons_of_mem _ hx))
    rcases ha with rfl | rfl <;> rcases h e List.mem_cons_self with he | he <;> rw [he] <;> decide

/-- The flags of lanes that raise none. -/
theorem foldl_flags_zero (fl : List (Nat × Flags7)) (h : ∀ e ∈ fl, e.2 = 0) : fl.foldl (fun a e => a ||| e.2) 0 = 0 := by
  induction fl with
  | nil => rfl
  | cons e r ih =>
    rw [List.foldl_cons, h e List.mem_cons_self]
    exact ih (fun x hx => h x (List.mem_cons_of_mem _ hx))

/-- The writes of an instruction count by the flags of all its lanes together. -/
theorem applyWr_flagless (s : State) (w : Wr) (fl : List (Nat × Flags7)) (hw : w.fl = []) (h : ∀ e ∈ fl, e.2 = 0) :
    applyWr s { w with fl := fl } = applyWr s w := by
  have h0 : w.flags = 0 := by rw [Wr.flags, hw]; rfl
  have h1 : ({ w with fl := fl } : Wr).flags = 0 := foldl_flags_zero fl h
  simp only [applyWr, h0, h1]
  rfl

end Sys2Proof.Machine
end

section
/-! SUPPORT. The values of the integer instructions, as the model computes them and as the statements give them (R186,
R192 to R204). -/

namespace Sys2Proof.Machine

open Sys2Proof

theorem wrap_natCast (w n : Nat) : wrap w (n : Int) = n % 2 ^ w := by
  rw [wrap, ← Int.natCast_emod, Int.toNat_natCast]

theorem wrap_of_lt {w n : Nat} (h : n < 2 ^ w) : wrap w (n : Int) = n := by
  rw [wrap_natCast, Nat.mod_eq_of_lt h]

theorem wrap_congr {w : Nat} {x y : Int} (h : x ≡ y [ZMOD (2 ^ w : Nat)]) : wrap w x = wrap w y :=
  congrArg Int.toNat h

/-- value(t, x) is x modulo 2^W (R186). -/
theorem ival_modEq (t : Ty) (x : Nat) : t.ival x ≡ x [ZMOD (2 ^ t.width : Nat)] := by
  have hmod : ((x % 2 ^ t.width : Nat) : Int) ≡ x [ZMOD (2 ^ t.width : Nat)] := by
    rw [Int.natCast_mod]
    exact Int.mod_modEq _ _
  have hsub : ((x % 2 ^ t.width : Nat) : Int) - (2 ^ t.width : Nat) ≡ x [ZMOD (2 ^ t.width : Nat)] :=
    (Int.modEq_sub_modulus_iff.mpr hmod.symm).symm
  unfold Ty.ival toSigned
  split
  · split
    · exact hmod
    · exact hsub
  · exact hmod

/-- value(t, x) lies in W bits and a sign. -/
theorem ival_bounds (t : Ty) (x : Nat) : -(2 ^ t.width : Nat) ≤ t.ival x ∧ t.ival x < (2 ^ t.width : Nat) := by
  have hlt : x % 2 ^ t.width < 2 ^ t.width := Nat.mod_lt _ (Nat.two_pow_pos _)
  unfold Ty.ival toSigned
  split
  · split <;> omega
  · omega

/-- A right shift by W or more gives the sign, as a shift by W does (R198). -/
theorem ediv_two_pow_min {w : Nat} {x : Int} (h : -(2 ^ w : Nat) ≤ x ∧ x < (2 ^ w : Nat)) (n : Nat) :
    x / (2 ^ min n w : Nat) = x >>> n := by
  rw [Int.shiftRight_eq_div_pow]
  rcases Nat.le_total n w with hn | hn
  · rw [Nat.min_eq_left hn]
  · rw [Nat.min_eq_right hn]
    have hle : ((2 ^ w : Nat) : Int) ≤ (2 ^ n : Nat) := by exact_mod_cast Nat.pow_le_pow_right (by decide) hn
    rcases lt_or_ge x 0 with hx | hx
    · rw [Int.ediv_eq_neg_one_of_neg_of_le hx (by omega), Int.ediv_eq_neg_one_of_neg_of_le hx (by omega)]
    · rw [Int.ediv_eq_zero_of_lt hx (by omega), Int.ediv_eq_zero_of_lt hx (by omega)]

theorem minInt_le_maxInt (t : Ty) : t.minInt ≤ t.maxInt := by cases t <;> decide

/-- The clamp of the model is the clamp to the range, with SAT outside it (R192, R196). -/
theorem satRes_eq_clamped (t : Ty) (x : Int) : satRes t x = clamped t x := by
  have hr := minInt_le_maxInt t
  unfold satRes clamped
  split
  · rw [min_eq_left (by omega), max_eq_right hr, if_neg (by omega)]
  · split
    · rw [min_eq_right (by omega), max_eq_left (by omega), if_neg (by omega)]
    · rw [min_eq_right (by omega), max_eq_right (by omega), if_pos (by omega)]

theorem clamped_fl (t : Ty) (x : Int) : (clamped t x).fl = 0 ∨ (clamped t x).fl = fSAT := by
  unfold clamped
  dsimp only
  split
  · exact .inl rfl
  · exact .inr rfl

/-- A source's value lies in its W bits. -/
theorem srcT_lt (s : State) (f : BitVec 10) (tc l : Nat) : srcT s f tc l < 2 ^ (Ty.ofCode tc).width :=
  Nat.mod_lt _ (Nat.two_pow_pos _)

theorem maxInt_of_unsigned {t : Ty} (ht : t.isInt = true) (hs : t.signed = false) : t.maxInt = 2 ^ t.width - 1 := by
  have hix : t ≠ .ix4 := by rintro rfl; contradiction
  simp [Ty.maxInt, hix, hs]

/-- Division and remainder (R194): a zero divisor gives the quotient with all bits 1 and the dividend as remainder, and
the least value divided by -1 itself and 0. -/
theorem wrap_idivVal {t : Ty} (ht : t.isInt = true) (rem : Bool) (x y : Int) :
    wrap t.width (idivVal t rem x y) = wrap t.width
      (if rem then (if y = 0 then x else x - x.tdiv y * y)
        else if y = 0 then 2 ^ t.width - 1 else if t.signed ∧ x = t.minInt ∧ y = -1 then x else x.tdiv y) := by
  have hrem : x - x.tdiv y * y = x.tmod y := by rw [Int.tmod_def, Int.mul_comm]
  by_cases hy : y = 0
  · cases rem
    · simp only [idivVal, hy, Bool.false_eq_true, if_false, if_true]
      cases hs : t.signed
      · simp [maxInt_of_unsigned ht hs]
      · refine wrap_congr (Int.modEq_iff_dvd.mpr ?_)
        simp
    · simp [idivVal, hy]
  · by_cases hm : t.signed ∧ x = t.minInt ∧ y = -1
    · obtain ⟨hs, rfl, rfl⟩ := hm
      cases rem <;> simp [idivVal, hs]
    · have hm' : (t.signed && x == t.minInt && y == -1) = false := by simpa [and_assoc] using hm
      simp only [idivVal, hy, hm, hm', hrem, Bool.false_eq_true, if_false]

/-- A left shift by W or more leaves no bit (R198). -/
theorem shl_value (t : Ty) (x n : Nat) :
    (if t.width ≤ n then 0 else wrap t.width ((x * 2 ^ n : Nat) : Int)) = wrap t.width (t.ival x * 2 ^ n) := by
  have hval : wrap t.width (t.ival x * 2 ^ n) = x * 2 ^ n % 2 ^ t.width := by
    rw [← wrap_natCast]
    refine wrap_congr ?_
    push_cast
    exact_mod_cast (ival_modEq t x).mul_right (2 ^ n)
  rw [hval]
  split
  · rename_i h
    exact (Nat.mod_eq_zero_of_dvd (Dvd.dvd.mul_left (Nat.pow_dvd_pow 2 h) x)).symm
  · exact wrap_natCast _ _

theorem bitAt_eq_testBit (x k : Nat) : bitAt x k = x.testBit k := by
  rw [bitAt, Nat.testBit_eq_decide_div_mod_eq, Nat.shiftRight_eq_div_pow]
  rfl

theorem popVal_eq_countP (w x : Nat) : popVal w x = (List.range w).countP (fun k => x.testBit k) := by
  rw [List.countP_eq_length_filter, popVal]
  simp only [bitAt_eq_testBit]

theorem brevVal_eq_foldl (w x : Nat) :
    brevVal w x = (List.range w).foldl (fun r k => r + if x.testBit (w - 1 - k) then 2 ^ k else 0) 0 := by
  unfold brevVal
  congr 1
  funext r k
  rw [bitAt_eq_testBit]
  split <;> rfl

/-- A bit field as the statement gives it (R200). -/
theorem bfxVal_eq (t : Ty) (x ctl : Nat) : bfxVal t x ctl =
    (let pos := min (ctl % 2 ^ 8) t.width
     let len := min (ctl / 2 ^ 8 % 2 ^ 8) t.width
     let f : Int := t.ival x / 2 ^ pos % 2 ^ len
     if t.signed ∧ 0 < len ∧ 2 ^ (len - 1) ≤ f then f - 2 ^ len else f) := by
  simp [bfxVal, and_assoc]

end Sys2Proof.Machine
end

section
/-! SUPPORT. The integer instructions lane by lane: each writes the exact result of its entry (R171, R172, R192 to R204). -/

namespace Sys2Proof.Machine

open Sys2Proof

/-! ### Results in lanes -/

/-- The writes of a result in its lanes. -/
def Result.writes (r : Result) (s : State) : Wr :=
  { wrDst r.d r.n ((r.lanes s).map (fun l => (l, (r.val s l).code))) with
    fl := (r.lanes s).map (fun l => (l, (r.val s l).fl)), cnt := r.cnt s }

/-- The effect of an instruction is the writes of a result in the lanes of R36. -/
structure Computes (i : Instr) (r : Result) : Prop where
  writes : Writes i r.writes
  lanes : ∀ s, r.lanes s = actLanes s i r.d
  width : r.n = 1 ∨ r.n = 2

/-- A ready instruction gives the result that it computes. -/
theorem Computes.gives {i : Instr} {r : Result} {s : State} (h : Computes i r) (hr : ready i s = true) : gives i s r := by
  obtain ⟨body, he, hb⟩ := h.writes.effect
  have hbegun : body (begun i s) = .done (applyWr (begun i s) (r.writes s)) := by
    rw [hb, h.writes.inputs s _ (.begun i (ready_cur hr))]
  have hflags : (r.writes s).flags = r.flags s := by rw [Result.writes, Wr.flags, Result.flags, List.foldl_map]
  have hlanes := h.lanes s
  exact gives_of i body s r (r.writes s) (begun i s).free hr (he s) hbegun rfl rfl (wrDst_rest _ _ _).1 hflags rfl h.width
    (hlanes ▸ actLanes_nodup s i r.d) (fun l hl => actLanes_lt (hlanes ▸ hl)) (fun hd => hlanes ▸ actLanes_one hd)

/-- A result in the lanes of R36, computed from an integer instruction's inputs, that raises no flag but SAT, and that one only
where the form clamps. -/
structure Exact (i : Instr) (d : BitVec 10) (n : Nat) (val : State → Nat → FRes) : Prop where
  width : n = 1 ∨ n = 2
  inputs : ∀ s t, SameInputs s t → val t = val s
  flags : ∀ s l, (val s l).fl = 0 ∨ ((val s l).fl = fSAT ∧ saturates i = true)

namespace Exact

variable {i : Instr} {d : BitVec 10} {n : Nat} {val : State → Nat → FRes}

theorem computes (h : Exact i d n val) {body : State → Act} (he : ∀ s, exec i s = core i body s)
    (hb : ∀ s, body s = .done (applyWr s ((inLanes i d n val).writes s))) : Computes i (inLanes i d n val) where
  lanes _ := rfl
  width := h.width
  writes.effect := ⟨body, he, hb⟩
  writes.inputs s t hst := by simp only [Result.writes, inLanes, hst.actLanes, h.inputs s t hst]
  writes.flags s := by
    cases hi : saturates i with
    | false =>
      refine .inl (foldl_flags_zero _ (fun e hm => ?_))
      obtain ⟨l, _, rfl⟩ := List.mem_map.mp hm
      exact (h.flags s l).resolve_right (fun hs => by simp [hi] at hs)
    | true =>
      refine (foldl_flags_sat _ 0 (.inl rfl) (fun e hm => ?_)).imp_right (fun hs => ⟨hs, rfl⟩)
      obtain ⟨l, _, rfl⟩ := List.mem_map.mp hm
      exact (h.flags s l).imp_right And.left

/-- An instruction whose body runs lane by lane without flags. -/
theorem computes_intLanes (h : Exact i d n val) {f : State → Nat → Nat}
    (he : ∀ s, exec i s = core i (fun s => intLanes i s d n (f s)) s)
    (hf : ∀ s l, f s l = (val s l).code) (hz : ∀ s l, (val s l).fl = 0) :
    Computes i (inLanes i d n val) := by
  refine h.computes he (fun s => ?_)
  obtain ⟨_, hfl, hcnt⟩ := wrDst_rest d n ((actLanes s i d).map (fun l => (l, (val s l).code)))
  have hcode : f s = fun l => (val s l).code := funext (hf s)
  have hw : (inLanes i d n val).writes s = { wrDst d n ((actLanes s i d).map (fun l => (l, (val s l).code))) with
      fl := (actLanes s i d).map (fun l => (l, (val s l).fl)) } := by
    simp only [Result.writes, inLanes, hcnt]
  rw [intLanes, wrote, hcode, hw]
  refine congrArg Act.done (applyWr_flagless s _ _ hfl (fun e hm => ?_)).symm
  obtain ⟨l, _, rfl⟩ := List.mem_map.mp hm
  exact hz s l

/-- An instruction whose body runs lane by lane with flags, without rounding. -/
theorem computes_fpLanes (h : Exact i d n val) {f : State → Nat → FRes}
    (he : ∀ s, exec i s = core i (fun s => fpLanes i s d n 0 (fun _ l => f s l)) s)
    (hf : ∀ s l, f s l = val s l) : Computes i (inLanes i d n val) := by
  refine h.computes he (fun s => ?_)
  obtain rfl : f = val := funext (fun s => funext (hf s))
  have hdraw : drawSr s 0 = s := rfl
  have hcnt : srCount s 0 = 0 := rfl
  simp only [fpLanes, hdraw, hcnt, List.map_map]
  refine finishFlags_done s _ _ _ (fun e hm => ?_)
  obtain ⟨l, _, rfl⟩ := List.mem_map.mp hm
  exact (h.flags s l).imp_right And.left

end Exact

theorem tyN_cases (tc : Nat) : tyN tc = 1 ∨ tyN tc = 2 := by
  unfold tyN
  split
  · exact .inr rfl
  · exact .inl rfl

/-- One register, or the two of a wide form. -/
theorem wide_cases (b : Bool) : (if b then 2 else 1) = 1 ∨ (if b then 2 else 1) = 2 := by cases b <;> decide

/-- A form of typed operands whose lanes raise no flag. -/
theorem computes_typed {i : Instr} {w : RWord} {f code : State → Nat → Nat}
    (he : ∀ s, exec i s = core i (fun s => intLanes i s w.d (tyN (mTc w.m)) (f s)) s)
    (hin : ∀ s t, SameInputs s t → code t = code s) (hf : ∀ s l, f s l = code s l) :
    Computes i (inLanes i w.d (tyN (mTc w.m)) (fun s l => ⟨code s l, 0⟩)) :=
  Exact.computes_intLanes ⟨tyN_cases _, fun s t h => by simp only [hin s t h], fun _ _ => .inl rfl⟩ he hf (fun _ _ => rfl)

theorem SameInputs.intOf {s t : State} (h : SameInputs s t) (w : RWord) (f : BitVec 10) (l : Nat) :
    intOf t w f l = intOf s w f l := by
  rw [Machine.intOf, Machine.intOf, h.srcT]

theorem SameInputs.bitsOf {s t : State} (h : SameInputs s t) (w : RWord) (f : BitVec 10) (l : Nat) :
    bitsOf t w f l = bitsOf s w f l := h.srcT f _ l

theorem bitsOf_lt (s : State) (w : RWord) (f : BitVec 10) (l : Nat) : bitsOf s w f l < 2 ^ widthOf w := srcT_lt s f _ l

/-- A two-operand form that clamps where m<0> says so (R192). -/
theorem computes_sat {i : Instr} {w : RWord} (op : Int → Int → Int) (he : ∀ s, exec i s = core i (satBody i w op) s)
    (hi : saturates i = mBit0 w.m) :
    Computes i (inLanes i w.d (tyN (mTc w.m)) (fun s l =>
      if mBit0 w.m then clamped (Ty.ofCode (mTc w.m)) (op (intOf s w w.a l) (intOf s w w.b l))
      else plain w (op (intOf s w w.a l) (intOf s w w.b l)))) := by
  refine Exact.computes_fpLanes ⟨tyN_cases _, fun s t h => ?_, fun s l => ?_⟩ he (fun s l => ?_)
  · simp only [h.intOf]
  · split
    · rename_i hm
      exact (clamped_fl _ _).imp_right (fun hs => ⟨hs, hi.trans hm⟩)
    · exact .inl rfl
  · rw [satRes_eq_clamped]
    rfl

/-- A bitwise form: what the operands' W bits give lies in W bits again (R197). -/
theorem computes_bitwise {i : Instr} {w : RWord} (op : Nat → Nat → Nat)
    (he : ∀ s, exec i s = core i (binBody i w (fun _ x y => ((op x y : Nat) : Int))) s)
    (hlt : ∀ x y, x < 2 ^ widthOf w → y < 2 ^ widthOf w → op x y < 2 ^ widthOf w) :
    Computes i (inLanes i w.d (tyN (mTc w.m)) (fun s l => ⟨op (bitsOf s w w.a l) (bitsOf s w w.b l), 0⟩)) :=
  computes_typed he (fun s t h => by simp only [h.bitsOf])
    (fun s l => wrap_of_lt (hlt _ _ (bitsOf_lt s w w.a l) (bitsOf_lt s w w.b l)))

theorem isInt_ofCode {c : Nat} (h : tcInt c = true) : (Ty.ofCode c).isInt = true := by
  have hc : c < 8 := by simpa [tcInt] using h
  interval_cases c <;> rfl

/-- A lawful division is of an integer type. -/
theorem isInt_of_legal_idiv {w : RWord} (h : legal (.idiv w) = true) : (Ty.ofCode (mTc w.m)).isInt = true := by
  refine isInt_ofCode ?_
  simp only [legal, uses, intUses, rUses, Bool.and_eq_true] at h
  tauto

/-! ### Every form of `integerResult` -/

/-- R171, R172, R192 to R204: the effect of a legal integer instruction is the writes of its exact result. -/
theorem computes_integerResult {i : Instr} {r : Result} (hl : legal i = true) (h : integerResult i = some r) :
    Computes i r := by
  cases i <;> cases h
  case iadd => exact computes_sat (fun x y => x + y) (fun _ => rfl) rfl
  case isub => exact computes_sat (fun x y => x - y) (fun _ => rfl) rfl
  case imul => exact computes_sat (fun x y => x * y) (fun _ => rfl) rfl
  case imulh =>
    refine computes_typed (fun _ => rfl) (fun s t h => by simp only [h.intOf]) (fun s l => ?_)
    rw [Int.shiftRight_eq_div_pow]
    rfl
  case imad => exact computes_typed (fun _ => rfl) (fun s t h => by simp only [h.intOf]) (fun s l => rfl)
  case idiv w =>
    exact computes_typed (fun _ => rfl) (fun s t h => by simp only [h.intOf])
      (fun s l => wrap_idivVal (isInt_of_legal_idiv hl) (mBit0 w.m) (intOf s w w.a l) (intOf s w w.b l))
  case imin => exact computes_typed (fun _ => rfl) (fun s t h => by simp only [h.intOf]) (fun s l => rfl)
  case imax => exact computes_typed (fun _ => rfl) (fun s t h => by simp only [h.intOf]) (fun s l => rfl)
  case isat =>
    exact Exact.computes_fpLanes ⟨tyN_cases _, fun s t h => by simp only [h.srcT],
      fun s l => (clamped_fl _ _).imp_right (fun hs => ⟨hs, rfl⟩)⟩ (fun _ => rfl) (fun s l => satRes_eq_clamped _ _)
  case and => exact computes_bitwise (fun x y => x &&& y) (fun _ => rfl) (fun x y _ hy => Nat.and_lt_two_pow x hy)
  case or => exact computes_bitwise (fun x y => x ||| y) (fun _ => rfl) (fun x y hx hy => Nat.or_lt_two_pow hx hy)
  case xor => exact computes_bitwise (fun x y => x ^^^ y) (fun _ => rfl) (fun x y hx hy => Nat.xor_lt_two_pow hx hy)
  case andn w =>
    exact computes_bitwise (fun x y => x &&& (2 ^ widthOf w - 1 - y)) (fun _ => rfl)
      (fun x y hx _ => Nat.and_le_left.trans_lt hx)
  case shl =>
    exact computes_typed (fun _ => rfl) (fun s t h => by simp only [h.intOf, h.src32]) (fun s l => shl_value _ _ _)
  case shr =>
    exact computes_typed (fun _ => rfl) (fun s t h => by simp only [h.intOf, h.src32])
      (fun s l => congrArg (wrap _) (ediv_two_pow_min (ival_bounds _ _) _))
  case fshf =>
    exact computes_typed (fun _ => rfl) (fun s t h => by simp only [h.bitsOf, h.src32]) (fun s l => (wrap_natCast _ _).symm)
  case bfx =>
    exact computes_typed (fun _ => rfl) (fun s t h => by simp only [h.intOf, h.src32])
      (fun s l => congrArg (wrap _) (bfxVal_eq _ _ _))
  case bfi => exact computes_typed (fun _ => rfl) (fun s t h => by simp only [h.bitsOf, h.src32]) (fun s l => rfl)
  case popc => exact computes_typed (fun _ => rfl) (fun s t h => by simp only [h.bitsOf]) (fun s l => popVal_eq_countP _ _)
  case clz => exact computes_typed (fun _ => rfl) (fun s t h => by simp only [h.bitsOf]) (fun s l => rfl)
  case brev => exact computes_typed (fun _ => rfl) (fun s t h => by simp only [h.bitsOf]) (fun s l => brevVal_eq_foldl _ _)
  case sel => exact computes_typed (fun _ => rfl) (fun s t h => by simp only [h.bitsOf, h.srcP]) (fun s l => rfl)
  case mov =>
    exact Exact.computes_intLanes ⟨wide_cases _, fun s t h => by simp only [h.src], fun _ _ => .inl rfl⟩ (fun _ => rfl)
      (fun s l => rfl) (fun _ _ => rfl)
  case lea =>
    exact Exact.computes_intLanes ⟨wide_cases _, fun s t h => by simp only [h.src], fun _ _ => .inl rfl⟩ (fun _ => rfl)
      (fun s l => rfl) (fun _ _ => rfl)

end Sys2Proof.Machine
end

section
/-! SUPPORT. The integer opcodes 0x20 to 0x3A (R54): their forms, and that each only writes registers. -/

namespace Sys2Proof.Machine

open Sys2Proof

/-- R203: a comparison writes its predicate in the executing lanes. -/
theorem icmp_writes (w : RWord) : ∃ wr, Writes (.icmp w) wr := by
  refine ⟨_, ⟨bodyIcmp w, fun _ => rfl, fun s => finishFlags_done s _ false _ (fun e he => ?_)⟩, fun s t h => ?_,
    fun s => .inl (foldl_flags_zero _ (fun e he => ?_))⟩
  · simp only [List.map_map, List.mem_map, Function.comp_apply] at he
    obtain ⟨l, _, rfl⟩ := he
    exact .inl rfl
  · simp only [h.exec, h.srcT]
  · simp only [List.map_map, List.mem_map, Function.comp_apply] at he
    obtain ⟨l, _, rfl⟩ := he
    rfl

/-- R205: a sum with carry writes its destination and the carries out. -/
theorem iaddc_writes (w : RWord) : ∃ wr, Writes (.iaddc w) wr := by
  refine ⟨_, ⟨bodyIaddc w, fun _ => rfl, fun s => rfl⟩, fun s t h => ?_, fun s => .inl ?_⟩
  · simp only [h.exec, h.actLanes, h.srcT, h.srcP]
  · simp only [Wr.flags, wrDst_rest, List.foldl_nil]

/-- R207: a merge writes keys or tags in its lanes. -/
theorem merge_writes (w : RWord) : ∃ wr, Writes (.merge w) wr := by
  refine ⟨_, ⟨bodyMerge w, fun _ => rfl, fun s => rfl⟩, fun s t h => ?_, fun s => .inl ?_⟩
  · simp only [h.exec, h.srcT]
  · simp only [Wr.flags, wrDst_rest, List.foldl_nil]

/-- The integer opcodes (R54): the forms of `integerResult`, and `icmp`, `iaddc` and `merge`. -/
theorem integer_forms {i : Instr} (h1 : 0x20 ≤ opcodeOf i) (h2 : opcodeOf i ≤ 0x3A) :
    (∃ r, integerResult i = some r) ∨ (∃ w, i = .icmp w) ∨ (∃ w, i = .iaddc w) ∨ ∃ w, i = .merge w := by
  -- As a Bool, so that it computes to false for every other constructor.
  have h : (decide (0x20 ≤ opcodeOf i) && decide (opcodeOf i ≤ 0x3A)) = true := by simp [h1, h2]
  cases i
  case iadd | isub | imul | imulh | imad | idiv | imin | imax | isat | and | or | xor | andn | shl | shr | fshf | bfx | bfi
      | popc | clz | brev | sel | mov | lea => exact .inl ⟨_, rfl⟩
  case icmp w => exact .inr (.inl ⟨w, rfl⟩)
  case iaddc w => exact .inr (.inr (.inl ⟨w, rfl⟩))
  case merge w => exact .inr (.inr (.inr ⟨w, rfl⟩))
  all_goals exact absurd h Bool.false_ne_true

/-- A legal integer instruction only writes registers. -/
theorem integer_writes {i : Instr} (hl : legal i = true) (h1 : 0x20 ≤ opcodeOf i) (h2 : opcodeOf i ≤ 0x3A) :
    ∃ wr, Writes i wr := by
  rcases integer_forms h1 h2 with ⟨r, hr⟩ | ⟨w, rfl⟩ | ⟨w, rfl⟩ | ⟨w, rfl⟩
  · exact ⟨_, (computes_integerResult hl hr).writes⟩
  · exact icmp_writes w
  · exact iaddc_writes w
  · exact merge_writes w

theorem ready_legal {i : Instr} {s : State} (h : ready i s = true) : legal i = true := by
  simp only [ready, Bool.and_eq_true] at h
  obtain ⟨⟨⟨_, hlaw⟩, _⟩, _⟩ := h
  exact ((lawful_iff i s).mp hlaw).1

end Sys2Proof.Machine
end

section
/-! SUPPORT. The statement about integer arithmetic, settled. -/

open Sys2Proof Sys2Proof.Machine

/-- Settles O14: an integer instruction's effect is register writes that are a function of its inputs, FPMODE not among them,
and that raise no flag but SAT; where its entry gives one result a lane, the writes are those of the exact result. -/
theorem integerRule : Obligations.IntegerRule := by
  unfold Obligations.IntegerRule
  intro i s v h1 h2 _ hr
  have hl := ready_legal hr
  obtain ⟨wr, hwr⟩ := integer_writes hl h1 h2
  exact ⟨fun r hir => (computes_integerResult hl hir).gives hr, hwr.completes_whatever_mode hr v⟩

end

section
/-! SUPPORT. Digits of an alphabet (R326 to R333): a value's encoding is the lowest digit that has it, whatever the map, and
digit j of a word packed from digits below the radix is the digit packed at j. -/

namespace Sys2Proof.Machine

open Sys2Proof

namespace Alpha

variable {a : Alpha}

/-! ### Values and their encodings, map by map (R332, R333) -/

theorem val_of_map_zero (h : a.map = 0) (g : Nat) : a.val g = g := by simp [val, h]

theorem val_of_map_one (h : a.map = 1) (g : Nat) : a.val g = (g : Int) - a.bias := by simp [val, h]

theorem val_of_map_two (h : a.map = 2) (g : Nat) : a.val g = a.tab.getD g 0 := by simp [val, h]

theorem enc_of_map_zero (h : a.map = 0) (v : Int) :
    a.enc v = if 0 ≤ v ∧ v < a.r then some v.toNat else none := by simp [enc, h]

theorem enc_of_map_one (h : a.map = 1) (v : Int) :
    a.enc v = if 0 ≤ v + a.bias ∧ v + a.bias < a.r then some (v + a.bias).toNat else none := by simp [enc, h]

theorem encRaw_of_lt {g : Nat} (h : g < a.r) : a.encRaw g = some g := if_pos h

theorem encRaw_of_le {g : Nat} (h : a.r ≤ g) : a.encRaw g = none := if_neg h.not_gt

/-! ### The encoding as a search, the same for every map (R333) -/

/-- Where digit g has the value g - b, the search finds v + b or nothing. -/
theorem find?_sub_eq (r : Nat) (b v : Int) : (List.range r).find? (fun g : Nat => (g : Int) - b == v) =
    if 0 ≤ v + b ∧ v + b < r then some (v + b).toNat else none := by
  split
  case isTrue h =>
    simp only [List.find?_range_eq_some, List.mem_range, beq_iff_eq, Bool.not_eq_true', beq_eq_false_iff_ne]
    exact ⟨by omega, by omega, fun j hj => by omega⟩
  case isFalse h =>
    simp only [List.find?_range_eq_none, Bool.not_eq_true', beq_eq_false_iff_ne]
    omega

theorem enc_eq_find? (a : Alpha) (v : Int) : a.enc v = (List.range a.r).find? (fun g => a.val g == v) := by
  obtain ⟨r, n, w, icw, map, bias, tab⟩ := a
  match map with
  | 0 => simpa [enc, val] using (find?_sub_eq r 0 v).symm
  | 1 => simpa [enc, val] using (find?_sub_eq r bias v).symm
  | _ + 2 => rfl

theorem enc_eq_some_iff {v : Int} {g : Nat} :
    a.enc v = some g ↔ g < a.r ∧ a.val g = v ∧ ∀ h, h < g → a.val h ≠ v := by
  simp only [enc_eq_find?, List.find?_range_eq_some, List.mem_range, beq_iff_eq, Bool.not_eq_true', beq_eq_false_iff_ne]
  exact and_left_comm

theorem enc_eq_none_iff {v : Int} : a.enc v = none ↔ ∀ g, g < a.r → a.val g ≠ v := by
  simp only [enc_eq_find?, List.find?_range_eq_none, Bool.not_eq_true', beq_eq_false_iff_ne]

/-! ### The neutral symbol (R332) -/

theorem neutral_of_forall_ne (h : ∀ g, g < a.r → a.val g ≠ 0) : a.neutral = 0 := by
  rw [neutral, enc_eq_none_iff.mpr h, Option.getD_none]

/-- A digit of value 0 makes the neutral symbol the encoding of 0. -/
theorem enc_zero_of_exists (h : ∃ g, g < a.r ∧ a.val g = 0) : a.enc 0 = some a.neutral := by
  obtain ⟨g, hg, hv⟩ := h
  cases he : a.enc 0 with
  | none => exact absurd hv (enc_eq_none_iff.mp he g hg)
  | some k => rw [neutral, he, Option.getD_some]

theorem neutral_lt (hr : 0 < a.r) : a.neutral < a.r := by
  by_cases h : ∃ g, g < a.r ∧ a.val g = 0
  · exact (enc_eq_some_iff.mp (enc_zero_of_exists h)).1
  · push Not at h
    rwa [neutral_of_forall_ne h]

/-! ### Packed words (R330) -/

theorem pack_eq_ofDigits (a : Alpha) (ds : List Nat) : a.pack ds = Nat.ofDigits a.r ds :=
  (Nat.ofDigits_eq_foldr a.r ds).symm

theorem digit_pack (hr : 0 < a.r) {ds : List Nat} (hds : ∀ d ∈ ds, d < a.r) {j : Nat} (hj : j < ds.length) :
    a.digit (a.pack ds) j = ds[j] := by
  rw [digit, pack_eq_ofDigits, Nat.ofDigits_div_pow_eq_ofDigits_drop j hr ds hds, Nat.ofDigits_mod_eq_head!,
    List.drop_eq_getElem_cons hj, List.head!_cons, Nat.mod_eq_of_lt (hds _ (List.getElem_mem hj))]

theorem digit_neutralWord (hr : 0 < a.r) {j : Nat} (hj : j < a.n) : a.digit a.neutralWord j = a.neutral := by
  have hds : ∀ d ∈ List.replicate a.n a.neutral, d < a.r := fun d hd => List.eq_of_mem_replicate hd ▸ neutral_lt hr
  rw [neutralWord, digit_pack hr hds (by simpa using hj), List.getElem_replicate]

end Alpha

end Sys2Proof.Machine
end

section
/-! SUPPORT. The statement about the symbols of an alphabet, settled. -/

open Sys2Proof Sys2Proof.Machine

/-- Settles O24: under every map the encoding of a value is the lowest digit that has it, which gives the table's encoding
and the neutral symbol, and the digits of a packed word are the digits packed. -/
theorem symbolValues : Obligations.SymbolValues := by
  unfold Obligations.SymbolValues
  intro a
  refine ⟨Alpha.val_of_map_zero, Alpha.val_of_map_one, Alpha.val_of_map_two,
    fun h => Alpha.enc_eq_some_iff.mp (Alpha.enc_zero_of_exists h), Alpha.neutral_of_forall_ne,
    fun hr _ hj => Alpha.digit_neutralWord (Nat.zero_lt_of_lt hr) hj, fun v h => Alpha.enc_of_map_zero h v,
    fun v h => Alpha.enc_of_map_one h v, fun v h => ?_, fun g => ⟨Alpha.encRaw_of_lt, Alpha.encRaw_of_le⟩⟩
  simp only [← Alpha.val_of_map_two h]
  exact ⟨fun g => Alpha.enc_eq_some_iff.mp, Alpha.enc_eq_none_iff.mp⟩

end
